-- ==== Sys2Proof/Word.lean ====
section
/-! DEFINITION. The plainest words of the model: bytes, line characters, text, and the names and records that commands carry as
operands. Names are the manual's (spec/00_scope.md, Names and type styles). -/

namespace Sys2Proof

/-- One byte on a line. -/
abbrev Byte := BitVec 8

/-- One character on a line. On the office line bit 8 is the ninth bit, set in an address character (R201); on the window line
bit 8 is not there and is read as nothing. -/
abbrev LineChar := BitVec 9

/-- Text as the codes of its characters; the printable ones are 0x20 to 0x7E (chapter 3, R213). -/
abbrev Text := List Nat

/-- The text a literal spells. -/
def txt (s : String) : Text := s.toList.map Char.toNat

/-- The two ports: OFP and WNP. -/
inductive Port where
  | office | window
  deriving DecidableEq, Repr

/-- The port that is not this one. -/
def Port.other : Port → Port
  | .office => .window
  | .window => .office

/-- Who sent a request frame, and how it was addressed: to this station on the office line, to the group address 31 on the
office line (R208), or on the window line. -/
inductive Sender where
  | office | group | window
  deriving DecidableEq, Repr

/-- The port on which a sender's frame arrives. -/
def Sender.port : Sender → Port
  | .office => .office
  | .group => .office
  | .window => .window

/-- The four weighing channels. -/
inductive Channel where
  | c0 | c1 | c2 | c3
  deriving DecidableEq, Repr

def Channel.num : Channel → Nat
  | .c0 => 0 | .c1 => 1 | .c2 => 2 | .c3 => 3

/-- The channel a number names, if any. -/
def Channel.ofNat? : Nat → Option Channel
  | 0 => some .c0 | 1 => some .c1 | 2 => some .c2 | 3 => some .c3 | _ => none

/-- The two bridge decks, weighed by C0 and C1. -/
inductive Bridge where
  | b0 | b1
  deriving DecidableEq, Repr

def Bridge.num : Bridge → Nat
  | .b0 => 0 | .b1 => 1

def Bridge.ofNat? : Nat → Option Bridge
  | 0 => some .b0 | 1 => some .b1 | _ => none

/-- The channel that weighs a bridge deck. -/
def Bridge.channel : Bridge → Channel
  | .b0 => .c0 | .b1 => .c1

/-- The bridge a channel weighs: C2 and C3 weigh none. -/
def Channel.bridge? : Channel → Option Bridge
  | .c0 => some .b0 | .c1 => some .b1 | _ => none

/-- The two platform channels that share a digitizer (R2). -/
inductive Platform where
  | c2 | c3
  deriving DecidableEq, Repr

def Platform.channel : Platform → Channel
  | .c2 => .c2 | .c3 => .c3

def Platform.other : Platform → Platform
  | .c2 => .c3 | .c3 => .c2

/-- The three digitizers: one for each bridge, one shared by the platforms (R1, R2). -/
inductive Digitizer where
  | bridge (b : Bridge)
  | platform
  deriving DecidableEq, Repr

inductive Side where
  | entry | exit
  deriving DecidableEq, Repr

inductive Colour where
  | red | green
  deriving DecidableEq, Repr

inductive Polarity where
  | activeLow | activeHigh
  deriving DecidableEq, Repr

/-- The function of a yard line, with the bridge, side and colour that make it a role (section 2.1). -/
inductive LineFunction where
  | beam (b : Bridge) (side : Side)
  | lamp (b : Bridge) (side : Side) (colour : Colour)
  | calSwitch
  | cashDoor
  | cabinet
  | gpIn
  | gpOut
  | unmapped
  deriving DecidableEq, Repr

/-- One entry of the line map (section 2.1). -/
structure LineEntry where
  function : LineFunction
  polarity : Polarity
  pullUp : Bool
  deriving DecidableEq, Repr

/-- What the outside drives onto a line: a low level, a high level, or nothing (R29). -/
inductive LineDrive where
  | low | high | undriven
  deriving DecidableEq, Repr

/-- Four pattern numbers in aspect-row order (section 2.3). -/
structure AspectRow where
  entryRed : Nat
  entryGreen : Nat
  exitRed : Nat
  exitGreen : Nat
  deriving DecidableEq, Repr

/-- The settings a CHANNEL SET carries (R3), as they stand in the request, before any check. -/
structure ChannelParams where
  enabled : Bool
  d : Int
  K : Int
  M : Nat
  b : Nat
  T : Nat
  A : Nat
  Rf : Nat
  deriving DecidableEq, Repr

/-- The seven payout limits (section 3.2). -/
structure Limits where
  cashLimit : Nat
  unit : Nat
  approvalLimit : Nat
  fee : Nat
  claimLapse : Nat
  takeTimeout : Nat
  tareValidity : Nat
  deriving DecidableEq, Repr

/-- The two kinds of ticket. -/
inductive TicketKind where
  | bridge | counter
  deriving DecidableEq, Repr

/-- A line's deduction mode with its figure or weight (R71). -/
inductive DeductMode where
  | grade
  | percent (tenths : Nat)
  | weight (t : Int)
  deriving DecidableEq, Repr

/-- The two forms of TARE READ (R123). -/
inductive TareSelect where
  | plate (p : Text)
  | page (start : Nat)
  deriving DecidableEq, Repr

/-- The contents a STORE LOAD gives a store that is not marked absent (R126). A kind is sent as a number, 0 NOTE or 1 COIN. -/
structure StoreContents where
  kind : Nat
  denomination : Nat
  count : Nat
  capacity : Nat
  lowThreshold : Nat
  deriving DecidableEq, Repr

/-- One mark for each of the five alert sources (section 10.3). -/
structure AlertMarks where
  cashDoor : Bool
  cabinet : Bool
  calSwitch : Bool
  retract : Bool
  dispute : Bool
  deriving DecidableEq, Repr

end Sys2Proof
end

