-- ==== Sys2Proof/Syntax.lean ====
section
/-! DEFINITION. The commands of the RZS-48: one constructor for each row of spec/opcode_table.json, in the table's order, with the
operands the rule of each row names. A request carries its sender; its other operands stand as they are in the request, before
any check of the part. -/

namespace Sys2Proof

/-- The commands. -/
inductive Instr where
  -- power, reset, samples, lines and timers
  /-- POWER_UP: whether retained memory and the settings store are found valid, and what the straps read. -/
  | powerUp (retainedValid settingsValid : Bool) (straps : Nat)
  | resetLine
  /-- DIGITIZER_SAMPLE: the digitizer, the raw count, and whether the status is OK (true) or OVERRANGE. -/
  | digitizerSample (dig : Digitizer) (raw : Int) (ok : Bool)
  | signalTimeout (ch : Channel)
  | attemptTimeout (ch : Channel)
  | inputLevelChange (line : Nat) (drive : LineDrive)
  | debouncedChange (line : Nat)
  | beamFaultTimeout (b : Bridge) (side : Side)
  | stretchTimeout (b : Bridge)
  | overrideTimeout (b : Bridge)
  | lampTick (b : Bridge) (side : Side) (colour : Colour)
  | claimLapse (ticket : Nat)
  | clockTick
  | clockStop
  | dailyRelease
  -- the cash dispenser's reports and timers
  | pieceOk
  | pieceReject
  | pickFail
  | presented
  | trayEmpty
  | takeTimeout
  | retracted (k : Nat)
  | jam
  | ready
  | dispenserAnswerTimeout
  -- the printer's reports and timer
  | lineDone
  | cutDone
  | paperLow
  | paperOut
  | paperIn
  | coverOpen
  | coverClosed
  | headHot
  | headCool
  | printerAnswerTimeout
  -- events of the two lines
  | frameCheckFailed (p : Port)
  /-- LENGTH_ERROR: the character that is no length, or that is an address character in mid-frame. -/
  | lengthError (p : Port) (c : LineChar)
  | characterError (p : Port)
  | receiverOverrun (p : Port)
  | frameGap (p : Port)
  | lineBreak (p : Port)
  | frameWhileAnswering (p : Port)
  /-- GROUP_REQUEST_DROPPED: a good group frame with this kind byte. -/
  | groupRequestDropped (kind : Nat)
  | answerSent (p : Port)
  | unknownRequest (src : Sender) (kind : Nat)
  -- general requests
  | ident (src : Sender)
  | eventsFetch (src : Sender)
  | eventsMask (src : Sender) (mask : BitVec 24)
  | linkCounters (src : Sender)
  | restart (src : Sender)
  -- weighing requests
  | channelState (src : Sender) (ch : Nat)
  | channelSet (src : Sender) (ch : Nat) (params : ChannelParams)
  | channelService (src : Sender) (ch : Nat) (enter : Bool)
  | zero (src : Sender) (ch : Nat)
  | capture (src : Sender) (ch : Nat) (ticket grade : Option Nat) (tare : Option Int)
  | captureAbort (src : Sender) (ch : Nat)
  | outcomeFetch (src : Sender) (target : Nat)
  | calibrateZero (src : Sender) (ch : Nat)
  | calibrateSpan (src : Sender) (ch : Nat) (weight : Int)
  -- deck and line requests
  | deckState (src : Sender)
  /-- LAMP PATTERN SET: bit k of `steps` is step k + 1, set for lit; the tick is in units of 10 ms. -/
  | lampPatternSet (src : Sender) (pattern : Nat) (steps : BitVec 8) (tick pause : Nat)
  | aspectSet (src : Sender) (rows : List AspectRow) (stretch : Nat)
  /-- LAMP OVERRIDE: the row and the duration to set, or none to clear. -/
  | lampOverride (src : Sender) (bridge : Nat) (setting : Option (AspectRow × Nat))
  | lineMapSet (src : Sender) (entries : List LineEntry) (beamDebounce beamFault : Nat)
  | linesRead (src : Sender)
  | lineWrite (src : Sender) (line : Nat) (on : Bool)
  -- grade and limit requests
  | gradeSet (src : Sender) (code : Nat) (name : Text) (price deduction : Nat) (restricted : Bool) (holdDays : Nat)
      (enabled : Bool)
  | gradeRead (src : Sender) (first count : Nat)
  | priceSet (src : Sender) (pairs : List (Nat × Nat))
  | limitsSet (src : Sender) (limits : Limits)
  -- tare requests
  | tareStore (src : Sender) (plate : Text) (ch : Nat) (tare : Int)
  | tareRead (src : Sender) (select : TareSelect)
  /-- TARE DELETE: one plate, or ALL (none). -/
  | tareDelete (src : Sender) (plate : Option Text)
  -- ticket requests
  | ticketOpen (src : Sender) (kind : TicketKind) (customer plate : Option Text)
  | ticketRead (src : Sender) (ticket part : Nat)
  /-- TICKET LIST: ALL (true) or LIVE. -/
  | ticketList (src : Sender) (all : Bool) (start : Nat)
  | lineGrade (src : Sender) (ticket place code : Nat)
  | lineDeduct (src : Sender) (ticket place : Nat) (mode : DeductMode)
  | lineStrike (src : Sender) (ticket place : Nat)
  | weighingStrike (src : Sender) (ticket : Nat)
  | ticketFinish (src : Sender) (ticket : Nat) (storedTare storeTare : Bool) (customer plate : Option Text)
  | ticketReopen (src : Sender) (ticket : Nat)
  | ticketSettle (src : Sender) (ticket : Nat)
  | ticketApprove (src : Sender) (ticket : Nat)
  | ticketClaim (src : Sender) (ticket : Nat)
  | ticketRelease (src : Sender) (ticket : Nat)
  | ticketVoid (src : Sender) (ticket : Nat)
  | ticketResolve (src : Sender) (ticket handed : Nat)
  -- cash requests
  /-- STORE LOAD: the contents, or the mark absent (none). -/
  | storeLoad (src : Sender) (store : Nat) (load : Option StoreContents)
  | storeEnable (src : Sender) (store : Nat) (enable : Bool)
  | storeRead (src : Sender)
  | payoutStart (src : Sender) (ticket : Nat) (acceptPartial : Bool)
  | payoutCancel (src : Sender)
  | retractLogRead (src : Sender) (start : Nat)
  | retractBinEmpty (src : Sender)
  | dispenserClear (src : Sender)
  -- printing requests
  /-- RECEIPT PRINT: the form as a number, 0 SLIP or 1 COPY. -/
  | receiptPrint (src : Sender) (ticket form : Nat)
  | printCancel (src : Sender) (job : Nat)
  | printerState (src : Sender) (part : Nat)
  | headerSet (src : Sender) (h1 h2 h3 : Text) (autoBridge autoCounter : Bool)
  -- clock requests
  | clockSet (src : Sender) (year month day hour minute second : Nat)
  | clockRead (src : Sender)
  | releaseHourSet (src : Sender) (hour : Nat)
  -- alert requests
  | alertRead (src : Sender)
  | alertSet (src : Sender) (globalEnable : Bool) (enables : AlertMarks)
  /-- ALERT CLEAR: ALL, or the sources named. -/
  | alertClear (src : Sender) (all : Bool) (named : AlertMarks)
  -- the receiver and the power supply
  | characterArriving (p : Port) (c : LineChar)
  | mainPowerLoss
  deriving DecidableEq, Repr

end Sys2Proof
end

