-- ==== Sys2Proof/Decode.lean ====
section
/-! DEFINITION. The commands that words of spec/opcode_table.json spell. The table gives no bits to any of its rows: a request is
spelt by a frame on a line, which `Machine/Wire.lean` and `Machine/Links.lean` read, and the other rows are events. -/

namespace Sys2Proof

/-- The command a word spells by the table's bits: the table gives bits to no row, so no word spells one. -/
def decodeTableWord (_nbits _w : Nat) : Option Instr := none

end Sys2Proof
end

