-- ==== Sys2Proof/Config.lean ====
section
/-! DEFINITION. What an implementation fixes and the spec does not: free constants, with no body, so that nothing can be proved of
their values. Log entries 4, 7 and 8. -/

namespace Sys2Proof.Config

/-- Which of the 255 firmware levels this part has (R210 gives the range 1 to 255 only). -/
opaque firmwareChoice : Fin 255

/-- The firmware level IDENT answers: 1 to 255 (R210). -/
def firmwareLevel : Nat := firmwareChoice.val + 1

/-- The level of an input line that nothing drives and whose pull-up is off (R29 gives the level of a driven line, and of an
undriven one with pull-up on): true for high. -/
opaque floatingLevel : (line : Nat) → Bool

/-- Whether a store whose last piece is rejected at its third reject in a row enters FAULT (true) or EMPTY: R137 states both for
the one report. -/
opaque lastRejectFaults : Bool

end Sys2Proof.Config
end

