-- ==== Sys2Proof/Machine/Arith.lean ====
section
/-! DEFINITION. The rounding terms of spec/00_scope.md (Arithmetic), and decimal digits. All arithmetic is exact on integers; each
function below is the one rounding its rule names. -/

namespace Sys2Proof.Machine

/-- Rounded to nearest, ties away from zero: the quotient n / d, d above 0. -/
def roundAway (n : Int) (d : Nat) : Int :=
  if n < 0 then -(((2 * n.natAbs + d) / (2 * d) : Nat) : Int) else (((2 * n.natAbs + d) / (2 * d) : Nat) : Int)

/-- Round half up: the quotient n / d to the nearest integer, a tie to the larger, d above 0. -/
def roundHalfUp (n : Int) (d : Nat) : Int := (2 * n + d) / (2 * d)

/-- Truncated toward zero. -/
def truncate (n : Int) (d : Nat) : Int := n.tdiv d

/-- The largest multiple of u not above n (floor). -/
def floorMultiple (n u : Nat) : Nat := n / u * u

/-- The nearest multiple of u, a tie upward. -/
def nearestMultiple (n u : Nat) : Nat := (2 * n + u) / (2 * u) * u

/-- One more, stopping at the top. -/
def saturating (n top : Nat) : Nat := if n < top then n + 1 else top

/-- One more, from the top round to the bottom. -/
def wrapping (n bottom top : Nat) : Nat := if n < top then n + 1 else bottom

/-- n within lo..hi, replaced by the nearest end when outside. -/
def clamp (n lo hi : Nat) : Nat := if n < lo then lo else if hi < n then hi else n

/-- Decimal digits, most significant first, put before `acc`; `fuel` bounds their number. -/
def digitsOnto : (fuel n : Nat) → (acc : Text) → Text
  | 0, _, acc => acc
  | fuel + 1, n, acc => if n < 10 then (48 + n) :: acc else digitsOnto fuel (n / 10) ((48 + n % 10) :: acc)

/-- A number in decimal. -/
def decimal (n : Nat) : Text := digitsOnto 20 n []

/-- A number in decimal, with zeros before it up to a width. -/
def decimalWidth (width n : Nat) : Text :=
  let t := decimal n
  List.replicate (width - t.length) 48 ++ t

/-- The digits of a number with a thousands separator, read from the least significant digit. -/
def separated : List Nat → (place : Nat) → List Nat
  | [], _ => []
  | c :: rest, place => (if place ≠ 0 ∧ place % 3 = 0 then [44, c] else [c]) ++ separated rest (place + 1)

/-- A number in decimal with a thousands separator. -/
def thousands (n : Nat) : Text := (separated (decimal n).reverse 0).reverse

/-- The sum of a list of integers. -/
def sumInt (l : List Int) : Int := l.foldl (· + ·) 0

/-- The largest less the smallest of a list, 0 when it is empty. -/
def spread : List Int → Int
  | [] => 0
  | x :: rest => rest.foldl max x - rest.foldl min x

/-- Keep the last n of a list. -/
def keepLast {α : Type} (n : Nat) (l : List α) : List α := l.drop (l.length - n)

end Sys2Proof.Machine
end

