-- ==== Sys2Proof/Machine/Records.lean ====
section
/-! DEFINITION. The records of the state: plain data, one structure for each record the manual describes. -/

namespace Sys2Proof.Machine

/-! Time -/

/-- A calendar date. -/
structure Date where
  year : Nat
  month : Nat
  day : Nat
  deriving DecidableEq, Repr

/-- A calendar value (R179). -/
structure DateTime where
  year : Nat
  month : Nat
  day : Nat
  hour : Nat
  minute : Nat
  second : Nat
  deriving DecidableEq, Repr

/-- A stamp: the calendar value and the clock-valid flag as they stood (R180). -/
structure Stamp where
  time : DateTime
  valid : Bool
  deriving DecidableEq, Repr

/-- A running timer: the time it was set to, in milliseconds, and the count of elapsed seconds at which it started (log 2, 3). -/
structure Timer where
  ms : Nat
  since : Nat
  deriving DecidableEq, Repr

/-! Answers (R205, R213) -/

/-- Status and refusal codes of section 11.7. -/
inductive Status where
  | done | started | unknownRequest | badParam | wrongPort | wrongState | unitBusy | outcomeUnread | noOperation | wrongChannel
  | position | notStable | zeroRange | spanRange | calLocked | noTicket | ticketState | tableFull | listFull | noDrop | noTare
  | lineUngraded | gradeDisabled | noCustomer | clockInvalid | amountLimit | needsApproval | held | claimedElsewhere | claimHeld
  | notClaimed | cannotMake | retractFull | doorOpen | tooLate | queueFull
  deriving DecidableEq, Repr

/-- One field of an answer, with the encoding R213 gives its width: unsigned numbers of 1 to 4 bytes, a signed number of 4 bytes,
a text, a stamp, a date. -/
inductive Field where
  | u8 (n : Nat)
  | u16 (n : Nat)
  | u24 (n : Nat)
  | u32 (n : Nat)
  | i32 (z : Int)
  | text (t : Text)
  | stamp (s : Stamp)
  deriving DecidableEq, Repr

/-- An answer being sent: the kind byte it repeats, its status, the attention summary it carries and its data (R205). -/
structure Answer where
  kind : Nat
  status : Status
  summary : BitVec 8
  data : List Field
  deriving DecidableEq, Repr

/-- What a request's own rule answers, before the port adds kind and summary. -/
structure Reply where
  status : Status
  data : List Field
  deriving DecidableEq, Repr

/-! Links (chapter 11) -/

/-- The receiver of a port (R203), with the lead character kept, the length expected, the bytes kept and the first check byte. -/
inductive Receiver where
  | hunting
  | length (lead : LineChar)
  | body (lead : LineChar) (need : Nat) (kept : List Byte)
  | check (lead : LineChar) (kept : List Byte) (first : Option Byte)
  deriving DecidableEq, Repr

/-- The seven error counters of a port (R204). -/
structure Counters where
  check : Nat
  char : Nat
  overrun : Nat
  gap : Nat
  length : Nat
  break_ : Nat
  groupDropped : Nat
  deriving DecidableEq, Repr

/-- A port: its receiver, its request cycle (the answer being sent while ANSWERING, none while IDLE) and its counters. -/
structure PortState where
  rx : Receiver
  answer : Option Answer
  counters : Counters
  deriving DecidableEq, Repr

/-! Event unit (chapter 10) -/

/-- The 23 event flags (R190). -/
inductive EventFlag where
  | captureEnd (ch : Channel)
  | deck (b : Bridge)
  | channel (ch : Channel)
  | claimLapsed | holdRelease
  | payoutEnd | cashLow | cashFault
  | printEnd | printer | paperLow
  | clock | retainLost | settingsLost
  | alert | lineChange
  deriving DecidableEq, Repr

/-- A port's latched set and mask, in the bit order of section 11.7. -/
structure EventSet where
  latched : BitVec 24
  mask : BitVec 24
  deriving DecidableEq, Repr

/-- The five alert sources (R195). -/
inductive AlertSource where
  | cashDoor | cabinet | calSwitch | retract | dispute
  deriving DecidableEq, Repr

/-- An alert source's latch, with the stamp of latching, and its enable. -/
structure AlertState where
  latch : Option Stamp
  enabled : Bool
  deriving DecidableEq, Repr

/-- The alert states of the five sources and the global enable. -/
structure Alerts where
  cashDoor : AlertState
  cabinet : AlertState
  calSwitch : AlertState
  retract : AlertState
  dispute : AlertState
  globalEnable : Bool
  deriving DecidableEq, Repr

structure Evu where
  office : EventSet
  window : EventSet
  alerts : Alerts
  deriving DecidableEq, Repr

/-- The levels of the two outputs of the event unit (R194, R196). -/
structure Outputs where
  attention : Bool
  yardAlert : Bool
  deriving DecidableEq, Repr

/-! Calendar unit (chapter 9) -/

structure Clu where
  now : DateTime
  valid : Bool
  releaseHour : Nat
  deriving DecidableEq, Repr

/-! Weighing channels (chapter 1) -/

inductive ChannelSt where
  | off | starting | active | service | fault
  deriving DecidableEq, Repr

inductive Signal where
  | good | lost
  deriving DecidableEq, Repr

/-- A live or captured weight as reported (R5). -/
inductive Report where
  | absent
  | weight (t : Int)
  | over
  | under
  deriving DecidableEq, Repr

/-- One good sample of a window: its raw count and the fine weight it had when it arrived (R6). -/
structure Sample where
  raw : Int
  fine : Int
  deriving DecidableEq, Repr

/-- The settings of a channel in the settings store (section 1.2). -/
structure ChannelSettings where
  enabled : Bool
  calibrated : Bool
  zCal : Int
  G : Nat
  d : Nat
  K : Nat
  M : Nat
  b : Nat
  T : Nat
  A : Nat
  Rf : Nat
  calCounter : Nat
  deriving DecidableEq, Repr

/-- A ticket as a capture or a print job names it: its number and the opening count its record carried. -/
structure TicketRef where
  number : Nat
  opening : Nat
  deriving DecidableEq, Repr

/-- The capture in flight (section 1.8). -/
structure Capture where
  port : Port
  serial : Nat
  ticket : Option TicketRef
  grade : Option Nat
  tare : Int
  attempt : Nat
  attemptTimer : Timer
  samples : List Int
  startedAt : Stamp
  deriving DecidableEq, Repr

inductive CaptureEnd where
  | captured | capturedCoarse | unstable | position | overload | underload | signal | aborted
  deriving DecidableEq, Repr

/-- What the ticket table returns for a weighing handed over (R67). -/
inductive Application where
  | applied | notBound | ticketGone | ticketState | listFull | noDrop
  deriving DecidableEq, Repr

/-- A capture outcome record (R25). -/
structure CaptureOutcome where
  channel : Channel
  serial : Nat
  outcome : CaptureEnd
  weight : Option Int
  fineAttempts : Nat
  coarseAttempts : Nat
  time : Stamp
  application : Option Application
  ticket : Option Nat
  deriving DecidableEq, Repr

/-- The zero-tracking block (R13). -/
structure ZeroBlock where
  samples : List Sample
  disqualified : Bool
  deriving DecidableEq, Repr

/-- A weighing channel. -/
structure ChannelState where
  set : ChannelSettings
  z : Int
  drift : Bool
  st : ChannelSt
  signal : Signal
  signalTimer : Option Timer
  goodCount : Nat
  window : List Sample
  stable : Bool
  live : Report
  fine : Option Int
  occupied : Bool
  block : ZeroBlock
  capture : Option Capture
  slot : Option (Port × CaptureOutcome)
  serial : Nat
  deriving DecidableEq, Repr

structure Wch where
  c0 : ChannelState
  c1 : ChannelState
  c2 : ChannelState
  c3 : ChannelState
  nextPlatform : Platform
  deriving DecidableEq, Repr

/-! Deck position and signal unit (chapter 2) -/

/-- A yard line: its map entry, what the outside drives, its debounced state (true: active), the debounce in progress and its
GP_OUT output state. -/
structure YardLine where
  entry : LineEntry
  drive : LineDrive
  debounced : Bool
  debounce : Option Timer
  out : Bool
  deriving DecidableEq, Repr

/-- A lamp pattern: bit k of `steps` is step k + 1; the tick is in units of 10 ms (R40, R41). -/
structure Pattern where
  steps : BitVec 8
  tick : Nat
  pause : Nat
  deriving DecidableEq, Repr

/-- The aspect table: one row for each lamp view. -/
structure AspectTable where
  empty : AspectRow
  entering : AspectRow
  onDeck : AspectRow
  capturing : AspectRow
  captured : AspectRow
  leaving : AspectRow
  fault : AspectRow
  deriving DecidableEq, Repr

inductive Position where
  | empty | entering | onDeck | leaving | fault
  deriving DecidableEq, Repr

inductive LampView where
  | empty | entering | onDeck | capturing | captured | leaving | fault
  deriving DecidableEq, Repr

/-- A lamp override in force; without a timer it lasts until cleared (R43). -/
structure Override where
  row : AspectRow
  timer : Option Timer
  deriving DecidableEq, Repr

structure BridgeState where
  pos : Position
  entryFault : Option Timer
  exitFault : Option Timer
  stretch : Option Timer
  captured : Bool
  override : Option Override
  deriving DecidableEq, Repr

structure Dsu where
  lines : List YardLine
  beamDebounce : Nat
  beamFault : Nat
  patterns : List Pattern
  aspects : AspectTable
  stretchTime : Nat
  bridge0 : BridgeState
  bridge1 : BridgeState
  deriving DecidableEq, Repr

/-- A lamp role running its pattern: the pattern number, the step it shows (1 to 8), and the ticks left of the pause that holds
step 8, 0 outside a pause (R40). -/
structure LampRun where
  pattern : Nat
  step : Nat
  pauseLeft : Nat
  deriving DecidableEq, Repr

/-- The four lamp roles of a bridge. -/
structure LampBank where
  entryRed : LampRun
  entryGreen : LampRun
  exitRed : LampRun
  exitGreen : LampRun
  deriving DecidableEq, Repr

structure Lamps where
  bridge0 : LampBank
  bridge1 : LampBank
  deriving DecidableEq, Repr

/-! Grade table (chapter 3) -/

structure Grade where
  name : Text
  price : Nat
  deduction : Nat
  restricted : Bool
  holdDays : Nat
  enabled : Bool
  deriving DecidableEq, Repr

structure Grt where
  grades : List Grade
  version : Nat
  limits : Limits
  deriving DecidableEq, Repr

/-! Ticket table (chapter 4) -/

inductive TicketSt where
  | opened | weighing | complete | settled | held | claimed | paying | disputed | paid | closed | void
  deriving DecidableEq, Repr

/-- A weighing record, and what a channel hands over at a capture's completion (R24, section 4.1). -/
structure Weighing where
  channel : Channel
  weight : Int
  division : Nat
  calCounter : Nat
  serial : Nat
  time : Stamp
  coarse : Bool
  deriving DecidableEq, Repr

inductive TareSource where
  | weighed | container | stored
  deriving DecidableEq, Repr

/-- The capture that gave a CONTAINER line (R69). -/
structure CaptureMark where
  channel : Channel
  calCounter : Nat
  serial : Nat
  time : Stamp
  deriving DecidableEq, Repr

/-- The settled figures of a line (R109). -/
structure LineFigures where
  figure : Option Nat
  deduction : Int
  paid : Int
  price : Nat
  amount : Nat
  restricted : Bool
  deriving DecidableEq, Repr

structure TicketLine where
  grade : Option Nat
  gross : Int
  tare : Int
  source : TareSource
  net : Int
  division : Nat
  mode : DeductMode
  coarse : Bool
  capture : Option CaptureMark
  figures : Option LineFigures
  deriving DecidableEq, Repr

structure Claim where
  port : Port
  granted : Stamp
  deriving DecidableEq, Repr

structure Settlement where
  version : Nat
  fee : Nat
  payable : Nat
  cash : Nat
  remainder : Nat
  rounding : Int
  unit : Nat
  cashLimit : Nat
  holdUntil : Option Date
  deriving DecidableEq, Repr

/-- Payout outcome codes (R152), with INTERRUPTED for a ticket's last outcome (section 4.1). -/
inductive PayoutEnd where
  | paid | paidShort | retracted | retractedPartial | jammed | cancelled | mechFault | interrupted
  deriving DecidableEq, Repr

structure PayoutRecord where
  planned : Nat
  plannedPieces : List Nat
  pickedPieces : Nat
  pickedAmount : Nat
  presentedAmount : Nat
  presentedPieces : Nat
  paid : Nat
  shortfall : Nat
  attempts : Nat
  last : Option PayoutEnd
  deriving DecidableEq, Repr

structure Owed where
  slip : Nat
  copies : Nat
  notice : Nat
  since : Option Stamp
  deriving DecidableEq, Repr

/-- A ticket record (section 4.1), with the place it fills and its lapse timer. -/
structure Ticket where
  place : Nat
  number : Nat
  series : Nat
  opening : Nat
  kind : TicketKind
  st : TicketSt
  openedAt : Stamp
  closedAt : Option Stamp
  customer : Option Text
  plate : Option Text
  weighings : List Weighing
  lines : List TicketLine
  approved : Bool
  needsApproval : Bool
  claim : Option Claim
  lapse : Option Timer
  settlement : Option Settlement
  payout : Option PayoutRecord
  owed : Owed
  reprints : Nat
  receiptCancelled : Bool
  revision : Nat
  deriving DecidableEq, Repr

/-- The ticket table: the records in opening order, the numbers of the spent ones in the order of spending, and the counters. -/
structure Tkt where
  tickets : List Ticket
  spent : List Nat
  counter : Nat
  opening : Nat
  series : Nat
  deriving DecidableEq, Repr

/-! Vehicle tare register (chapter 6) -/

structure TareEntry where
  plate : Text
  tare : Int
  channel : Bridge
  division : Nat
  storedAt : Stamp
  lastUsedAt : Stamp
  uses : Nat
  deriving DecidableEq, Repr

/-! Payout unit (chapter 7) -/

inductive StoreKind where
  | note | coin
  deriving DecidableEq, Repr

inductive StoreSt where
  | enabled | disabled | empty | fault | absent | uncounted
  deriving DecidableEq, Repr

structure Store where
  kind : Option StoreKind
  denomination : Option Nat
  count : Nat
  capacity : Nat
  lowThreshold : Nat
  st : StoreSt
  loaded : Nat
  picked : Nat
  rejected : Nat
  writtenOff : Nat
  rejectRun : Nat
  deriving DecidableEq, Repr

inductive DispenserSt where
  | idle | picking | presenting | waiting | retracting | recovering | fault | offline | doorOpen
  deriving DecidableEq, Repr

/-- The command outstanding to the dispenser (section 7.3). -/
inductive DispenserCommand where
  | pick (store : Nat)
  | present
  | retract
  | reset
  deriving DecidableEq, Repr

/-- The payout in flight (R135): `todo` is what is still to be picked, in plan order; `presented` says that the bundle reached
the tray. -/
structure Payout where
  ticket : Nat
  port : Port
  planned : Nat
  plannedPieces : List Nat
  todo : List (Nat × Nat)
  picked : List Nat
  pickedAmount : Nat
  presented : Bool
  cancelled : Bool
  deriving DecidableEq, Repr

/-- A payout outcome record (R152). -/
structure PayoutOutcome where
  ticket : Nat
  outcome : PayoutEnd
  planned : Nat
  pickedAmount : Nat
  pickedPieces : Nat
  presentedAmount : Nat
  presentedPieces : Nat
  paid : Nat
  pieces : List Nat
  shortfall : Nat
  time : Stamp
  deriving DecidableEq, Repr

inductive RetractCause where
  | timeout | jam | cancel | recovery
  deriving DecidableEq, Repr

/-- A retract record (R144). -/
structure RetractRecord where
  ticket : Option Nat
  cause : RetractCause
  pieces : Nat
  amount : Nat
  perStore : List Nat
  counted : Nat
  excess : Nat
  known : Bool
  time : Stamp
  deriving DecidableEq, Repr

/-- The bundle of a payout that a reset interrupted (R154). -/
structure Bundle where
  ticket : Nat
  perStore : List Nat
  amount : Nat
  reachedTray : Bool
  deriving DecidableEq, Repr

/-- A recovery at reset, not yet ended: the interrupted payout's bundle, if one was in flight. -/
structure Recovery where
  interrupted : Option Bundle
  deriving DecidableEq, Repr

structure Pyu where
  stores : List Store
  disp : DispenserSt
  remembered : DispenserSt
  doorPending : Bool
  command : Option DispenserCommand
  takeTimer : Option Timer
  payout : Option Payout
  recovery : Option Recovery
  slot : Option (Port × PayoutOutcome)
  log : List RetractRecord
  bin : Nat
  deriving DecidableEq, Repr

/-! Receipt print unit (chapter 8) -/

inductive Paper where
  | loaded | low | out
  deriving DecidableEq, Repr

inductive Cover where
  | closed | opened
  deriving DecidableEq, Repr

inductive Head where
  | cool | hot
  deriving DecidableEq, Repr

/-- The printer state (R159). -/
inductive PrinterSt where
  | offline | stalled | paused | busy | ready
  deriving DecidableEq, Repr

inductive PrinterCommand where
  | line (t : Text)
  | cut
  deriving DecidableEq, Repr

/-- The cut of a cancelled copy (R169): none, to be given after the answer of the outstanding LINE, or outstanding. -/
inductive CancelCut where
  | none | afterLine | cutting
  deriving DecidableEq, Repr

inductive JobKind where
  | weighSlip | payout | voidNotice | copy
  deriving DecidableEq, Repr

inductive CopyLabel where
  | customer | yard
  | copy (n : Nat)
  deriving DecidableEq, Repr

inductive JobSource where
  | auto
  | port (p : Port)
  deriving DecidableEq, Repr

inductive JobSt where
  | queued | printing | paused | stalled
  deriving DecidableEq, Repr

/-- A print job (section 8.2). `label` is absent for a COPY job until its first start (R163); `marker` says that the marker line
of a restart is still to be printed (R164). -/
structure Job where
  id : Nat
  ticket : TicketRef
  kind : JobKind
  label : Option CopyLabel
  source : JobSource
  st : JobSt
  started : Bool
  serial : Option Nat
  orphaned : Bool
  content : List Text
  next : Nat
  restart : Bool
  marker : Bool
  deriving DecidableEq, Repr

inductive JobEnd where
  | cut | cancelled | gone | withdrawn
  deriving DecidableEq, Repr

structure EndedJob where
  id : Nat
  ticket : Nat
  kind : JobKind
  label : Option CopyLabel
  source : JobSource
  serial : Option Nat
  ending : JobEnd
  deriving DecidableEq, Repr

structure Rpu where
  paper : Paper
  cover : Cover
  head : Head
  offline : Bool
  command : Option PrinterCommand
  cancelCut : CancelCut
  queue : List Job
  nextId : Nat
  ended : List EndedJob
  serial : Nat
  header1 : Text
  header2 : Text
  header3 : Text
  autoBridge : Bool
  autoCounter : Bool
  deriving DecidableEq, Repr

end Sys2Proof.Machine
end

