-- ==== Sys2Proof/Machine/Defaults.lean ====
section
/-! DEFINITION. The default settings (each chapter's table), and the working state a block starts with after a reset. -/

namespace Sys2Proof.Machine

/-- 2000-01-01 00:00:00, where the calendar starts after a loss of retained memory (R188). -/
def epoch : DateTime := ⟨2000, 1, 1, 0, 0, 0⟩

/-- 2099-12-31 23:59:59, the last value of the calendar (R179). -/
def lastSecond : DateTime := ⟨2099, 12, 31, 23, 59, 59⟩

/-- Channel settings after a settings-store failure (section 1.2, R28). -/
def defaultChannelSettings : ChannelSettings :=
  { enabled := false, calibrated := false, zCal := 0, G := 65536, d := 10, K := 10000, M := 16, b := 1, T := 20, A := 2, Rf := 4,
    calCounter := 0 }

def emptyBlock : ZeroBlock := ⟨[], false⟩

/-- A channel in OFF with nothing in its working state (R26 to R28). -/
def idleChannel (set : ChannelSettings) (z : Int) (serial : Nat) : ChannelState :=
  { set := set, z := z, drift := false, st := .off, signal := .good, signalTimer := none, goodCount := 0, window := [],
    stable := false, live := .absent, fine := none, occupied := false, block := emptyBlock, capture := none, slot := none,
    serial := serial }

/-- The default line map (R46). The table gives the LAMP lines L4 to L11 no pull-up, which is for inputs: they hold it off (log 18). -/
def defaultLineMap : List LineEntry :=
  [ ⟨.beam .b0 .entry, .activeLow, true⟩, ⟨.beam .b0 .exit, .activeLow, true⟩,
    ⟨.beam .b1 .entry, .activeLow, true⟩, ⟨.beam .b1 .exit, .activeLow, true⟩,
    ⟨.lamp .b0 .entry .red, .activeHigh, false⟩, ⟨.lamp .b0 .entry .green, .activeHigh, false⟩,
    ⟨.lamp .b0 .exit .red, .activeHigh, false⟩, ⟨.lamp .b0 .exit .green, .activeHigh, false⟩,
    ⟨.lamp .b1 .entry .red, .activeHigh, false⟩, ⟨.lamp .b1 .entry .green, .activeHigh, false⟩,
    ⟨.lamp .b1 .exit .red, .activeHigh, false⟩, ⟨.lamp .b1 .exit .green, .activeHigh, false⟩,
    ⟨.calSwitch, .activeLow, true⟩, ⟨.cashDoor, .activeLow, true⟩, ⟨.cabinet, .activeLow, true⟩, ⟨.gpIn, .activeLow, true⟩ ]

/-- The eight patterns: 0 dark and 1 lit, fixed, and the defaults of 2 to 7 (section 2.3). Patterns 0 and 1 have no steps, tick or pause
in the manual; the table shows 8 equal steps, 100 ms and 0 for them (log 18). -/
def defaultPatterns : List Pattern :=
  [ ⟨0b00000000, 10, 0⟩, ⟨0b11111111, 10, 0⟩, ⟨0b00001111, 10, 0⟩, ⟨0b01010101, 10, 0⟩, ⟨0b00000101, 10, 4⟩, ⟨0b00000001, 25, 0⟩,
    ⟨0b00000000, 10, 0⟩, ⟨0b00000000, 10, 0⟩ ]

/-- The default aspect rows (section 2.3). -/
def defaultAspects : AspectTable :=
  { empty := ⟨0, 1, 1, 0⟩, entering := ⟨1, 0, 1, 0⟩, onDeck := ⟨1, 0, 1, 0⟩, capturing := ⟨1, 0, 2, 0⟩, captured := ⟨1, 0, 0, 1⟩,
    leaving := ⟨1, 0, 0, 1⟩, fault := ⟨3, 0, 3, 0⟩ }

def defaultBeamDebounce : Nat := 50
def defaultBeamFault : Nat := 120
def defaultStretch : Nat := 500

/-- A bridge as it starts after a reset, before its beams are read (R45). -/
def idleBridge : BridgeState :=
  { pos := .empty, entryFault := none, exitFault := none, stretch := none, captured := false, override := none }

/-- The name GRADE nn of a grade code (R60). -/
def defaultGradeName (code : Nat) : Text := txt "GRADE " ++ [48 + code / 10, 48 + code % 10]

def defaultGrade (code : Nat) : Grade :=
  { name := defaultGradeName code, price := 0, deduction := 0, restricted := false, holdDays := 0, enabled := false }

/-- The 64 default entries, codes 1 to 64 (R60). -/
def defaultGrades : List Grade := (List.range 64).map fun i => defaultGrade (i + 1)

/-- The default payout limits (section 3.2). -/
def defaultLimits : Limits := ⟨100000, 5, 200000, 0, 120, 45, 90⟩

def defaultReleaseHour : Nat := 6

/-- A store after a loss of retained memory (R155). -/
def uncountedStore : Store :=
  { kind := none, denomination := none, count := 0, capacity := 0, lowThreshold := 0, st := .uncounted, loaded := 0, picked := 0,
    rejected := 0, writtenOff := 0, rejectRun := 0 }

def noCounters : Counters := ⟨0, 0, 0, 0, 0, 0, 0⟩

/-- A port after every reset (R212). -/
def idlePort : PortState := ⟨.hunting, none, noCounters⟩

/-- A lamp role that starts a pattern at step 1 (R40). -/
def LampRun.begin (pattern : Nat) : LampRun := ⟨pattern, 1, 0⟩

/-- The four lamps of a bridge starting the patterns of a row. -/
def LampBank.begin (row : AspectRow) : LampBank :=
  ⟨.begin row.entryRed, .begin row.entryGreen, .begin row.exitRed, .begin row.exitGreen⟩

/-- The printer and its queue after a reset (R176), with what the settings store and retained memory keep. -/
def idlePrinter (serial : Nat) (h1 h2 h3 : Text) (autoBridge autoCounter : Bool) : Rpu :=
  { paper := .loaded, cover := .closed, head := .cool, offline := false, command := none, cancelCut := .none, queue := [],
    nextId := 1, ended := [], serial := serial, header1 := h1, header2 := h2, header3 := h3, autoBridge := autoBridge,
    autoCounter := autoCounter }

end Sys2Proof.Machine
end

