-- ==== Sys2Proof/Machine/Dates.lean ====
section
/-! DEFINITION. Calendar values and date arithmetic (R179, R187). -/

namespace Sys2Proof.Machine

/-- A year divisible by 4 is a leap year (R179; the range is 2000 to 2099). -/
def isLeap (y : Nat) : Bool := y % 4 == 0

/-- The days of a month (R179). -/
def monthLength (y m : Nat) : Nat :=
  if m = 2 then (if isLeap y then 29 else 28) else if m = 4 ∨ m = 6 ∨ m = 9 ∨ m = 11 then 30 else 31

def DateTime.date (t : DateTime) : Date := ⟨t.year, t.month, t.day⟩

def Date.atMidnight (d : Date) : DateTime := ⟨d.year, d.month, d.day, 0, 0, 0⟩

/-- A date of the calendar's range. -/
def Date.legal (d : Date) : Bool :=
  decide (2000 ≤ d.year ∧ d.year ≤ 2099 ∧ 1 ≤ d.month ∧ d.month ≤ 12 ∧ 1 ≤ d.day ∧ d.day ≤ monthLength d.year d.month)

/-- A calendar value of R179. -/
def DateTime.legal (t : DateTime) : Bool := t.date.legal && decide (t.hour ≤ 23 ∧ t.minute ≤ 59 ∧ t.second ≤ 59)

/-- The next date in the ordinary way; after 2099-12-31 the date is held (R187). -/
def Date.next (d : Date) : Date :=
  if d = ⟨2099, 12, 31⟩ then d
  else if d.day < monthLength d.year d.month then ⟨d.year, d.month, d.day + 1⟩
  else if d.month < 12 then ⟨d.year, d.month + 1, 1⟩
  else ⟨d.year + 1, 1, 1⟩

/-- The date before; before 2000-01-01 the date is held. -/
def Date.previous (d : Date) : Date :=
  if d = ⟨2000, 1, 1⟩ then d
  else if 1 < d.day then ⟨d.year, d.month, d.day - 1⟩
  else if 1 < d.month then ⟨d.year, d.month - 1, monthLength d.year (d.month - 1)⟩
  else ⟨d.year - 1, 12, 31⟩

/-- A date some days later, held at 2099-12-31 (R108, R187). -/
def Date.addDays (d : Date) : Nat → Date
  | 0 => d
  | n + 1 => (d.addDays n).next

/-- The days of a year before the first of a month. -/
def daysBefore (y : Nat) : (m : Nat) → Nat
  | 0 => 0
  | 1 => 0
  | m + 2 => daysBefore y (m + 1) + monthLength y (m + 1)

/-- The number of a date, counted in days from 2000-01-01. -/
def Date.number (d : Date) : Nat := 365 * (d.year - 2000) + (d.year - 2000 + 3) / 4 + daysBefore d.year d.month + (d.day - 1)

/-- The number of days from one date to another, 0 when the second lies before the first (R116, R187). -/
def Date.daysTo (a b : Date) : Nat := b.number - a.number

/-- A calendar value as a count of seconds, by which stamps are compared (R180). -/
def DateTime.number (t : DateTime) : Nat := t.date.number * 86400 + t.hour * 3600 + t.minute * 60 + t.second

/-- One second later, carrying in the ordinary way; at the end of the range the value stays (R179). -/
def DateTime.next (t : DateTime) : DateTime :=
  if t = lastSecond then t
  else if t.second < 59 then { t with second := t.second + 1 }
  else if t.minute < 59 then { t with second := 0, minute := t.minute + 1 }
  else if t.hour < 23 then { t with second := 0, minute := 0, hour := t.hour + 1 }
  else t.date.next.atMidnight

/-- hh:00:00 of an hour. -/
def DateTime.opens (t : DateTime) (hour : Nat) : Bool := t.hour == hour && t.minute == 0 && t.second == 0

end Sys2Proof.Machine
end

