-- ==== Sys2Proof/Machine/State.lean ====
section
/-! DEFINITION. The whole state of the RZS-48, block by block, the reasons a step could stop, and the state after reset. -/

namespace Sys2Proof.Machine

/-- The state of the part. Blocks bear the short names of spec/00_scope.md; the settlement engine holds no state (R114). `elapsed`
is the model's own count of elapsed seconds (log 3); `pending` is the queue of waiting commands (log 9). -/
structure State where
  powered : Bool
  elapsed : Nat
  straps : Nat
  settingsLost : Bool
  retainLost : Bool
  office : PortState
  window : PortState
  evu : Evu
  outs : Outputs
  clu : Clu
  wch : Wch
  dsu : Dsu
  lamps : Lamps
  grt : Grt
  tkt : Tkt
  vtr : List TareEntry
  pyu : Pyu
  rpu : Rpu
  pending : List Instr
  deriving DecidableEq, Repr

/-- No rule of the spec stops the part, so no step of the model raises a fault: the type has no constructor. -/
inductive Fault where
  deriving DecidableEq, Repr

/-- Why a command has no meaning. -/
inductive Refusal where
  /-- Raised by an arm of `exec` for a command not modelled yet, with its mnemonic. No arm raises it. Safe: the step stops. -/
  | notModelled (mnemonic : String)
  deriving DecidableEq, Repr

/-- An output of the default alert settings with nothing latched (R199, R200). -/
def clearAlerts : Alerts :=
  ⟨⟨none, true⟩, ⟨none, true⟩, ⟨none, true⟩, ⟨none, true⟩, ⟨none, true⟩, true⟩

/-- The stamp of everything that happens in the reset of `State.reset` (R188). -/
def resetStamp : Stamp := ⟨epoch, false⟩

/-- The machine right after reset: a power-up with retained memory lost and the settings store invalid, the straps reading 1 and
nothing wired to a line (log 1). Every channel is in OFF (R28), the unwired cash door and cabinet read open (R46, R200), so the
dispenser is in DOOR_OPEN with its recovery still to run (R154), and CHANNEL0 to 3, CLOCK, RETAIN_LOST, SETTINGS_LOST and ALERT
are latched to both ports (R199, R200). `Reset.powerUp` computes it (Laws/Reset.lean). -/
def State.reset : State :=
  { powered := true
    elapsed := 0
    straps := 1
    settingsLost := true
    retainLost := true
    office := idlePort
    window := idlePort
    evu :=
      { office := ⟨0x3C03C0, 0⟩
        window := ⟨0x3C03C0, 0⟩
        alerts := { clearAlerts with cashDoor := ⟨some resetStamp, true⟩, cabinet := ⟨some resetStamp, true⟩ } }
    outs := ⟨true, true⟩
    clu := ⟨epoch, false, defaultReleaseHour⟩
    wch :=
      { c0 := idleChannel defaultChannelSettings 0 0
        c1 := idleChannel defaultChannelSettings 0 0
        c2 := idleChannel defaultChannelSettings 0 0
        c3 := idleChannel defaultChannelSettings 0 0
        nextPlatform := .c2 }
    dsu :=
      { lines := defaultLineMap.map fun e => ⟨e, .undriven, false, none, false⟩
        beamDebounce := defaultBeamDebounce
        beamFault := defaultBeamFault
        patterns := defaultPatterns
        aspects := defaultAspects
        stretchTime := defaultStretch
        bridge0 := idleBridge
        bridge1 := idleBridge }
    lamps := ⟨.begin defaultAspects.fault, .begin defaultAspects.fault⟩
    grt := ⟨defaultGrades, 0, defaultLimits⟩
    tkt := { tickets := [], spent := [], counter := 1, opening := 0, series := 1 }
    vtr := []
    pyu :=
      { stores := List.replicate 6 uncountedStore
        disp := .doorOpen
        remembered := .recovering
        doorPending := false
        command := none
        takeTimer := none
        payout := none
        recovery := some ⟨none⟩
        slot := none
        log := []
        bin := 0 }
    rpu := idlePrinter 1 [] [] [] true false
    pending := [] }

end Sys2Proof.Machine
end

