-- ==== Sys2Proof/Machine/Flags.lean ====
section
/-! DEFINITION. Event flags, the attention summary, and status codes (R190 to R194, R213). -/

namespace Sys2Proof.Machine

/-- The bit of an event flag in a port's set (section 11.7, Event flag set). -/
def EventFlag.bit : EventFlag → Nat
  | .captureEnd ch => ch.num
  | .deck b => 4 + b.num
  | .channel ch => 6 + ch.num
  | .claimLapsed => 10
  | .holdRelease => 11
  | .payoutEnd => 12
  | .cashLow => 13
  | .cashFault => 14
  | .printEnd => 15
  | .printer => 16
  | .paperLow => 17
  | .clock => 18
  | .retainLost => 19
  | .settingsLost => 20
  | .alert => 21
  | .lineChange => 22

/-- The set holding one flag alone. -/
def EventFlag.mark (f : EventFlag) : BitVec 24 := 1#24 <<< f.bit

/-- The flag's mark in a latched set becomes latched, whatever the mask (R190). -/
def EventSet.latch (e : EventSet) (f : EventFlag) : EventSet := { e with latched := e.latched ||| f.mark }

/-- Whether a flag is latched in a set. -/
def EventSet.has (e : EventSet) (f : EventFlag) : Bool := e.latched.getLsbD f.bit

/-- The bits of the six categories that follow the latched set (R193). -/
def weighBits : BitVec 24 := 0x0003FF
def ticketBits : BitVec 24 := 0x000C00
def cashBits : BitVec 24 := 0x007000
def printBits : BitVec 24 := 0x038000
def systemBits : BitVec 24 := 0x5C0000
def alertBits : BitVec 24 := 0x200000

/-- One summary bit, set while an unmasked flag of the category is latched. -/
def EventSet.category (e : EventSet) (bits : BitVec 24) (place : Nat) : BitVec 8 :=
  if e.latched &&& ~~~e.mask &&& bits = 0 then 0 else 1#8 <<< place

/-- The six flag categories of the attention summary (R193). -/
def EventSet.summary (e : EventSet) : BitVec 8 :=
  e.category weighBits 0 ||| e.category ticketBits 1 ||| e.category cashBits 2 ||| e.category printBits 3 |||
    e.category systemBits 4 ||| e.category alertBits 5

/-- A port's set and mask. -/
def State.events (s : State) : Port → EventSet
  | .office => s.evu.office
  | .window => s.evu.window

def State.setEvents (s : State) (p : Port) (e : EventSet) : State :=
  match p with
  | .office => { s with evu := { s.evu with office := e } }
  | .window => { s with evu := { s.evu with window := e } }

/-- Latch a flag to one port (R190). -/
def State.latch (s : State) (p : Port) (f : EventFlag) : State := s.setEvents p ((s.events p).latch f)

/-- Latch a flag to both ports within the one event (R190). -/
def State.latchBoth (s : State) (f : EventFlag) : State := (s.latch .office f).latch .window f

/-- A slot that holds an outcome for a port. -/
def heldFor {α : Type} (slot : Option (Port × α)) (p : Port) : Bool :=
  match slot with
  | some (q, _) => decide (q = p)
  | none => false

/-- OUTCOME: an outcome slot of a weighing channel or of the payout unit holds an outcome for the port (R193). -/
def State.outcomeHeld (s : State) (p : Port) : Bool :=
  heldFor s.wch.c0.slot p || heldFor s.wch.c1.slot p || heldFor s.wch.c2.slot p || heldFor s.wch.c3.slot p || heldFor s.pyu.slot p

/-- The attention summary of a port (R193): the categories of its set, and OUTCOME in bit 6. -/
def State.summary (s : State) (p : Port) : BitVec 8 :=
  (s.events p).summary ||| (if s.outcomeHeld p then 0x40 else 0)

/-- The value of a status or refusal code (section 11.7). -/
def Status.code : Status → Nat
  | .done => 0 | .started => 1 | .unknownRequest => 2 | .badParam => 3 | .wrongPort => 4 | .wrongState => 5 | .unitBusy => 6
  | .outcomeUnread => 7 | .noOperation => 8 | .wrongChannel => 9 | .position => 10 | .notStable => 11 | .zeroRange => 12
  | .spanRange => 13 | .calLocked => 14 | .noTicket => 15 | .ticketState => 16 | .tableFull => 17 | .listFull => 18
  | .noDrop => 19 | .noTare => 20 | .lineUngraded => 21 | .gradeDisabled => 22 | .noCustomer => 23 | .clockInvalid => 24
  | .amountLimit => 25 | .needsApproval => 26 | .held => 27 | .claimedElsewhere => 28 | .claimHeld => 29 | .notClaimed => 30
  | .cannotMake => 31 | .retractFull => 32 | .doorOpen => 33 | .tooLate => 34 | .queueFull => 35

/-- DONE and STARTED take the request; every other status refuses it (R205). -/
def Status.refuses : Status → Bool
  | .done => false
  | .started => false
  | _ => true

end Sys2Proof.Machine
end

