-- ==== Sys2Proof/Machine/Operands.lean ====
section
/-! DEFINITION. The operands of requests: text and plates as rules take them (R63, section 3.1), and the fields of a frame's body
read from its bytes (R206 check 3, R213). -/

namespace Sys2Proof.Machine

/-! Text -/

/-- A printable character: space to tilde (section 3.1). -/
def printable (c : Nat) : Bool := decide (0x20 ≤ c ∧ c ≤ 0x7E)

/-- Every character printable: what check 3 of R206 asks of a text field. -/
def printableText (t : Text) : Bool := t.all printable

/-- Check 3 of R206 on an optional text field. -/
def printableOption : Option Text → Bool
  | none => true
  | some t => printableText t

/-- A customer reference holds 1 to 12 printable characters (R63). -/
def customerOk (t : Text) : Bool := decide (1 ≤ t.length ∧ t.length ≤ 12) && printableText t

def foldUpper (c : Nat) : Nat := if 0x61 ≤ c ∧ c ≤ 0x7A then c - 0x20 else c

def plateChar (c : Nat) : Bool := decide (0x41 ≤ c ∧ c ≤ 0x5A) || decide (0x30 ≤ c ∧ c ≤ 0x39)

/-- A plate normalised: lower case folded to upper, spaces removed; it must then hold 1 to 10 characters A-Z and 0-9 (R63). -/
def normalisePlate (t : Text) : Option Text :=
  let u := (t.map foldUpper).filter (· ≠ 0x20)
  if 1 ≤ u.length ∧ u.length ≤ 10 ∧ u.all plateChar then some u else none

/-- A well-formed optional customer reference. -/
def customerOptionOk : Option Text → Bool
  | none => true
  | some t => customerOk t

/-- A well-formed optional plate. -/
def plateOptionOk : Option Text → Bool
  | none => true
  | some t => (normalisePlate t).isSome

/-- The plate a request carries, normalised. -/
def plateOption : Option Text → Option Text
  | none => none
  | some t => normalisePlate t

/-! Reading a body -/

/-- A reader of fields from the bytes of a body; none when the body does not fit (R206 check 3). -/
abbrev Reader := StateT (List Nat) Option

namespace Reader

/-- One byte. -/
def u8 : Reader Nat := fun l =>
  match l with
  | [] => none
  | b :: rest => some (b, rest)

/-- A number of n bytes, high byte first (R213). -/
def unsigned : (n : Nat) → (acc : Nat) → Reader Nat
  | 0, acc => pure acc
  | n + 1, acc => do let b ← u8; unsigned n (acc * 256 + b)

def u16 : Reader Nat := unsigned 2 0
def u24 : Reader Nat := unsigned 3 0
def u32 : Reader Nat := unsigned 4 0

/-- A signed quantity of 4 bytes, two's complement (R213). -/
def i32 : Reader Int := do
  let n ← u32
  pure (if n < 2147483648 then (n : Int) else (n : Int) - 4294967296)

/-- Nothing but this. -/
def fail {α : Type} : Reader α := fun _ => none

/-- A yes or no field: 1 or 0. -/
def bool : Reader Bool := do
  let b ← u8
  if b = 0 then pure false else if b = 1 then pure true else fail

/-- n characters. -/
def chars : (n : Nat) → Reader Text
  | 0 => pure []
  | n + 1 => do let c ← u8; let rest ← chars n; if printable c then pure (c :: rest) else fail

/-- A text field: one count byte and that many printable characters (R206, R213). -/
def text : Reader Text := do let n ← u8; chars n

/-- A field behind a presence byte. R213 gives no form for the content of an absent field. The model's choice (log 22) is that the field
stands in the body whether present or absent, and that an absent one must fit too: an absent text whose bytes are not printable does not
fit, and neither does a presence byte other than 0 and 1, so that R206 check 3 refuses the body BAD_PARAM. -/
def presence {α : Type} (r : Reader α) : Reader (Option α) := do
  let p ← bool
  let x ← r
  pure (if p then some x else none)

/-- A field whose absence is the value 0 (R213). -/
def zeroAbsent (r : Reader Nat) : Reader (Option Nat) := do
  let n ← r
  pure (if n = 0 then none else some n)

/-- n items. -/
def times {α : Type} (r : Reader α) : (n : Nat) → Reader (List α)
  | 0 => pure []
  | n + 1 => do let x ← r; let rest ← times r n; pure (x :: rest)

/-- A list of items: a count byte and the items (R213). -/
def listOf {α : Type} (r : Reader α) : Reader (List α) := do let n ← u8; times r n

/-- The whole of a body, with nothing left over. -/
def whole {α : Type} (r : Reader α) (body : List Nat) : Option α :=
  match r body with
  | some (x, []) => some x
  | _ => none

end Reader

end Sys2Proof.Machine
end

