-- ==== Sys2Proof/Machine/Ops.lean ====
section
/-! DEFINITION. The named operations every family uses: access to channels, bridges and ports, timers and stamps, line roles,
alerts, the end of a capture, the lamp view, the request cycle, and how a command's effect is concluded. -/

namespace Sys2Proof.Machine

/-! Access -/

def State.chan (s : State) : Channel → ChannelState
  | .c0 => s.wch.c0
  | .c1 => s.wch.c1
  | .c2 => s.wch.c2
  | .c3 => s.wch.c3

def State.setChan (s : State) (ch : Channel) (c : ChannelState) : State :=
  match ch with
  | .c0 => { s with wch := { s.wch with c0 := c } }
  | .c1 => { s with wch := { s.wch with c1 := c } }
  | .c2 => { s with wch := { s.wch with c2 := c } }
  | .c3 => { s with wch := { s.wch with c3 := c } }

def State.bridge (s : State) : Bridge → BridgeState
  | .b0 => s.dsu.bridge0
  | .b1 => s.dsu.bridge1

def State.setBridge (s : State) (b : Bridge) (x : BridgeState) : State :=
  match b with
  | .b0 => { s with dsu := { s.dsu with bridge0 := x } }
  | .b1 => { s with dsu := { s.dsu with bridge1 := x } }

def State.port (s : State) : Port → PortState
  | .office => s.office
  | .window => s.window

def State.setPort (s : State) (p : Port) (x : PortState) : State :=
  match p with
  | .office => { s with office := x }
  | .window => { s with window := x }

def State.lampBank (s : State) : Bridge → LampBank
  | .b0 => s.lamps.bridge0
  | .b1 => s.lamps.bridge1

/-- The stamp of an event taken now (R180). -/
def State.stamp (s : State) : Stamp := ⟨s.clu.now, s.clu.valid⟩

/-- A timer started now. -/
def State.timer (s : State) (ms : Nat) : Timer := ⟨ms, s.elapsed⟩

/-- The whole seconds a timer still has to run, by the elapsed seconds the part has counted (log 3). -/
def State.secondsLeft (s : State) (t : Timer) : Nat := t.ms / 1000 - (s.elapsed - t.since)

/-! Line roles (R29, R30) -/

/-- The level of a line that is an input, true for high: as driven, or high by the pull-up; an undriven line without a pull-up
reads a free level (R29, log 7). -/
def YardLine.inputLevel (l : YardLine) (line : Nat) : Bool :=
  match l.drive with
  | .high => true
  | .low => false
  | .undriven => if l.entry.pullUp then true else Config.floatingLevel line

/-- Whether a level is the active one. -/
def Polarity.active (p : Polarity) (high : Bool) : Bool :=
  match p with
  | .activeHigh => high
  | .activeLow => !high

/-- An input line other than NONE has a debounced state (R29). -/
def LineFunction.debounces : LineFunction → Bool
  | .beam _ _ => true
  | .calSwitch => true
  | .cashDoor => true
  | .cabinet => true
  | .gpIn => true
  | _ => false

/-- The line that serves a function, if one does. -/
def State.served (s : State) (f : LineFunction) : Option YardLine := s.dsu.lines.find? fun l => l.entry.function == f

/-- A beam no line serves counts as clear (R30). -/
def State.beamBlocked (s : State) (b : Bridge) (side : Side) : Bool :=
  match s.served (.beam b side) with
  | some l => l.debounced
  | none => false

/-- A calibration switch no line serves counts as open (R30). -/
def State.switchClosed (s : State) : Bool :=
  match s.served .calSwitch with
  | some l => l.debounced
  | none => false

/-- A cash door no line serves counts as closed (R30). -/
def State.cashDoorOpen (s : State) : Bool :=
  match s.served .cashDoor with
  | some l => !l.debounced
  | none => false

/-- A cabinet no line serves counts as closed (R30). -/
def State.cabinetOpen (s : State) : Bool :=
  match s.served .cabinet with
  | some l => !l.debounced
  | none => false

/-! Alerts (R195) -/

/-- Whether any weighing channel is in SERVICE. -/
def State.anyInService (s : State) : Bool :=
  s.wch.c0.st == .service || s.wch.c1.st == .service || s.wch.c2.st == .service || s.wch.c3.st == .service

/-- The lasting condition of an alert source; RETRACT and DISPUTE have none (section 10.3). -/
def State.alertCondition (s : State) : AlertSource → Bool
  | .cashDoor => s.cashDoorOpen
  | .cabinet => s.cabinetOpen
  | .calSwitch => s.switchClosed && !s.anyInService
  | .retract => false
  | .dispute => false

def Alerts.get (a : Alerts) : AlertSource → AlertState
  | .cashDoor => a.cashDoor
  | .cabinet => a.cabinet
  | .calSwitch => a.calSwitch
  | .retract => a.retract
  | .dispute => a.dispute

def Alerts.put (a : Alerts) (src : AlertSource) (x : AlertState) : Alerts :=
  match src with
  | .cashDoor => { a with cashDoor := x }
  | .cabinet => { a with cabinet := x }
  | .calSwitch => { a with calSwitch := x }
  | .retract => { a with retract := x }
  | .dispute => { a with dispute := x }

def State.setAlert (s : State) (src : AlertSource) (x : AlertState) : State :=
  { s with evu := { s.evu with alerts := s.evu.alerts.put src x } }

/-- A source latches, with its stamp and the ALERT flag to both ports, unless it is latched already (R195). -/
def State.markAlert (s : State) (src : AlertSource) : State :=
  let a := s.evu.alerts.get src
  match a.latch with
  | some _ => s
  | none => (s.setAlert src { a with latch := some s.stamp }).latchBoth .alert

/-- A source latches if its condition holds and did not hold before. -/
def State.beginAlert (s : State) (before : State) (src : AlertSource) : State :=
  if s.alertCondition src && !before.alertCondition src then s.markAlert src else s

/-- The sources whose conditions an event has begun, between the state before it and the state it leaves, latch (R195). -/
def State.beginAlerts (s before : State) : State :=
  ((s.beginAlert before .cashDoor).beginAlert before .cabinet).beginAlert before .calSwitch

/-- A latched source whose enable is set. -/
def AlertState.calls (a : AlertState) : Bool := a.enabled && a.latch.isSome

/-- The yard alert output is asserted while the global enable is set and an enabled source is latched (R196). -/
def Alerts.asserts (a : Alerts) : Bool :=
  a.globalEnable && (a.cashDoor.calls || a.cabinet.calls || a.calSwitch.calls || a.retract.calls || a.dispute.calls)

/-! The end of a capture (R24) -/

/-- Fine attempts begun of a capture in its k-th attempt (R25). -/
def fineAttempts (rf attempt : Nat) : Nat := min attempt rf

/-- Coarse attempts begun. -/
def coarseAttempts (rf attempt : Nat) : Nat := attempt - rf

/-- A capture in flight ends: the outcome record goes to the slot for the starting port, the capture record is cleared, the bridge's
captured mark is set for CAPTURED and CAPTURED_COARSE (R38), and CAPTURE_END is latched to the starting port (R24). -/
def State.endCapture (s : State) (ch : Channel) (outcome : CaptureEnd) (weight : Option Int) (app : Option Application) : State :=
  let c := s.chan ch
  match c.capture with
  | none => s
  | some k =>
    let record : CaptureOutcome :=
      { channel := ch, serial := k.serial, outcome := outcome, weight := weight,
        fineAttempts := fineAttempts c.set.Rf k.attempt, coarseAttempts := coarseAttempts c.set.Rf k.attempt,
        time := s.stamp, application := app, ticket := k.ticket.map (·.number) }
    let s1 := s.setChan ch { c with capture := none, slot := some (k.port, record) }
    let s2 :=
      match ch.bridge? with
      | some b =>
        if outcome = CaptureEnd.captured ∨ outcome = CaptureEnd.capturedCoarse then s1.setBridge b { s1.bridge b with captured := true } else s1
      | none => s1
    s2.latch k.port (.captureEnd ch)

/-! Lamps (R38, R40) -/

/-- The lamp view of a bridge: the first that holds (R38). -/
def State.lampView (s : State) (b : Bridge) : LampView :=
  let x := s.bridge b
  let c := s.chan b.channel
  if x.pos = .fault ∨ c.st = .fault ∨ c.st = .service ∨ c.st = .off then .fault
  else if c.capture.isSome then .capturing
  else if x.pos = .entering ∨ x.stretch.isSome then .entering
  else if x.captured then .captured
  else match x.pos with
    | .empty => .empty
    | .onDeck => .onDeck
    | .leaving => .leaving
    | .entering => .entering
    | .fault => .fault

def AspectTable.row (a : AspectTable) : LampView → AspectRow
  | .empty => a.empty
  | .entering => a.entering
  | .onDeck => a.onDeck
  | .capturing => a.capturing
  | .captured => a.captured
  | .leaving => a.leaving
  | .fault => a.fault

/-- The row the lamps of a bridge run: the override's while one is in force, else that of the view (R40, R43). -/
def State.lampRow (s : State) (b : Bridge) : AspectRow :=
  match (s.bridge b).override with
  | some o => o.row
  | none => s.dsu.aspects.row (s.lampView b)

/-- A lamp role given the number it runs goes on; given another, it starts at step 1 (R40). -/
def LampRun.take (r : LampRun) (pattern : Nat) : LampRun := if r.pattern = pattern then r else .begin pattern

def LampBank.take (l : LampBank) (row : AspectRow) : LampBank :=
  ⟨l.entryRed.take row.entryRed, l.entryGreen.take row.entryGreen, l.exitRed.take row.exitRed, l.exitGreen.take row.exitGreen⟩

/-! Concluding a command -/

/-- What is judged afresh at the end of every event: the row each bridge's lamps run (R38), the window attention output (R194) and
the yard alert output (R196). -/
def State.settle (s : State) : State :=
  { s with
    lamps := ⟨s.lamps.bridge0.take (s.lampRow .b0), s.lamps.bridge1.take (s.lampRow .b1)⟩
    outs := ⟨decide (s.summary .window ≠ 0), s.evu.alerts.asserts⟩ }

/-- The state an event leaves: alert conditions it began are latched, and lamps and outputs are judged. -/
def State.conclude (before after : State) : State := (after.beginAlerts before).settle

/-- The meaning of a command that changes the state by f while the part has power, and does nothing while it has none (log 10). -/
def run (f : State → State) (s : State) : Host.Outcome State Fault Refusal :=
  .next (if s.powered then s.conclude (f s) else s)

/-! The request cycle (R205 to R208) -/

def Counters.addOverrun (c : Counters) : Counters := { c with overrun := saturating c.overrun 65535 }
def Counters.addGroupDropped (c : Counters) : Counters := { c with groupDropped := saturating c.groupDropped 65535 }

/-- Straps reading 1 to 30 put the office port online (R202). -/
def State.online (s : State) : Bool := decide (1 ≤ s.straps ∧ s.straps ≤ 30)

/-- Whether a port receives anything: the window port always, the office port when online (R202). -/
def State.receives (s : State) : Port → Bool
  | .office => s.online
  | .window => true

/-- The request kinds of section 11.7. -/
def knownKinds : List Nat :=
  [ 0x01, 0x02, 0x03, 0x04, 0x05,
    0x10, 0x11, 0x12, 0x13, 0x14, 0x15, 0x16, 0x17, 0x18,
    0x20, 0x21, 0x22, 0x23, 0x24, 0x25, 0x26,
    0x30, 0x31, 0x32, 0x33, 0x38, 0x39, 0x3A,
    0x40, 0x41, 0x42, 0x43, 0x44, 0x45, 0x46, 0x47, 0x48, 0x49, 0x4A, 0x4B, 0x4C, 0x4D, 0x4E,
    0x50, 0x51, 0x52, 0x53, 0x54, 0x55, 0x56, 0x57,
    0x60, 0x61, 0x62, 0x63, 0x68, 0x69, 0x6A, 0x70, 0x71, 0x72 ]

/-- The kinds the window port may use (R207). -/
def windowKinds : List Nat :=
  [ 0x01, 0x02, 0x03, 0x04, 0x10, 0x14, 0x15, 0x16, 0x20, 0x25, 0x31, 0x39,
    0x40, 0x41, 0x42, 0x43, 0x44, 0x45, 0x47, 0x49, 0x4B, 0x4C, 0x4D, 0x53, 0x54, 0x52, 0x60, 0x61, 0x62, 0x69 ]

/-- The five kinds that may be sent to the group: GRADE SET, PRICE SET, LIMITS SET, HEADER SET, CLOCK SET (R208). -/
def groupKinds : List Nat := [0x30, 0x32, 0x33, 0x63, 0x68]

/-- A request's own rule: what it does for the asking port and what it answers. -/
abbrev Handler := Port → State → State × Reply

/-- A refusal: no effect on any block (R206). -/
def refuse (s : State) (code : Status) (data : List Field := []) : State × Reply := (s, ⟨code, data⟩)

/-- A request completed at once. -/
def done (s : State) (data : List Field := []) : State × Reply := (s, ⟨.done, data⟩)

/-- The port starts sending an answer, which carries the summary judged now (R193, R205). -/
def State.answer (s : State) (p : Port) (kind : Nat) (r : Reply) : State :=
  s.setPort p { s.port p with answer := some ⟨kind, r.status, s.summary p, r.data⟩ }

/-- A request the port has taken: checks 1 and 2 of R206, then the request's own rule, then the answer. -/
def State.dispatch (s : State) (p : Port) (kind : Nat) (h : Handler) : State :=
  if kind ∉ knownKinds then s.answer p kind ⟨.unknownRequest, []⟩
  else if p = .window ∧ kind ∉ windowKinds then s.answer p kind ⟨.wrongPort, []⟩
  else
    let out := h p s
    (out.1.beginAlerts s).answer p kind out.2

def State.dropGroup (s : State) : State :=
  s.setPort .office { s.office with counters := s.office.counters.addGroupDropped }

/-- A group request: one of the five kinds, carried out as from the office port with no answer, or dropped and counted (R208). -/
def State.dispatchGroup (s : State) (kind : Nat) (h : Handler) : State :=
  if kind ∉ groupKinds then s.dropGroup
  else
    let out := h .office s
    if out.2.status.refuses then s.dropGroup else out.1.beginAlerts s

/-- A frame with a good check completes on a sender's line (R203, R205): the receiver returns to HUNTING; while ANSWERING the frame is
discarded and OVERRUN counted; while IDLE a group frame is handled by R208 and any other frame is taken as a request. An offline
office port receives nothing (R202). -/
def State.takeFrame (s : State) (src : Sender) (kind : Nat) (h : Handler) : State :=
  let p := src.port
  if !s.receives p then s
  else
    let s1 := s.setPort p { s.port p with rx := .hunting }
    if (s.port p).answer.isSome then s1.setPort p { s1.port p with counters := (s1.port p).counters.addOverrun }
    else match src with
      | .group => s1.dispatchGroup kind h
      | .office => s1.dispatch .office kind h
      | .window => s1.dispatch .window kind h

/-- The meaning of a request row: a whole frame of that kind, with a good check, completes. -/
def request (src : Sender) (kind : Nat) (h : Handler) (s : State) : Host.Outcome State Fault Refusal :=
  run (fun s => s.takeFrame src kind h) s

end Sys2Proof.Machine
end

