-- ==== Sys2Proof/Machine/Deck.lean ====
section
/-! DEFINITION. The deck position machine, lamps and overrides (chapter 2, sections 2.2 and 2.3). -/

namespace Sys2Proof.Machine

/-! The position machine (R35 to R37) -/

/-- The position of a bridge changes. Leaving ON_DECK ends a capture in flight POSITION (R22) and clears the captured mark (R38);
entering ENTERING starts the stretch timer (R39); entering ON_DECK, EMPTY or FAULT latches DECK to both ports (R37). -/
def State.setPosition (s : State) (b : Bridge) (p : Position) : State :=
  let s1 :=
    if (s.bridge b).pos = .onDeck ∧ p ≠ .onDeck then
      let t := s.endCapture b.channel .position none none
      t.setBridge b { t.bridge b with captured := false }
    else s
  let x := s1.bridge b
  let s2 :=
    s1.setBridge b
      { x with pos := p, stretch := if p = .entering then some (s1.timer s1.dsu.stretchTime) else x.stretch }
  if p = .onDeck ∨ p = .empty ∨ p = .fault then s2.latchBoth (.deck b) else s2

/-- Where a bridge goes when a beam clears leaving both clear: by occupancy (R35). -/
def State.clearedTo (s : State) (b : Bridge) : Position := if (s.chan b.channel).occupied then .onDeck else .empty

/-- A change of a bridge's debounced beam (R35): the line's debounced state has changed already. Blocking starts the beam's fault
timer, clearing stops it (R36). -/
def State.beamChange (s : State) (b : Bridge) (side : Side) (blocked : Bool) : State :=
  let t := if blocked then some (s.timer (s.dsu.beamFault * 1000)) else none
  let x := s.bridge b
  let s1 :=
    s.setBridge b
      (match side with
        | .entry => { x with entryFault := t }
        | .exit => { x with exitFault := t })
  if blocked then
    match x.pos with
    | .empty => s1.setPosition b .entering
    | .onDeck => s1.setPosition b .leaving
    | _ => s1
  else if s1.beamBlocked b .entry || s1.beamBlocked b .exit then s1
  else
    match x.pos with
    | .entering => s1.setPosition b (s1.clearedTo b)
    | .leaving => s1.setPosition b (s1.clearedTo b)
    | .fault => s1.setPosition b (s1.clearedTo b)
    | _ => s1

/-- A change of the occupancy of a channel, already made; on C0 and C1 it reaches the position machine (R11, R35). -/
def State.occupancyChange (s : State) (ch : Channel) : State :=
  match ch.bridge? with
  | none => s
  | some b =>
    let occupied := (s.chan ch).occupied
    match (s.bridge b).pos with
    | .empty =>
      if occupied && !s.beamBlocked b .entry && !s.beamBlocked b .exit then s.setPosition b .onDeck else s
    | .onDeck => if occupied then s else s.setPosition b .empty
    | _ => s

/-- Set the occupancy of a channel, and hand a change on. -/
def State.setOccupied (s : State) (ch : Channel) (occupied : Bool) : State :=
  let c := s.chan ch
  if c.occupied = occupied then s else (s.setChan ch { c with occupied := occupied }).occupancyChange ch

/-- Whether the beam fault timer of a beam runs. -/
def BridgeState.faultTimer (x : BridgeState) : Side → Option Timer
  | .entry => x.entryFault
  | .exit => x.exitFault

/-- Expiry of a beam fault timer: the position becomes FAULT from any other, and a capture in flight ends POSITION (R36). -/
def Deck.beamFaultExpiry (b : Bridge) (side : Side) (s : State) : State :=
  let x := s.bridge b
  match x.faultTimer side with
  | none => s
  | some _ =>
    let s1 :=
      s.setBridge b
        (match side with
          | .entry => { x with entryFault := none }
          | .exit => { x with exitFault := none })
    if x.pos = .fault then s1 else (s1.setPosition b .fault).endCapture b.channel .position none none

def execBeamFaultTimeout (b : Bridge) (side : Side) (s : State) : Host.Outcome State Fault Refusal :=
  run (Deck.beamFaultExpiry b side) s

/-- Expiry of a bridge's stretch timer: the view is chosen again (R39). -/
def Deck.stretchExpiry (b : Bridge) (s : State) : State := s.setBridge b { s.bridge b with stretch := none }

def execStretchTimeout (b : Bridge) (s : State) : Host.Outcome State Fault Refusal := run (Deck.stretchExpiry b) s

/-- Expiry of an override's timer: the lamps return to the row of the view (R43). An override without a timer does not expire. -/
def Deck.overrideExpiry (b : Bridge) (s : State) : State :=
  let x := s.bridge b
  match x.override with
  | some ⟨_, some _⟩ => s.setBridge b { x with override := none }
  | _ => s

def execOverrideTimeout (b : Bridge) (s : State) : Host.Outcome State Fault Refusal := run (Deck.overrideExpiry b) s

/-! Lamps (R40) -/

/-- The role of a lamp bank. -/
def LampBank.get (l : LampBank) : Side → Colour → LampRun
  | .entry, .red => l.entryRed
  | .entry, .green => l.entryGreen
  | .exit, .red => l.exitRed
  | .exit, .green => l.exitGreen

def LampBank.put (l : LampBank) (side : Side) (colour : Colour) (r : LampRun) : LampBank :=
  match side, colour with
  | .entry, .red => { l with entryRed := r }
  | .entry, .green => { l with entryGreen := r }
  | .exit, .red => { l with exitRed := r }
  | .exit, .green => { l with exitGreen := r }

def State.setLampBank (s : State) (b : Bridge) (l : LampBank) : State :=
  match b with
  | .b0 => { s with lamps := { s.lamps with bridge0 := l } }
  | .b1 => { s with lamps := { s.lamps with bridge1 := l } }

/-- A pattern of the table; a number the table does not hold is dark. -/
def State.pattern (s : State) (n : Nat) : Pattern := s.dsu.patterns.getD n ⟨0, 10, 0⟩

/-- Whether a lamp role is lit: the step it shows. -/
def State.lampLit (s : State) (b : Bridge) (side : Side) (colour : Colour) : Bool :=
  let r := (s.lampBank b).get side colour
  (s.pattern r.pattern).steps.getLsbD (r.step - 1)

/-- One tick of a pattern passes (R40): the next step, after step 8 as many further ticks of step 8 as the pause counts, and then
step 1. The pause expires with the last of its ticks (log 2). -/
def LampRun.advance (r : LampRun) (pause : Nat) : LampRun :=
  if r.pauseLeft = 1 then .begin r.pattern
  else if 1 < r.pauseLeft then { r with pauseLeft := r.pauseLeft - 1 }
  else if r.step < 8 then { r with step := r.step + 1 }
  else if pause = 0 then .begin r.pattern
  else { r with pauseLeft := pause }

/-- Expiry of a lamp role's tick, in a pause or outside it; patterns 0 and 1 have no ticks (R40). -/
def Deck.tick (b : Bridge) (side : Side) (colour : Colour) (s : State) : State :=
  let bank := s.lampBank b
  let r := bank.get side colour
  if r.pattern < 2 then s else s.setLampBank b (bank.put side colour (r.advance (s.pattern r.pattern).pause))

def execLampTick (b : Bridge) (side : Side) (colour : Colour) (s : State) : Host.Outcome State Fault Refusal :=
  run (Deck.tick b side colour) s

/-! Lamp requests (R41 to R44) -/

/-- A lamp role that runs the pattern starts it again (R41). -/
def LampRun.restart (n : Nat) (r : LampRun) : LampRun := if r.pattern = n then .begin n else r

def LampBank.restart (n : Nat) (l : LampBank) : LampBank :=
  ⟨l.entryRed.restart n, l.entryGreen.restart n, l.exitRed.restart n, l.exitGreen.restart n⟩

/-- LAMP PATTERN SET (R41). -/
def Deck.lampPatternSet (pattern : Nat) (steps : BitVec 8) (tick pause : Nat) : Handler := fun _ s =>
  if pattern < 2 ∨ 7 < pattern ∨ 15 < pause then refuse s .badParam
  else
    done { s with
      dsu := { s.dsu with patterns := s.dsu.patterns.set pattern ⟨steps, clamp tick 1 50, pause⟩ }
      lamps := ⟨s.lamps.bridge0.restart pattern, s.lamps.bridge1.restart pattern⟩ }

def execLampPatternSet (src : Sender) (pattern : Nat) (steps : BitVec 8) (tick pause : Nat) (s : State) :
    Host.Outcome State Fault Refusal :=
  request src 0x21 (Deck.lampPatternSet pattern steps tick pause) s

/-- Every pattern number of a row names a pattern of the table. -/
def AspectRow.ok (r : AspectRow) : Bool := decide (r.entryRed ≤ 7 ∧ r.entryGreen ≤ 7 ∧ r.exitRed ≤ 7 ∧ r.exitGreen ≤ 7)

/-- Seven rows as a table, in the order of the default rows (section 2.3). -/
def aspectTable? : List AspectRow → Option AspectTable
  | [a, b, c, d, e, f, g] => some ⟨a, b, c, d, e, f, g⟩
  | _ => none

/-- ASPECT SET (R42). A body that does not hold seven rows fails check 3 of R206. -/
def Deck.aspectSet (rows : List AspectRow) (stretch : Nat) : Handler := fun _ s =>
  match aspectTable? rows with
  | none => refuse s .badParam
  | some table =>
    if !rows.all AspectRow.ok then refuse s .badParam
    else done { s with dsu := { s.dsu with aspects := table, stretchTime := clamp stretch 200 2000 } }

def execAspectSet (src : Sender) (rows : List AspectRow) (stretch : Nat) (s : State) : Host.Outcome State Fault Refusal :=
  request src 0x22 (Deck.aspectSet rows stretch) s

/-- LAMP OVERRIDE (R43): setting replaces any override in force with its timer; clearing needs one in force. -/
def Deck.lampOverride (bridge : Nat) (setting : Option (AspectRow × Nat)) : Handler := fun _ s =>
  match Bridge.ofNat? bridge with
  | none => refuse s .badParam
  | some b =>
    let x := s.bridge b
    match setting with
    | some (row, seconds) =>
      if !AspectRow.ok row then refuse s .badParam
      else
        let duration := min seconds 600
        let timer := if duration = 0 then none else some (s.timer (duration * 1000))
        done (s.setBridge b { x with override := some ⟨row, timer⟩ })
    | none => if x.override.isSome then done (s.setBridge b { x with override := none }) else refuse s .noOperation

def execLampOverride (src : Sender) (bridge : Nat) (setting : Option (AspectRow × Nat)) (s : State) :
    Host.Outcome State Fault Refusal :=
  request src 0x23 (Deck.lampOverride bridge setting) s

/-! Fields of answers, used by every family (R213, log 22 to 24). A text, a stamp or a date that is absent stands behind a presence byte: the
model takes R213's value 0 for absent numbers and codes alone (log 22). -/

/-- A yes or no in an answer: 1 or 0 (log 21). -/
def flagField (b : Bool) : Field := .u8 (if b then 1 else 0)

/-- A one-byte field behind its presence byte. -/
def optU8 : Option Nat → List Field
  | none => [.u8 0, .u8 0]
  | some n => [.u8 1, .u8 n]

def optU16 : Option Nat → List Field
  | none => [.u8 0, .u16 0]
  | some n => [.u8 1, .u16 n]

def optU32 : Option Nat → List Field
  | none => [.u8 0, .u32 0]
  | some n => [.u8 1, .u32 n]

def optI32 : Option Int → List Field
  | none => [.u8 0, .i32 0]
  | some z => [.u8 1, .i32 z]

/-- A field whose absence is the value 0. -/
def zeroU8 (n : Option Nat) : Field := .u8 (n.getD 0)
def zeroU24 (n : Option Nat) : Field := .u24 (n.getD 0)

/-- An absent stamp: all bytes 0, its year byte standing for 2000. -/
def noStamp : Stamp := ⟨⟨2000, 0, 0, 0, 0, 0⟩, false⟩

def optStamp : Option Stamp → List Field
  | none => [.u8 0, .stamp noStamp]
  | some t => [.u8 1, .stamp t]

def optText : Option Text → List Field
  | none => [.u8 0, .text []]
  | some t => [.u8 1, .text t]

/-- A date: year less 2000, month, day. R213 gives the form of a stamp and none for a date without a time: these three bytes are the
model's (log 20). -/
def dateFields (d : Date) : List Field := [.u8 (d.year - 2000), .u8 d.month, .u8 d.day]

def optDate : Option Date → List Field
  | none => [.u8 0, .u8 0, .u8 0, .u8 0]
  | some d => .u8 1 :: dateFields d

/-- A list of items: a count byte and the items (R213). -/
def listFields {α : Type} (f : α → List Field) (l : List α) : List Field := .u8 l.length :: l.flatMap f

def portCode : Port → Nat
  | .office => 1
  | .window => 2

/-- A port that may be absent: 0. -/
def optPort : Option Port → Field
  | none => .u8 0
  | some p => .u8 (portCode p)

def ChannelSt.code : ChannelSt → Nat
  | .off => 0 | .starting => 1 | .active => 2 | .service => 3 | .fault => 4

def Position.code : Position → Nat
  | .empty => 0 | .entering => 1 | .onDeck => 2 | .leaving => 3 | .fault => 4

def LampView.code : LampView → Nat
  | .empty => 0 | .entering => 1 | .onDeck => 2 | .capturing => 3 | .captured => 4 | .leaving => 5 | .fault => 6

def AspectRow.fields (r : AspectRow) : List Field := [.u8 r.entryRed, .u8 r.entryGreen, .u8 r.exitRed, .u8 r.exitGreen]

def AspectTable.rows (a : AspectTable) : List AspectRow :=
  [a.empty, a.entering, a.onDeck, a.capturing, a.captured, a.leaving, a.fault]

/-- A beam as DECK STATE reports it (R44): R44 names blocked, clear and unserved and gives them no codes; the codes 0 clear,
1 blocked, 2 unserved are the model's (log 20). -/
def State.beamField (s : State) (b : Bridge) (side : Side) : Field :=
  match s.served (.beam b side) with
  | none => .u8 2
  | some l => flagField l.debounced

/-- One bridge of DECK STATE (R44). Where no override is in force, the presence byte 0 is followed by four patterns of 0 and an absent
time, so that a bridge has one size: the form is the model's (log 22). -/
def State.deckFields (s : State) (b : Bridge) : List Field :=
  let x := s.bridge b
  let c := s.chan b.channel
  let bank := s.lampBank b
  [.u8 x.pos.code, s.beamField b .entry, s.beamField b .exit]
    ++ optU16 (x.entryFault.map s.secondsLeft) ++ optU16 (x.exitFault.map s.secondsLeft)
    ++ [flagField c.occupied, .u8 c.st.code, .u8 (s.lampView b).code, flagField x.stretch.isSome, flagField x.captured]
    ++ [.u8 bank.entryRed.pattern, .u8 bank.entryGreen.pattern, .u8 bank.exitRed.pattern, .u8 bank.exitGreen.pattern]
    ++ (match x.override with
      | none => .u8 0 :: AspectRow.fields ⟨0, 0, 0, 0⟩ ++ optU16 none
      | some o => .u8 1 :: AspectRow.fields o.row ++ optU16 (o.timer.map s.secondsLeft))

/-- DECK STATE (R44) changes nothing. -/
def Deck.state : Handler := fun _ s =>
  done s
    (s.deckFields .b0 ++ s.deckFields .b1
      ++ s.dsu.patterns.flatMap (fun p => [.u8 p.steps.toNat, .u8 p.tick, .u8 p.pause])
      ++ s.dsu.aspects.rows.flatMap AspectRow.fields ++ [.u16 s.dsu.stretchTime])

def execDeckState (src : Sender) (s : State) : Host.Outcome State Fault Refusal := request src 0x20 Deck.state s

end Sys2Proof.Machine
end

