-- ==== Sys2Proof/Machine/TicketOps.lean ====
section
/-! DEFINITION. The ticket table's shared operations: finding and changing a record, owed receipts, spending, and a weighing handed
over (chapter 4). -/

namespace Sys2Proof.Machine

/-! Records (R61, R62) -/

/-- The record holding a number, if any (R66). -/
def State.ticket? (s : State) (n : Nat) : Option Ticket := s.tkt.tickets.find? fun t => t.number == n

/-- The receipts a ticket owes. -/
def Owed.total (o : Owed) : Nat := o.slip + o.copies + o.notice

/-- A record is spent when it is CLOSED or VOID and owes no receipt (R61). -/
def Ticket.isSpent (t : Ticket) : Bool := (t.st == .closed || t.st == .void) && t.owed.total == 0

/-- The record after one event: a change of any field advances the revision by one, from 255 to 0; no change does not (R62). -/
def Ticket.revised (before after : Ticket) : Ticket :=
  if after = before then before else { after with revision := wrapping before.revision 0 255 }

/-- One event alters one record: its revision advances once, and a record it leaves spent joins the order of spending (R61, R62). -/
def State.changeTicket (s : State) (n : Nat) (f : Ticket → Ticket) : State :=
  match s.ticket? n with
  | none => s
  | some t =>
    let t' := t.revised (f t)
    { s with
      tkt :=
        { s.tkt with
          tickets := s.tkt.tickets.map fun x => if x.number = n then t' else x
          spent := if t'.isSpent && !t.isSpent then s.tkt.spent ++ [n] else s.tkt.spent } }

/-- The revision a record shows. -/
def State.revision (s : State) (n : Nat) : Nat :=
  match s.ticket? n with
  | some t => t.revision
  | none => 0

/-! Owed receipts (R87) -/

/-- New owed counts: the owed-since stamp is set when their sum rises from 0, kept while anything is owed and removed at 0. -/
def Owed.become (o : Owed) (slip copies notice : Nat) (now : Stamp) : Owed :=
  { slip := slip, copies := copies, notice := notice,
    since := if slip + copies + notice = 0 then none else if o.total = 0 then some now else o.since }

def Owed.nothing : Owed := ⟨0, 0, 0, none⟩

/-- A weigh slip becomes owed. -/
def Owed.addSlip (o : Owed) (now : Stamp) : Owed := o.become 1 o.copies o.notice now

/-- A weigh slip is no longer owed. -/
def Owed.dropSlip (o : Owed) (now : Stamp) : Owed := o.become 0 o.copies o.notice now

/-- Two payout copies become owed. -/
def Owed.addCopies (o : Owed) (now : Stamp) : Owed := o.become o.slip 2 o.notice now

/-- A void notice becomes owed. -/
def Owed.addNotice (o : Owed) (now : Stamp) : Owed := o.become o.slip o.copies 1 now

/-- The owed count of a kind of receipt; a COPY is never owed. -/
def Owed.count (o : Owed) : JobKind → Nat
  | .weighSlip => o.slip
  | .payout => o.copies
  | .voidNotice => o.notice
  | .copy => 0

/-- The matching count lowered by one, or left at 0. -/
def Owed.lower (o : Owed) (k : JobKind) (now : Stamp) : Owed :=
  match k with
  | .weighSlip => o.become (o.slip - 1) o.copies o.notice now
  | .payout => o.become o.slip (o.copies - 1) o.notice now
  | .voidNotice => o.become o.slip o.copies (o.notice - 1) now
  | .copy => o

/-- A discharged receipt, in one change: the count falls, a PAID ticket whose payout copies fall to 0 enters CLOSED, and a
cancelled receipt sets its flag (R87, R169). -/
def Ticket.discharge (t : Ticket) (k : JobKind) (cancelled : Bool) (now : Stamp) : Ticket :=
  let owed := t.owed.lower k now
  let closes := decide (t.st = .paid ∧ k = .payout ∧ owed.copies = 0)
  { t with
    owed := owed
    st := if closes then .closed else t.st
    closedAt := if closes then some now else t.closedAt
    receiptCancelled := t.receiptCancelled || cancelled }

/-- The ticket enters PAID: the claim ends and two payout copies become owed (R84, R85, R86). -/
def Ticket.enterPaid (t : Ticket) (now : Stamp) : Ticket :=
  { t with st := .paid, claim := none, lapse := none, owed := t.owed.addCopies now }

/-! A weighing handed over (R67 to R69) -/

/-- What the ticket table returns for a weighing of a capture bound to this record: the first result that applies (R67). -/
def Ticket.application (t : Ticket) (ref : TicketRef) (w : Weighing) (tare : Int) : Application :=
  if t.opening ≠ ref.opening ∨ t.st = .void then .ticketGone
  else if t.st ≠ .opened ∧ t.st ≠ .weighing then .ticketState
  else
    match t.kind with
    | .bridge =>
      if 9 ≤ t.weighings.length then .listFull
      else
        match t.weighings.getLast? with
        | some last => if last.weight - w.weight < (w.division : Int) then .noDrop else .applied
        | none => .applied
    | .counter => if 8 ≤ t.lines.length then .listFull else if w.weight ≤ tare then .noDrop else .applied

/-- The line that two weighings of a BRIDGE ticket give (R68). -/
def bridgeLine (before w : Weighing) (grade : Option Nat) : TicketLine :=
  { grade := grade, gross := before.weight, tare := w.weight, source := .weighed, net := before.weight - w.weight,
    division := max before.division w.division, mode := .grade, coarse := before.coarse || w.coarse, capture := none,
    figures := none }

/-- The line that a capture gives a COUNTER ticket (R69). -/
def counterLine (w : Weighing) (grade : Option Nat) (tare : Int) : TicketLine :=
  { grade := grade, gross := w.weight, tare := tare, source := .container, net := w.weight - tare, division := w.division,
    mode := .grade, coarse := w.coarse, capture := some ⟨w.channel, w.calCounter, w.serial, w.time⟩, figures := none }

/-- An APPLIED weighing (R68, R69). -/
def Ticket.apply (t : Ticket) (w : Weighing) (grade : Option Nat) (tare : Int) : Ticket :=
  match t.kind with
  | .bridge =>
    { t with
      st := .weighing
      weighings := t.weighings ++ [w]
      lines :=
        match t.weighings.getLast? with
        | some last => t.lines ++ [bridgeLine last w grade]
        | none => t.lines }
  | .counter => { t with st := .weighing, lines := t.lines ++ [counterLine w grade tare] }

/-- The hand-over of a completed capture: the result, and the table with the weighing applied when it is APPLIED (R67). -/
def State.handOver (s : State) (ref : Option TicketRef) (w : Weighing) (grade : Option Nat) (tare : Int) : State × Application :=
  match ref with
  | none => (s, .notBound)
  | some r =>
    match s.ticket? r.number with
    | none => (s, .ticketGone)
    | some t =>
      match t.application r w tare with
      | .applied => (s.changeTicket r.number fun t => t.apply w grade tare, .applied)
      | other => (s, other)

/-! Hold release (R184) -/

/-- A HELD ticket due by the check date enters SETTLED with its settlement block kept. -/
def Ticket.due (t : Ticket) (date : Date) : Bool :=
  t.st == .held &&
    match t.settlement with
    | some b =>
      match b.holdUntil with
      | some h => decide (h.number ≤ date.number)
      | none => false
    | none => false

def Ticket.release (t : Ticket) (date : Date) : Ticket := if t.due date then t.revised { t with st := .settled } else t

/-- How many tickets a release check would release. -/
def State.dueCount (s : State) (date : Date) : Nat := (s.tkt.tickets.filter fun t => t.due date).length

/-- A release check against a date: every due ticket enters SETTLED, and HOLD_RELEASE is latched once to both ports when any was
released (R184). -/
def State.releaseCheck (s : State) (date : Date) : State :=
  let s1 := { s with tkt := { s.tkt with tickets := s.tkt.tickets.map fun t => t.release date } }
  if s.dueCount date = 0 then s1 else s1.latchBoth .holdRelease

/-! Claims (R81, R82) -/

/-- The port that claims a ticket: only a CLAIMED or PAYING ticket has one. -/
def Ticket.claimant (t : Ticket) : Option Port := t.claim.map (·.port)

/-- Whether a port holds a claim on any ticket. -/
def State.holdsClaim (s : State) (p : Port) : Bool := s.tkt.tickets.any fun t => t.claimant == some p

end Sys2Proof.Machine
end

