-- ==== Sys2Proof/Machine/Settlement.lean ====
section
/-! DEFINITION. The settlement engine: line figures, ticket figures, the checks of a settlement, and provisional figures
(chapter 5). It holds no state (R114). -/

namespace Sys2Proof.Machine

/-- The grade entry of a code, 1 to 64. -/
def State.grade? (s : State) (code : Nat) : Option Grade := if code = 0 then none else s.grt.grades[code - 1]?

/-- The largest amount of a line or of a sum of lines, in cents (R96). -/
def amountLimit : Nat := 99999999

/-- The deduction weight of GRADE and PERCENT modes: the figure of the net, rounded half up to whole divisions (R99). -/
def percentDeduction (net : Int) (division p : Nat) : Int := (division : Int) * roundHalfUp (net * p) (1000 * division)

/-- The deduction figure a line uses: its grade's default in GRADE mode, its own in PERCENT mode, none in WEIGHT mode. -/
def TicketLine.figure (l : TicketLine) (default : Nat) : Option Nat :=
  match l.mode with
  | .grade => some default
  | .percent p => some p
  | .weight _ => none

/-- The deduction weight of a line (R99, R100). -/
def TicketLine.deduction (l : TicketLine) (default : Nat) : Int :=
  match l.mode with
  | .grade => percentDeduction l.net l.division default
  | .percent p => percentDeduction l.net l.division p
  | .weight t => t

/-- The amount of a paid weight at a price, in cents (R102). -/
def lineAmount (paid : Int) (price : Nat) : Nat := ((paid * price + 500) / 1000).toNat

/-- The settled figures of a line under a grade (R99 to R102, R108). -/
def TicketLine.figuresUnder (l : TicketLine) (g : Grade) : LineFigures :=
  let ded := l.deduction g.deduction
  { figure := l.figure g.deduction, deduction := ded, paid := l.net - ded, price := g.price,
    amount := lineAmount (l.net - ded) g.price, restricted := g.restricted }

/-- The grade entry of a line, when it has a grade. -/
def State.lineGrade? (s : State) (l : TicketLine) : Option Grade := l.grade.bind s.grade?

/-- The place, from 1, of the first line for which a test holds. -/
def firstPlace (test : TicketLine → Bool) (lines : List TicketLine) : Option Nat := (lines.findIdx? test).map (· + 1)

def State.lineUngraded (s : State) (l : TicketLine) : Bool := (s.lineGrade? l).isNone

def State.lineDisabled (s : State) (l : TicketLine) : Bool :=
  match s.lineGrade? l with
  | some g => !g.enabled
  | none => false

def State.lineRestricted (s : State) (l : TicketLine) : Bool :=
  match s.lineGrade? l with
  | some g => g.restricted
  | none => false

/-- The amount a line would have under the present table; none when it has no grade. -/
def State.lineAmount? (s : State) (l : TicketLine) : Option Nat := (s.lineGrade? l).map fun g => (l.figuresUnder g).amount

def State.lineOverLimit (s : State) (l : TicketLine) : Bool :=
  match s.lineAmount? l with
  | some a => decide (amountLimit < a)
  | none => false

/-- The sum of the amounts of lines that have one within the limit. -/
def State.amountSum (s : State) (lines : List TicketLine) : Nat :=
  lines.foldl (fun acc l => match s.lineAmount? l with
    | some a => if a ≤ amountLimit then acc + a else acc
    | none => acc) 0

/-- The first code of R96 whose condition holds, with the place it answers; none when the settlement would succeed. -/
def State.settleCheck (s : State) (t : Ticket) : Option (Status × Nat) :=
  let restricted := firstPlace s.lineRestricted t.lines
  ((firstPlace s.lineUngraded t.lines).map fun k => (Status.lineUngraded, k))
    <|> ((firstPlace s.lineDisabled t.lines).map fun k => (Status.gradeDisabled, k))
    <|> (if t.customer.isNone then restricted.map fun k => (Status.noCustomer, k) else none)
    <|> (if !s.clu.valid then restricted.map fun k => (Status.clockInvalid, k) else none)
    <|> ((firstPlace s.lineOverLimit t.lines).map fun k => (Status.amountLimit, k))
    <|> (if amountLimit < s.amountSum t.lines then some (Status.amountLimit, 0) else none)

/-- The fee charged on a kind of ticket (R103). -/
def feeFor (kind : TicketKind) (fee : Nat) : Nat :=
  match kind with
  | .bridge => fee
  | .counter => 0

/-- The usable cash limit Lu (R105). -/
def usableLimit (l : Limits) : Nat := floorMultiple l.cashLimit l.unit

/-- The cash split of a payable: the cash part, the non-cash remainder and the rounding difference (R105 to R107). -/
def cashSplit (l : Limits) (payable : Nat) : Nat × Nat × Int :=
  if payable ≤ usableLimit l then
    let cash := nearestMultiple payable l.unit
    (cash, 0, (cash : Int) - payable)
  else (usableLimit l, payable - usableLimit l, 0)

/-- A settled ticket needs approval when its payable exceeds the approval limit or a line is coarse (R104). -/
def approvalNeeded (l : Limits) (payable : Nat) (lines : List TicketLine) : Bool :=
  decide (l.approvalLimit < payable) || lines.any (·.coarse)

/-- The hold days of a ticket: the largest among the grades of its restricted lines (R108). -/
def State.holdDays (s : State) (lines : List TicketLine) : Nat :=
  lines.foldl (fun acc l => match s.lineGrade? l with
    | some g => if g.restricted then max acc g.holdDays else acc
    | none => acc) 0

/-- The hold-until date of a settlement taken now (R108). -/
def State.holdUntil (s : State) (lines : List TicketLine) : Option Date :=
  let days := s.holdDays lines
  if days = 0 then none else some (s.clu.now.date.addDays days)

/-- A line with its settled figures written in (R109). -/
def State.settleLine (s : State) (l : TicketLine) : TicketLine :=
  match s.lineGrade? l with
  | some g => { l with figures := some (l.figuresUnder g) }
  | none => l

/-- Whether automatic slips are on for a kind of ticket (R172). -/
def State.autoSlip (s : State) (kind : TicketKind) : Bool :=
  match kind with
  | .bridge => s.rpu.autoBridge
  | .counter => s.rpu.autoCounter

/-- The settlement block a ticket would get now (R103 to R109). -/
def State.settlementOf (s : State) (t : Ticket) : Settlement :=
  let limits := s.grt.limits
  let fee := feeFor t.kind limits.fee
  let payable := s.amountSum t.lines - fee
  let split := cashSplit limits payable
  { version := s.grt.version, fee := fee, payable := payable, cash := split.1, remainder := split.2.1, rounding := split.2.2,
    unit := limits.unit, cashLimit := limits.cashLimit, holdUntil := s.holdUntil t.lines }

/-- The record as a successful settlement leaves it, all in one change (R109). -/
def State.settled (s : State) (t : Ticket) : Ticket :=
  let block := s.settlementOf t
  { t with
    st := if block.holdUntil.isSome then .held else .settled
    lines := t.lines.map s.settleLine
    settlement := some block
    needsApproval := approvalNeeded s.grt.limits block.payable t.lines
    owed := if s.autoSlip t.kind then t.owed.addSlip s.stamp else t.owed }

/-! Provisional figures (R111 to R113) -/

/-- The provisional figures of a line: what it has of each (R112). -/
structure ProvisionalLine where
  figure : Option Nat
  deduction : Option Int
  paid : Option Int
  price : Option Nat
  amount : Option Nat
  restricted : Option Bool
  disabled : Bool
  overLimit : Bool
  deriving DecidableEq, Repr

/-- The provisional figures of a line under the present table (R112). That an ungraded PERCENT line shows the figure it carries is the
model's (log 54). -/
def State.provisionalLine (s : State) (l : TicketLine) : ProvisionalLine :=
  match s.lineGrade? l with
  | some g =>
    let f := l.figuresUnder g
    let excess := decide (amountLimit < f.amount)
    { figure := f.figure, deduction := some f.deduction, paid := some f.paid, price := some f.price,
      amount := if excess then none else some f.amount, restricted := some f.restricted, disabled := !g.enabled, overLimit := excess }
  | none =>
    match l.mode with
    | .grade =>
      { figure := none, deduction := none, paid := none, price := none, amount := none, restricted := none, disabled := false,
        overLimit := false }
    | .percent p =>
      let ded := percentDeduction l.net l.division p
      { figure := some p, deduction := some ded, paid := some (l.net - ded), price := none, amount := none, restricted := none,
        disabled := false, overLimit := false }
    | .weight t =>
      { figure := none, deduction := some t, paid := some (l.net - t), price := none, amount := none, restricted := none,
        disabled := false, overLimit := false }

/-- The provisional ticket figures (R113). -/
structure ProvisionalTotals where
  sum : Nat
  fee : Nat
  figures : Option (Nat × Nat × Nat × Int)
  needsApproval : Bool
  holdDays : Nat
  check : Option Status
  incomplete : Bool
  overLimit : Bool
  deriving DecidableEq, Repr

/-- The provisional totals of a ticket under the present table, limits and clock (R113); `figures` is A, C, R and d_r, not shown
when the sum is over the limit. -/
def State.provisionalTotals (s : State) (t : Ticket) : ProvisionalTotals :=
  let sum := s.amountSum t.lines
  let excess := decide (amountLimit < sum)
  let fee := feeFor t.kind s.grt.limits.fee
  let payable := sum - fee
  let split := cashSplit s.grt.limits payable
  { sum := sum, fee := fee, figures := if excess then none else some (payable, split.1, split.2.1, split.2.2),
    needsApproval := approvalNeeded s.grt.limits payable t.lines, holdDays := s.holdDays t.lines,
    check := (s.settleCheck t).map (·.1), incomplete := t.lines.any fun l => s.lineUngraded l || s.lineOverLimit l,
    overLimit := excess }

/-- Whether TICKET READ gives provisional figures: no settlement block, and OPEN, WEIGHING or COMPLETE (R111). -/
def Ticket.provisional (t : Ticket) : Bool :=
  t.settlement.isNone && (t.st == .opened || t.st == .weighing || t.st == .complete)

end Sys2Proof.Machine
end

