-- ==== Sys2Proof/Machine/Tares.lean ====
section
/-! DEFINITION. The vehicle tare register (chapter 6). The register is its use order: the least recently used entry stands first. -/

namespace Sys2Proof.Machine

/-! Age and usability (R116) -/

/-- The age of an entry in days at the present date (R116, R187). -/
def State.tareAge (s : State) (e : TareEntry) : Nat := e.storedAt.time.date.daysTo s.clu.now.date

/-- Why an entry is not usable, the first reason (R123). -/
inductive TareFault where
  | clock | stamp | age
  deriving DecidableEq, Repr

/-- The test of R116: none when the entry is usable at this moment. -/
def State.tareFault (s : State) (e : TareEntry) : Option TareFault :=
  if !s.clu.valid then some .clock
  else if !e.storedAt.valid then some .stamp
  else if s.grt.limits.tareValidity < s.tareAge e then some .age
  else none

/-- The entry that holds a plate, if any. -/
def State.tare? (s : State) (plate : Text) : Option TareEntry := s.vtr.find? fun e => e.plate == plate

/-- The entry of a plate that is usable at this moment. -/
def State.usableTare? (s : State) (plate : Text) : Option TareEntry :=
  match s.tare? plate with
  | some e => if (s.tareFault e).isNone then some e else none
  | none => none

/-! Storing, using, deleting (R119 to R122) -/

/-- The entries without a plate. -/
def withoutPlate (vtr : List TareEntry) (plate : Text) : List TareEntry := vtr.filter fun e => e.plate != plate

/-- A new or updated entry: uses 0 and both stamps the time of storing (R119). -/
def freshTare (plate : Text) (tare : Int) (channel : Bridge) (division : Nat) (now : Stamp) : TareEntry :=
  { plate := plate, tare := tare, channel := channel, division := division, storedAt := now, lastUsedAt := now, uses := 0 }

/-- The entry that storing a new plate evicts: the least recently used one of a full register (R119). -/
def evicted? (vtr : List TareEntry) (plate : Text) : Option TareEntry :=
  if vtr.any (fun e => e.plate == plate) then none else if 32 ≤ vtr.length then vtr.head? else none

/-- The register after storing an entry: in place of one with its plate, or as a new one, evicting when it is full; either way at the
newest end of the use order (R119). -/
def storeTare (vtr : List TareEntry) (e : TareEntry) : List TareEntry :=
  match evicted? vtr e.plate with
  | some _ => vtr.tail ++ [e]
  | none => withoutPlate vtr e.plate ++ [e]

/-- The register after a finish has used an entry (R120). -/
def useTare (vtr : List TareEntry) (e : TareEntry) (now : Stamp) : List TareEntry :=
  withoutPlate vtr e.plate ++ [{ e with lastUsedAt := now, uses := saturating e.uses 65535 }]

/-- Every entry of a channel is removed (R122). -/
def State.dropTares (s : State) (ch : Channel) : State :=
  match ch.bridge? with
  | some b => { s with vtr := s.vtr.filter fun e => e.channel != b }
  | none => s

/-! Requests -/

/-- The codes of the reasons, from 1: 0 stands for an absent reason (log 20). -/
def TareFault.code : TareFault → Nat
  | .clock => 1 | .stamp => 2 | .age => 3

/-- An entry with every field of section 6.1. -/
def TareEntry.fields (e : TareEntry) : List Field :=
  [.text e.plate, .i32 e.tare, .u8 e.channel.num, .i32 e.division, .stamp e.storedAt, .stamp e.lastUsedAt, .u16 e.uses]

/-- An entry as TARE READ reports it: its fields, its age, whether it is usable and the first reason when not (R123). -/
def State.tareFields (s : State) (e : TareEntry) : List Field :=
  e.fields ++ optU16 (if s.clu.valid && e.storedAt.valid then some (s.tareAge e) else none)
    ++ (match s.tareFault e with
      | none => [.u8 1, .u8 0]
      | some f => [.u8 0, .u8 f.code])

/-- TARE STORE (R117): answered with the entry, whether it updates one (1) or is new (0), and an evicted plate (log 20, 22). -/
def Tares.store (plate : Text) (ch : Nat) (tare : Int) : Handler := fun _ s =>
  match normalisePlate plate, Bridge.ofNat? ch with
  | some p, some b =>
    let set := (s.chan b.channel).set
    if !set.calibrated then refuse s .wrongState
    else if tare % (set.d : Int) ≠ 0 ∨ tare < (set.d : Int) ∨ (set.K : Int) + 9 * (set.d : Int) < tare then refuse s .badParam
    else
      let e := freshTare p tare b set.d s.stamp
      done { s with vtr := storeTare s.vtr e }
        (e.fields ++ flagField (s.tare? p).isSome :: optText ((evicted? s.vtr p).map (·.plate)))
  | _, _ => refuse s .badParam

def execTareStore (src : Sender) (plate : Text) (ch : Nat) (tare : Int) (s : State) : Host.Outcome State Fault Refusal :=
  request src 0x38 (Tares.store plate ch tare) s

/-- TARE READ (R123) changes nothing. -/
def Tares.read (select : TareSelect) : Handler := fun _ s =>
  match select with
  | .plate p =>
    match normalisePlate p with
    | none => refuse s .badParam
    | some q =>
      match s.tare? q with
      | none => refuse s .noTare
      | some e => done s (s.tareFields e)
  | .page start =>
    let given := (s.vtr.drop start).take 4
    done s (.u8 s.vtr.length :: listFields s.tareFields given ++ [flagField (decide (start + given.length < s.vtr.length))])

def execTareRead (src : Sender) (select : TareSelect) (s : State) : Host.Outcome State Fault Refusal :=
  request src 0x39 (Tares.read select) s

/-- TARE DELETE of one plate, or of ALL (R121), which no plate stands for (log 21). The answer is the number of entries removed; that it
is one byte is the model's (log 20). -/
def Tares.delete (plate : Option Text) : Handler := fun _ s =>
  match plate with
  | none => done { s with vtr := [] } [.u8 s.vtr.length]
  | some p =>
    match normalisePlate p with
    | none => refuse s .badParam
    | some q =>
      match s.tare? q with
      | none => refuse s .noTare
      | some _ => done { s with vtr := withoutPlate s.vtr q } [.u8 1]

def execTareDelete (src : Sender) (plate : Option Text) (s : State) : Host.Outcome State Fault Refusal :=
  request src 0x3A (Tares.delete plate) s

end Sys2Proof.Machine
end

