-- ==== Sys2Proof/Machine/Receipt.lean ====
section
/-! DEFINITION. The content of a receipt: its lines of at most 40 columns (section 8.5, R173 to R175). Columns and spacing that no
rule states follow the printed example of chapter 8 (log 25). -/

namespace Sys2Proof.Machine

/-! Forms (R173) -/

/-- Weights in kilograms with one decimal and a thousands separator. -/
def kilograms (t : Int) : Text :=
  (if t < 0 then txt "-" else []) ++ thousands (t.natAbs / 10) ++ txt "." ++ decimal (t.natAbs % 10)

/-- Amounts in the currency with two decimals. -/
def money (cents : Nat) : Text := thousands (cents / 100) ++ txt "." ++ decimalWidth 2 (cents % 100)

/-- A signed rounding difference carries its sign. -/
def signedMoney (cents : Int) : Text :=
  (if cents < 0 then txt "-" else if 0 < cents then txt "+" else []) ++ money cents.natAbs

/-- Prices per kilogram with four decimals. -/
def pricePerKilogram (p : Nat) : Text := decimal (p / 10000) ++ txt "." ++ decimalWidth 4 (p % 10000) ++ txt "/KG"

/-- Deduction figures with one decimal and a percent sign. -/
def percentage (tenths : Nat) : Text := decimal (tenths / 10) ++ txt "." ++ decimal (tenths % 10) ++ txt "%"

def dateText (d : Date) : Text := decimalWidth 4 d.year ++ txt "-" ++ decimalWidth 2 d.month ++ txt "-" ++ decimalWidth 2 d.day

/-- Dates and times as 2030-12-18 11:40:10. -/
def stampText (s : Stamp) : Text :=
  dateText s.time.date ++ txt " " ++ decimalWidth 2 s.time.hour ++ txt ":" ++ decimalWidth 2 s.time.minute ++ txt ":"
    ++ decimalWidth 2 s.time.second

/-- The ticket as series and number. -/
def ticketText (t : Ticket) : Text := decimalWidth 2 t.series ++ txt "-" ++ decimalWidth 6 t.number

/-- A field put to the right of a width. -/
def rightAligned (width : Nat) (t : Text) : Text := List.replicate (width - t.length) 32 ++ t

/-- A weight line: the label in 6 columns and the weight to the right of 8, then what follows it. -/
def weightLine (label : Text) (t : Int) (rest : Text) : Text :=
  label ++ List.replicate (6 - label.length) 32 ++ rightAligned 8 (kilograms t) ++ txt " KG" ++ rest

/-- Two fields on one line when 40 columns hold them, else on two (R173: a line holds at most 40 characters; log 25). -/
def paired (a b : Text) : List Text := if a.length + 3 + b.length ≤ 40 then [a ++ txt "   " ++ b] else [a, b]

/-! Sections (R174, R175) -/

/-- The three bodies of a receipt. -/
inductive Body where
  | weighSlip | payout | voidNotice
  deriving DecidableEq, Repr

def Body.title : Body → Text
  | .weighSlip => txt "WEIGH SLIP"
  | .payout => txt "PAYOUT RECEIPT"
  | .voidNotice => txt "VOID NOTICE"

def kindText : TicketKind → Text
  | .bridge => txt "BRIDGE"
  | .counter => txt "COUNTER"

def CopyLabel.text : CopyLabel → Text
  | .customer => txt "CUSTOMER COPY"
  | .yard => txt "YARD COPY"
  | .copy n => txt "COPY " ++ decimal n

/-- The channel and calibration counter of the weighing or capture that gave a weight. -/
def sourceText (ch : Channel) (calCounter : Nat) : Text :=
  txt "  C" ++ decimal ch.num ++ txt " CAL " ++ decimal calCounter

/-- The source of a line's gross: the weighing of its place on a BRIDGE ticket, the capture on a COUNTER ticket. -/
def grossSource (t : Ticket) (l : TicketLine) (index : Nat) : Text :=
  match l.capture with
  | some c => sourceText c.channel c.calCounter
  | none =>
    match t.weighings[index]? with
    | some w => sourceText w.channel w.calCounter
    | none => []

/-- The source of a line's tare (R175). -/
def tareSource (t : Ticket) (l : TicketLine) (index : Nat) : Text :=
  match l.source with
  | .container => txt "  CONTAINER"
  | .stored => txt "  STORED TARE"
  | .weighed =>
    match t.weighings[index + 1]? with
    | some w => sourceText w.channel w.calCounter
    | none => []

/-- The figures of a settled line: deduction, paid weight, price, amount (R175). -/
def figureLines (f : LineFigures) : List Text :=
  paired
      (txt "DEDUCT " ++ (match f.figure with
        | some p => percentage p ++ txt "  "
        | none => []) ++ kilograms f.deduction ++ txt " KG")
      (txt "PAID WT " ++ kilograms f.paid ++ txt " KG")
    ++ paired (pricePerKilogram f.price) (txt "AMOUNT " ++ money f.amount)

/-- The name of a line's grade, from the grade table as it stands, or UNGRADED. -/
def State.gradeName (s : State) (l : TicketLine) : Text :=
  match s.lineGrade? l with
  | some g => g.name
  | none => txt "UNGRADED"

/-- One ticket line as one block (R175); a void notice prints weights only. -/
def State.lineBlock (s : State) (t : Ticket) (body : Body) (l : TicketLine) (index : Nat) : List Text :=
  [ decimal (index + 1) ++ txt " " ++ s.gradeName l,
    weightLine (txt "GROSS") l.gross (grossSource t l index),
    weightLine (txt "TARE") l.tare (tareSource t l index),
    weightLine (txt "NET") l.net [] ]
    ++ (if l.coarse then [txt "COARSE"] else [])
    ++ (match body, l.figures with
      | .voidNotice, _ => []
      | _, some f => figureLines f
      | _, none => [])

/-- The totals of a settled ticket, without the balance (R175). -/
def totalLines (t : Ticket) (b : Settlement) : List Text :=
  (if t.kind = .bridge then [txt "FEE " ++ money b.fee] else [])
    ++ [txt "PAYABLE " ++ money b.payable]
    ++ paired (txt "CASH PART " ++ money b.cash) (txt "ROUNDING " ++ signedMoney b.rounding)

/-- BALANCE BY OTHER MEANS, printed when above 0. -/
def balanceLine (cents : Nat) : List Text := if 0 < cents then [txt "BALANCE BY OTHER MEANS " ++ money cents] else []

/-- The payment section (R175). -/
def paymentLines (b : Settlement) (p : PayoutRecord) : List Text :=
  [txt "CASH PAID " ++ money p.paid]
    ++ (if 0 < p.shortfall then [txt "SHORTFALL " ++ money p.shortfall] else [])
    ++ balanceLine (b.remainder + p.shortfall)

/-- Sections 9 to 13 of R174. -/
def closingLines (t : Ticket) (body : Body) : List Text :=
  match body, t.settlement with
  | .weighSlip, some b =>
    totalLines t b ++ balanceLine b.remainder
      ++ (match t.st, b.holdUntil with
        | .held, some d => [txt "HOLD UNTIL " ++ dateText d]
        | _, _ => [])
  | .weighSlip, none => [txt "NOT SETTLED"]
  | .payout, some b =>
    totalLines t b ++ (match t.payout with
      | some p => paymentLines b p
      | none => [])
  | .payout, none => []
  | .voidNotice, _ => [txt "VOID"]

/-- The stamps a receipt prints: opened, closed when present, printed. -/
def printedStamps (t : Ticket) (now : Stamp) : List Stamp := t.openedAt :: t.closedAt.toList ++ [now]

/-- The content of a receipt: every section of R174 but the marker line. -/
def State.receipt (s : State) (t : Ticket) (body : Body) (label : CopyLabel) (serial : Nat) : List Text :=
  [s.rpu.header1, s.rpu.header2, s.rpu.header3].filter (· ≠ [])
    ++ [ body.title,
         txt "STATION " ++ decimalWidth 2 s.straps ++ txt "   TICKET " ++ ticketText t ++ txt "   " ++ kindText t.kind,
         txt "OPENED  " ++ stampText t.openedAt ]
    ++ (match t.closedAt with
      | some c => [txt "CLOSED  " ++ stampText c]
      | none => [])
    ++ [txt "PRINTED " ++ stampText s.stamp]
    ++ (if (printedStamps t s.stamp).any (fun x => !x.valid) then [txt "CLOCK NOT SET"] else [])
    ++ (match t.plate with
      | some p => [txt "PLATE " ++ p]
      | none => [])
    ++ (match t.customer with
      | some c => [txt "CUSTOMER " ++ c]
      | none => [])
    ++ (t.lines.zipIdx.flatMap fun x => s.lineBlock t body x.1 x.2)
    ++ closingLines t body
    ++ [label.text ++ txt "   RECEIPT " ++ decimalWidth 7 serial]

/-- The marker line of a restart (R164). -/
def markerLine : Text := txt "REPRINT AFTER PRINTER FAULT"

/-- The body a COPY job takes from the ticket's state (R164). -/
def copyBody (t : Ticket) : Body :=
  match t.st with
  | .void => .voidNotice
  | .paid => .payout
  | .closed => .payout
  | _ => .weighSlip

/-- The body of a job. -/
def jobBody (k : JobKind) (t : Ticket) : Body :=
  match k with
  | .weighSlip => .weighSlip
  | .payout => .payout
  | .voidNotice => .voidNotice
  | .copy => copyBody t

end Sys2Proof.Machine
end

