-- ==== Sys2Proof/Machine/Printing.lean ====
section
/-! DEFINITION. The receipt print unit: queue, printer reports, starts, ends and cancels (chapter 8). -/

namespace Sys2Proof.Machine

/-! The printer state (R159) -/

/-- The head job is being printed. -/
def Rpu.headPrinting (r : Rpu) : Bool :=
  match r.queue with
  | j :: _ => j.st == .printing
  | [] => false

/-- Paper out or cover open. -/
def Rpu.blocked (r : Rpu) : Bool := r.paper == .out || r.cover == .opened

/-- The printer state: the first that holds (R159). A cancelled copy whose LINE is still to be answered counts with its cut
(log 27). -/
def Rpu.st (r : Rpu) : PrinterSt :=
  if r.offline then .offline
  else if r.blocked then .stalled
  else if r.head = .hot then .paused
  else if r.headPrinting || r.cancelCut != .none then .busy
  else .ready

/-- Entries into STALLED or OFFLINE and moves out of them latch PRINTER to both ports (R159). -/
def PrinterSt.troubled : PrinterSt → Bool
  | .offline => true
  | .stalled => true
  | _ => false

def State.notePrinter (after before : State) : State :=
  if before.rpu.st ≠ after.rpu.st ∧ (before.rpu.st.troubled ∨ after.rpu.st.troubled) then after.latchBoth .printer else after

/-! Queue (R160, R161) -/

/-- A job id, skipping those held by a job in the queue; at most 8 are held. -/
def freeId (queue : List Job) : (fuel id : Nat) → Nat
  | 0, id => id
  | fuel + 1, id => if queue.any (fun j => j.id == id) then freeId queue fuel (wrapping id 1 255) else id

/-- A job joins at the tail and takes the next free id (R160). -/
def Rpu.join (r : Rpu) (ref : TicketRef) (kind : JobKind) (label : Option CopyLabel) (source : JobSource) : Rpu :=
  let id := freeId r.queue 8 r.nextId
  { r with
    queue :=
      r.queue ++
        [ { id := id, ticket := ref, kind := kind, label := label, source := source, st := .queued, started := false,
            serial := none, orphaned := false, content := [], next := 1, restart := false, marker := false } ]
    nextId := wrapping id 1 255 }

def Ticket.ref (t : Ticket) : TicketRef := ⟨t.number, t.opening⟩

/-- An automatic job of a kind for a ticket that stands in the queue for an owed receipt: orphaned jobs do not count (R161). -/
def Job.standsFor (j : Job) (ref : TicketRef) (kind : JobKind) : Bool :=
  j.source == .auto && j.ticket == ref && j.kind == kind && !j.orphaned

/-- How many receipts of a kind a ticket owes that no job stands for (R161). -/
def Rpu.unqueued (r : Rpu) (t : Ticket) (kind : JobKind) : Nat :=
  t.owed.count kind - (r.queue.filter fun j => j.standsFor t.ref kind).length

/-- The first kind of a ticket with an unqueued receipt (R161). -/
def Rpu.unqueuedKind? (r : Rpu) (t : Ticket) : Option JobKind :=
  [JobKind.weighSlip, .payout, .voidNotice].find? fun k => decide (0 < r.unqueued t k)

/-- The owed-since stamp as a number to compare by. -/
def Ticket.owedSince (t : Ticket) : Nat :=
  match t.owed.since with
  | some x => x.time.number
  | none => 0

/-- Of tickets in opening order, the one whose owed-since stamp is oldest, the first of equals (R161). -/
def oldestOwed : List Ticket → Option Ticket
  | [] => none
  | t :: rest =>
    match oldestOwed rest with
    | some u => if u.owedSince < t.owedSince then some u else some t
    | none => some t

/-- The copy label of an automatic job (R161). -/
def Rpu.autoLabel (r : Rpu) (t : Ticket) : JobKind → CopyLabel
  | .weighSlip => .customer
  | .payout => if 2 ≤ r.unqueued t .payout then .customer else .yard
  | _ => .yard

/-- One automatic job, for the ticket and kind that R161 takes first; none when nothing is unqueued or the queue is full. -/
def State.fillOne (s : State) : Option State :=
  if 8 ≤ s.rpu.queue.length then none
  else
    match oldestOwed (s.tkt.tickets.filter fun t => (s.rpu.unqueuedKind? t).isSome) with
    | none => none
    | some t =>
      match s.rpu.unqueuedKind? t with
      | none => none
      | some k => some { s with rpu := s.rpu.join t.ref k (some (s.rpu.autoLabel t k)) .auto }

/-- Fill the queue, one automatic job at a time, while it has room and some receipt is unqueued (R161). -/
def fillUpTo : (fuel : Nat) → State → State
  | 0, s => s
  | n + 1, s =>
    match s.fillOne with
    | some t => fillUpTo n t
    | none => s

def State.fill (s : State) : State := fillUpTo 8 s

/-! Ends (R165) -/

/-- The end of a job already out of the queue: an entry in the ended-job list, and PRINT_END to both ports for an automatic job, to the
source port for any other (R165). -/
def State.recordEnd (s : State) (j : Job) (ending : JobEnd) : State :=
  let entry : EndedJob :=
    { id := j.id, ticket := j.ticket.number, kind := j.kind, label := j.label, source := j.source, serial := j.serial,
      ending := ending }
  let s1 := { s with rpu := { s.rpu with ended := keepLast 8 (s.rpu.ended ++ [entry]) } }
  match j.source with
  | .auto => s1.latchBoth .printEnd
  | .port p => s1.latch p .printEnd

/-- An automatic job that is not orphaned discharges one owed receipt of its kind (R165, R169). -/
def State.dischargeJob (s : State) (j : Job) (cancelled : Bool) : State :=
  if j.source == .auto && !j.orphaned then
    s.changeTicket j.ticket.number fun t => t.discharge j.kind cancelled s.stamp
  else s

/-! Starts (R164) -/

/-- The command for the head job's next line: the marker, a line of the content, or CUT when none remains (R164, R165). -/
def Job.nextCommand (j : Job) : PrinterCommand :=
  if j.marker then .line markerLine
  else
    match j.content[j.next - 1]? with
    | some t => .line t
    | none => .cut

/-- A job becomes the printing head, and its next LINE is given. -/
def Rpu.print (r : Rpu) (j : Job) (rest : List Job) : Rpu := { r with queue := j :: rest, command := some j.nextCommand }

/-- A restart: the job keeps serial, label and content, and the marker line is printed before the content (R164). The rules say when
the restart mark is set and not when it is cleared; that the restart clears it as it begins is the model's choice (log 51). -/
def Job.restarted (j : Job) : Job := { j with st := .printing, next := 1, restart := false, marker := true }

/-- The record a job names, if it still holds that ticket (R164). -/
def State.jobTicket? (s : State) (j : Job) : Option Ticket :=
  match s.ticket? j.ticket.number with
  | some t => if t.opening = j.ticket.opening then some t else none
  | none => none

/-- A first start: the serial is taken, a COPY advances the ticket's reprint count and takes its label, and the content is built
from the ticket as it stands (R164, R171). -/
def State.firstStart (s : State) (j : Job) (rest : List Job) (t : Ticket) : State :=
  let serial := s.rpu.serial
  let s1 :=
    if j.kind = .copy then s.changeTicket t.number fun t => { t with reprints := saturating t.reprints 255 } else s
  let label := if j.kind = .copy then CopyLabel.copy (saturating t.reprints 255) else j.label.getD .customer
  let content := s.receipt t (jobBody j.kind t) label serial
  let j' := { j with st := .printing, started := true, serial := some serial, label := some label, content := content, next := 1 }
  { s1 with rpu := { s1.rpu.print j' rest with serial := wrapping serial 1 9999999 } }

/-- The head job starts when the printer is READY and it is QUEUED; a gone job ends without printing, the queue is filled, and the
next head is tested (R164). Each turn takes a job out of the queue or starts one. -/
def startHead : (fuel : Nat) → State → State
  | 0, s => s
  | n + 1, s =>
    match s.rpu.queue with
    | [] => s
    | j :: rest =>
      if s.rpu.st = .ready ∧ j.st = .queued then
        if j.started then { s with rpu := s.rpu.print j.restarted rest }
        else
          match s.jobTicket? j with
          | some t => s.firstStart j rest t
          | none => startHead n (({ s with rpu := { s.rpu with queue := rest } }.recordEnd j .gone).fill)
      else s

/-- At most 8 jobs are tested, and one more starts. -/
def State.startPrint (s : State) : State := startHead 16 s

/-- The queue is filled, and its head starts if the printer is READY. -/
def State.pump (s : State) : State := s.fill.startPrint

/-! Reports (R157, R158, R165 to R168) -/

/-- The head job changed. -/
def Rpu.mapHead (r : Rpu) (f : Job → Job) : Rpu :=
  match r.queue with
  | j :: rest => { r with queue := f j :: rest }
  | [] => r

/-- A job in PRINTING or PAUSED. -/
def Job.underWay (j : Job) : Bool := j.st == .printing || j.st == .paused

/-- A job that a stall holds: STALLED with its restart marked (R167). -/
def Job.stall (j : Job) : Job := if j.underWay then { j with st := .stalled, restart := true, marker := false } else j

/-- A job that OFFLINE returns to the queue with its restart marked (R168). -/
def Job.requeue (j : Job) : Job := if j.underWay then { j with st := .queued, restart := true, marker := false } else j

/-- A stalled job returns to QUEUED when the stall ends (R167). -/
def Job.unstall (j : Job) : Job := if j.st = .stalled then { j with st := .queued } else j

/-- After a report: a stall that has ended releases its job, and the head starts if the printer is READY (R164, R167). -/
def State.resume (s : State) : State :=
  let s1 := if s.rpu.offline || s.rpu.blocked then s else { s with rpu := s.rpu.mapHead Job.unstall }
  s1.startPrint

/-- Any report moves the printer out of OFFLINE (R158). -/
def Rpu.heard (r : Rpu) : Rpu := { r with offline := false }

/-- The printed line of the head job is done: the marker, which is no line of the content and leaves the next line at 1 (R164), or the
next line (R165), which after the last line of the content is one past it (log 55). -/
def Job.lineDone (j : Job) : Job := if j.marker then { j with marker := false } else { j with next := j.next + 1 }

/-- LINE_DONE answering the outstanding LINE (R165, R166, R169). -/
def Rpu.lineDone (r : Rpu) : Rpu :=
  let r1 := { r with command := none }
  match r.cancelCut with
  | .afterLine => { r1 with command := some .cut, cancelCut := .cutting }
  | _ =>
    match r.queue with
    | [] => r1
    | j :: rest =>
      if j.underWay then
        let j' := j.lineDone
        if j.st = .printing then r1.print j' rest else { r1 with queue := j' :: rest }
      else r1

/-- LINE_DONE: out of OFFLINE, or the answer of a LINE, or discarded (R157, R158). -/
def Print.lineDone (s : State) : State :=
  if s.rpu.offline then ({ s with rpu := s.rpu.heard }.resume).notePrinter s
  else
    match s.rpu.command with
    | some (.line _) => { s with rpu := s.rpu.lineDone }
    | _ => s

def execLineDone (s : State) : Host.Outcome State Fault Refusal := run Print.lineDone s

/-- CUT_DONE answering the outstanding CUT: the cut of a cancelled copy ends, or the head job ends with a cut (R165, R169). -/
def State.cutAnswered (s : State) : State :=
  let s1 := { s with rpu := { s.rpu with command := none, cancelCut := .none } }
  if s.rpu.cancelCut = .cutting then s1.startPrint
  else
    match s.rpu.queue with
    | [] => s1
    | j :: rest =>
      ((({ s1 with rpu := { s1.rpu with queue := rest } }.dischargeJob j false).recordEnd j .cut).pump)

/-- CUT_DONE: out of OFFLINE, or the answer of a CUT, or discarded (R157, R158). -/
def Print.cutDone (s : State) : State :=
  if s.rpu.offline then ({ s with rpu := s.rpu.heard }.resume).notePrinter s
  else
    match s.rpu.command with
    | some .cut => s.cutAnswered
    | _ => s

def execCutDone (s : State) : Host.Outcome State Fault Refusal := run Print.cutDone s

/-- PAPER_LOW: paper is present; each report latches PAPER_LOW (R159), and one may end a stall (R167). -/
def Print.paperLow (s : State) : State :=
  (({ s with rpu := { s.rpu.heard with paper := .low } }.latchBoth .paperLow).resume).notePrinter s

def execPaperLow (s : State) : Host.Outcome State Fault Refusal := run Print.paperLow s

/-- A report of paper out or cover open ends the outstanding command unmade and stalls a started head job; the cut of a cancelled
copy ends with it (R157, R167), and so does one still to come after the LINE of a cancelled copy (log 49). -/
def Rpu.stall (r : Rpu) : Rpu := { r.mapHead Job.stall with command := none, cancelCut := .none }

def Print.paperOut (s : State) : State := { s with rpu := ({ s.rpu.heard with paper := .out } : Rpu).stall }.notePrinter s

def execPaperOut (s : State) : Host.Outcome State Fault Refusal := run Print.paperOut s

/-- PAPER_IN (R167). -/
def Print.paperIn (s : State) : State := ({ s with rpu := { s.rpu.heard with paper := .loaded } }.resume).notePrinter s

def execPaperIn (s : State) : Host.Outcome State Fault Refusal := run Print.paperIn s

def Print.coverOpen (s : State) : State := { s with rpu := ({ s.rpu.heard with cover := .opened } : Rpu).stall }.notePrinter s

def execCoverOpen (s : State) : Host.Outcome State Fault Refusal := run Print.coverOpen s

/-- COVER_CLOSED (R167). -/
def Print.coverClosed (s : State) : State := ({ s with rpu := { s.rpu.heard with cover := .closed } }.resume).notePrinter s

def execCoverClosed (s : State) : Host.Outcome State Fault Refusal := run Print.coverClosed s

/-- A printing job pauses while the head is hot (R166). -/
def Job.pause (j : Job) : Job := if j.st = .printing then { j with st := .paused } else j

/-- HEAD_HOT: a printing job pauses; an outstanding command is still answered (R166). Like any report it ends OFFLINE (R158); that this
holds beside R166, by which a head turning hot in OFFLINE changes the condition only, is the model's reading (log 19). -/
def Print.headHot (s : State) : State :=
  let r := ({ s.rpu.heard with head := .hot } : Rpu)
  ({ s with rpu := r.mapHead Job.pause }.resume).notePrinter s

def execHeadHot (s : State) : Host.Outcome State Fault Refusal := run Print.headHot s

/-- A paused head job goes on: its next line is given unless a command is still outstanding (R166). -/
def Rpu.cooled (r : Rpu) : Rpu :=
  match r.queue with
  | [] => r
  | j :: rest =>
    if j.st = .paused then
      let j' := { j with st := .printing }
      if r.command.isNone then r.print j' rest else { r with queue := j' :: rest }
    else r

/-- HEAD_COOL (R166), which ends OFFLINE as HEAD_HOT does (log 19). -/
def Print.headCool (s : State) : State :=
  let r := ({ s.rpu.heard with head := .cool } : Rpu)
  ({ s with rpu := if r.blocked then r else r.cooled }.resume).notePrinter s

def execHeadCool (s : State) : Host.Outcome State Fault Refusal := run Print.headCool s

/-- Expiry of a printer command's answer timer: OFFLINE, the command no longer outstanding, and a started head job back in the queue
with its restart marked (R158, R168). With no command outstanding no timer runs. A cut that was to follow the LINE of a cancelled
copy is not given after its answer timer has expired: the model's choice (log 49). -/
def Print.answerTimeout (s : State) : State :=
  match s.rpu.command with
  | none => s
  | some _ =>
    { s with rpu := { s.rpu.mapHead Job.requeue with command := none, cancelCut := .none, offline := true } }.notePrinter s

def execPrinterAnswerTimeout (s : State) : Host.Outcome State Fault Refusal := run Print.answerTimeout s

/-! Withdrawal (R162) -/

/-- An automatic weigh slip job of a ticket whose slip is no longer owed: one not started leaves the queue, one started is orphaned
(R162). -/
def Job.isSlipOf (j : Job) (ref : TicketRef) : Bool := j.standsFor ref .weighSlip

def State.withdrawSlips (s : State) (ref : TicketRef) : State :=
  let gone := s.rpu.queue.filter fun j => j.isSlipOf ref && !j.started
  let kept := s.rpu.queue.filter fun j => !(j.isSlipOf ref && !j.started)
  let queue := kept.map fun j => if j.isSlipOf ref then { j with orphaned := true } else j
  (gone.foldl (fun (t : State) (j : Job) => t.recordEnd j .withdrawn) { s with rpu := { s.rpu with queue := queue } }).pump

/-! Requests (R163, R169, R170, R172) -/

/-- The number of jobs from ports. -/
def Rpu.portJobs (r : Rpu) : Nat := (r.queue.filter fun j => j.source != .auto).length

/-- RECEIPT PRINT (R163). The codes 0 SLIP and 1 COPY of the form are the model's (log 20). -/
def Print.receiptPrint (ticket form : Nat) : Handler := fun p s =>
  match s.ticket? ticket with
  | none => refuse s .noTicket
  | some t =>
    if 1 < form then refuse s .badParam
    else if t.st = .opened ∨ (form = 0 ∧ t.st = .void) then refuse s .wrongState
    else if 8 ≤ s.rpu.queue.length ∨ 6 ≤ s.rpu.portJobs then refuse s .queueFull
    else
      let r :=
        if form = 0 then s.rpu.join t.ref .weighSlip (some .customer) (.port p) else s.rpu.join t.ref .copy none (.port p)
      done { s with rpu := r }.startPrint [.u8 (freeId s.rpu.queue 8 s.rpu.nextId), .u8 (s.rpu.queue.length + 1)]

def execReceiptPrint (src : Sender) (ticket form : Nat) (s : State) : Host.Outcome State Fault Refusal :=
  request src 0x60 (Print.receiptPrint ticket form) s

def JobSt.code : JobSt → Nat
  | .queued => 0 | .printing => 1 | .paused => 2 | .stalled => 3

/-- What the mechanism does for a cancelled job (R169). -/
def Rpu.cancelMechanism (r : Rpu) (j : Job) : Rpu :=
  if j.underWay then
    match r.command with
    | some (.line _) => { r with cancelCut := .afterLine }
    | some .cut => { r with cancelCut := .cutting }
    | none => { r with command := some .cut, cancelCut := .cutting }
  else r

/-- PRINT CANCEL (R169): the window port may cancel only its own jobs. -/
def Print.cancel (id : Nat) : Handler := fun p s =>
  match s.rpu.queue.find? (fun j => j.id == id) with
  | none => refuse s .noOperation
  | some j =>
    if p = .window ∧ j.source ≠ .port .window then refuse s .wrongPort
    else
      let r := { s.rpu with queue := s.rpu.queue.filter fun x => x.id != id }
      let s1 := { s with rpu := r.cancelMechanism j }
      done (((s1.dischargeJob j true).recordEnd j .cancelled).pump) [.u8 j.st.code]

def execPrintCancel (src : Sender) (job : Nat) (s : State) : Host.Outcome State Fault Refusal :=
  request src 0x61 (Print.cancel job) s

def PrinterSt.code : PrinterSt → Nat
  | .offline => 0 | .stalled => 1 | .paused => 2 | .busy => 3 | .ready => 4

def JobKind.code : JobKind → Nat
  | .weighSlip => 0 | .payout => 1 | .voidNotice => 2 | .copy => 3

/-- A copy label: 0 absent, 1 CUSTOMER, 2 YARD, 3 COPY n; then n. That it always takes two bytes, with n sent as 0 for all but COPY n,
is the model's (log 20). -/
def labelFields : Option CopyLabel → List Field
  | none => [.u8 0, .u8 0]
  | some .customer => [.u8 1, .u8 0]
  | some .yard => [.u8 2, .u8 0]
  | some (.copy n) => [.u8 3, .u8 n]

def sourceCode : JobSource → Nat
  | .auto => 0
  | .port p => portCode p

def JobEnd.code : JobEnd → Nat
  | .cut => 0 | .cancelled => 1 | .gone => 2 | .withdrawn => 3

/-- A job with every field of the job table except its content, and its next line (R170). The table lists the next line before the restart
mark, and R170 names it once more at the end of its list, so its place is open (R213): that it is sent once, where the table has it, before
the restart mark, is the model's choice (log 53). -/
def Job.fields (j : Job) : List Field :=
  [.u8 j.id, .u24 j.ticket.number, .u32 j.ticket.opening, .u8 j.kind.code] ++ labelFields j.label
    ++ [.u8 (sourceCode j.source), .u8 j.st.code, flagField j.started, zeroU24 j.serial, flagField j.orphaned, .u8 j.next,
      flagField j.restart]

def EndedJob.fields (e : EndedJob) : List Field :=
  [.u8 e.id, .u24 e.ticket, .u8 e.kind.code] ++ labelFields e.label
    ++ [.u8 (sourceCode e.source), zeroU24 e.serial, .u8 e.ending.code]

/-- The outstanding command: 0 none, 1 LINE, 2 CUT. -/
def printerCommandCode : Option PrinterCommand → Nat
  | none => 0
  | some (.line _) => 1
  | some .cut => 2

def Paper.code : Paper → Nat
  | .loaded => 0 | .low => 1 | .out => 2

/-- Part 0 of PRINTER STATE (R170). R170 gives no codes for the conditions of cover and head: cover 0 closed, 1 open, and head 0
cool, 1 hot, are the model's (log 20). -/
def Rpu.stateFields (r : Rpu) : List Field :=
  [ .u8 r.st.code, .u8 r.paper.code, flagField (r.cover == .opened), flagField (r.head == .hot),
    .u8 (printerCommandCode r.command), flagField (r.cancelCut == .cutting), .u8 r.queue.length, .u8 r.portJobs, .u8 r.nextId,
    .u24 r.serial, .text r.header1, .text r.header2, .text r.header3, flagField r.autoBridge, flagField r.autoCounter ]

/-- PRINTER STATE (R170) changes nothing. -/
def Print.state (part : Nat) : Handler := fun _ s =>
  let r := s.rpu
  match part with
  | 0 => done s (r.stateFields ++ [flagField (!r.queue.isEmpty || !r.ended.isEmpty)])
  | 1 => done s (listFields Job.fields (r.queue.take 4) ++ [flagField (decide (4 < r.queue.length) || !r.ended.isEmpty)])
  | 2 => done s (listFields Job.fields (r.queue.drop 4) ++ [flagField (!r.ended.isEmpty)])
  | 3 => done s (listFields EndedJob.fields r.ended ++ [flagField false])
  | _ => refuse s .badParam

def execPrinterState (src : Sender) (part : Nat) (s : State) : Host.Outcome State Fault Refusal :=
  request src 0x62 (Print.state part) s

/-- HEADER SET (R172): a longer line is cut to 40 characters. -/
def Print.headerSet (h1 h2 h3 : Text) (autoBridge autoCounter : Bool) : Handler := fun _ s =>
  if !(printableText h1 && printableText h2 && printableText h3) then refuse s .badParam
  else
    done
      { s with
        rpu :=
          { s.rpu with
            header1 := h1.take 40, header2 := h2.take 40, header3 := h3.take 40, autoBridge := autoBridge,
            autoCounter := autoCounter } }
      [.text (h1.take 40), .text (h2.take 40), .text (h3.take 40), flagField autoBridge, flagField autoCounter]

def execHeaderSet (src : Sender) (h1 h2 h3 : Text) (autoBridge autoCounter : Bool) (s : State) :
    Host.Outcome State Fault Refusal :=
  request src 0x63 (Print.headerSet h1 h2 h3 autoBridge autoCounter) s

end Sys2Proof.Machine
end

