-- ==== Sys2Proof/Machine/Tickets.lean ====
section
/-! DEFINITION. The requests of the ticket table (chapter 4), with the settlement request (R95, R96) and the tares a finish uses or
stores (R118, R120), and the lapse of a claim (R82). -/

namespace Sys2Proof.Machine

/-! TICKET OPEN (R63 to R65) -/

/-- The free place that comes first in place order, of the 48 (R64). -/
def State.freePlace? (s : State) : Option Nat :=
  ((List.range 48).map (· + 1)).find? fun k => s.tkt.tickets.all fun t => t.place != k

/-- The spent record that has been spent longest (R64). -/
def State.oldestSpent? (s : State) : Option Ticket :=
  s.tkt.spent.findSome? fun n =>
    match s.ticket? n with
    | some t => if t.isSpent then some t else none
    | none => none

/-- The first number, from the counter on, that no record holds; at most 48 are held, so 49 tests are enough (R65). -/
def freeNumber (tickets : List Ticket) : (fuel n : Nat) → Nat
  | 0, n => n
  | fuel + 1, n => if tickets.any (fun t => t.number == n) then freeNumber tickets fuel (wrapping n 1 999999) else n

/-- A new record (R63). -/
def newTicket (place number series opening : Nat) (kind : TicketKind) (customer plate : Option Text) (now : Stamp) : Ticket :=
  { place := place, number := number, series := series, opening := opening, kind := kind, st := .opened, openedAt := now,
    closedAt := none, customer := customer, plate := plate, weighings := [], lines := [], approved := false,
    needsApproval := false, claim := none, lapse := none, settlement := none, payout := none, owed := Owed.nothing, reprints := 0,
    receiptCancelled := false, revision := 0 }

/-- The place a TICKET OPEN takes and the table without the record it reuses: a free place, or that of the longest spent record,
whose content is discarded; none when the table is full (R63, R64). -/
def State.openPlace? (s : State) : Option (Nat × Tkt) :=
  match s.freePlace? with
  | some k => some (k, s.tkt)
  | none =>
    match s.oldestSpent? with
    | some t =>
      some (t.place,
        { s.tkt with
          tickets := s.tkt.tickets.filter fun x => x.number != t.number
          spent := s.tkt.spent.filter fun n => n != t.number })
    | none => none

/-- The table with a record opened in a place (R63, R65). -/
def Tkt.openIn (k : Tkt) (place : Nat) (kind : TicketKind) (customer plate : Option Text) (now : Stamp) : Tkt :=
  let number := freeNumber k.tickets 49 k.counter
  { k with
    tickets := k.tickets ++ [newTicket place number k.series k.opening kind customer plate now]
    counter := wrapping number 1 999999
    opening := wrapping k.opening 0 4294967295 }

/-- TICKET OPEN (R63); the answer is what R63 lists, with no revision (log 53). -/
def Tickets.open_ (kind : TicketKind) (customer plate : Option Text) : Handler := fun p s =>
  if !(printableOption customer && printableOption plate) then refuse s .badParam
  else if p = .window ∧ kind = .bridge then refuse s .wrongPort
  else if !(customerOptionOk customer && plateOptionOk plate) then refuse s .badParam
  else
    match s.openPlace? with
    | none => refuse s .tableFull
    | some (place, table) =>
      done { s with tkt := table.openIn place kind customer (plateOption plate) s.stamp }
        ([.u24 (freeNumber table.tickets 49 table.counter), .u8 table.series] ++ optText (plateOption plate))

def execTicketOpen (src : Sender) (kind : TicketKind) (customer plate : Option Text) (s : State) :
    Host.Outcome State Fault Refusal :=
  request src 0x40 (Tickets.open_ kind customer plate) s

/-! TICKET READ and TICKET LIST (R90, R91, R111 to R113) -/

def TicketSt.code : TicketSt → Nat
  | .opened => 0 | .weighing => 1 | .complete => 2 | .settled => 3 | .held => 4 | .claimed => 5 | .paying => 6 | .disputed => 7
  | .paid => 8 | .closed => 9 | .void => 10

def kindCode : TicketKind → Nat
  | .bridge => 0
  | .counter => 1

def TareSource.code : TareSource → Nat
  | .weighed => 0 | .container => 1 | .stored => 2

/-- Payout outcome codes (section 11.7). -/
def PayoutEnd.code : PayoutEnd → Nat
  | .paid => 1 | .paidShort => 2 | .retracted => 3 | .retractedPartial => 4 | .jammed => 5 | .cancelled => 6 | .mechFault => 7
  | .interrupted => 8

def Settlement.fields (b : Settlement) : List Field :=
  [.u16 b.version, .u32 b.fee, .u32 b.payable, .u32 b.cash, .u32 b.remainder, .i32 b.rounding, .u32 b.unit, .u32 b.cashLimit]
    ++ optDate b.holdUntil

/-- The payout record in part 0 of TICKET READ (R90), in the order of section 4.1. That list names no picked amount, which R136 writes into
the record: that it is sent, in 4 bytes between the pieces picked and the presented amount, is the model's choice (log 53). -/
def PayoutRecord.fields (r : PayoutRecord) : List Field :=
  .u32 r.planned :: r.plannedPieces.map .u16
    ++ [.u16 r.pickedPieces, .u32 r.pickedAmount, .u32 r.presentedAmount, .u16 r.presentedPieces, .u32 r.paid, .u32 r.shortfall,
      .u8 r.attempts, zeroU8 (r.last.map PayoutEnd.code)]

/-- The settle check: the code of R96 that holds, by section 11.7, or 0 for none (R113, R213). -/
def statusOrZero : Option Status → Field
  | none => .u8 0
  | some c => .u8 c.code

/-- Provisional totals (R113). A, C, R and d_r, absent where S is over the limit, stand behind one presence byte, and four zeros
stand for them then: the form is the model's (log 22). -/
def ProvisionalTotals.fields (x : ProvisionalTotals) : List Field :=
  [.u32 x.sum, .u32 x.fee]
    ++ (match x.figures with
      | none => [.u8 0, .u32 0, .u32 0, .u32 0, .i32 0]
      | some (a, c, r, d) => [.u8 1, .u32 a, .u32 c, .u32 r, .i32 d])
    ++ [flagField x.needsApproval, .u8 x.holdDays, statusOrZero x.check, flagField x.incomplete, flagField x.overLimit]

/-- The figures of part 0: the settlement block, or provisional totals, or none (R90, R111). The byte in front, 0 none, 1 the block,
2 provisional totals, is the model's (log 22). -/
def State.totalsFields (s : State) (t : Ticket) : List Field :=
  match t.settlement with
  | some b => .u8 1 :: b.fields
  | none => if t.provisional then .u8 2 :: (s.provisionalTotals t).fields else [.u8 0]

/-- Part 0 of TICKET READ (R90). The claim is its port, or 0, and then its grant stamp behind a presence byte (log 22). -/
def State.ticketHead (s : State) (t : Ticket) : List Field :=
  [.u24 t.number, .u8 t.series, .u8 (kindCode t.kind), .u8 t.st.code, .stamp t.openedAt] ++ optStamp t.closedAt
    ++ optText t.customer ++ optText t.plate ++ [flagField t.approved, flagField t.needsApproval, optPort t.claimant]
    ++ optStamp (t.claim.map (·.granted)) ++ [.u8 t.owed.slip, .u8 t.owed.copies, .u8 t.owed.notice] ++ optStamp t.owed.since
    ++ [.u8 t.reprints, flagField t.receiptCancelled, .u8 t.lines.length, .u8 t.weighings.length]
    ++ s.totalsFields t
    ++ (match t.payout with
      | none => [.u8 0]
      | some r => .u8 1 :: r.fields)

def Weighing.fields (w : Weighing) : List Field :=
  [.u8 w.channel.num, .i32 w.weight, .i32 w.division, .u16 w.calCounter, .u16 w.serial, .stamp w.time, flagField w.coarse]

/-- A deduction mode: 0 GRADE, 1 PERCENT with its figure, 2 WEIGHT with its weight. -/
def DeductMode.fields : DeductMode → List Field
  | .grade => [.u8 0]
  | .percent p => [.u8 1, .u16 p]
  | .weight t => [.u8 2, .i32 t]

def CaptureMark.fields (c : CaptureMark) : List Field := [.u8 c.channel.num, .u16 c.calCounter, .u16 c.serial, .stamp c.time]

/-- A line as held, without its figures (section 4.1). The one byte of its grade code, 0 when absent (R213), is the model's (log 20). -/
def TicketLine.fields (l : TicketLine) : List Field :=
  [zeroU8 l.grade, .i32 l.gross, .i32 l.tare, .u8 l.source.code, .i32 l.net, .i32 l.division] ++ DeductMode.fields l.mode
    ++ [flagField l.coarse]
    ++ (match l.capture with
      | none => [.u8 0]
      | some c => .u8 1 :: c.fields)

def LineFigures.fields (f : LineFigures) : List Field :=
  optU16 f.figure ++ [.i32 f.deduction, .i32 f.paid, .u32 f.price, .u32 f.amount, flagField f.restricted]

def ProvisionalLine.fields (x : ProvisionalLine) : List Field :=
  optU16 x.figure ++ optI32 x.deduction ++ optI32 x.paid ++ optU32 x.price ++ optU32 x.amount
    ++ optU8 (x.restricted.map fun b => if b then 1 else 0) ++ [flagField x.disabled, flagField x.overLimit]

/-- A line as stored: its settled figures stand behind their presence byte (R71, R213, log 22). -/
def TicketLine.storedFields (l : TicketLine) : List Field :=
  l.fields ++
    match l.figures with
    | some f => .u8 1 :: f.fields
    | none => [.u8 0]

/-- A line with its settled figures, with provisional ones, or with none (R90, R111, R112). The byte in front of the figures, 1, 2 or
0, is the model's (log 22). -/
def State.lineFields (s : State) (t : Ticket) (l : TicketLine) : List Field :=
  if l.figures.isNone && t.provisional then l.fields ++ .u8 2 :: (s.provisionalLine l).fields else l.storedFields

/-- A part of TICKET READ, 0 to 3 (R90). -/
def State.ticketPart (s : State) (t : Ticket) : Nat → List Field
  | 0 => s.ticketHead t
  | 1 => listFields Weighing.fields t.weighings
  | 2 => listFields (s.lineFields t) (t.lines.take 4)
  | _ => listFields (s.lineFields t) (t.lines.drop 4)

/-- Whether a higher-numbered part holds anything (R90). -/
def Ticket.moreParts (t : Ticket) : Nat → Bool
  | 0 => !t.weighings.isEmpty || !t.lines.isEmpty
  | 1 => !t.lines.isEmpty
  | 2 => decide (4 < t.lines.length)
  | _ => false

/-- TICKET READ (R90) changes nothing. -/
def Tickets.read (n part : Nat) : Handler := fun _ s =>
  if 3 < part then refuse s .badParam
  else
    match s.ticket? n with
    | none => refuse s .noTicket
    | some t => done s (s.ticketPart t part ++ [.u8 t.revision, flagField (t.moreParts part)])

def execTicketRead (src : Sender) (ticket part : Nat) (s : State) : Host.Outcome State Fault Refusal :=
  request src 0x41 (Tickets.read ticket part) s

def Ticket.summaryFields (t : Ticket) : List Field :=
  [.u24 t.number, .u8 t.series, .u8 (kindCode t.kind), .u8 t.st.code, optPort t.claimant, flagField t.needsApproval,
    flagField t.approved, .u8 t.owed.total, .u8 t.revision]

/-- TICKET LIST (R91) changes nothing. -/
def Tickets.list (all : Bool) (start : Nat) : Handler := fun _ s =>
  let selected := s.tkt.tickets.filter fun t => all || !t.isSpent
  let given := (selected.drop start).take 12
  done s
    (.u8 selected.length :: listFields Ticket.summaryFields given
      ++ [flagField (decide (start + given.length < selected.length))])

def execTicketList (src : Sender) (all : Bool) (start : Nat) (s : State) : Host.Outcome State Fault Refusal :=
  request src 0x42 (Tickets.list all start) s

/-! Requests on lines and weighings (R70 to R73) -/

/-- A record a request names: NO_TICKET when none holds the number (R66). -/
def withTicket (s : State) (n : Nat) (k : Ticket → State × Reply) : State × Reply :=
  match s.ticket? n with
  | none => refuse s .noTicket
  | some t => k t

/-- The line at a place, from 1 (R70). A place of 0 lies outside 1..8, and the rules name no check for it: it finds no line and so is
refused as a place beyond the end of the list is, which is the model's choice (log 28). -/
def Ticket.lineAt? (t : Ticket) (place : Nat) : Option TicketLine := if place = 0 then none else t.lines[place - 1]?

/-- A record with the line at a place replaced. -/
def Ticket.setLine (t : Ticket) (place : Nat) (l : TicketLine) : Ticket := { t with lines := t.lines.set (place - 1) l }

/-- LINE GRADE (R70). -/
def Tickets.lineGrade (n place code : Nat) : Handler := fun p s =>
  withTicket s n fun t =>
    if p = .window ∧ t.kind = .bridge then refuse s .wrongPort
    else if t.st ≠ .weighing ∧ t.st ≠ .complete then refuse s .wrongState
    else
      match t.lineAt? place with
      | none => refuse s .badParam
      | some l =>
        if code < 1 ∨ 64 < code then refuse s .badParam
        else
          let s1 := s.changeTicket n fun t => t.setLine place { l with grade := some code }
          done s1 [.u8 (s1.revision n)]

def execLineGrade (src : Sender) (ticket place code : Nat) (s : State) : Host.Outcome State Fault Refusal :=
  request src 0x43 (Tickets.lineGrade ticket place code) s

/-- The mode a LINE DEDUCT stores: a percentage clamps to 500, a weight must lie in 0..net and be a multiple of d_line; none for a
weight refused (R71). -/
def storedMode (l : TicketLine) : DeductMode → Option DeductMode
  | .grade => some .grade
  | .percent p => some (.percent (min p 500))
  | .weight t => if t < 0 ∨ l.net < t ∨ t % (l.division : Int) ≠ 0 then none else some (.weight t)

/-- LINE DEDUCT (R71): the answer is the line as stored and the revision (R62), last; that place of the revision is the model's
(log 53). -/
def Tickets.lineDeduct (n place : Nat) (mode : DeductMode) : Handler := fun p s =>
  withTicket s n fun t =>
    if p = .window ∧ t.kind = .bridge then refuse s .wrongPort
    else if t.st ≠ .weighing ∧ t.st ≠ .complete then refuse s .wrongState
    else
      match t.lineAt? place with
      | none => refuse s .badParam
      | some l =>
        match storedMode l mode with
        | none => refuse s .badParam
        | some m =>
          let l' := { l with mode := m }
          let s1 := s.changeTicket n fun t => t.setLine place l'
          done s1 (l'.storedFields ++ [.u8 (s1.revision n)])

def execLineDeduct (src : Sender) (ticket place : Nat) (mode : DeductMode) (s : State) : Host.Outcome State Fault Refusal :=
  request src 0x44 (Tickets.lineDeduct ticket place mode) s

/-- LINE STRIKE (R72): the lines after the struck one close up. -/
def Tickets.lineStrike (n place : Nat) : Handler := fun p s =>
  withTicket s n fun t =>
    if t.kind = .bridge then refuse s (if p = .window then .wrongPort else .badParam)
    else if t.st ≠ .weighing then refuse s .wrongState
    else if (t.lineAt? place).isNone then refuse s .badParam
    else
      let s1 := s.changeTicket n fun t => { t with lines := t.lines.eraseIdx (place - 1) }
      done s1 [.u8 (t.lines.length - 1), .u8 (s1.revision n)]

def execLineStrike (src : Sender) (ticket place : Nat) (s : State) : Host.Outcome State Fault Refusal :=
  request src 0x45 (Tickets.lineStrike ticket place) s

/-- WEIGHING STRIKE (R73): the newest weighing goes, with the line it closed. -/
def Ticket.strikeWeighing (t : Ticket) : Ticket :=
  { t with
    weighings := t.weighings.dropLast
    lines := if 2 ≤ t.weighings.length then t.lines.dropLast else t.lines }

def Tickets.weighingStrike (n : Nat) : Handler := fun _ s =>
  withTicket s n fun t =>
    if t.kind = .counter then refuse s .badParam
    else if t.st ≠ .weighing then refuse s .wrongState
    else if t.weighings = [] then refuse s .badParam
    else
      let s1 := s.changeTicket n Ticket.strikeWeighing
      done s1 [.u8 (t.weighings.length - 1), .u8 (s1.revision n)]

def execWeighingStrike (src : Sender) (ticket : Nat) (s : State) : Host.Outcome State Fault Refusal :=
  request src 0x46 (Tickets.weighingStrike ticket) s

/-! TICKET FINISH (R74, R75, R118, R120) -/

/-- A new value takes the place of the one held. -/
def replaced {α : Type} (new old : Option α) : Option α :=
  match new with
  | some x => some x
  | none => old

/-- The final line a stored tare gives (R75). -/
def storedLine (last : Weighing) (e : TareEntry) : TicketLine :=
  { grade := none, gross := last.weight, tare := e.tare, source := .stored, net := last.weight - e.tare,
    division := max last.division e.division, mode := .grade, coarse := last.coarse, capture := none, figures := none }

/-- What the register returns for a finish with STORE_TARE (R118). -/
inductive StoreResult where
  | stale | updated | stored
  deriving DecidableEq, Repr

/-- The codes of the results, from 1: 0 stands in the answer of a finish without STORE_TARE (log 20). -/
def StoreResult.code : StoreResult → Nat
  | .stale => 1 | .updated => 2 | .stored => 3

/-- The result of handing the last weighing to the register, tested in R118's order. -/
def State.storeResult (s : State) (plate : Text) (w : Weighing) : StoreResult :=
  let set := (s.chan w.channel).set
  if w.division ≠ set.d ∨ w.calCounter ≠ set.calCounter then .stale
  else if (s.tare? plate).isSome then .updated
  else .stored

/-- The bridge a weighing was made on; a BRIDGE ticket's weighings are made on C0 or C1. -/
def Weighing.bridge (w : Weighing) : Bridge := (w.channel.bridge?).getD .b0

/-- The register after the hand-over of a finish with STORE_TARE, with the answer's fields: the result, and the plate of an entry
evicted (R118, R119); in the answer they stand last (log 53). -/
def State.storeFromFinish (s : State) (plate : Text) (w : Weighing) : State × List Field :=
  let result := s.storeResult plate w
  match result with
  | .stale => (s, .u8 result.code :: optText none)
  | _ =>
    ({ s with vtr := storeTare s.vtr (freshTare plate w.weight w.bridge w.division s.stamp) },
      .u8 result.code :: optText ((evicted? s.vtr plate).map (·.plate)))

/-- The record as a finish without a stored tare leaves it (R75). -/
def Ticket.finished (t : Ticket) (customer plate : Option Text) (final : List TicketLine) : Ticket :=
  { t with
    st := .complete
    customer := replaced customer t.customer
    plate := replaced plate t.plate
    lines := t.lines ++ final }

/-- The weighings or lines a finish needs (R74, its second WRONG_STATE row). -/
def Ticket.tooFew (t : Ticket) (storedTare : Bool) : Bool :=
  match t.kind with
  | .bridge => if storedTare then t.weighings.isEmpty else decide (t.weighings.length < 2)
  | .counter => t.lines.isEmpty

/-- A finish with STORED_TARE, past the checks before NO_TARE (R74, R120). The answer holds the line count and the revision of R75, then
the two fields of R118; that order is the model's (log 53). -/
def Tickets.finishStored (s : State) (n : Nat) (t : Ticket) (customer plate : Option Text) : State × Reply :=
  match (replaced plate t.plate).bind s.usableTare?, t.weighings.getLast? with
  | some e, some last =>
    if 8 ≤ t.lines.length then refuse s .listFull
    else if last.weight - e.tare < (e.division : Int) then refuse s .noDrop
    else
      let s1 := s.changeTicket n fun t => t.finished customer plate [storedLine last e]
      let s2 := { s1 with vtr := useTare s1.vtr e s.stamp }
      done s2 ([.u8 (t.lines.length + 1), .u8 (s2.revision n), .u8 0] ++ optText none)
  | _, _ => refuse s .noTare

/-- A finish without STORED_TARE, past its checks; with STORE_TARE the plate and the last weighing go to the register after the
ticket has become COMPLETE (R75, R118). The answer holds the line count and the revision of R75, then the register's result and the
plate evicted of R118; that order is the model's (log 53). -/
def Tickets.finishPlain (s : State) (n : Nat) (t : Ticket) (storePlate : Option Text) (customer plate : Option Text) :
    State × Reply :=
  let s1 := s.changeTicket n fun t => t.finished customer plate []
  let head := [Field.u8 t.lines.length, .u8 (s1.revision n)]
  match storePlate, t.weighings.getLast? with
  | some q, some last =>
    let out := s1.storeFromFinish q last
    done out.1 (head ++ out.2)
  | _, _ => done s1 (head ++ .u8 0 :: optText none)

/-- TICKET FINISH (R74): the first failing check decides. -/
def Tickets.finish (n : Nat) (storedTare storeTare : Bool) (customer plate : Option Text) : Handler := fun p s =>
  if !(printableOption customer && printableOption plate) then refuse s .badParam
  else
    withTicket s n fun t =>
      let plate' := plateOption plate
      let held := replaced plate' t.plate
      if p = .window ∧ t.kind = .bridge then refuse s .wrongPort
      else if t.st ≠ .weighing then refuse s .wrongState
      else if (t.kind = .counter ∧ (storedTare ∨ storeTare)) ∨ (storedTare ∧ storeTare) then refuse s .badParam
      else if !(customerOptionOk customer && plateOptionOk plate) then refuse s .badParam
      else if t.tooFew storedTare then refuse s .wrongState
      else if storeTare ∧ held = none then refuse s .badParam
      else if storedTare then Tickets.finishStored s n t customer plate'
      else Tickets.finishPlain s n t (if storeTare then held else none) customer plate'

def execTicketFinish (src : Sender) (ticket : Nat) (storedTare storeTare : Bool) (customer plate : Option Text) (s : State) :
    Host.Outcome State Fault Refusal :=
  request src 0x47 (Tickets.finish ticket storedTare storeTare customer plate) s

/-! TICKET REOPEN, SETTLE and APPROVE (R76 to R80) -/

/-- A final line whose tare source is STORED is removed (R76). -/
def withoutStoredLine (lines : List TicketLine) : List TicketLine :=
  match lines.getLast? with
  | some l => if l.source = .stored then lines.dropLast else lines
  | none => lines

/-- COMPLETE back to WEIGHING (R76). -/
def Ticket.reweigh (t : Ticket) : Ticket := { t with st := .weighing, lines := withoutStoredLine t.lines, approved := false }

/-- SETTLED or HELD back to COMPLETE, its settlement discarded and a weigh slip no longer owed (R77). -/
def Ticket.unsettle (t : Ticket) (now : Stamp) : Ticket :=
  { t with
    st := .complete
    settlement := none
    lines := t.lines.map fun l => { l with figures := none }
    needsApproval := false
    approved := false
    payout := none
    owed := t.owed.dropSlip now }

/-- TICKET REOPEN (R76, R77, R162). -/
def Tickets.reopen (n : Nat) : Handler := fun _ s =>
  withTicket s n fun t =>
    match t.st with
    | .complete =>
      let s1 := s.changeTicket n Ticket.reweigh
      done s1 [.u8 (TicketSt.code .weighing), .u8 (s1.revision n)]
    | .settled | .held =>
      let s1 := (s.changeTicket n fun t => t.unsettle s.stamp).withdrawSlips t.ref
      done s1 [.u8 (TicketSt.code .complete), .u8 (s1.revision n)]
    | _ => refuse s .wrongState

def execTicketReopen (src : Sender) (ticket : Nat) (s : State) : Host.Outcome State Fault Refusal :=
  request src 0x48 (Tickets.reopen ticket) s

/-- TICKET SETTLE (R78, R95, R96, R109). -/
def Tickets.settle (n : Nat) : Handler := fun _ s =>
  withTicket s n fun t =>
    if t.st ≠ .complete then refuse s .wrongState
    else
      match s.settleCheck t with
      | some (code, place) => refuse s code [.u8 place]
      | none =>
        let t' := s.settled t
        let s1 := (s.changeTicket n s.settled).pump
        let block := s.settlementOf t
        done s1 [.u8 t'.st.code, .u32 block.payable, .u32 block.cash, flagField t'.needsApproval, .u8 (s1.revision n)]

def execTicketSettle (src : Sender) (ticket : Nat) (s : State) : Host.Outcome State Fault Refusal :=
  request src 0x49 (Tickets.settle ticket) s

/-- TICKET APPROVE (R80). -/
def Tickets.approve (n : Nat) : Handler := fun _ s =>
  withTicket s n fun t =>
    if t.st ≠ .settled ∧ t.st ≠ .held then refuse s .wrongState
    else
      let s1 := s.changeTicket n fun t => { t with approved := true }
      done s1 [.u8 (s1.revision n)]

def execTicketApprove (src : Sender) (ticket : Nat) (s : State) : Host.Outcome State Fault Refusal :=
  request src 0x4A (Tickets.approve ticket) s

/-! Claims (R81 to R83) -/

/-- CLAIMED or PAYING. -/
def Ticket.underClaim (t : Ticket) : Bool := t.st == .claimed || t.st == .paying

/-- The cash part and the remainder of a settled ticket. -/
def Ticket.cash (t : Ticket) : Nat :=
  match t.settlement with
  | some b => b.cash
  | none => 0

def Ticket.remainder (t : Ticket) : Nat :=
  match t.settlement with
  | some b => b.remainder
  | none => 0

/-- A granted claim (R81, R82). -/
def Ticket.grant (t : Ticket) (p : Port) (now : Stamp) (lapse : Timer) : Ticket :=
  { t with st := .claimed, claim := some ⟨p, now⟩, lapse := some lapse }

/-- A claim that ends with the ticket back in SETTLED. -/
def Ticket.unclaim (t : Ticket) : Ticket := { t with st := .settled, claim := none, lapse := none }

/-- TICKET CLAIM (R81). -/
def Tickets.claim (n : Nat) : Handler := fun p s =>
  withTicket s n fun t =>
    if t.underClaim ∧ t.claimant = some p.other then refuse s .claimedElsewhere
    else if s.holdsClaim p then refuse s .claimHeld
    else if t.st = .held then refuse s .held
    else if t.st ≠ .settled then refuse s .wrongState
    else if p = .window ∧ t.needsApproval ∧ !t.approved then refuse s .needsApproval
    else
      let s1 := s.changeTicket n fun t => t.grant p s.stamp (s.timer (s.grt.limits.claimLapse * 1000))
      done s1 [.u32 t.cash, .u32 t.remainder, .u8 (s1.revision n)]

def execTicketClaim (src : Sender) (ticket : Nat) (s : State) : Host.Outcome State Fault Refusal :=
  request src 0x4B (Tickets.claim ticket) s

/-- TICKET RELEASE (R83). -/
def Tickets.release (n : Nat) : Handler := fun p s =>
  withTicket s n fun t =>
    if !t.underClaim ∨ t.claimant ≠ some p then refuse s .notClaimed
    else if t.st = .paying then refuse s .wrongState
    else
      let s1 := s.changeTicket n Ticket.unclaim
      done s1 [.u8 (s1.revision n)]

def execTicketRelease (src : Sender) (ticket : Nat) (s : State) : Host.Outcome State Fault Refusal :=
  request src 0x4C (Tickets.release ticket) s

/-- Expiry of a claim's lapse timer, which runs while the ticket is CLAIMED (R82). -/
def Tickets.lapse (n : Nat) (s : State) : State :=
  match s.ticket? n with
  | none => s
  | some t =>
    match t.st, t.claim, t.lapse with
    | .claimed, some c, some _ => (s.changeTicket n Ticket.unclaim).latch c.port .claimLapsed
    | _, _, _ => s

def execClaimLapse (ticket : Nat) (s : State) : Host.Outcome State Fault Refusal := run (Tickets.lapse ticket) s

/-! TICKET VOID and RESOLVE (R86, R89) -/

/-- A voided record (R89). -/
def Ticket.voided (t : Ticket) (now : Stamp) : Ticket :=
  let owed := t.owed.become 0 t.owed.copies (if t.weighings.isEmpty && t.lines.isEmpty then t.owed.notice else 1) now
  { t with st := .void, closedAt := some now, owed := owed }

/-- The states a port may void a ticket in (R89). -/
def voidable (p : Port) (st : TicketSt) : Bool :=
  match p with
  | .window => st == .opened || st == .weighing
  | .office => st == .opened || st == .weighing || st == .complete || st == .settled || st == .held

/-- TICKET VOID (R89, R162). -/
def Tickets.void (n : Nat) : Handler := fun p s =>
  withTicket s n fun t =>
    if p = .window ∧ t.kind = .bridge then refuse s .wrongPort
    else if !voidable p t.st then refuse s .wrongState
    else
      let s1 := (s.changeTicket n fun t => t.voided s.stamp).withdrawSlips t.ref
      done s1 [.u8 (s1.revision n)]

def execTicketVoid (src : Sender) (ticket : Nat) (s : State) : Host.Outcome State Fault Refusal :=
  request src 0x4D (Tickets.void ticket) s

/-- The amount presented of a ticket's payout. -/
def Ticket.presented (t : Ticket) : Nat :=
  match t.payout with
  | some r => r.presentedAmount
  | none => 0

/-- A resolved record (R86). -/
def Ticket.resolved (t : Ticket) (h : Nat) (now : Stamp) : Ticket :=
  { t.enterPaid now with payout := t.payout.map fun r => { r with paid := h, shortfall := t.cash - h } }

/-- TICKET RESOLVE (R86). -/
def Tickets.resolve (n h : Nat) : Handler := fun _ s =>
  withTicket s n fun t =>
    if t.st ≠ .disputed then refuse s .wrongState
    else if t.presented < h then refuse s .badParam
    else
      let s1 := (s.changeTicket n fun t => t.resolved h s.stamp).pump
      done s1 [.u32 h, .u32 (t.cash - h), .u8 (s1.revision n)]

def execTicketResolve (src : Sender) (ticket handed : Nat) (s : State) : Host.Outcome State Fault Refusal :=
  request src 0x4E (Tickets.resolve ticket handed) s

end Sys2Proof.Machine
end

