-- ==== Sys2Proof/Machine/Cash.lean ====
section
/-! DEFINITION. The payout unit's plan, its dispenser reports, the cash door and the end of a payout (chapter 7). -/

namespace Sys2Proof.Machine

/-! The dispense plan (R129, R130) -/

/-- A usable store as a plan sees it. -/
structure PlanSource where
  index : Nat
  kind : StoreKind
  denomination : Nat
  count : Nat
  deriving DecidableEq, Repr

/-- The order in which a plan draws: the larger denomination, then notes before coins, then the fuller store, then the lower store
number (R129). -/
def PlanSource.before (a b : PlanSource) : Bool :=
  if a.denomination ≠ b.denomination then decide (b.denomination < a.denomination)
  else if a.kind ≠ b.kind then a.kind == .note
  else if a.count ≠ b.count then decide (b.count < a.count)
  else decide (a.index < b.index)

def PlanSource.insert (x : PlanSource) : List PlanSource → List PlanSource
  | [] => [x]
  | y :: rest => if x.before y then x :: y :: rest else y :: x.insert rest

/-- A store as a source of a plan: only a usable store is one (R125). -/
def Store.source? (x : Store) (index : Nat) : Option PlanSource :=
  match x.st, x.kind, x.denomination with
  | .enabled, some k, some d => some ⟨index, k, d, x.count⟩
  | _, _, _ => none

/-- The usable stores in the order a plan draws on them. -/
def planSources (stores : List Store) : List PlanSource :=
  (stores.zipIdx.filterMap fun x => x.1.source? x.2).foldr PlanSource.insert []

/-- A plan being made: what is still to be planned, the allowances left, and the pieces taken so far in plan order. -/
structure Plan where
  rest : Nat
  notes : Nat
  coins : Nat
  steps : List (Nat × Nat)
  deriving DecidableEq, Repr

def Plan.allowance (p : Plan) : StoreKind → Nat
  | .note => p.notes
  | .coin => p.coins

/-- Draw on one store: as many pieces as the rest, the store and the allowance of its kind admit. Drawing on the stores of one
denomination and kind one after the other takes in all the number R129 states for them together. -/
def Plan.draw (p : Plan) (x : PlanSource) : Plan :=
  let n := min (min (p.rest / x.denomination) x.count) (p.allowance x.kind)
  if n = 0 then p
  else
    { rest := p.rest - n * x.denomination
      notes := if x.kind = .note then p.notes - n else p.notes
      coins := if x.kind = .coin then p.coins - n else p.coins
      steps := p.steps ++ [(x.index, n)] }

/-- The plan for a target with given allowances (R129). -/
def makePlan (stores : List Store) (target notes coins : Nat) : Plan := (planSources stores).foldl Plan.draw ⟨target, notes, coins, []⟩

/-- The pieces of each store among plan steps, S0 to S5. -/
def piecesOf (steps : List (Nat × Nat)) : List Nat :=
  (List.range 6).map fun i => ((steps.filter fun x => x.1 = i).map (·.2)).sum

def addPieces (a b : List Nat) : List Nat := List.zipWith (· + ·) a b

/-! Stores (R125) -/

/-- The store whose state follows a count of 0 while ENABLED (R125). -/
def Store.atCount (x : Store) (n : Nat) : Store :=
  { x with count := n, st := if n = 0 ∧ x.st = .enabled then .empty else x.st }

/-- A piece of the store into the bundle (R136). A store the part counts as empty gives none. -/
def Store.pieceOk (x : Store) : Store :=
  if x.count = 0 then x else { x.atCount (x.count - 1) with picked := x.picked + 1, rejectRun := 0 }

/-- A piece of the store to the reject path; the third in a row puts the store in FAULT (R137). A third reject that is also the last
piece gives FAULT or EMPTY (`Config.lastRejectFaults`, log 8). -/
def Store.pieceReject (x : Store) : Store :=
  if x.count = 0 then x
  else
    let y := { x.atCount (x.count - 1) with rejected := x.rejected + 1, rejectRun := x.rejectRun + 1 }
    if 3 ≤ y.rejectRun ∧ (y.count ≠ 0 ∨ Config.lastRejectFaults) then { y with st := .fault } else y

/-- The store gave no piece: its count is written off and it enters EMPTY (R138). -/
def Store.pickFail (x : Store) : Store := { x with count := 0, writtenOff := x.writtenOff + x.count, st := .empty }

/-- A report changes one store; CASH_LOW is latched to both ports when it takes the count from above the threshold to at or below it
(R125). -/
def State.changeStore (s : State) (i : Nat) (f : Store → Store) : State :=
  match s.pyu.stores[i]? with
  | none => s
  | some x =>
    let y := f x
    let s1 := { s with pyu := { s.pyu with stores := s.pyu.stores.set i y } }
    if x.lowThreshold < x.count ∧ y.count ≤ x.lowThreshold then s1.latchBoth .cashLow else s1

/-! The payout in flight (R135, R136) -/

/-- The pieces of the bundle. -/
def Payout.pieces (p : Payout) : Nat := p.picked.sum

/-- The payout's figures written into its ticket's payout record (R85). -/
def Payout.into (p : Payout) (r : PayoutRecord) : PayoutRecord :=
  { r with
    planned := p.planned
    plannedPieces := p.plannedPieces
    pickedPieces := p.pieces
    pickedAmount := p.pickedAmount
    presentedAmount := if p.presented then p.pickedAmount else 0
    presentedPieces := if p.presented then p.pieces else 0 }

def Payout.sync (p : Payout) (t : Ticket) : Ticket := { t with payout := t.payout.map p.into }

/-- Pieces of a kind already in the bundle. -/
def Payout.pickedOf (p : Payout) (stores : List Store) (k : StoreKind) : Nat :=
  ((stores.zip p.picked).map fun x => if x.1.kind = some k then x.2 else 0).sum

/-- A payout planned again for what is left of the planned amount (R130, R139). -/
def Payout.replan (p : Payout) (stores : List Store) : Payout :=
  let target := p.planned - p.pickedAmount
  let plan := makePlan stores target (50 - p.pickedOf stores .note) (100 - p.pickedOf stores .coin)
  { p with
    todo := plan.steps
    planned := p.pickedAmount + (target - plan.rest)
    plannedPieces := addPieces p.picked (piecesOf plan.steps) }

/-- One more piece of a store in the bundle. -/
def Payout.take (p : Payout) (i denomination : Nat) : Payout :=
  { p with
    picked := p.picked.set i (p.picked.getD i 0 + 1)
    pickedAmount := p.pickedAmount + denomination
    todo :=
      match p.todo with
      | (j, n) :: rest => if n ≤ 1 then rest else (j, n - 1) :: rest
      | [] => [] }

/-- Whether a store still has planned pieces to give. -/
def Payout.still (p : Payout) (i : Nat) : Bool := p.todo.any fun x => x.1 == i && decide (0 < x.2)

/-! The end of an operation (R132, R151) -/

/-- The dispenser's operation ends in a state; with a door opening pending it enters DOOR_OPEN instead and remembers that state.
Entering FAULT or OFFLINE latches CASH_FAULT to both ports, also when the door keeps it from being seen (R147, R151). -/
def State.operationEnds (s : State) (d : DispenserSt) : State :=
  let u := { s.pyu with command := none, takeTimer := none }
  let s1 :=
    if s.pyu.doorPending then { s with pyu := { u with disp := .doorOpen, remembered := d, doorPending := false } }
    else { s with pyu := { u with disp := d } }
  if d = .fault ∨ d = .offline then s1.latchBoth .cashFault else s1

/-- A retract record joins the log, which holds at most 16 (R144). -/
def Pyu.note (u : Pyu) (r : RetractRecord) : Pyu := if u.log.length < 16 then { u with log := u.log ++ [r] } else u

/-- Pieces counted into the retract bin; the count stops at 65,535 (R144). -/
def Pyu.bank (u : Pyu) (k : Nat) : Pyu := { u with bin := min (u.bin + k) 65535 }

/-! The end of a payout (R152) -/

inductive PayoutResult where
  | paid | notPaid | disputed
  deriving DecidableEq, Repr

/-- The ticket table's one change at the end of a payout (R85). -/
def Ticket.payoutEnds (t : Ticket) (p : Payout) (result : PayoutResult) (code : PayoutEnd) (now : Stamp) : Ticket :=
  let paid := if result = .paid then p.pickedAmount else 0
  let shortfall := if result = .paid then t.cash - p.pickedAmount else 0
  let t1 :=
    { t with payout := t.payout.map fun r => { p.into r with paid := paid, shortfall := shortfall, last := some code } }
  match result with
  | .paid => t1.enterPaid now
  | .notPaid => { t1 with st := .settled, claim := none, lapse := none }
  | .disputed => { t1 with st := .disputed, claim := none, lapse := none }

/-- What a retraction adds to the log: its cause, the pieces counted back, and whether the amount is known. -/
structure Drawn where
  cause : RetractCause
  counted : Nat
  known : Bool
  deriving DecidableEq, Repr

/-- The retract record of a payout's bundle (R144). -/
def Payout.record (p : Payout) (d : Drawn) (now : Stamp) : RetractRecord :=
  { ticket := some p.ticket, cause := d.cause, pieces := p.pieces, amount := p.pickedAmount, perStore := p.picked,
    counted := d.counted, excess := d.counted - p.pieces, known := d.known, time := now }

/-- The outcome record of a payout (R152). -/
def Payout.outcome (p : Payout) (result : PayoutResult) (code : PayoutEnd) (cash : Nat) (now : Stamp) : PayoutOutcome :=
  { ticket := p.ticket, outcome := code, planned := p.planned, pickedAmount := p.pickedAmount, pickedPieces := p.pieces,
    presentedAmount := if p.presented then p.pickedAmount else 0, presentedPieces := if p.presented then p.pieces else 0,
    paid := if result = .paid then p.pickedAmount else 0, pieces := p.picked,
    shortfall := if result = .paid then cash - p.pickedAmount else 0, time := now }

/-- The cash part of the ticket of a payout. -/
def State.cashOf (s : State) (n : Nat) : Nat :=
  match s.ticket? n with
  | some t => t.cash
  | none => 0

/-- The end of a payout, in R152's order: the dispenser's new state, the ticket's one change (whose owed copies are queued), the
retract record with the bin count, the outcome in the slot, PAYOUT_END to the starting port, the alert, and the payout cleared. A
record is appended only for a bundle of at least one piece (R144). -/
def State.payoutEnd (s : State) (p : Payout) (result : PayoutResult) (code : PayoutEnd) (drawn : Option Drawn) (d : DispenserSt) :
    State :=
  let s1 := s.operationEnds d
  let s2 := (s1.changeTicket p.ticket fun t => t.payoutEnds p result code s.stamp).pump
  let u := s2.pyu
  let u1 :=
    match drawn with
    | some x => if p.pieces = 0 then u.bank x.counted else (u.note (p.record x s.stamp)).bank x.counted
    | none => u
  let s3 :=
    { s2 with
      pyu := { u1 with slot := some (p.port, p.outcome result code (s.cashOf p.ticket) s.stamp), payout := none } }
  let s4 := s3.latch p.port .payoutEnd
  match result with
  | .disputed => s4.markAlert .dispute
  | .notPaid => if code = .retracted then s4.markAlert .retract else s4
  | .paid => s4

/-! Picking (R136 to R140, R146) -/

/-- The figures of the payout in flight change and are written into its ticket's payout record, as one change (R85). -/
def State.writePayout (s : State) (p : Payout) : State :=
  ({ s with pyu := { s.pyu with payout := some p } } : State).changeTicket p.ticket p.sync

/-- A payout goes on after the answer to a PICK: the next PICK, the end of picking (R140), or the draw-back of a cancelled bundle
(R146). -/
def State.goOn (s : State) (p : Payout) : State :=
  let s1 := { s with pyu := { s.pyu with payout := some p, command := none } }
  if p.cancelled then
    if p.pieces = 0 then s1.payoutEnd p .notPaid .cancelled none .idle
    else { s1 with pyu := { s1.pyu with disp := .retracting, command := some .retract } }
  else
    match p.todo with
    | (i, _) :: _ => { s1 with pyu := { s1.pyu with command := some (.pick i) } }
    | [] =>
      if p.pieces = 0 then s1.payoutEnd p .notPaid .cancelled none .idle
      else { s1 with pyu := { s1.pyu with disp := .presenting, command := some .present } }

/-- The payout with its plan made again when a store has dropped out of it with planned pieces to give; a cancelled payout makes no
new plan (R139, R146). -/
def Payout.after (p : Payout) (dropped : Bool) (stores : List Store) : Payout :=
  if dropped && !p.cancelled then p.replan stores else p

/-- The state of a store, ABSENT when there is no such store. -/
def State.storeSt (s : State) (i : Nat) : StoreSt :=
  match s.pyu.stores[i]? with
  | some x => x.st
  | none => .absent

def State.denomination (s : State) (i : Nat) : Nat :=
  match s.pyu.stores[i]? with
  | some x => x.denomination.getD 0
  | none => 0

/-- The store of the PICK outstanding and the payout it serves, in PICKING. -/
def State.picking? (s : State) : Option (Nat × Payout) :=
  match s.pyu.disp, s.pyu.command, s.pyu.payout with
  | .picking, some (.pick i), some p => some (i, p)
  | _, _, _ => none

/-- PIECE_OK (R136): the bundle's figures are written, and then those of a new plan, each as a change of its own (R85, R139). -/
def Cash.pieceOk (s : State) : State :=
  match s.picking? with
  | none => s
  | some (i, p) =>
    let s1 := s.changeStore i Store.pieceOk
    let p1 := p.take i (s.denomination i)
    let p2 := p1.after (p1.still i && s1.storeSt i != .enabled) s1.pyu.stores
    ((s1.writePayout p1).writePayout p2).goOn p2

def execPieceOk (s : State) : Host.Outcome State Fault Refusal := run Cash.pieceOk s

/-- PIECE_REJECT (R137): the piece is still needed, so the store that stays usable is picked again. -/
def Cash.pieceReject (s : State) : State :=
  match s.picking? with
  | none => s
  | some (i, p) =>
    let s1 := s.changeStore i Store.pieceReject
    let p1 := p.after (s1.storeSt i != .enabled) s1.pyu.stores
    (s1.writePayout p1).goOn p1

def execPieceReject (s : State) : Host.Outcome State Fault Refusal := run Cash.pieceReject s

/-- PICK_FAIL (R138). -/
def Cash.pickFail (s : State) : State :=
  match s.picking? with
  | none => s
  | some (i, p) =>
    let s1 := s.changeStore i Store.pickFail
    let p1 := p.after true s1.pyu.stores
    (s1.writePayout p1).goOn p1

def execPickFail (s : State) : Host.Outcome State Fault Refusal := run Cash.pickFail s

/-! Presenting, taking and drawing back (R141 to R143) -/

/-- PRESENTED in PRESENTING (R141). -/
def Cash.presented (s : State) : State :=
  match s.pyu.disp, s.pyu.command, s.pyu.payout with
  | .presenting, some .present, some p =>
    let p1 := { p with presented := true }
    { s with
      pyu :=
        { s.pyu with
          disp := .waiting, command := none, payout := some p1,
          takeTimer := some (s.timer (s.grt.limits.takeTimeout * 1000)) } }.changeTicket p.ticket p1.sync
  | _, _, _ => s

def execPresented (s : State) : Host.Outcome State Fault Refusal := run Cash.presented s

/-- TRAY_EMPTY in WAITING ends the payout paid (R141); in any other state it is discarded (R131, R142). -/
def Cash.trayEmpty (s : State) : State :=
  match s.pyu.disp, s.pyu.payout with
  | .waiting, some p =>
    s.payoutEnd p .paid (if s.cashOf p.ticket - p.pickedAmount = 0 then .paid else .paidShort) none .idle
  | _, _ => s

def execTrayEmpty (s : State) : Host.Outcome State Fault Refusal := run Cash.trayEmpty s

/-- Expiry of the take timer in WAITING (R142). -/
def Cash.takeTimeout (s : State) : State :=
  match s.pyu.disp, s.pyu.takeTimer with
  | .waiting, some _ => { s with pyu := { s.pyu with disp := .retracting, takeTimer := none, command := some .retract } }
  | _, _ => s

def execTakeTimeout (s : State) : Host.Outcome State Fault Refusal := run Cash.takeTimeout s

/-- The pieces of a bundle a reset interrupted. -/
def Bundle.pieces (b : Bundle) : Nat := b.perStore.sum

/-- The record of a recovery at reset (R154): the interrupted payout's ticket and bundle, or none; its amount is known when the
bundle never reached the tray or the count covers it. -/
def Recovery.record (r : Recovery) (k : Nat) (now : Stamp) : RetractRecord :=
  match r.interrupted with
  | some b =>
    { ticket := some b.ticket, cause := .recovery, pieces := b.pieces, amount := b.amount, perStore := b.perStore, counted := k,
      excess := k - b.pieces, known := !b.reachedTray || decide (b.pieces ≤ k), time := now }
  | none =>
    { ticket := none, cause := .recovery, pieces := 0, amount := 0, perStore := List.replicate 6 0, counted := k, excess := k,
      known := true, time := now }

/-- The end of a reset or a recovery in RECOVERING, with the pieces counted back (R148 to R150, R154): a recovery at reset that
interrupted a payout, or that counted pieces back, appends its record; pieces counted back latch the RETRACT alert. -/
def State.recoveryEnds (s : State) (k : Nat) (d : DispenserSt) : State :=
  let s1 := s.operationEnds d
  match s.pyu.recovery with
  | none => s1
  | some r =>
    let u := s1.pyu.bank k
    let u1 := if r.interrupted.isSome ∨ 0 < k then u.note (r.record k s.stamp) else u
    let s2 := { s1 with pyu := { u1 with recovery := none } }
    if 0 < k then s2.markAlert .retract else s2

/-- RETRACTED k after a take timeout (R143) or a cancel (R146). -/
def State.retractEnds (s : State) (p : Payout) (k : Nat) : State :=
  if p.presented then
    if p.pieces ≤ k then s.payoutEnd p .notPaid .retracted (some ⟨.timeout, k, true⟩) .idle
    else s.payoutEnd p .disputed .retractedPartial (some ⟨.timeout, k, false⟩) .idle
  else s.payoutEnd p .notPaid .cancelled (some ⟨.cancel, k, true⟩) .idle

/-- RETRACTED k answers a RETRACT (R143, R146, R154). -/
def Cash.retracted (k : Nat) (s : State) : State :=
  match s.pyu.command, s.pyu.disp, s.pyu.payout with
  | some .retract, .retracting, some p => s.retractEnds p k
  | some .retract, .recovering, _ => s.recoveryEnds k .idle
  | _, _, _ => s

def execRetracted (k : Nat) (s : State) : Host.Outcome State Fault Refusal := run (Cash.retracted k) s

/-! Jams and failures to answer (R147 to R149) -/

/-- A payout stopped by a jam, or by a command not answered, ends by the table of R147. -/
def State.payoutStops (s : State) (p : Payout) (code : PayoutEnd) : State :=
  match s.pyu.disp with
  | .waiting => s.payoutEnd p .disputed code (some ⟨.jam, 0, false⟩) .fault
  | .retracting =>
    if p.presented then s.payoutEnd p .disputed code (some ⟨.timeout, 0, false⟩) .fault
    else s.payoutEnd p .notPaid code (some ⟨.cancel, 0, true⟩) .fault
  | _ => s.payoutEnd p .notPaid code (some ⟨.jam, 0, true⟩) .fault

/-- JAM (R147, R148): during a payout, in IDLE, in RECOVERING; discarded in FAULT, OFFLINE and DOOR_OPEN. -/
def Cash.jam (s : State) : State :=
  match s.pyu.disp, s.pyu.payout with
  | .picking, some p => s.payoutStops p .jammed
  | .presenting, some p => s.payoutStops p .jammed
  | .waiting, some p => s.payoutStops p .jammed
  | .retracting, some p => s.payoutStops p .jammed
  | .idle, _ => s.operationEnds .fault
  | .recovering, _ => s.recoveryEnds 0 .fault
  | _, _ => s

def execJam (s : State) : Host.Outcome State Fault Refusal := run Cash.jam s

/-- READY answers the RESET of DISPENSER CLEAR (R150). -/
def Cash.ready (s : State) : State :=
  match s.pyu.command, s.pyu.disp with
  | some .reset, .recovering => s.recoveryEnds 0 .idle
  | _, _ => s

def execReady (s : State) : Host.Outcome State Fault Refusal := run Cash.ready s

/-- Expiry of the answer timer of the command outstanding (R149): the payout ends as in a jam with MECH_FAULT; in RECOVERING the
dispenser goes OFFLINE. -/
def Cash.answerTimeout (s : State) : State :=
  match s.pyu.command, s.pyu.disp, s.pyu.payout with
  | none, _, _ => s
  | some _, .recovering, _ => s.recoveryEnds 0 .offline
  | some _, _, some p => s.payoutStops p .mechFault
  | _, _, _ => s

def execDispenserAnswerTimeout (s : State) : Host.Outcome State Fault Refusal := run Cash.answerTimeout s

/-! The cash door (R151) -/

/-- The door opens: at rest the dispenser enters DOOR_OPEN; in PICKING it acts as a jam and the dispenser remembers FAULT; in any
other operation the opening is pending. -/
def State.doorOpens (s : State) : State :=
  let mark : State := { s with pyu := { s.pyu with doorPending := true } }
  match s.pyu.disp, s.pyu.payout with
  | .picking, some p => mark.payoutStops p .jammed
  | .doorOpen, _ => s
  | .idle, _ => { s with pyu := { s.pyu with disp := .doorOpen, remembered := .idle } }
  | .fault, _ => { s with pyu := { s.pyu with disp := .doorOpen, remembered := .fault } }
  | .offline, _ => { s with pyu := { s.pyu with disp := .doorOpen, remembered := .offline } }
  | _, _ => mark

/-- The door closes: DOOR_OPEN returns to the state it remembers, with RETRACT for a recovery at reset still to run; a pending opening
is cleared. Entry into FAULT or OFFLINE latches CASH_FAULT here as elsewhere (R132). -/
def State.doorCloses (s : State) : State :=
  let u := s.pyu
  if u.disp = .doorOpen then
    let retract := u.remembered = .recovering ∧ u.recovery.isSome
    let s1 := { s with pyu := { u with disp := u.remembered, command := if retract then some .retract else none } }
    if u.remembered = .fault ∨ u.remembered = .offline then s1.latchBoth .cashFault else s1
  else { s with pyu := { u with doorPending := false } }

/-- The opening or closing of the cash door, as one event at the dispenser. -/
def State.doorEvent (s : State) (opens : Bool) : State := if opens then s.doorOpens else s.doorCloses

/-! Requests on stores (R126 to R128) -/

def StoreSt.code : StoreSt → Nat
  | .enabled => 0 | .disabled => 1 | .empty => 2 | .fault => 3 | .absent => 4 | .uncounted => 5

def StoreKind.code : StoreKind → Nat
  | .note => 0 | .coin => 1

/-- A store record with every field of the store table (section 7.1). Its counts, its capacity among them, are 2 bytes: a width the
model gives (log 20). -/
def Store.fields (x : Store) : List Field :=
  optU8 (x.kind.map StoreKind.code)
    ++ [.u32 (x.denomination.getD 0), .u16 x.count, .u16 x.capacity, .u16 x.lowThreshold, .u8 x.st.code, .u16 x.loaded,
      .u16 x.picked, .u16 x.rejected, .u16 x.writtenOff, .u8 x.rejectRun]

/-- A store marked absent (R126). -/
def absentStore : Store := { uncountedStore with st := .absent }

/-- A load as it is stored: the count and the threshold clamp to the capacity (R126). -/
def loadedStore (kind : StoreKind) (c : StoreContents) : Store :=
  let n := min c.count c.capacity
  { kind := some kind, denomination := some c.denomination, count := n, capacity := c.capacity,
    lowThreshold := min c.lowThreshold c.capacity, st := if 0 < n then .enabled else .empty, loaded := n, picked := 0,
    rejected := 0, writtenOff := 0, rejectRun := 0 }

/-- The record a load gives, when its values are in range (R126). -/
def storeOf? : Option StoreContents → Option Store
  | none => some absentStore
  | some c =>
    if c.denomination < 1 ∨ 99999999 < c.denomination ∨ c.capacity < 1 ∨ 3000 < c.capacity then none
    else match c.kind with
      | 0 => some (loadedStore .note c)
      | 1 => some (loadedStore .coin c)
      | _ => none

/-- STORE LOAD (R126). -/
def Cash.storeLoad (i : Nat) (load : Option StoreContents) : Handler := fun _ s =>
  if s.pyu.disp ≠ .idle ∧ s.pyu.disp ≠ .doorOpen then refuse s .unitBusy
  else if 5 < i then refuse s .badParam
  else
    match storeOf? load with
    | none => refuse s .badParam
    | some x => done { s with pyu := { s.pyu with stores := s.pyu.stores.set i x } } x.fields

def execStoreLoad (src : Sender) (store : Nat) (load : Option StoreContents) (s : State) : Host.Outcome State Fault Refusal :=
  request src 0x50 (Cash.storeLoad store load) s

/-- The dispenser is at work: PICKING, PRESENTING, WAITING, RETRACTING or RECOVERING. -/
def DispenserSt.working : DispenserSt → Bool
  | .picking => true
  | .presenting => true
  | .waiting => true
  | .retracting => true
  | .recovering => true
  | _ => false

/-- The state STORE ENABLE gives a store; none where it is refused (R127). -/
def Store.enabledTo (x : Store) (enable : Bool) : Option StoreSt :=
  match x.st, enable with
  | .enabled, true => some .enabled
  | .enabled, false => some .disabled
  | .disabled, true => some (if x.count = 0 then .empty else .enabled)
  | .disabled, false => some .disabled
  | _, _ => none

/-- STORE ENABLE (R127). A number that names no store does not fit the request (log 28). -/
def Cash.storeEnable (i : Nat) (enable : Bool) : Handler := fun _ s =>
  match s.pyu.stores[i]? with
  | none => refuse s .badParam
  | some x =>
    if s.pyu.disp.working then refuse s .unitBusy
    else
      match x.enabledTo enable with
      | none => refuse s .wrongState
      | some st => done { s with pyu := { s.pyu with stores := s.pyu.stores.set i { x with st := st } } } [.u8 st.code]

def execStoreEnable (src : Sender) (store : Nat) (enable : Bool) (s : State) : Host.Outcome State Fault Refusal :=
  request src 0x51 (Cash.storeEnable store enable) s

def DispenserSt.code : DispenserSt → Nat
  | .idle => 0 | .picking => 1 | .presenting => 2 | .waiting => 3 | .retracting => 4 | .recovering => 5 | .fault => 6
  | .offline => 7 | .doorOpen => 8

/-- The payout in flight as STORE READ reports it, with the dispenser state as its phase (R128, log 20). -/
def Pyu.payoutFields (u : Pyu) : List Field :=
  match u.payout with
  | none => [.u8 0]
  | some p =>
    [.u8 1, .u24 p.ticket, .u8 (portCode p.port), .u8 u.disp.code, .u32 p.planned, .u32 p.pickedAmount, .u16 p.pieces]
      ++ p.picked.map .u16

/-- STORE READ (R128) changes nothing. One byte after the dispenser state is the remembered state in DOOR_OPEN and else whether a door
opening is pending (log 21). -/
def Cash.storeRead : Handler := fun _ s =>
  let u := s.pyu
  done s
    (u.stores.flatMap Store.fields
      ++ [.u8 u.disp.code, if u.disp = .doorOpen then .u8 u.remembered.code else flagField u.doorPending]
      ++ u.payoutFields ++ [optPort (u.slot.map (·.1)), .u8 u.log.length, .u16 u.bin])

def execStoreRead (src : Sender) (s : State) : Host.Outcome State Fault Refusal := request src 0x52 Cash.storeRead s

/-! Payout requests (R133 to R135, R146) -/

/-- A payout record that a start creates, or takes over with its attempts (R84, R85). -/
def startedRecord (old : Option PayoutRecord) (planned : Nat) (pieces : List Nat) (last : Option PayoutEnd) : PayoutRecord :=
  let attempts :=
    match old with
    | some r => r.attempts
    | none => 0
  { planned := planned, plannedPieces := pieces, pickedPieces := 0, pickedAmount := 0, presentedAmount := 0, presentedPieces := 0,
    paid := 0, shortfall := 0, attempts := saturating attempts 255, last := last }

/-- The ticket's change at a start with C above 0: PAYING with its claim kept and its lapse timer stopped (R84). -/
def Ticket.startPaying (t : Ticket) (planned : Nat) (pieces : List Nat) : Ticket :=
  { t with st := .paying, lapse := none, payout := some (startedRecord t.payout planned pieces none) }

/-- The ticket's change at a start with C = 0 (R84, R134). -/
def Ticket.payNothing (t : Ticket) (now : Stamp) : Ticket :=
  { t.enterPaid now with payout := some (startedRecord t.payout 0 (List.replicate 6 0) (some .paid)) }

/-- The payout a taken start puts in flight (R135). -/
def newPayout (ticket : Nat) (p : Port) (target : Nat) (plan : Plan) : Payout :=
  { ticket := ticket, port := p, planned := target - plan.rest, plannedPieces := piecesOf plan.steps, todo := plan.steps,
    picked := List.replicate 6 0, pickedAmount := 0, presented := false, cancelled := false }

/-- Why the payout unit refuses a start with C above 0, first of R133's table; none when it is taken. -/
def State.startRefusal (s : State) (p : Port) (plan : Plan) (acceptPartial : Bool) : Option Status :=
  if s.pyu.disp = .doorOpen then some .doorOpen
  else if s.pyu.disp ≠ .idle ∨ heldFor s.pyu.slot p.other then some .unitBusy
  else if heldFor s.pyu.slot p then some .outcomeUnread
  else if 16 ≤ s.pyu.log.length then some .retractFull
  else if (plan.rest ≠ 0 ∧ !acceptPartial) ∨ plan.steps = [] then some .cannotMake
  else none

/-- The first PICK of a plan. -/
def Plan.firstPick (plan : Plan) : Option DispenserCommand :=
  match plan.steps with
  | (i, _) :: _ => some (.pick i)
  | [] => none

/-- PAYOUT START (R84, R133 to R135). -/
def Cash.payoutStart (n : Nat) (acceptPartial : Bool) : Handler := fun p s =>
  withTicket s n fun t =>
    if t.st ≠ .claimed ∨ t.claimant ≠ some p then refuse s .notClaimed
    else if t.cash = 0 then done (s.changeTicket n fun t => t.payNothing s.stamp).pump
    else
      let plan := makePlan s.pyu.stores t.cash 50 100
      let planned := t.cash - plan.rest
      let pieces := piecesOf plan.steps
      match s.startRefusal p plan acceptPartial with
      | some .cannotMake => refuse s .cannotMake (.u32 planned :: pieces.map .u16)
      | some code => refuse s code
      | none =>
        let s1 := s.changeTicket n fun t => t.startPaying planned pieces
        ({ s1 with
            pyu := { s1.pyu with payout := some (newPayout n p t.cash plan), disp := .picking, command := plan.firstPick } },
          ⟨.started, [.u24 n, .u32 planned] ++ pieces.map .u16 ++ [.u32 (t.cash - planned)]⟩)

def execPayoutStart (src : Sender) (ticket : Nat) (acceptPartial : Bool) (s : State) : Host.Outcome State Fault Refusal :=
  request src 0x53 (Cash.payoutStart ticket acceptPartial) s

/-- PAYOUT CANCEL (R146): with no PICK outstanding the bundle is drawn back at once. -/
def Cash.payoutCancel : Handler := fun p s =>
  match s.pyu.payout with
  | none => refuse s .noOperation
  | some x =>
    if x.port ≠ p then refuse s .noOperation
    else if s.pyu.disp ≠ .picking then refuse s .tooLate
    else
      let x1 := { x with cancelled := true, todo := [] }
      if s.pyu.command.isSome then done { s with pyu := { s.pyu with payout := some x1 } } else done (s.goOn x1)

def execPayoutCancel (src : Sender) (s : State) : Host.Outcome State Fault Refusal := request src 0x54 Cash.payoutCancel s

/-! The retract log (R145) -/

def RetractCause.code : RetractCause → Nat
  | .timeout => 0 | .jam => 1 | .cancel => 2 | .recovery => 3

def RetractRecord.fields (r : RetractRecord) : List Field :=
  [zeroU24 r.ticket, .u8 r.cause.code, .u16 r.pieces, .u32 r.amount] ++ r.perStore.map .u16
    ++ [.u16 r.counted, .u16 r.excess, flagField r.known, .stamp r.time]

/-- RETRACT LOG READ (R145) changes nothing. -/
def Cash.logRead (start : Nat) : Handler := fun _ s =>
  let given := (s.pyu.log.drop start).take 4
  done s
    ([.u8 s.pyu.log.length, .u16 s.pyu.bin] ++ listFields RetractRecord.fields given
      ++ [flagField (decide (start + given.length < s.pyu.log.length))])

def execRetractLogRead (src : Sender) (start : Nat) (s : State) : Host.Outcome State Fault Refusal :=
  request src 0x55 (Cash.logRead start) s

/-- RETRACT BIN EMPTY (R145). -/
def Cash.binEmpty : Handler := fun _ s =>
  if s.pyu.disp.working then refuse s .unitBusy
  else done { s with pyu := { s.pyu with log := [], bin := 0 } } [.u8 s.pyu.log.length, .u16 s.pyu.bin]

def execRetractBinEmpty (src : Sender) (s : State) : Host.Outcome State Fault Refusal := request src 0x56 Cash.binEmpty s

/-- DISPENSER CLEAR (R150). -/
def Cash.dispenserClear : Handler := fun _ s =>
  if s.pyu.disp = .doorOpen then refuse s .doorOpen
  else if s.pyu.disp ≠ .fault ∧ s.pyu.disp ≠ .offline then refuse s .wrongState
  else done { s with pyu := { s.pyu with disp := .recovering, command := some .reset, recovery := none } }

def execDispenserClear (src : Sender) (s : State) : Host.Outcome State Fault Refusal := request src 0x57 Cash.dispenserClear s

/-! The payout outcome (R153, R213) -/

/-- A payout outcome record in its layout of 47 bytes. -/
def PayoutOutcome.fields (o : PayoutOutcome) : List Field :=
  [.u24 o.ticket, .u8 o.outcome.code, .u32 o.planned, .u32 o.pickedAmount, .u16 o.pickedPieces, .u32 o.presentedAmount,
    .u16 o.presentedPieces, .u32 o.paid] ++ o.pieces.map .u16 ++ [.u32 o.shortfall, .stamp o.time]

/-- OUTCOME FETCH of the dispenser (R153, R209). -/
def Cash.outcomeFetch : Handler := fun p s =>
  match s.pyu.slot with
  | some (q, o) =>
    if q ≠ p ∨ s.pyu.payout.isSome then refuse s .noOperation
    else done { s with pyu := { s.pyu with slot := none } } (.u8 4 :: o.fields)
  | none => refuse s .noOperation

end Sys2Proof.Machine
end

