-- ==== Sys2Proof/Machine/Lines.lean ====
section
/-! DEFINITION. The yard lines: levels, debounces, the users of each role, and the line requests (chapter 2, section 2.1). -/

namespace Sys2Proof.Machine

/-! Levels and debounces (R29) -/

/-- The logical state an input line's level has under its polarity. -/
def YardLine.logical (l : YardLine) (line : Nat) : Bool := Polarity.active l.entry.polarity (l.inputLevel line)

/-- The debounce time of a function, in milliseconds (section 2.1). -/
def State.debounceTime (s : State) : LineFunction → Nat
  | .beam _ _ => s.dsu.beamDebounce
  | _ => 20

/-- A line driven anew: a level that departs from the debounced state starts the debounce, one that returns to it cancels it (R29). -/
def YardLine.driven (l : YardLine) (line : Nat) (drive : LineDrive) (timer : Timer) : YardLine :=
  let l1 := { l with drive := drive }
  if !LineFunction.debounces l.entry.function then l1
  else if l1.logical line = l.debounced then { l1 with debounce := none }
  else { l1 with debounce := some (l.debounce.getD timer) }

def State.setLine (s : State) (line : Nat) (l : YardLine) : State := { s with dsu := { s.dsu with lines := s.dsu.lines.set line l } }

/-- INPUT_LEVEL_CHANGE (R29). -/
def Lines.levelChange (line : Nat) (drive : LineDrive) (s : State) : State :=
  match s.dsu.lines[line]? with
  | none => s
  | some l => s.setLine line (l.driven line drive (s.timer (s.debounceTime l.entry.function)))

/-- What the outside drives is recorded also while the part has no power; only a powered part debounces (log 10). -/
def Lines.driveOnly (line : Nat) (drive : LineDrive) (s : State) : State :=
  match s.dsu.lines[line]? with
  | none => s
  | some l => s.setLine line { l with drive := drive }

def execInputLevelChange (line : Nat) (drive : LineDrive) (s : State) : Host.Outcome State Fault Refusal :=
  .next (if s.powered then s.conclude (Lines.levelChange line drive s) else Lines.driveOnly line drive s)

/-- A changed debounced state reaches the user of the line's role (R30, R31, R35); the event unit sees the contacts as conditions
(R195). -/
def State.roleChange (s : State) (f : LineFunction) (active : Bool) : State :=
  match f with
  | .beam b side => s.beamChange b side active
  | .cashDoor => s.doorEvent (!active)
  | .gpIn => s.latchBoth .lineChange
  | _ => s

/-- DEBOUNCED_CHANGE (R29): the debounce in progress on the line has run its time. -/
def Lines.debounced (line : Nat) (s : State) : State :=
  match s.dsu.lines[line]? with
  | none => s
  | some l =>
    if l.debounce.isNone then s
    else
      let l1 := { l with debounced := !l.debounced, debounce := none }
      (s.setLine line l1).roleChange l.entry.function l1.debounced

def execDebouncedChange (line : Nat) (s : State) : Host.Outcome State Fault Refusal := run (Lines.debounced line) s

/-! LINE MAP SET (R33, R34) -/

/-- The functions that at most one line may hold: each beam role, each lamp role, and the three contacts (R33). -/
def singleUse : LineFunction → Bool
  | .beam _ _ => true
  | .lamp _ _ _ => true
  | .calSwitch => true
  | .cashDoor => true
  | .cabinet => true
  | _ => false

/-- No role of single use stands twice in a map. -/
def rolesDistinct : List LineEntry → Bool
  | [] => true
  | e :: rest => (!singleUse e.function || rest.all fun x => x.function != e.function) && rolesDistinct rest

/-- A line under a new entry: its debounced state straight from its level, its debounce discarded, and its output state kept only
where it stays GP_OUT (R34). -/
def YardLine.remapped (l : YardLine) (line : Nat) (e : LineEntry) : YardLine :=
  let l1 := { l with entry := e, debounce := none, out := l.entry.function == LineFunction.gpOut && e.function == LineFunction.gpOut && l.out }
  { l1 with debounced := LineFunction.debounces e.function && l1.logical line }

/-- The lines under a new map. -/
def remapLines (lines : List YardLine) (entries : List LineEntry) : List YardLine :=
  (lines.zip entries).zipIdx.map fun x => x.1.1.remapped x.2 x.1.2

/-- A beam whose condition differs from what it was is taken as a beam change (R34). -/
def State.rebeam (s before : State) (b : Bridge) (side : Side) : State :=
  if s.beamBlocked b side = before.beamBlocked b side then s else s.beamChange b side (s.beamBlocked b side)

/-- The beam fault timers of a bridge restarted where the beam reads blocked and stopped elsewhere (R34). -/
def State.restartFaultTimers (s : State) (b : Bridge) : State :=
  let t (side : Side) : Option Timer := if s.beamBlocked b side then some (s.timer (s.dsu.beamFault * 1000)) else none
  s.setBridge b { s.bridge b with entryFault := t .entry, exitFault := t .exit }

/-- The new map acts (R34): the changed conditions are handed to their users, beams first and then the cash door (log 29). No
GP_IN line latches LINE_CHANGE, one that keeps entry and polarity included (log 17). -/
def State.takeMap (s : State) (entries : List LineEntry) (beamDebounce beamFault : Nat) : State :=
  let s1 :=
    { s with
      dsu :=
        { s.dsu with
          lines := remapLines s.dsu.lines entries
          beamDebounce := clamp beamDebounce 10 500
          beamFault := clamp beamFault 30 600 } }
  let s2 := (((s1.rebeam s .b0 .entry).rebeam s .b0 .exit).rebeam s .b1 .entry).rebeam s .b1 .exit
  let s3 := if s2.cashDoorOpen = s.cashDoorOpen then s2 else s2.doorEvent s2.cashDoorOpen
  (s3.restartFaultTimers .b0).restartFaultTimers .b1

/-- LINE MAP SET (R33, R34). -/
def Lines.mapSet (entries : List LineEntry) (beamDebounce beamFault : Nat) : Handler := fun _ s =>
  if entries.length ≠ 16 ∨ !rolesDistinct entries then refuse s .badParam
  else if s.dsu.bridge0.pos ≠ .empty ∨ s.dsu.bridge1.pos ≠ .empty then refuse s .wrongState
  else done (s.takeMap entries beamDebounce beamFault)

def execLineMapSet (src : Sender) (entries : List LineEntry) (beamDebounce beamFault : Nat) (s : State) :
    Host.Outcome State Fault Refusal :=
  request src 0x24 (Lines.mapSet entries beamDebounce beamFault) s

/-! LINES READ and LINE WRITE (R31, R32) -/

/-- The level of a line, true for high, which LINES READ sends as 1 (log 20): an output's is the one it drives (R31, R40), an input's
the one it reads (R29). -/
def State.lineLevel (s : State) (line : Nat) (l : YardLine) : Bool :=
  match l.entry.function with
  | .lamp b side colour => Polarity.active l.entry.polarity (s.lampLit b side colour)
  | .gpOut => Polarity.active l.entry.polarity l.out
  | _ => l.inputLevel line

def Side.code : Side → Nat
  | .entry => 0 | .exit => 1

def Colour.code : Colour → Nat
  | .red => 0 | .green => 1

/-- A function's number, then bridge, side and colour, each behind a presence byte, since 0 is a value of each (R213, log 21). -/
def roleFields (function : Nat) (bridge : Option Bridge) (side : Option Side) (colour : Option Colour) : List Field :=
  .u8 function :: optU8 (bridge.map Bridge.num) ++ optU8 (side.map Side.code) ++ optU8 (colour.map Colour.code)

/-- A line function with the bridge, side and colour that apply to it (section 2.1). -/
def LineFunction.fields : LineFunction → List Field
  | .beam b side => roleFields 0 (some b) (some side) none
  | .lamp b side colour => roleFields 1 (some b) (some side) (some colour)
  | .calSwitch => roleFields 2 none none none
  | .cashDoor => roleFields 3 none none none
  | .cabinet => roleFields 4 none none none
  | .gpIn => roleFields 5 none none none
  | .gpOut => roleFields 6 none none none
  | .unmapped => roleFields 7 none none none

/-- A line map entry as LINES READ answers it (R32), with the pull-up of an output as it is stored (log 52). -/
def LineEntry.fields (e : LineEntry) : List Field :=
  LineFunction.fields e.function ++ [flagField (e.polarity == .activeHigh), flagField e.pullUp]

/-- The state LINES READ gives a line by its function: debounced, output, or lit; none for NONE (R32). It is true for active, on or
lit. -/
def State.lineState (s : State) (l : YardLine) : Option Bool :=
  match l.entry.function with
  | .lamp b side colour => some (s.lampLit b side colour)
  | .gpOut => some l.out
  | .unmapped => none
  | _ => some l.debounced

/-- LINES READ (R32) changes nothing. R32 gives no codes: level 1 high and 0 low, and state 1 active, on or lit and 0 otherwise, are
the model's (log 20). -/
def Lines.read : Handler := fun _ s =>
  done s
    (s.dsu.lines.zipIdx.flatMap (fun x =>
        LineEntry.fields x.1.entry ++ [flagField (s.lineLevel x.2 x.1)]
          ++ optU8 ((s.lineState x.1).map fun b => if b then 1 else 0))
      ++ [.u16 s.dsu.beamDebounce, .u16 s.dsu.beamFault])

def execLinesRead (src : Sender) (s : State) : Host.Outcome State Fault Refusal := request src 0x25 Lines.read s

/-- LINE WRITE (R31). -/
def Lines.write (line : Nat) (on : Bool) : Handler := fun _ s =>
  match s.dsu.lines[line]? with
  | none => refuse s .badParam
  | some l => if l.entry.function = .gpOut then done (s.setLine line { l with out := on }) else refuse s .badParam

def execLineWrite (src : Sender) (line : Nat) (on : Bool) (s : State) : Host.Outcome State Fault Refusal :=
  request src 0x26 (Lines.write line on) s

end Sys2Proof.Machine
end

