-- ==== Sys2Proof/Machine/Weighing.lean ====
section
/-! DEFINITION. The weighing channels: conversion, stability, occupancy, zero, calibration and capture (chapter 1). -/

namespace Sys2Proof.Machine

/-! Conversion (R4 to R6) -/

/-- N of R4: the raw sum of n samples less n working zeros, times the gain. -/
def weighNumerator (set : ChannelSettings) (z sum : Int) (n : Nat) : Int := (sum - n * z) * set.G

/-- The weight of n samples, the one rounding of R4. -/
def weighed (set : ChannelSettings) (z sum : Int) (n : Nat) : Int :=
  roundAway (weighNumerator set z sum n) (65536 * n * set.d) * set.d

/-- A weight as reported (R5). -/
def reported (set : ChannelSettings) (w : Int) : Report :=
  if (set.K : Int) + 9 * set.d < w then .over else if w < -(20 * (set.d : Int)) then .under else .weight w

/-- A fine weight (R6). -/
def fineWeight (set : ChannelSettings) (z raw : Int) : Int := truncate ((raw - z) * set.G) 65536

/-- The sum of the raw counts of samples. -/
def rawSum (l : List Sample) : Int := sumInt (l.map (·.raw))

/-- The window mean raw count (R4). -/
def rawMean (l : List Sample) : Int := roundAway (rawSum l) l.length

/-- The largest fine weight less the smallest. -/
def fineSpread (l : List Sample) : Int := spread (l.map (·.fine))

/-- The stability band b·d. -/
def ChannelSettings.band (set : ChannelSettings) : Int := set.b * set.d

/-- The window is full and meets the band b·d (R6). -/
def ChannelState.steady (c : ChannelState) : Bool := decide (c.set.M ≤ c.window.length ∧ fineSpread c.window ≤ c.set.band)

/-- A cleared stability window is not stable (R6). -/
def ChannelState.clearWindow (c : ChannelState) : ChannelState := { c with window := [], stable := false }

/-! States (R7 to R10) -/

/-- The signal timer of a channel: 200 ms on C0 and C1, 400 ms on C2 and C3 (R8). -/
def signalTime : Channel → Nat
  | .c0 => 200 | .c1 => 200 | .c2 => 400 | .c3 => 400

/-- The state of a channel changes, and CHANNEL is latched to both ports (R10). -/
def State.enter (s : State) (ch : Channel) (c : ChannelState) (st : ChannelSt) : State :=
  (s.setChan ch { c with st := st }).latchBoth (.channel ch)

/-- Entry into FAULT: a capture in flight ends SIGNAL, the live weight is absent, window and block are cleared, the signal timer
stops, and occupancy stays (R8, R22). -/
def State.enterFault (s : State) (ch : Channel) : State :=
  let s1 := s.endCapture ch .signal none none
  let c := s1.chan ch
  s1.enter ch { c.clearWindow with live := .absent, block := emptyBlock, signalTimer := none, goodCount := 0 } .fault

/-- The signal of a channel in SERVICE is lost: the live weight is absent and the window is cleared (R8). -/
def ChannelState.lose (c : ChannelState) : ChannelState := { c.clearWindow with signal := .lost, live := .absent }

/-- SIGNAL_TIMEOUT: expiry of a running signal timer (R8). -/
def Weigh.signalTimeout (ch : Channel) (s : State) : State :=
  let c := s.chan ch
  if c.signalTimer.isNone then s
  else
    match c.st with
    | .starting => s.enterFault ch
    | .active => s.enterFault ch
    | .service => s.setChan ch { c.lose with signalTimer := none }
    | _ => s

def execSignalTimeout (ch : Channel) (s : State) : Host.Outcome State Fault Refusal := run (Weigh.signalTimeout ch) s

/-! Occupancy (R11) -/

/-- The occupancy a live report decides. -/
def ChannelState.occupancy (c : ChannelState) : Bool :=
  match c.live with
  | .over => true
  | .under => false
  | .absent => c.occupied
  | .weight w =>
    if c.occupied then decide ((c.set.T / 2 * c.set.d : Nat) ≤ w) else decide ((c.set.T * c.set.d : Nat) ≤ w)

/-- Occupancy decided at a good sample: on C2 and C3 a channel becoming unoccupied ends its capture POSITION (R22), on C0 and C1 a
change is passed to the position machine (R11). -/
def State.decideOccupancy (s : State) (ch : Channel) : State :=
  let c := s.chan ch
  let occupied := c.occupancy
  let s1 := s.setOccupied ch occupied
  if ch.bridge?.isNone ∧ c.occupied ∧ !occupied then s1.endCapture ch .position none none else s1

/-! Zero and zero tracking (R12, R13) -/

/-- The zero bound of R12, in counts. -/
def zeroBound (set : ChannelSettings) (zn : Int) : Bool := decide ((zn - set.zCal).natAbs * set.G * 50 ≤ set.K * 65536)

/-- A channel given a new ZERO_DRIFT mark; a change latches CHANNEL to both ports (R10). -/
def State.setDrift (s : State) (ch : Channel) (drift : Bool) : State :=
  let c := s.chan ch
  if c.drift = drift then s else (s.setChan ch { c with drift := drift }).latchBoth (.channel ch)

/-- Whether a full block qualifies (R13). -/
def ZeroBlock.qualifies (k : ZeroBlock) (set : ChannelSettings) (z : Int) : Bool :=
  !k.disqualified && decide (fineSpread k.samples ≤ set.band)
    && decide (2 * (weighNumerator set z (rawSum k.samples) set.M).natAbs ≤ set.d * 65536 * set.M)

/-- A full block judged: it moves Z, or sets ZERO_DRIFT where its mean lies outside the zero bound (R13). -/
def State.judgeBlock (s : State) (ch : Channel) (k : ZeroBlock) : State :=
  let c := s.chan ch
  let mean := rawMean k.samples
  if !k.qualifies c.set c.z then s
  else if mean = c.z then s
  else if zeroBound c.set mean then s.setChan ch { c with z := mean }
  else s.setDrift ch true

/-- Whether a sample disqualifies its block, past the capture in flight (R13). -/
def State.awayFromZero (s : State) (ch : Channel) : Bool :=
  match ch.bridge? with
  | some b => (s.bridge b).pos != .empty
  | none => (s.chan ch).occupied

/-- A good sample in ACTIVE joins the zero-tracking block, judged when it holds M samples (R13). -/
def State.track (s : State) (ch : Channel) (x : Sample) (capturing : Bool) : State :=
  let c := s.chan ch
  let k : ZeroBlock := ⟨c.block.samples ++ [x], c.block.disqualified || capturing || s.awayFromZero ch⟩
  if k.samples.length < c.set.M then s.setChan ch { c with block := k }
  else (s.setChan ch { c with block := emptyBlock }).judgeBlock ch k

/-! The capture test (R20, R24) -/

/-- Attempts 1 to Rf are fine, the two after them coarse (section 1.8). -/
def Capture.coarse (k : Capture) (set : ChannelSettings) : Bool := decide (set.Rf < k.attempt)

/-- The band of an attempt (R20). -/
def Capture.band (k : Capture) (set : ChannelSettings) : Int :=
  if k.coarse set then min (2 * set.band) (8 * set.d) else set.band

/-- A completed capture: the weight, OVERLOAD or UNDERLOAD where it is none, else the hand-over and the outcome (R24). -/
def State.completeCapture (s : State) (ch : Channel) (k : Capture) : State :=
  let c := s.chan ch
  let w := weighed c.set c.z (sumInt k.samples) c.set.M
  match reported c.set w with
  | .over => s.endCapture ch .overload none none
  | .under => s.endCapture ch .underload none none
  | _ =>
    let coarse := k.coarse c.set
    let weighing : Weighing :=
      { channel := ch, weight := w, division := c.set.d, calCounter := c.set.calCounter, serial := k.serial, time := s.stamp,
        coarse := coarse }
    let out := s.handOver k.ticket weighing k.grade k.tare
    out.1.endCapture ch (if coarse then .capturedCoarse else .captured) (some w) (some out.2)

/-- A good sample joins the post-start list, and the window of the M newest is tested (R20). -/
def State.testCapture (s : State) (ch : Channel) (raw : Int) : State :=
  let c := s.chan ch
  match c.capture with
  | none => s
  | some k =>
    let k1 := { k with samples := keepLast c.set.M (k.samples ++ [raw]) }
    let s1 := s.setChan ch { c with capture := some k1 }
    if c.set.M ≤ k1.samples.length ∧ spread (k1.samples.map (fineWeight c.set c.z)) ≤ k1.band c.set then
      s1.completeCapture ch k1
    else s1

/-! A sample (R1) -/

/-- A good sample converted and put into the window (R4 to R6). In STARTING the channel is not stable. -/
def ChannelState.convert (c : ChannelState) (raw : Int) : ChannelState :=
  let f := fineWeight c.set c.z raw
  let c1 : ChannelState :=
    { c with
      live := reported c.set (weighed c.set c.z raw 1), fine := some f, window := keepLast c.set.M (c.window ++ [⟨raw, f⟩]) }
  { c1 with stable := (c.st == ChannelSt.active || c.st == ChannelSt.service) && c1.steady }

/-- A live report of OVER or UNDER ends a capture in flight before anything else the sample does (R22, log 30). -/
def State.endOutOfRange (s : State) (ch : Channel) : State :=
  match (s.chan ch).live with
  | .over => s.endCapture ch .overload none none
  | .under => s.endCapture ch .underload none none
  | _ => s

/-- A good sample counted towards STARTING: the M-th enters ACTIVE with an empty block, stable if its window meets the band (R7). -/
def State.countStarting (s : State) (ch : Channel) : State :=
  let c := s.chan ch
  let n := c.goodCount + 1
  if n < c.set.M then s.setChan ch { c with goodCount := n }
  else s.enter ch { c with goodCount := n, block := emptyBlock, stable := c.steady } .active

/-- The steps of a good sample at a channel out of OFF and FAULT (R1): conversion, window, occupancy, count, capture test. -/
def State.goodSample (s : State) (ch : Channel) (raw : Int) : State :=
  let capturing := (s.chan ch).capture.isSome
  let c := (s.chan ch).convert raw
  let s1 := ((s.setChan ch c).endOutOfRange ch).decideOccupancy ch
  let s2 :=
    match c.st with
    | .starting => s1.countStarting ch
    | .active => s1.track ch ⟨raw, fineWeight c.set c.z raw⟩ capturing
    | _ => s1
  s2.testCapture ch raw

/-- A channel with its signal timer started now. -/
def State.timed (s : State) (ch : Channel) (c : ChannelState) : ChannelState :=
  { c with signalTimer := some (s.timer (signalTime ch)) }

/-- A sample arrives at a channel (R1, R7, R8). -/
def State.sample (s : State) (ch : Channel) (raw : Int) (ok : Bool) : State :=
  let c := s.chan ch
  match c.st with
  | .off => s
  | .fault =>
    if ok then (s.enter ch (s.timed ch { c.clearWindow with goodCount := 0 }) .starting).goodSample ch raw else s
  | .service =>
    let c1 := s.timed ch c
    if ok then (s.setChan ch { c1 with signal := .good }).goodSample ch raw else s.setChan ch c1.lose
  | _ => if ok then (s.setChan ch (s.timed ch c)).goodSample ch raw else s.enterFault ch

/-- The platform whose input the arbiter selects for the next conversion (R2): none while both are in OFF. -/
def State.selected (s : State) : Option Platform :=
  let n := s.wch.nextPlatform
  if (s.chan n.channel).st ≠ .off then some n
  else if (s.chan n.other.channel).st ≠ .off then some n.other
  else none

def State.setNextPlatform (s : State) (n : Platform) : State := { s with wch := { s.wch with nextPlatform := n } }

/-- DIGITIZER_SAMPLE: a bridge digitizer's sample goes to its channel; the shared one's goes to the selected platform, and the next
platform then passes to the other one if that is out of OFF (R1, R2). -/
def Weigh.digitizerSample (dig : Digitizer) (raw : Int) (ok : Bool) (s : State) : State :=
  match dig with
  | .bridge b => s.sample b.channel raw ok
  | .platform =>
    match s.selected with
    | none => s
    | some n =>
      let s1 := s.sample n.channel raw ok
      s1.setNextPlatform (if (s1.chan n.other.channel).st ≠ .off then n.other else n)

def execDigitizerSample (dig : Digitizer) (raw : Int) (ok : Bool) (s : State) : Host.Outcome State Fault Refusal :=
  run (Weigh.digitizerSample dig raw ok) s

/-- ATTEMPT_TIMEOUT (R21). -/
def Weigh.attemptTimeout (ch : Channel) (s : State) : State :=
  let c := s.chan ch
  match c.capture with
  | none => s
  | some k =>
    if k.attempt < c.set.Rf + 2 then
      s.setChan ch { c with capture := some { k with attempt := k.attempt + 1, attemptTimer := s.timer (c.set.A * 1000) } }
    else s.endCapture ch .unstable none none

def execAttemptTimeout (ch : Channel) (s : State) : Host.Outcome State Fault Refusal := run (Weigh.attemptTimeout ch) s

/-! Requests -/

/-- A request whose channel number names no channel does not fit its kind (R206 check 3, log 28). -/
def withChannel (n : Nat) (k : Channel → Handler) : Handler := fun p s =>
  match Channel.ofNat? n with
  | none => refuse s .badParam
  | some ch => k ch p s

/-- The window port uses only C2 and C3 in capture requests (R207). -/
def deniedTo (p : Port) (ch : Channel) : Bool := p == .window && ch.bridge?.isSome

def Signal.code : Signal → Nat
  | .good => 0 | .lost => 1

/-- A live report: 0 absent, 1 a weight, 2 OVER, 3 UNDER; then the weight, 0 where there is none. The five bytes are the model's
(log 20). -/
def Report.fields : Report → List Field
  | .absent => [.u8 0, .i32 0]
  | .weight t => [.u8 1, .i32 t]
  | .over => [.u8 2, .i32 0]
  | .under => [.u8 3, .i32 0]

/-- The settings as CHANNEL STATE answers them, G in 4 bytes (R10, log 20). -/
def ChannelSettings.fields (x : ChannelSettings) : List Field :=
  [.u32 x.G, .i32 x.d, .i32 x.K, .u8 x.M, .u8 x.b, .u8 x.T, .u8 x.A, .u8 x.Rf, flagField x.enabled, flagField x.calibrated,
    .u16 x.calCounter]

/-- The capture in flight as CHANNEL STATE reports it. -/
def ChannelState.captureFields (c : ChannelState) : List Field :=
  match c.capture with
  | none => [.u8 0]
  | some k => [.u8 1, .u8 (portCode k.port), .u16 k.serial, .u8 k.attempt, flagField (k.coarse c.set)]

/-- CHANNEL STATE (R10) changes nothing. -/
def Weigh.channelState (ch : Channel) : Handler := fun _ s =>
  let c := s.chan ch
  done s
    ([.u8 c.st.code] ++ optU8 (if c.st = .service then some c.signal.code else none) ++ c.live.fields
      ++ [flagField c.stable, flagField c.occupied, flagField c.drift, .i32 c.z, .i32 c.set.zCal] ++ c.set.fields
      ++ c.captureFields ++ [optPort (c.slot.map (·.1))])

def execChannelState (src : Sender) (ch : Nat) (s : State) : Host.Outcome State Fault Refusal :=
  request src 0x10 (withChannel ch Weigh.channelState) s

/-- The divisions a channel may have (section 1.2). -/
def divisions : List Nat := [1, 2, 5, 10, 20, 50, 100, 200, 500]

/-- The settings a CHANNEL SET would store, when every value is in range; A clamps (R3). -/
def ChannelSettings.with? (set : ChannelSettings) (x : ChannelParams) : Option ChannelSettings :=
  let d := x.d.toNat
  let K := x.K.toNat
  if x.d < 0 ∨ x.K < 0 ∨ d ∉ divisions ∨ K % d ≠ 0 ∨ K / d < 100 ∨ 10000 < K / d ∨ 999990 < K ∨ x.M < 4 ∨ 32 < x.M ∨ x.b < 1
      ∨ 4 < x.b ∨ x.T % 2 ≠ 0 ∨ x.T < 10 ∨ 100 < x.T ∨ x.Rf < 1 ∨ 7 < x.Rf then none
  else
    some
      { set with
        enabled := x.enabled, d := d, K := K, M := x.M, b := x.b, T := x.T, A := clamp x.A 1 5, Rf := x.Rf,
        calCounter := if d ≠ set.d ∨ K ≠ set.K then saturating set.calCounter 65535 else set.calCounter }

/-- CHANNEL SET (R3): a change of d or K drops the channel's tares; a change of d, K or M clears window and block. -/
def Weigh.channelSet (params : ChannelParams) (ch : Channel) : Handler := fun _ s =>
  let c := s.chan ch
  if c.st ≠ .service then refuse s .wrongState
  else
    match c.set.with? params with
    | none => refuse s .badParam
    | some set =>
      let changed := set.d ≠ c.set.d ∨ set.K ≠ c.set.K
      let c1 := { c with set := set }
      let c2 := if changed ∨ set.M ≠ c.set.M then { c1.clearWindow with block := emptyBlock } else c1
      let s1 := s.setChan ch c2
      done (if changed then s1.dropTares ch else s1)

def execChannelSet (src : Sender) (ch : Nat) (params : ChannelParams) (s : State) : Host.Outcome State Fault Refusal :=
  request src 0x11 (withChannel ch (Weigh.channelSet params)) s

/-- A platform leaves OFF: where both were in OFF the arbiter selects it (R2). -/
def State.wakePlatform (s : State) (ch : Channel) : State :=
  if s.wch.c2.st = .off ∧ s.wch.c3.st = .off then
    match ch with
    | .c2 => s.setNextPlatform .c2
    | .c3 => s.setNextPlatform .c3
    | _ => s
  else s

/-- CHANNEL SERVICE enter (R9). -/
def State.enterService (s : State) (ch : Channel) : State :=
  let s1 := s.wakePlatform ch
  let c := s1.chan ch
  s1.enter ch (s1.timed ch { c.clearWindow with signal := .good, block := emptyBlock, goodCount := 0 }) .service

/-- Entry into STARTING from SERVICE or after a reset (R7). -/
def State.enterStarting (s : State) (ch : Channel) : State :=
  let c := s.chan ch
  s.enter ch (s.timed ch { c.clearWindow with goodCount := 0 }) .starting

/-- Entry into OFF: the live weight is absent, occupancy becomes unoccupied and the signal timer stops (R1, R9). -/
def State.enterOff (s : State) (ch : Channel) : State :=
  let c := s.chan ch
  (s.enter ch { c with signalTimer := none, live := .absent, stable := false } .off).setOccupied ch false

/-- CHANNEL SERVICE (R9). -/
def Weigh.service (enter : Bool) (ch : Channel) : Handler := fun _ s =>
  let c := s.chan ch
  if enter then
    if c.st = .service then refuse s .wrongState
    else if c.capture.isSome ∨ c.slot.isSome then refuse s .unitBusy
    else done (s.enterService ch)
  else if c.st ≠ .service then refuse s .wrongState
  else done (if c.set.enabled && c.set.calibrated then s.enterStarting ch else s.enterOff ch)

def execChannelService (src : Sender) (ch : Nat) (enter : Bool) (s : State) : Host.Outcome State Fault Refusal :=
  request src 0x12 (withChannel ch (Weigh.service enter)) s

/-- The live report the newest sample of the window gives under the present zero and gain, as ZERO and CALIBRATE SPAN answer it
(log 31). -/
def ChannelState.relive (c : ChannelState) : Report :=
  match c.window.getLast? with
  | some x => reported c.set (weighed c.set c.z x.raw 1)
  | none => .absent

/-- ZERO (R12). -/
def Weigh.zero (ch : Channel) : Handler := fun _ s =>
  let c := s.chan ch
  let mean := rawMean c.window
  if c.st ≠ .active then refuse s .wrongState
  else if c.capture.isSome then refuse s .unitBusy
  else if !c.stable then refuse s .notStable
  else if !zeroBound c.set mean then refuse s .zeroRange
  else
    let c1 := { c with z := mean, block := emptyBlock }
    done ((s.setChan ch c1).setDrift ch false) (.i32 mean :: c1.relive.fields)

def execZero (src : Sender) (ch : Nat) (s : State) : Host.Outcome State Fault Refusal :=
  request src 0x13 (withChannel ch Weigh.zero) s

/-- The ticket a capture names: its record, when there is one (R18). -/
def State.captureTicket (s : State) : Option Nat → Option Ticket
  | none => none
  | some n => s.ticket? n

/-- A bridge deck in ON_DECK, a platform occupied (R18). -/
def State.inPlace (s : State) (ch : Channel) : Bool :=
  match ch.bridge? with
  | some b => (s.bridge b).pos == .onDeck
  | none => (s.chan ch).occupied

/-- Why a CAPTURE is refused, the first of R18's table that holds; none when it is taken. -/
def State.captureRefusal (s : State) (p : Port) (ch : Channel) (ticket grade : Option Nat) (tare : Option Int) : Option Status :=
  let c := s.chan ch
  let t := tare.getD 0
  if deniedTo p ch then some .wrongPort
  else if grade.any (fun g => decide (g < 1 ∨ 64 < g)) ∨ t < 0 ∨ t % (c.set.d : Int) ≠ 0 ∨ (c.set.K : Int) < t then some .badParam
  else if c.st ≠ .active then some .wrongState
  else if c.capture.isSome ∨ heldFor c.slot p.other then some .unitBusy
  else if heldFor c.slot p then some .outcomeUnread
  else if !s.inPlace ch then some .position
  else
    match ticket with
    | none => none
    | some n =>
      match s.ticket? n with
      | none => some .noTicket
      | some k =>
        if k.st ≠ TicketSt.opened ∧ k.st ≠ TicketSt.weighing then some .ticketState
        else if (k.kind == TicketKind.bridge) != ch.bridge?.isSome then some .wrongChannel
        else none

/-- The capture record of a taken CAPTURE (R19). -/
def State.newCapture (s : State) (p : Port) (c : ChannelState) (ticket grade : Option Nat) (tare : Option Int) : Capture :=
  { port := p, serial := c.serial, ticket := (s.captureTicket ticket).map Ticket.ref, grade := grade, tare := tare.getD 0,
    attempt := 1, attemptTimer := s.timer (c.set.A * 1000), samples := [], startedAt := s.stamp }

/-- A taken CAPTURE (R19): the zero-tracking block is disqualified, and on a bridge the captured mark is cleared (R38). -/
def State.startCapture (s : State) (p : Port) (ch : Channel) (ticket grade : Option Nat) (tare : Option Int) : State :=
  let c := s.chan ch
  let s1 :=
    s.setChan ch
      { c with
        capture := some (s.newCapture p c ticket grade tare)
        serial := wrapping c.serial 0 65535
        block := { c.block with disqualified := true } }
  match ch.bridge? with
  | some b => s1.setBridge b { s1.bridge b with captured := false }
  | none => s1

/-- CAPTURE (R18, R19). -/
def Weigh.capture (ticket grade : Option Nat) (tare : Option Int) (ch : Channel) : Handler := fun p s =>
  match s.captureRefusal p ch ticket grade tare with
  | some code => refuse s code
  | none => (s.startCapture p ch ticket grade tare, ⟨.started, [.u8 ch.num, .u16 (s.chan ch).serial]⟩)

def execCapture (src : Sender) (ch : Nat) (ticket grade : Option Nat) (tare : Option Int) (s : State) :
    Host.Outcome State Fault Refusal :=
  request src 0x14 (withChannel ch (Weigh.capture ticket grade tare)) s

/-- CAPTURE ABORT (R23). -/
def Weigh.abort (ch : Channel) : Handler := fun p s =>
  if deniedTo p ch then refuse s .wrongPort
  else
    match (s.chan ch).capture with
    | some k => if k.port = p then done (s.endCapture ch .aborted none none) else refuse s .noOperation
    | none => refuse s .noOperation

def execCaptureAbort (src : Sender) (ch : Nat) (s : State) : Host.Outcome State Fault Refusal :=
  request src 0x15 (withChannel ch Weigh.abort) s

def CaptureEnd.code : CaptureEnd → Nat
  | .captured => 1 | .capturedCoarse => 2 | .unstable => 3 | .position => 4 | .overload => 5 | .underload => 6 | .signal => 7
  | .aborted => 8

def Application.code : Application → Nat
  | .applied => 1 | .notBound => 2 | .ticketGone => 3 | .ticketState => 4 | .listFull => 5 | .noDrop => 6

/-- A capture outcome record in its layout of 22 bytes (R213). -/
def CaptureOutcome.fields (o : CaptureOutcome) : List Field :=
  [.u8 o.channel.num, .u16 o.serial, .u8 o.outcome.code] ++ optI32 o.weight
    ++ [.u8 o.fineAttempts, .u8 o.coarseAttempts, .stamp o.time, zeroU8 (o.application.map Application.code), zeroU24 o.ticket]

/-- OUTCOME FETCH of a channel (R25). -/
def Weigh.outcomeFetch (ch : Channel) : Handler := fun p s =>
  let c := s.chan ch
  if deniedTo p ch then refuse s .wrongPort
  else
    match c.slot with
    | some (q, o) =>
      if q ≠ p ∨ c.capture.isSome then refuse s .noOperation
      else done (s.setChan ch { c with slot := none }) (.u8 ch.num :: o.fields)
    | none => refuse s .noOperation

/-- OUTCOME FETCH (R209): 0 to 3 for a channel, 4 for the dispenser. -/
def Weigh.fetch (target : Nat) : Handler := if target = 4 then Cash.outcomeFetch else withChannel target Weigh.outcomeFetch

def execOutcomeFetch (src : Sender) (target : Nat) (s : State) : Host.Outcome State Fault Refusal :=
  request src 0x16 (Weigh.fetch target) s

/-! Calibration (R14 to R17) -/

/-- Whether a calibration is locked out: the channel not in SERVICE, or the switch open (R14). -/
def State.calLocked (s : State) (ch : Channel) : Bool := (s.chan ch).st != .service || !s.switchClosed

/-- Whether a calibration may work on the window: signal GOOD and the channel stable (R14), by the stability judgement held since its
newest sample (R1), so that a change of b acts from the next one (R3). -/
def ChannelState.calibratable (c : ChannelState) : Bool := c.signal == .good && c.stable

/-- The settings after one calibration change (R17). -/
def ChannelSettings.counted (set : ChannelSettings) : ChannelSettings := { set with calCounter := saturating set.calCounter 65535 }

/-- CALIBRATE ZERO (R14, R15). -/
def Weigh.calibrateZero (ch : Channel) : Handler := fun _ s =>
  let c := s.chan ch
  let mean := rawMean c.window
  if s.calLocked ch then refuse s .calLocked
  else if !c.calibratable then refuse s .notStable
  else
    let c1 := { c with z := mean, set := { c.set.counted with zCal := mean }, block := emptyBlock }
    done ((s.setChan ch c1).setDrift ch false) [.i32 mean]

def execCalibrateZero (src : Sender) (ch : Nat) (s : State) : Host.Outcome State Fault Refusal :=
  request src 0x17 (withChannel ch Weigh.calibrateZero) s

/-- The gain a test weight gives; none where R16 refuses SPAN_RANGE. -/
def spanGain? (set : ChannelSettings) (sum weight : Int) : Option Nat :=
  let den := sum - set.M * set.zCal
  if den ≤ 0 then none
  else
    let g := roundHalfUp (weight * 65536 * set.M) den.toNat
    if g < 1 ∨ 16777215 < g then none else some g.toNat

/-- CALIBRATE SPAN (R14, R16). -/
def Weigh.calibrateSpan (weight : Int) (ch : Channel) : Handler := fun _ s =>
  let c := s.chan ch
  if s.calLocked ch then refuse s .calLocked
  else if weight % (c.set.d : Int) ≠ 0 ∨ weight < 50 * (c.set.d : Int) ∨ (c.set.K : Int) < weight then refuse s .badParam
  else if !c.calibratable then refuse s .notStable
  else
    match spanGain? c.set (rawSum c.window) weight with
    | none => refuse s .spanRange
    | some g =>
      let c1 := { c with set := { c.set.counted with G := g, calibrated := true } }
      done (s.setChan ch c1) (.u32 g :: c1.relive.fields)

def execCalibrateSpan (src : Sender) (ch : Nat) (weight : Int) (s : State) : Host.Outcome State Fault Refusal :=
  request src 0x18 (withChannel ch (Weigh.calibrateSpan weight)) s

end Sys2Proof.Machine
end

