-- ==== Sys2Proof/Machine/Grades.lean ====
section
/-! DEFINITION. The grade table and the payout limits (chapter 3). -/

namespace Sys2Proof.Machine

/-- An entry as GRADE SET and GRADE READ answer it: its code, then every field of section 3.1 (R48, R51). That the code is one byte, and
the deduction two, is the model's: R213 gives neither a width (log 20). -/
def Grade.fields (code : Nat) (g : Grade) : List Field :=
  [.u8 code, .text g.name, .u32 g.price, .u16 g.deduction, flagField g.restricted, .u8 g.holdDays, flagField g.enabled]

/-- A code of the table. -/
def gradeCode (n : Nat) : Bool := decide (1 ≤ n ∧ n ≤ 64)

/-- The price version after one taken change (R50). -/
def State.nextVersion (s : State) : Nat := wrapping s.grt.version 0 65535

/-- The entry a GRADE SET stores: the name cut to 16 characters, deduction and hold days clamped (R48). -/
def storedGrade (name : Text) (price deduction : Nat) (restricted : Bool) (holdDays : Nat) (enabled : Bool) : Grade :=
  { name := name.take 16, price := price, deduction := min deduction 500, restricted := restricted, holdDays := min holdDays 30,
    enabled := enabled }

/-- GRADE SET (R48). -/
def Grades.set (code : Nat) (name : Text) (price deduction : Nat) (restricted : Bool) (holdDays : Nat) (enabled : Bool) : Handler :=
  fun _ s =>
    if !gradeCode code ∨ name = [] ∨ !printableText name ∨ 99999999 < price then refuse s .badParam
    else
      let g := storedGrade name price deduction restricted holdDays enabled
      done { s with grt := { s.grt with grades := s.grt.grades.set (code - 1) g, version := s.nextVersion } }
        (g.fields code ++ [.u16 s.nextVersion])

def execGradeSet (src : Sender) (code : Nat) (name : Text) (price deduction : Nat) (restricted : Bool) (holdDays : Nat)
    (enabled : Bool) (s : State) : Host.Outcome State Fault Refusal :=
  request src 0x30 (Grades.set code name price deduction restricted holdDays enabled) s

def Limits.fields (l : Limits) : List Field :=
  [.u32 l.cashLimit, .u32 l.unit, .u32 l.approvalLimit, .u32 l.fee, .u16 l.claimLapse, .u16 l.takeTimeout, .u16 l.tareValidity]

/-- The entries a GRADE READ answers, each with its code (R51). -/
def State.gradesFrom (s : State) (first count : Nat) : List (Nat × Grade) :=
  ((s.grt.grades.drop (first - 1)).take count).zipIdx.map fun x => (first + x.2, x.1)

/-- GRADE READ (R51) changes nothing. The one byte of the first code and of the count it carries is the model's (log 20). -/
def Grades.read (first count : Nat) : Handler := fun _ s =>
  if !gradeCode first ∨ count < 1 ∨ 6 < count then refuse s .badParam
  else
    done s (listFields (fun x => Grade.fields x.1 x.2) (s.gradesFrom first count) ++ [.u16 s.grt.version] ++ Limits.fields s.grt.limits)

def execGradeRead (src : Sender) (first count : Nat) (s : State) : Host.Outcome State Fault Refusal :=
  request src 0x31 (Grades.read first count) s

/-- No code stands in two pairs. -/
def codesDistinct : List (Nat × Nat) → Bool
  | [] => true
  | x :: rest => rest.all (fun y => y.1 != x.1) && codesDistinct rest

/-- The entries with the price of each pair in place (R49). -/
def setPrices (grades : List Grade) (pairs : List (Nat × Nat)) : List Grade :=
  pairs.foldl (fun l x => l.modify (x.1 - 1) fun g => { g with price := x.2 }) grades

/-- PRICE SET (R49). -/
def Grades.priceSet (pairs : List (Nat × Nat)) : Handler := fun _ s =>
  if pairs = [] ∨ 16 < pairs.length ∨ pairs.any (fun x => !gradeCode x.1 || decide (99999999 < x.2)) ∨ !codesDistinct pairs then
    refuse s .badParam
  else
    done { s with grt := { s.grt with grades := setPrices s.grt.grades pairs, version := s.nextVersion } } [.u16 s.nextVersion]

def execPriceSet (src : Sender) (pairs : List (Nat × Nat)) (s : State) : Host.Outcome State Fault Refusal :=
  request src 0x32 (Grades.priceSet pairs) s

/-- The money limits and the rounding unit in range (section 3.2). -/
def Limits.moneyOk (l : Limits) : Bool :=
  decide (l.cashLimit ≤ 99999999 ∧ l.unit ∈ [1, 5, 10, 50, 100] ∧ l.approvalLimit ≤ 99999999 ∧ l.fee ≤ 99999)

/-- The limits as stored: the time limits clamp (R54). -/
def Limits.stored (l : Limits) : Limits :=
  { l with
    claimLapse := clamp l.claimLapse 30 600, takeTimeout := clamp l.takeTimeout 10 120, tareValidity := clamp l.tareValidity 1 365 }

/-- LIMITS SET (R54). -/
def Grades.limitsSet (l : Limits) : Handler := fun _ s =>
  if !Limits.moneyOk l then refuse s .badParam
  else done { s with grt := { s.grt with limits := Limits.stored l } } (Limits.fields (Limits.stored l))

def execLimitsSet (src : Sender) (limits : Limits) (s : State) : Host.Outcome State Fault Refusal :=
  request src 0x33 (Grades.limitsSet limits) s

end Sys2Proof.Machine
end

