-- ==== Sys2Proof/Machine/Calendar.lean ====
section
/-! DEFINITION. The calendar unit: the running calendar, the daily release and the clock requests (chapter 9). -/

namespace Sys2Proof.Machine

/-! The running calendar (R179, R185) -/

/-- The calendar has stopped at the end of its range (R179); a clock set to that value stands there too (log 32). -/
def State.clockStopped (s : State) : Bool := s.clu.now == lastSecond

/-- One second passes: the calendar advances, and the elapsed seconds are counted (log 3). -/
def State.second (s : State) : State := { s with clu := { s.clu with now := s.clu.now.next }, elapsed := s.elapsed + 1 }

/-- What the advance of a powered part does: CLOCK is latched when the calendar stops (R179), and the daily release runs when it
advances into hh:00:00 of the release hour (R185). -/
def State.advance (s : State) : State :=
  let s1 := s.second
  if s.clockStopped then s1
  else
    let s2 := if s1.clockStopped then s1.latchBoth .clock else s1
    if s2.clu.now.opens s2.clu.releaseHour then s2.releaseCheck s2.clu.now.date else s2

/-- One second on a part with power, or on the backup supply, where the calendar alone advances (R179). -/
def State.tick (s : State) : State := if s.powered then s.conclude s.advance else s.second

/-- CLOCK_TICK (R179): every second, whatever it brings. -/
def execClockTick (s : State) : Host.Outcome State Fault Refusal := .next s.tick

/-- CLOCK_STOP (R179): the second that reaches the end of the range; no other second (log 33). -/
def execClockStop (s : State) : Host.Outcome State Fault Refusal :=
  .next (if !s.clockStopped && s.second.clockStopped then s.tick else s)

/-- DAILY_RELEASE (R185): the second that reaches hh:00:00 of the release hour; no other second (log 33). -/
def execDailyRelease (s : State) : Host.Outcome State Fault Refusal :=
  .next (if !s.clockStopped && s.second.clu.now.opens s.clu.releaseHour then s.tick else s)

/-! Requests (R181 to R183) -/

/-- CLOCK SET (R181). -/
def Calendar.set (t : DateTime) : Handler := fun _ s =>
  if !t.legal then refuse s .badParam
  else
    let s1 := ({ s with clu := { s.clu with now := t, valid := true } } : State).latchBoth .clock
    done (s1.releaseCheck t.date) [.stamp s.stamp, .stamp ⟨t, true⟩, .u8 (s.dueCount t.date)]

def execClockSet (src : Sender) (year month day hour minute second : Nat) (s : State) : Host.Outcome State Fault Refusal :=
  request src 0x68 (Calendar.set ⟨year, month, day, hour, minute, second⟩) s

/-- hh:00:00 of a date. -/
def Date.atHour (d : Date) (hour : Nat) : DateTime := ⟨d.year, d.month, d.day, hour, 0, 0⟩

/-- The value at which the next daily release falls due (R183); none when it lies past the end of the range, where R183 gives no
value: the model's choice (log 50). -/
def State.nextRelease (s : State) : Option DateTime :=
  let today := s.clu.now.date.atHour s.clu.releaseHour
  if s.clu.now.number < today.number then some today
  else if s.clu.now.date = ⟨2099, 12, 31⟩ then none
  else some (s.clu.now.date.next.atHour s.clu.releaseHour)

/-- How many tickets are HELD. -/
def State.heldCount (s : State) : Nat := (s.tkt.tickets.filter fun t => t.st == .held).length

/-- CLOCK READ (R183) changes nothing. The value of the next release is sent as a stamp with the present clock-valid flag (log 20),
behind a presence byte, absent where no release falls due before the end of the range (log 50). -/
def Calendar.read : Handler := fun _ s =>
  done s
    ([.stamp s.stamp, flagField s.clockStopped, .u8 s.clu.releaseHour] ++ optStamp (s.nextRelease.map fun t => ⟨t, s.clu.valid⟩)
      ++ [.u8 s.heldCount])

def execClockRead (src : Sender) (s : State) : Host.Outcome State Fault Refusal := request src 0x69 Calendar.read s

/-- RELEASE HOUR SET (R182). -/
def Calendar.releaseHourSet (hour : Nat) : Handler := fun _ s =>
  if 23 < hour then refuse s .badParam else done { s with clu := { s.clu with releaseHour := hour } } [.u8 hour]

def execReleaseHourSet (src : Sender) (hour : Nat) (s : State) : Host.Outcome State Fault Refusal :=
  request src 0x6A (Calendar.releaseHourSet hour) s

end Sys2Proof.Machine
end

