-- ==== Sys2Proof/Machine/Events.lean ====
section
/-! DEFINITION. The requests of the event unit and of the links: identity, events, counters, restart, alerts (chapters 10, 11). -/

namespace Sys2Proof.Machine

/-! General requests -/

/-- IDENT (R210) changes nothing. -/
def General.ident : Handler := fun _ s =>
  done s
    [.text (txt "RZS-48"), .u8 Config.firmwareLevel, .u8 s.straps, flagField s.online, .u8 s.tkt.series, flagField s.settingsLost,
      flagField s.retainLost]

def execIdent (src : Sender) (s : State) : Host.Outcome State Fault Refusal := request src 0x01 General.ident s

/-- EVENTS FETCH (R191). -/
def General.eventsFetch : Handler := fun p s =>
  let e := s.events p
  done (s.setEvents p { e with latched := 0 }) [.u24 e.latched.toNat, .u24 e.mask.toNat]

def execEventsFetch (src : Sender) (s : State) : Host.Outcome State Fault Refusal := request src 0x02 General.eventsFetch s

/-- EVENTS MASK (R192): bit 23 names no flag. -/
def General.eventsMask (mask : BitVec 24) : Handler := fun p s =>
  if mask.getLsbD 23 then refuse s .badParam else done (s.setEvents p { s.events p with mask := mask }) [.u24 mask.toNat]

def execEventsMask (src : Sender) (mask : BitVec 24) (s : State) : Host.Outcome State Fault Refusal :=
  request src 0x03 (General.eventsMask mask) s

def Counters.fields (c : Counters) : List Field :=
  [.u16 c.check, .u16 c.char, .u16 c.overrun, .u16 c.gap, .u16 c.length, .u16 c.break_, .u16 c.groupDropped]

/-- LINK COUNTERS (R204). -/
def General.linkCounters : Handler := fun p s =>
  done (s.setPort p { s.port p with counters := noCounters }) (s.port p).counters.fields

def execLinkCounters (src : Sender) (s : State) : Host.Outcome State Fault Refusal := request src 0x04 General.linkCounters s

/-- The kind byte of RESTART. -/
def restartKind : Nat := 0x05

/-- RESTART (R211) is answered; the warm restart follows when its answer has been sent (`Links.answerSent`). -/
def General.restart : Handler := fun _ s => done s

def execRestart (src : Sender) (s : State) : Host.Outcome State Fault Refusal := request src restartKind General.restart s

/-! Alerts (R196 to R198) -/

/-- One source as ALERT READ reports it: its latch with its stamp, its enable, and its condition where it has one (R198);
the presence byte of the stamp is the latch itself (log 22). -/
def State.alertFields (s : State) (src : AlertSource) : List Field :=
  let a := s.evu.alerts.get src
  optStamp a.latch ++ [flagField a.enabled]
    ++ (match src with
      | .retract => []
      | .dispute => []
      | _ => [flagField (s.alertCondition src)])

/-- ALERT READ (R198) changes nothing. -/
def Alert.read : Handler := fun _ s =>
  done s
    (s.alertFields .cashDoor ++ s.alertFields .cabinet ++ s.alertFields .calSwitch ++ s.alertFields .retract
      ++ s.alertFields .dispute ++ [flagField s.evu.alerts.globalEnable, flagField s.outs.yardAlert])

def execAlertRead (src : Sender) (s : State) : Host.Outcome State Fault Refusal := request src 0x70 Alert.read s

/-- The alerts with new enables and every latch as it was (R196). -/
def Alerts.enable (a : Alerts) (globalEnable : Bool) (m : AlertMarks) : Alerts :=
  { cashDoor := { a.cashDoor with enabled := m.cashDoor }
    cabinet := { a.cabinet with enabled := m.cabinet }
    calSwitch := { a.calSwitch with enabled := m.calSwitch }
    retract := { a.retract with enabled := m.retract }
    dispute := { a.dispute with enabled := m.dispute }
    globalEnable := globalEnable }

/-- ALERT SET (R196). -/
def Alert.set (globalEnable : Bool) (enables : AlertMarks) : Handler := fun _ s =>
  done { s with evu := { s.evu with alerts := s.evu.alerts.enable globalEnable enables } }

def execAlertSet (src : Sender) (globalEnable : Bool) (enables : AlertMarks) (s : State) : Host.Outcome State Fault Refusal :=
  request src 0x71 (Alert.set globalEnable enables) s

/-- The mark of a source. -/
def AlertMarks.has (m : AlertMarks) : AlertSource → Bool
  | .cashDoor => m.cashDoor
  | .cabinet => m.cabinet
  | .calSwitch => m.calSwitch
  | .retract => m.retract
  | .dispute => m.dispute

/-- A source after an ALERT CLEAR: a named one is cleared unless its condition persists (R197). -/
def State.clearedAlert (s : State) (named : Bool) (src : AlertSource) : AlertState :=
  let a := s.evu.alerts.get src
  if named && !s.alertCondition src then { a with latch := none } else a

/-- The alerts after an ALERT CLEAR (R197). -/
def State.clearedAlerts (s : State) (all : Bool) (m : AlertMarks) : Alerts :=
  let one (src : AlertSource) : AlertState := s.clearedAlert (all || AlertMarks.has m src) src
  { s.evu.alerts with
    cashDoor := one .cashDoor, cabinet := one .cabinet, calSwitch := one .calSwitch, retract := one .retract,
    dispute := one .dispute }

def AlertMarks.none? (m : AlertMarks) : Bool := !(m.cashDoor || m.cabinet || m.calSwitch || m.retract || m.dispute)

/-- ALERT CLEAR (R197): answered with the sources still latched. -/
def Alert.clear (all : Bool) (named : AlertMarks) : Handler := fun _ s =>
  if !all && AlertMarks.none? named then refuse s .badParam
  else
    let a := s.clearedAlerts all named
    done { s with evu := { s.evu with alerts := a } }
      [flagField a.cashDoor.latch.isSome, flagField a.cabinet.latch.isSome, flagField a.calSwitch.latch.isSome,
        flagField a.retract.latch.isSome, flagField a.dispute.latch.isSome]

def execAlertClear (src : Sender) (all : Bool) (named : AlertMarks) (s : State) : Host.Outcome State Fault Refusal :=
  request src 0x72 (Alert.clear all named) s

end Sys2Proof.Machine
end

