-- ==== Sys2Proof/Machine/Reset.lean ====
section
/-! DEFINITION. Power and resets: what every block starts with after each of the four starting conditions (00 Resets in overview, and
the last section of each chapter). -/

namespace Sys2Proof.Machine

/-- What a reset finds: whether retained memory and the settings store are valid. A warm restart keeps both. -/
structure Start where
  retained : Bool
  settings : Bool
  deriving DecidableEq, Repr

/-- The condition of a warm restart. -/
def warm : Start := ⟨true, true⟩

/-- A value of the settings store, or its default where the store is invalid. -/
def Start.set {α : Type} (w : Start) (kept default : α) : α := if w.settings then kept else default

/-- A value of retained memory, or its value after a loss. -/
def Start.ret {α : Type} (w : Start) (kept lost : α) : α := if w.retained then kept else lost

/-! Blocks, before any event of the reset -/

/-- A channel's settings, Z and serial counter after a reset, with nothing in its working state (R26 to R28). -/
def ChannelState.afterReset (c : ChannelState) (w : Start) : ChannelState :=
  let set := w.set c.set defaultChannelSettings
  idleChannel set (w.set (w.ret c.z c.set.zCal) 0) (w.ret c.serial 0)

def Wch.afterReset (x : Wch) (w : Start) : Wch :=
  { c0 := x.c0.afterReset w, c1 := x.c1.afterReset w, c2 := x.c2.afterReset w, c3 := x.c3.afterReset w, nextPlatform := .c2 }

/-- A line after a reset: its debounced state straight from its level, and a GP_OUT line off (R45). -/
def YardLine.afterReset (l : YardLine) (line : Nat) (e : LineEntry) : YardLine :=
  { l.remapped line e with out := false }

/-- The map in force after a reset (R45, R46). -/
def linesAfterReset (lines : List YardLine) (w : Start) : List YardLine :=
  (lines.zip (w.set (lines.map (·.entry)) defaultLineMap)).zipIdx.map fun x => x.1.1.afterReset x.2 x.1.2

def Dsu.afterReset (x : Dsu) (w : Start) : Dsu :=
  { lines := linesAfterReset x.lines w
    beamDebounce := w.set x.beamDebounce defaultBeamDebounce
    beamFault := w.set x.beamFault defaultBeamFault
    patterns := w.set x.patterns defaultPatterns
    aspects := w.set x.aspects defaultAspects
    stretchTime := w.set x.stretchTime defaultStretch
    bridge0 := idleBridge
    bridge1 := idleBridge }

/-- An alert source after a reset: its latch cleared (R199). -/
def AlertState.cleared (a : AlertState) : AlertState := { a with latch := none }

def Alerts.afterReset (a : Alerts) (w : Start) : Alerts :=
  w.set
    { cashDoor := a.cashDoor.cleared, cabinet := a.cabinet.cleared, calSwitch := a.calSwitch.cleared, retract := a.retract.cleared,
      dispute := a.dispute.cleared, globalEnable := a.globalEnable }
    clearAlerts

/-- The event unit after every reset (R199, R200). -/
def Evu.afterReset (e : Evu) (w : Start) : Evu := ⟨⟨0, 0⟩, ⟨0, 0⟩, e.alerts.afterReset w⟩

def Clu.afterReset (c : Clu) (w : Start) : Clu :=
  { now := w.ret c.now epoch, valid := w.ret c.valid false, releaseHour := w.set c.releaseHour defaultReleaseHour }

def Grt.afterReset (g : Grt) (w : Start) : Grt := w.set g ⟨defaultGrades, 0, defaultLimits⟩

/-- A record adjusted by a reset that keeps it (R92); `reached` says that the dispenser had reached WAITING in the interrupted
payout. -/
def Ticket.afterReset (t : Ticket) (reached : Bool) : Ticket :=
  t.revised
    (match t.st with
      | .claimed => t.unclaim
      | .paying =>
        { t with
          st := if reached then .disputed else .settled
          claim := none
          lapse := none
          payout := t.payout.map fun r => { r with paid := 0, shortfall := 0, last := some .interrupted } }
      | _ => t)

/-- Whether the payout in flight had reached WAITING. -/
def Pyu.reachedTray (u : Pyu) : Bool :=
  match u.payout with
  | some p => p.presented
  | none => false

/-- Whether a reset makes a ticket DISPUTED (R154). -/
def State.resetDisputes (s : State) : Bool := s.pyu.reachedTray && s.tkt.tickets.any fun t => t.st == .paying

/-- The ticket table after a reset (R92 to R94). -/
def Tkt.afterReset (k : Tkt) (w : Start) (reached : Bool) : Tkt :=
  { tickets := w.ret (k.tickets.map fun t => t.afterReset reached) []
    spent := w.ret k.spent []
    counter := w.ret k.counter 1
    opening := w.ret k.opening 0
    series := w.set (w.ret k.series (wrapping k.series 1 99)) 1 }

/-- The bundle of the payout a reset finds in flight, or the one an earlier reset's recovery has still to record (R154, log 34). -/
def Pyu.interrupted (u : Pyu) : Option Bundle :=
  match u.payout, u.recovery with
  | some p, _ => some ⟨p.ticket, p.picked, p.pickedAmount, p.presented⟩
  | none, some r => r.interrupted
  | none, none => none

/-- The payout unit after a reset: RECOVERING with RETRACT given, or DOOR_OPEN remembering it (R154, R155). -/
def Pyu.afterReset (u : Pyu) (w : Start) (doorOpen : Bool) : Pyu :=
  { stores := w.ret u.stores (List.replicate 6 uncountedStore)
    disp := if doorOpen then .doorOpen else .recovering
    remembered := if doorOpen then .recovering else .idle
    doorPending := false
    command := if doorOpen then none else some .retract
    takeTimer := none
    payout := none
    recovery := some ⟨w.ret u.interrupted none⟩
    slot := none
    log := w.ret u.log []
    bin := w.ret u.bin 0 }

/-- The print unit after a reset (R176 to R178). -/
def Rpu.afterReset (r : Rpu) (w : Start) : Rpu :=
  idlePrinter (w.ret r.serial 1) (w.set r.header1 []) (w.set r.header2 []) (w.set r.header3 []) (w.set r.autoBridge true)
    (w.set r.autoCounter false)

/-- Every block as it stands before the events of the reset. -/
def State.cleared (s : State) (w : Start) : State :=
  let s1 : State :=
    { s with
      office := idlePort
      window := idlePort
      evu := s.evu.afterReset w
      outs := ⟨false, false⟩
      clu := s.clu.afterReset w
      wch := s.wch.afterReset w
      dsu := s.dsu.afterReset w
      grt := s.grt.afterReset w
      tkt := s.tkt.afterReset w s.pyu.reachedTray
      vtr := if w.retained && w.settings then s.vtr else []
      rpu := s.rpu.afterReset w }
  { s1 with pyu := s.pyu.afterReset w s1.cashDoorOpen }

/-! The events of a reset -/

/-- What start-up latches for a loss (R188, R199, R200). -/
def State.latchLosses (s : State) (w : Start) : State :=
  let s1 := if w.retained then s else (s.latchBoth .retainLost).latchBoth .clock
  if w.settings then s1 else s1.latchBoth .settingsLost

/-- A channel enters STARTING when it is enabled and calibrated, else OFF (R26). -/
def State.startChannel (s : State) (ch : Channel) : State :=
  let set := (s.chan ch).set
  if set.enabled && set.calibrated then s.enterStarting ch else s.enterOff ch

/-- A beam read blocked enters its position machine as a beam change (R45). -/
def State.startBeam (s : State) (b : Bridge) (side : Side) : State :=
  if s.beamBlocked b side then s.beamChange b side true else s

/-- A condition that holds at its read value begins, and latches its alert (R45, R199). -/
def State.startAlert (s : State) (src : AlertSource) : State := if s.alertCondition src then s.markAlert src else s

/-- The check date of the power-up release (R188). -/
def State.releaseDate (s : State) : Date :=
  if s.clu.releaseHour ≤ s.clu.now.hour then s.clu.now.date else s.clu.now.date.previous

/-- Every lamp role starts the pattern of its view's row at step 1 (R45). -/
def State.startLamps (s : State) : State := { s with lamps := ⟨.begin (s.lampRow .b0), .begin (s.lampRow .b1)⟩ }

/-- A reset (R26 to R28, R45, R60, R92 to R94, R124, R154, R155, R176, R188, R199, R212): every block cleared, then the events of the
reset, in the order of the chapters where no rule gives one (log 12). -/
def State.startUp (s : State) (w : Start) : State :=
  let s1 := (s.cleared w).latchLosses w
  let s2 := (((s1.startChannel .c0).startChannel .c1).startChannel .c2).startChannel .c3
  let s3 := (((s2.startBeam .b0 .entry).startBeam .b0 .exit).startBeam .b1 .entry).startBeam .b1 .exit
  let s4 := ((s3.startAlert .cashDoor).startAlert .cabinet).startAlert .calSwitch
  let s5 := if w.retained && s.resetDisputes then s4.markAlert .dispute else s4
  let s6 := if w.retained then s5.releaseCheck s5.releaseDate else s5
  s6.pump.startLamps.settle

/-- A power-up: the straps are read, and IDENT's two losses are noted (R202, R210). -/
def State.powerUp (s : State) (retained settings : Bool) (straps : Nat) : State :=
  ({ s with powered := true, straps := straps % 32, settingsLost := !settings, retainLost := !retained } : State).startUp
    ⟨retained, settings⟩

def execPowerUp (retained settings : Bool) (straps : Nat) (s : State) : Host.Outcome State Fault Refusal :=
  .next (s.powerUp retained settings straps)

/-- RESET_LINE: a warm restart at once, with no answer (R211). -/
def execResetLine (s : State) : Host.Outcome State Fault Refusal := .next (if s.powered then s.startUp warm else s)

/-- MAIN_POWER_LOSS: the part stops, and drives no output; the calendar alone goes on (R179, log 10). -/
def execMainPowerLoss (s : State) : Host.Outcome State Fault Refusal :=
  .next { s with powered := false, outs := ⟨false, false⟩ }

end Sys2Proof.Machine
end

