-- ==== Sys2Proof/Machine/Wire.lean ====
section
/-! DEFINITION. What stands on the two lines: the check, the bytes of fields and answers, and the body of each request kind (R213,
log 20 to 24). -/

namespace Sys2Proof.Machine

/-! The check (R213) -/

/-- One bit into the CRC of x^16 + x^12 + x^5 + 1. -/
def crcBit (r : BitVec 16) (b : Bool) : BitVec 16 := if r.msb != b then (r <<< 1) ^^^ 0x1021#16 else r <<< 1

/-- One byte, most significant bit first. -/
def crcByte (r : BitVec 16) (x : Byte) : BitVec 16 := [7, 6, 5, 4, 3, 2, 1, 0].foldl (fun r i => crcBit r (x.getLsbD i)) r

/-- The check of the length, kind and body bytes, from the register at 0xFFFF. -/
def crc (bytes : List Byte) : BitVec 16 := bytes.foldl crcByte 0xFFFF#16

/-- The two check bytes, high byte first. -/
def checkBytes (bytes : List Byte) : List Byte := [(crc bytes).extractLsb' 8 8, (crc bytes).extractLsb' 0 8]

/-! Fields and answers -/

/-- A number in n bytes, high byte first. -/
def bigEndian : (n value : Nat) → List Byte
  | 0, _ => []
  | n + 1, value => bigEndian n (value / 256) ++ [BitVec.ofNat 8 value]

def Stamp.bytes (s : Stamp) : List Byte :=
  [BitVec.ofNat 8 (s.time.year - 2000), BitVec.ofNat 8 s.time.month, BitVec.ofNat 8 s.time.day, BitVec.ofNat 8 s.time.hour,
    BitVec.ofNat 8 s.time.minute, BitVec.ofNat 8 s.time.second, if s.valid then 1 else 0]

/-- The bytes of a field (R213). -/
def Field.bytes : Field → List Byte
  | .u8 n => bigEndian 1 n
  | .u16 n => bigEndian 2 n
  | .u24 n => bigEndian 3 n
  | .u32 n => bigEndian 4 n
  | .i32 z => bigEndian 4 (BitVec.ofInt 32 z).toNat
  | .text t => BitVec.ofNat 8 t.length :: t.map (BitVec.ofNat 8)
  | .stamp s => s.bytes

/-- The body of an answer: status, summary, data. -/
def Answer.body (a : Answer) : List Byte := BitVec.ofNat 8 a.status.code :: a.summary :: a.data.flatMap Field.bytes

/-- The lead of an answer frame: an address character holding 0 on the office line, 0xA5 on the window line. -/
def answerLead : Port → LineChar
  | .office => 0x100
  | .window => 0x0A5

/-- The characters of a frame from its lead, kind and body; bytes are sent with the ninth bit clear. -/
def frameChars (lead : LineChar) (kind : Byte) (body : List Byte) : List LineChar :=
  let l := BitVec.ofNat 8 (body.length + 1) :: kind :: body
  lead :: (l ++ checkBytes l).map fun b => b.zeroExtend 9

/-- The frame of an answer as a port sends it (R205). -/
def Answer.frame (a : Answer) (p : Port) : List LineChar := frameChars (answerLead p) (BitVec.ofNat 8 a.kind) a.body

/-! Request bodies -/

namespace Reader

def ticket : Reader Nat := u24

/-- One of a table, by its number. -/
def oneOf {α : Type} (table : List α) : Reader α := do
  let n ← u8
  match table[n]? with
  | some x => pure x
  | none => fail

/-- One of a table, by its number behind a presence byte; an absent one's number may be any, which is the model's choice (R213, log 21). -/
def optionalOf {α : Type} (table : List α) : Reader (Option α) := do
  let n ← presence u8
  match n with
  | none => pure none
  | some k =>
    match table[k]? with
    | some x => pure (some x)
    | none => fail

/-- A line function and its bridge, side and colour, each behind a presence byte. One that the function needs and that is absent does
not fit; one that does not apply is read and dropped (log 21). -/
def lineFunction : Reader LineFunction := do
  let f ← u8
  let b ← optionalOf [Bridge.b0, .b1]
  let x ← optionalOf [Side.entry, .exit]
  let c ← optionalOf [Colour.red, .green]
  match f, b, x, c with
  | 0, some b, some x, _ => pure (.beam b x)
  | 1, some b, some x, some c => pure (.lamp b x c)
  | 2, _, _, _ => pure .calSwitch
  | 3, _, _, _ => pure .cashDoor
  | 4, _, _, _ => pure .cabinet
  | 5, _, _, _ => pure .gpIn
  | 6, _, _, _ => pure .gpOut
  | 7, _, _, _ => pure .unmapped
  | _, _, _, _ => fail

/-- A line map entry. Section 2.1 gives the pull-up for inputs only; that of a LAMP or GP_OUT entry is stored as sent, which is the
model's choice (log 52). -/
def lineEntry : Reader LineEntry := do
  let f ← lineFunction
  let p ← oneOf [Polarity.activeLow, Polarity.activeHigh]
  let u ← bool
  pure ⟨f, p, u⟩

def aspectRow : Reader AspectRow := do
  let a ← u8
  let b ← u8
  let c ← u8
  let d ← u8
  pure ⟨a, b, c, d⟩

def channelParams : Reader ChannelParams := do
  let enabled ← bool
  let d ← i32
  let k ← i32
  let m ← u8
  let b ← u8
  let t ← u8
  let a ← u8
  let rf ← u8
  pure ⟨enabled, d, k, m, b, t, a, rf⟩

/-- The seven limits, each time limit in 2 bytes (log 20). -/
def limits : Reader Limits := do
  let cash ← u32
  let unit ← u32
  let approval ← u32
  let fee ← u32
  let lapse ← u16
  let take ← u16
  let validity ← u16
  pure ⟨cash, unit, approval, fee, lapse, take, validity⟩

def deductMode : Reader DeductMode := do
  let m ← u8
  match m with
  | 0 => pure .grade
  | 1 => do let p ← u16; pure (.percent p)
  | 2 => do let t ← i32; pure (.weight t)
  | _ => fail

/-- The two forms of TARE READ (R123): a plate, or a start index in one byte, a width R213 does not give (log 20). -/
def tareSelect : Reader TareSelect := do
  let m ← u8
  match m with
  | 0 => do let p ← text; pure (.plate p)
  | 1 => do let n ← u8; pure (.page n)
  | _ => fail

def ticketKind : Reader TicketKind := oneOf [.bridge, .counter]

def storeContents : Reader StoreContents := do
  let kind ← u8
  let denomination ← u32
  let count ← u16
  let capacity ← u16
  let low ← u16
  pure ⟨kind, denomination, count, capacity, low⟩

def alertMarks : Reader AlertMarks := do
  let a ← bool
  let b ← bool
  let c ← bool
  let d ← bool
  let e ← bool
  pure ⟨a, b, c, d, e⟩

/-- A pair of a grade code and a price. R213 gives a price 4 bytes and a grade code no width: its one byte is the model's (log 20). -/
def pricePair : Reader (Nat × Nat) := do
  let c ← u8
  let p ← u32
  pure (c, p)

/-- A calendar value, its year less 2000. -/
def dateTime : Reader DateTime := do
  let y ← u8
  let mo ← u8
  let d ← u8
  let h ← u8
  let mi ← u8
  let s ← u8
  pure ⟨2000 + y, mo, d, h, mi, s⟩

end Reader

open Reader in
/-- The body of each request kind: the fields its owning rule names, in that order, and the request they make (R213). A choice of two
is one byte; which of the two is 1 (enter in CHANNEL SERVICE, set in LAMP OVERRIDE, contents in STORE LOAD) is the model's, and so is
that a LAMP OVERRIDE that clears, a STORE LOAD marked absent and an ALERT CLEAR of ALL still hold the fields of the other choice, which
are dropped, so that a body without them is BAD_PARAM (log 21). So is that the absent texts of TARE DELETE (0x3A), TICKET OPEN (0x40)
and TICKET FINISH (0x47) must be printable as present ones must, and else are BAD_PARAM (`Reader.presence`, log 22). R213 gives no width
to a grade code (CAPTURE 0x14, GRADE SET 0x30, GRADE READ 0x31, PRICE SET 0x32, LINE GRADE 0x43) or to the count a GRADE READ asks for:
that each is one byte is the model's choice, and so are the widths of the other fields R213 does not list (log 20). -/
def bodyReader : (kind : Nat) → Reader Handler
  | 0x01 => pure General.ident
  | 0x02 => pure General.eventsFetch
  | 0x03 => do let m ← u24; pure (General.eventsMask (BitVec.ofNat 24 m))
  | 0x04 => pure General.linkCounters
  | 0x05 => pure General.restart
  | 0x10 => do let ch ← u8; pure (withChannel ch Weigh.channelState)
  | 0x11 => do let ch ← u8; let x ← channelParams; pure (withChannel ch (Weigh.channelSet x))
  | 0x12 => do let ch ← u8; let enter ← bool; pure (withChannel ch (Weigh.service enter))
  | 0x13 => do let ch ← u8; pure (withChannel ch Weigh.zero)
  | 0x14 => do
    let ch ← u8
    let n ← zeroAbsent ticket
    let g ← zeroAbsent u8
    let t ← presence i32
    pure (withChannel ch (Weigh.capture n g t))
  | 0x15 => do let ch ← u8; pure (withChannel ch Weigh.abort)
  | 0x16 => do let n ← u8; pure (Weigh.fetch n)
  | 0x17 => do let ch ← u8; pure (withChannel ch Weigh.calibrateZero)
  | 0x18 => do let ch ← u8; let w ← i32; pure (withChannel ch (Weigh.calibrateSpan w))
  | 0x20 => pure Deck.state
  | 0x21 => do
    let n ← u8
    let steps ← u8
    let tick ← u8
    let pause ← u8
    pure (Deck.lampPatternSet n (BitVec.ofNat 8 steps) tick pause)
  | 0x22 => do let rows ← times aspectRow 7; let stretch ← u16; pure (Deck.aspectSet rows stretch)
  | 0x23 => do
    let b ← u8
    let x ← presence (do let row ← aspectRow; let d ← u16; pure (row, d))
    pure (Deck.lampOverride b x)
  | 0x24 => do let l ← times lineEntry 16; let d ← u16; let f ← u16; pure (Lines.mapSet l d f)
  | 0x25 => pure Lines.read
  | 0x26 => do let n ← u8; let on ← bool; pure (Lines.write n on)
  | 0x30 => do
    let code ← u8
    let name ← text
    let price ← u32
    let deduction ← u16
    let restricted ← bool
    let hold ← u8
    let enabled ← bool
    pure (Grades.set code name price deduction restricted hold enabled)
  | 0x31 => do let first ← u8; let count ← u8; pure (Grades.read first count)
  | 0x32 => do let pairs ← listOf pricePair; pure (Grades.priceSet pairs)
  | 0x33 => do let l ← limits; pure (Grades.limitsSet l)
  | 0x38 => do let p ← text; let ch ← u8; let t ← i32; pure (Tares.store p ch t)
  | 0x39 => do let x ← tareSelect; pure (Tares.read x)
  | 0x3A => do let p ← presence text; pure (Tares.delete p)
  | 0x40 => do let k ← ticketKind; let c ← presence text; let p ← presence text; pure (Tickets.open_ k c p)
  | 0x41 => do let n ← ticket; let part ← u8; pure (Tickets.read n part)
  | 0x42 => do let all ← bool; let start ← u8; pure (Tickets.list all start)
  | 0x43 => do let n ← ticket; let place ← u8; let code ← u8; pure (Tickets.lineGrade n place code)
  | 0x44 => do let n ← ticket; let place ← u8; let m ← deductMode; pure (Tickets.lineDeduct n place m)
  | 0x45 => do let n ← ticket; let place ← u8; pure (Tickets.lineStrike n place)
  | 0x46 => do let n ← ticket; pure (Tickets.weighingStrike n)
  | 0x47 => do
    let n ← ticket
    let used ← bool
    let stored ← bool
    let c ← presence text
    let p ← presence text
    pure (Tickets.finish n used stored c p)
  | 0x48 => do let n ← ticket; pure (Tickets.reopen n)
  | 0x49 => do let n ← ticket; pure (Tickets.settle n)
  | 0x4A => do let n ← ticket; pure (Tickets.approve n)
  | 0x4B => do let n ← ticket; pure (Tickets.claim n)
  | 0x4C => do let n ← ticket; pure (Tickets.release n)
  | 0x4D => do let n ← ticket; pure (Tickets.void n)
  | 0x4E => do let n ← ticket; let h ← u32; pure (Tickets.resolve n h)
  | 0x50 => do let i ← u8; let x ← presence storeContents; pure (Cash.storeLoad i x)
  | 0x51 => do let i ← u8; let on ← bool; pure (Cash.storeEnable i on)
  | 0x52 => pure Cash.storeRead
  | 0x53 => do let n ← ticket; let partial_ ← bool; pure (Cash.payoutStart n partial_)
  | 0x54 => pure Cash.payoutCancel
  | 0x55 => do let start ← u8; pure (Cash.logRead start)
  | 0x56 => pure Cash.binEmpty
  | 0x57 => pure Cash.dispenserClear
  | 0x60 => do let n ← ticket; let form ← u8; pure (Print.receiptPrint n form)
  | 0x61 => do let id ← u8; pure (Print.cancel id)
  | 0x62 => do let part ← u8; pure (Print.state part)
  | 0x63 => do
    let h1 ← text
    let h2 ← text
    let h3 ← text
    let b ← bool
    let c ← bool
    pure (Print.headerSet h1 h2 h3 b c)
  | 0x68 => do let t ← dateTime; pure (Calendar.set t)
  | 0x69 => pure Calendar.read
  | 0x6A => do let h ← u8; pure (Calendar.releaseHourSet h)
  | 0x70 => pure Alert.read
  | 0x71 => do let on ← bool; let m ← alertMarks; pure (Alert.set on m)
  | 0x72 => do let all ← bool; let m ← alertMarks; pure (Alert.clear all m)
  | _ => Reader.fail

/-- A request whose body does not fit its kind (R206 check 3). -/
def badBody : Handler := fun _ s => refuse s .badParam

/-- The request a kind and a body make. -/
def handlerOf (kind : Nat) (body : List Byte) : Handler :=
  (Reader.whole (bodyReader kind) (body.map BitVec.toNat)).getD badBody

/-! The frames requests come in -/

/-- One mark for each source, in the order of section 10.3 (log 21). -/
def AlertMarks.fields (m : AlertMarks) : List Field :=
  [flagField m.cashDoor, flagField m.cabinet, flagField m.calSwitch, flagField m.retract, flagField m.dispute]

/-- The sender of a request row, its kind byte and its body as the list of fields its owning rule names, in that order (R213); none for
the other rows, which no frame brings. Widths, codes and forms R213 does not give are those of log 20 to 23. `bodyReader` reads these
bodies back. -/
def requestForm : Instr → Option (Sender × Nat × List Field)
  | .powerUp _ _ _ => none
  | .resetLine => none
  | .digitizerSample _ _ _ => none
  | .signalTimeout _ => none
  | .attemptTimeout _ => none
  | .inputLevelChange _ _ => none
  | .debouncedChange _ => none
  | .beamFaultTimeout _ _ => none
  | .stretchTimeout _ => none
  | .overrideTimeout _ => none
  | .lampTick _ _ _ => none
  | .claimLapse _ => none
  | .clockTick => none
  | .clockStop => none
  | .dailyRelease => none
  | .pieceOk => none
  | .pieceReject => none
  | .pickFail => none
  | .presented => none
  | .trayEmpty => none
  | .takeTimeout => none
  | .retracted _ => none
  | .jam => none
  | .ready => none
  | .dispenserAnswerTimeout => none
  | .lineDone => none
  | .cutDone => none
  | .paperLow => none
  | .paperOut => none
  | .paperIn => none
  | .coverOpen => none
  | .coverClosed => none
  | .headHot => none
  | .headCool => none
  | .printerAnswerTimeout => none
  | .frameCheckFailed _ => none
  | .lengthError _ _ => none
  | .characterError _ => none
  | .receiverOverrun _ => none
  | .frameGap _ => none
  | .lineBreak _ => none
  | .frameWhileAnswering _ => none
  | .groupRequestDropped _ => none
  | .answerSent _ => none
  | .unknownRequest _ _ => none
  | .ident src => some (src, 0x01, [])
  | .eventsFetch src => some (src, 0x02, [])
  | .eventsMask src mask => some (src, 0x03, [.u24 mask.toNat])
  | .linkCounters src => some (src, 0x04, [])
  | .restart src => some (src, 0x05, [])
  | .channelState src ch => some (src, 0x10, [.u8 ch])
  | .channelSet src ch x =>
    some (src, 0x11, [.u8 ch, flagField x.enabled, .i32 x.d, .i32 x.K, .u8 x.M, .u8 x.b, .u8 x.T, .u8 x.A, .u8 x.Rf])
  | .channelService src ch enter => some (src, 0x12, [.u8 ch, flagField enter])
  | .zero src ch => some (src, 0x13, [.u8 ch])
  | .capture src ch ticket grade tare => some (src, 0x14, [.u8 ch, zeroU24 ticket, zeroU8 grade] ++ optI32 tare)
  | .captureAbort src ch => some (src, 0x15, [.u8 ch])
  | .outcomeFetch src target => some (src, 0x16, [.u8 target])
  | .calibrateZero src ch => some (src, 0x17, [.u8 ch])
  | .calibrateSpan src ch weight => some (src, 0x18, [.u8 ch, .i32 weight])
  | .deckState src => some (src, 0x20, [])
  | .lampPatternSet src pattern steps tick pause => some (src, 0x21, [.u8 pattern, .u8 steps.toNat, .u8 tick, .u8 pause])
  | .aspectSet src rows stretch => some (src, 0x22, rows.flatMap AspectRow.fields ++ [.u16 stretch])
  | .lampOverride src bridge none => some (src, 0x23, [.u8 bridge, .u8 0] ++ AspectRow.fields ⟨0, 0, 0, 0⟩ ++ [.u16 0])
  | .lampOverride src bridge (some (row, duration)) => some (src, 0x23, [.u8 bridge, .u8 1] ++ AspectRow.fields row ++ [.u16 duration])
  | .lineMapSet src entries debounce fault => some (src, 0x24, entries.flatMap LineEntry.fields ++ [.u16 debounce, .u16 fault])
  | .linesRead src => some (src, 0x25, [])
  | .lineWrite src line on => some (src, 0x26, [.u8 line, flagField on])
  | .gradeSet src code name price deduction restricted holdDays enabled =>
    some (src, 0x30, [.u8 code, .text name, .u32 price, .u16 deduction, flagField restricted, .u8 holdDays, flagField enabled])
  | .gradeRead src first count => some (src, 0x31, [.u8 first, .u8 count])
  | .priceSet src pairs => some (src, 0x32, listFields (fun x => [.u8 x.1, .u32 x.2]) pairs)
  | .limitsSet src limits => some (src, 0x33, Limits.fields limits)
  | .tareStore src plate ch tare => some (src, 0x38, [.text plate, .u8 ch, .i32 tare])
  | .tareRead src (.plate plate) => some (src, 0x39, [.u8 0, .text plate])
  | .tareRead src (.page start) => some (src, 0x39, [.u8 1, .u8 start])
  | .tareDelete src plate => some (src, 0x3A, optText plate)
  | .ticketOpen src kind customer plate => some (src, 0x40, .u8 (kindCode kind) :: optText customer ++ optText plate)
  | .ticketRead src ticket part => some (src, 0x41, [.u24 ticket, .u8 part])
  | .ticketList src all start => some (src, 0x42, [flagField all, .u8 start])
  | .lineGrade src ticket place code => some (src, 0x43, [.u24 ticket, .u8 place, .u8 code])
  | .lineDeduct src ticket place mode => some (src, 0x44, [.u24 ticket, .u8 place] ++ DeductMode.fields mode)
  | .lineStrike src ticket place => some (src, 0x45, [.u24 ticket, .u8 place])
  | .weighingStrike src ticket => some (src, 0x46, [.u24 ticket])
  | .ticketFinish src ticket storedTare storeTare customer plate =>
    some (src, 0x47, [.u24 ticket, flagField storedTare, flagField storeTare] ++ optText customer ++ optText plate)
  | .ticketReopen src ticket => some (src, 0x48, [.u24 ticket])
  | .ticketSettle src ticket => some (src, 0x49, [.u24 ticket])
  | .ticketApprove src ticket => some (src, 0x4A, [.u24 ticket])
  | .ticketClaim src ticket => some (src, 0x4B, [.u24 ticket])
  | .ticketRelease src ticket => some (src, 0x4C, [.u24 ticket])
  | .ticketVoid src ticket => some (src, 0x4D, [.u24 ticket])
  | .ticketResolve src ticket handed => some (src, 0x4E, [.u24 ticket, .u32 handed])
  | .storeLoad src store none => some (src, 0x50, [.u8 store, .u8 0, .u8 0, .u32 0, .u16 0, .u16 0, .u16 0])
  | .storeLoad src store (some c) =>
    some (src, 0x50, [.u8 store, .u8 1, .u8 c.kind, .u32 c.denomination, .u16 c.count, .u16 c.capacity, .u16 c.lowThreshold])
  | .storeEnable src store enable => some (src, 0x51, [.u8 store, flagField enable])
  | .storeRead src => some (src, 0x52, [])
  | .payoutStart src ticket acceptPartial => some (src, 0x53, [.u24 ticket, flagField acceptPartial])
  | .payoutCancel src => some (src, 0x54, [])
  | .retractLogRead src start => some (src, 0x55, [.u8 start])
  | .retractBinEmpty src => some (src, 0x56, [])
  | .dispenserClear src => some (src, 0x57, [])
  | .receiptPrint src ticket form => some (src, 0x60, [.u24 ticket, .u8 form])
  | .printCancel src job => some (src, 0x61, [.u8 job])
  | .printerState src part => some (src, 0x62, [.u8 part])
  | .headerSet src h1 h2 h3 autoBridge autoCounter =>
    some (src, 0x63, [.text h1, .text h2, .text h3, flagField autoBridge, flagField autoCounter])
  | .clockSet src year month day hour minute second =>
    some (src, 0x68, [.u8 (year - 2000), .u8 month, .u8 day, .u8 hour, .u8 minute, .u8 second])
  | .clockRead src => some (src, 0x69, [])
  | .releaseHourSet src hour => some (src, 0x6A, [.u8 hour])
  | .alertRead src => some (src, 0x70, [])
  | .alertSet src globalEnable enables => some (src, 0x71, flagField globalEnable :: AlertMarks.fields enables)
  | .alertClear src all named => some (src, 0x72, flagField all :: AlertMarks.fields named)
  | .characterArriving _ _ => none
  | .mainPowerLoss => none

end Sys2Proof.Machine
end

