-- ==== Sys2Proof/Machine/Links.lean ====
section
/-! DEFINITION. The receivers and the request cycles of the two lines (chapter 11). -/

namespace Sys2Proof.Machine

/-! The receiver (R203) -/

def Counters.addCheck (c : Counters) : Counters := { c with check := saturating c.check 65535 }
def Counters.addChar (c : Counters) : Counters := { c with char := saturating c.char 65535 }
def Counters.addGap (c : Counters) : Counters := { c with gap := saturating c.gap 65535 }
def Counters.addLength (c : Counters) : Counters := { c with length := saturating c.length 65535 }
def Counters.addBreak (c : Counters) : Counters := { c with break_ := saturating c.break_ 65535 }

/-- The low eight bits of a character. -/
def byteOf (c : LineChar) : Byte := c.extractLsb' 0 8

/-- An address character of the office line: the ninth bit set. -/
def isAddress (c : LineChar) : Bool := c.getLsbD 8

/-- A character that a receiver in HUNTING takes as a lead: on the office line an address character naming this part or 31, on the
window line 0xA5 (R202, R203). -/
def State.isLead (s : State) (p : Port) (c : LineChar) : Bool :=
  match p with
  | .office => isAddress c && ((byteOf c).toNat == s.straps || byteOf c == 31)
  | .window => byteOf c == 0xA5

def State.setRx (s : State) (p : Port) (rx : Receiver) : State := s.setPort p { s.port p with rx := rx }

/-- The frame in progress is discarded and a counter counts it once (R203). -/
def State.discard (s : State) (p : Port) (f : Counters → Counters) : State :=
  s.setPort p { s.port p with rx := .hunting, counters := f (s.port p).counters }

/-- A character taken in HUNTING (R203). -/
def State.hunt (s : State) (p : Port) (c : LineChar) : State := s.setRx p (if s.isLead p c then .length c else .hunting)

/-- The sender of a frame with a lead. -/
def senderOf (p : Port) (lead : LineChar) : Sender :=
  match p with
  | .office => if byteOf lead = 31 then .group else .office
  | .window => .window

/-- The length, kind and body bytes the check covers. -/
def covered (kept : List Byte) : List Byte := BitVec.ofNat 8 kept.length :: kept

/-- A frame whose last check byte has arrived: discarded and counted CHECK, or given to the request cycle (R203, R205). -/
def State.complete (s : State) (p : Port) (lead : LineChar) (kept : List Byte) (check : List Byte) : State :=
  match kept with
  | [] => s.discard p Counters.addCheck
  | kind :: body =>
    if check = checkBytes (covered kept) then s.takeFrame (senderOf p lead) kind.toNat (handlerOf kind.toNat body)
    else s.discard p Counters.addCheck

/-- A character that is a length error where it arrives: a length of 0 or above 200, or an office address character in mid-frame
(R203). -/
def State.lengthErrorAt (s : State) (p : Port) (c : LineChar) : Bool :=
  match (s.port p).rx with
  | .hunting => false
  | .length _ => (p == .office && isAddress c) || byteOf c == 0 || decide (200 < (byteOf c).toNat)
  | _ => p == .office && isAddress c

/-- A length error: the frame is discarded, LENGTH is counted, and an address character is taken in HUNTING as a lead (R203). -/
def State.lengthError (s : State) (p : Port) (c : LineChar) : State :=
  let s1 := s.discard p Counters.addLength
  if p = .office ∧ isAddress c then s1.hunt p c else s1

/-- A character taken by the receiver (R203). -/
def State.receive (s : State) (p : Port) (c : LineChar) : State :=
  if s.lengthErrorAt p c then s.lengthError p c
  else
    match (s.port p).rx with
    | .hunting => s.hunt p c
    | .length lead => s.setRx p (.body lead (byteOf c).toNat [])
    | .body lead need kept =>
      let kept' := kept ++ [byteOf c]
      s.setRx p (if need ≤ kept'.length then .check lead kept' none else .body lead need kept')
    | .check lead kept none => s.setRx p (.check lead kept (some (byteOf c)))
    | .check lead kept (some first) => s.complete p lead kept [first, byteOf c]

/-- Whether a frame is in progress: LENGTH, BODY or CHECK. -/
def State.midFrame (s : State) (p : Port) : Bool := (s.port p).rx != .hunting

/-- An event of a line; an offline office port receives nothing and counts nothing (R202). -/
def Links.onLine (p : Port) (f : State → State) (s : State) : State := if s.receives p then f s else s

/-- CHARACTER_ARRIVING (R203). -/
def Links.character (p : Port) (c : LineChar) : State → State := Links.onLine p fun s => s.receive p c

def execCharacterArriving (p : Port) (c : LineChar) (s : State) : Host.Outcome State Fault Refusal := run (Links.character p c) s

/-- An event that discards a frame in progress, and does nothing in HUNTING (R203). -/
def Links.discards (p : Port) (f : Counters → Counters) : State → State :=
  Links.onLine p fun s => if s.midFrame p then s.discard p f else s

/-- CHARACTER_ERROR: a framing or parity error (R203). -/
def execCharacterError (p : Port) (s : State) : Host.Outcome State Fault Refusal := run (Links.discards p Counters.addChar) s

/-- RECEIVER_OVERRUN: a character lost by the receiver (R203). -/
def execReceiverOverrun (p : Port) (s : State) : Host.Outcome State Fault Refusal := run (Links.discards p Counters.addOverrun) s

/-- FRAME_GAP: more than 10 ms since the previous character of the frame (R203). -/
def execFrameGap (p : Port) (s : State) : Host.Outcome State Fault Refusal := run (Links.discards p Counters.addGap) s

/-- LINE_BREAK: discards a frame in progress, and is counted in HUNTING too (R203). -/
def Links.lineBreak (p : Port) : State → State := Links.onLine p fun s => s.discard p Counters.addBreak

def execLineBreak (p : Port) (s : State) : Host.Outcome State Fault Refusal := run (Links.lineBreak p) s

/-- LENGTH_ERROR: a character that is a length error where the receiver stands (R203); any other is no such event. -/
def Links.lengthError (p : Port) (c : LineChar) : State → State :=
  Links.onLine p fun s => if s.lengthErrorAt p c then s.lengthError p c else s

def execLengthError (p : Port) (c : LineChar) (s : State) : Host.Outcome State Fault Refusal := run (Links.lengthError p c) s

/-- Whether a receiver waits for the second check byte. -/
def Receiver.lastByte : Receiver → Bool
  | .check _ _ (some _) => true
  | _ => false

/-- FRAME_CHECK_FAILED: the second check byte arrives and the check does not match (R203). -/
def Links.checkFailed (p : Port) : State → State :=
  Links.onLine p fun s => if (s.port p).rx.lastByte then s.discard p Counters.addCheck else s

def execFrameCheckFailed (p : Port) (s : State) : Host.Outcome State Fault Refusal := run (Links.checkFailed p) s

/-! The request cycle (R205, R206, R208, R211) -/

/-- FRAME_WHILE_ANSWERING: a good frame completes while the port sends an answer (R205). -/
def Links.whileAnswering (p : Port) : State → State :=
  Links.onLine p fun s => if (s.port p).answer.isSome then s.discard p Counters.addOverrun else s

def execFrameWhileAnswering (p : Port) (s : State) : Host.Outcome State Fault Refusal := run (Links.whileAnswering p) s

/-- GROUP_REQUEST_DROPPED: a good group frame whose kind is not one of the five (R208). -/
def Links.groupDropped (kind : Nat) (s : State) : State := if kind ∈ groupKinds then s else s.takeFrame .group kind badBody

def execGroupRequestDropped (kind : Nat) (s : State) : Host.Outcome State Fault Refusal := run (Links.groupDropped kind) s

/-- UNKNOWN_REQUEST: a good frame whose kind names no request (R206 check 1). -/
def Links.unknown (src : Sender) (kind : Nat) (s : State) : State := if kind ∈ knownKinds then s else s.takeFrame src kind badBody

def execUnknownRequest (src : Sender) (kind : Nat) (s : State) : Host.Outcome State Fault Refusal := run (Links.unknown src kind) s

/-- An answer whose sending leads to a warm restart: DONE to a RESTART (R211). -/
def Answer.restarts (a : Answer) : Bool := a.kind == restartKind && a.status == .done

/-- ANSWER_SENT: the cycle returns to IDLE (R205), and after the answer to a taken RESTART every block restarts (R211). -/
def Links.answerSent (p : Port) (s : State) : State :=
  match (s.port p).answer with
  | none => s
  | some a =>
    let s1 := s.setPort p { s.port p with answer := none }
    if a.restarts then s1.startUp warm else s1

def execAnswerSent (p : Port) (s : State) : Host.Outcome State Fault Refusal := run (Links.answerSent p) s

end Sys2Proof.Machine
end

