-- ==== Sys2Proof/Machine/Dispatch.lean ====
section
/-! DEFINITION. The meaning of every command: one arm for each constructor of `Instr`, in the order of spec/opcode_table.json. -/

namespace Sys2Proof.Machine

def exec (i : Instr) (s : State) : Host.Outcome State Fault Refusal :=
  match i with
  | .powerUp retainedValid settingsValid straps => Sys2Proof.Machine.execPowerUp retainedValid settingsValid straps s
  | .resetLine => Sys2Proof.Machine.execResetLine s
  | .digitizerSample dig raw ok => Sys2Proof.Machine.execDigitizerSample dig raw ok s
  | .signalTimeout ch => Sys2Proof.Machine.execSignalTimeout ch s
  | .attemptTimeout ch => Sys2Proof.Machine.execAttemptTimeout ch s
  | .inputLevelChange line drive => Sys2Proof.Machine.execInputLevelChange line drive s
  | .debouncedChange line => Sys2Proof.Machine.execDebouncedChange line s
  | .beamFaultTimeout b side => Sys2Proof.Machine.execBeamFaultTimeout b side s
  | .stretchTimeout b => Sys2Proof.Machine.execStretchTimeout b s
  | .overrideTimeout b => Sys2Proof.Machine.execOverrideTimeout b s
  | .lampTick b side colour => Sys2Proof.Machine.execLampTick b side colour s
  | .claimLapse ticket => Sys2Proof.Machine.execClaimLapse ticket s
  | .clockTick => Sys2Proof.Machine.execClockTick s
  | .clockStop => Sys2Proof.Machine.execClockStop s
  | .dailyRelease => Sys2Proof.Machine.execDailyRelease s
  | .pieceOk => Sys2Proof.Machine.execPieceOk s
  | .pieceReject => Sys2Proof.Machine.execPieceReject s
  | .pickFail => Sys2Proof.Machine.execPickFail s
  | .presented => Sys2Proof.Machine.execPresented s
  | .trayEmpty => Sys2Proof.Machine.execTrayEmpty s
  | .takeTimeout => Sys2Proof.Machine.execTakeTimeout s
  | .retracted k => Sys2Proof.Machine.execRetracted k s
  | .jam => Sys2Proof.Machine.execJam s
  | .ready => Sys2Proof.Machine.execReady s
  | .dispenserAnswerTimeout => Sys2Proof.Machine.execDispenserAnswerTimeout s
  | .lineDone => Sys2Proof.Machine.execLineDone s
  | .cutDone => Sys2Proof.Machine.execCutDone s
  | .paperLow => Sys2Proof.Machine.execPaperLow s
  | .paperOut => Sys2Proof.Machine.execPaperOut s
  | .paperIn => Sys2Proof.Machine.execPaperIn s
  | .coverOpen => Sys2Proof.Machine.execCoverOpen s
  | .coverClosed => Sys2Proof.Machine.execCoverClosed s
  | .headHot => Sys2Proof.Machine.execHeadHot s
  | .headCool => Sys2Proof.Machine.execHeadCool s
  | .printerAnswerTimeout => Sys2Proof.Machine.execPrinterAnswerTimeout s
  | .frameCheckFailed p => Sys2Proof.Machine.execFrameCheckFailed p s
  | .lengthError p c => Sys2Proof.Machine.execLengthError p c s
  | .characterError p => Sys2Proof.Machine.execCharacterError p s
  | .receiverOverrun p => Sys2Proof.Machine.execReceiverOverrun p s
  | .frameGap p => Sys2Proof.Machine.execFrameGap p s
  | .lineBreak p => Sys2Proof.Machine.execLineBreak p s
  | .frameWhileAnswering p => Sys2Proof.Machine.execFrameWhileAnswering p s
  | .groupRequestDropped kind => Sys2Proof.Machine.execGroupRequestDropped kind s
  | .answerSent p => Sys2Proof.Machine.execAnswerSent p s
  | .unknownRequest src kind => Sys2Proof.Machine.execUnknownRequest src kind s
  | .ident src => Sys2Proof.Machine.execIdent src s
  | .eventsFetch src => Sys2Proof.Machine.execEventsFetch src s
  | .eventsMask src mask => Sys2Proof.Machine.execEventsMask src mask s
  | .linkCounters src => Sys2Proof.Machine.execLinkCounters src s
  | .restart src => Sys2Proof.Machine.execRestart src s
  | .channelState src ch => Sys2Proof.Machine.execChannelState src ch s
  | .channelSet src ch params => Sys2Proof.Machine.execChannelSet src ch params s
  | .channelService src ch enter => Sys2Proof.Machine.execChannelService src ch enter s
  | .zero src ch => Sys2Proof.Machine.execZero src ch s
  | .capture src ch ticket grade tare => Sys2Proof.Machine.execCapture src ch ticket grade tare s
  | .captureAbort src ch => Sys2Proof.Machine.execCaptureAbort src ch s
  | .outcomeFetch src target => Sys2Proof.Machine.execOutcomeFetch src target s
  | .calibrateZero src ch => Sys2Proof.Machine.execCalibrateZero src ch s
  | .calibrateSpan src ch weight => Sys2Proof.Machine.execCalibrateSpan src ch weight s
  | .deckState src => Sys2Proof.Machine.execDeckState src s
  | .lampPatternSet src pattern steps tick pause => Sys2Proof.Machine.execLampPatternSet src pattern steps tick pause s
  | .aspectSet src rows stretch => Sys2Proof.Machine.execAspectSet src rows stretch s
  | .lampOverride src bridge setting => Sys2Proof.Machine.execLampOverride src bridge setting s
  | .lineMapSet src entries beamDebounce beamFault => Sys2Proof.Machine.execLineMapSet src entries beamDebounce beamFault s
  | .linesRead src => Sys2Proof.Machine.execLinesRead src s
  | .lineWrite src line on => Sys2Proof.Machine.execLineWrite src line on s
  | .gradeSet src code name price deduction restricted holdDays enabled => Sys2Proof.Machine.execGradeSet src code name price deduction restricted holdDays enabled s
  | .gradeRead src first count => Sys2Proof.Machine.execGradeRead src first count s
  | .priceSet src pairs => Sys2Proof.Machine.execPriceSet src pairs s
  | .limitsSet src limits => Sys2Proof.Machine.execLimitsSet src limits s
  | .tareStore src plate ch tare => Sys2Proof.Machine.execTareStore src plate ch tare s
  | .tareRead src select => Sys2Proof.Machine.execTareRead src select s
  | .tareDelete src plate => Sys2Proof.Machine.execTareDelete src plate s
  | .ticketOpen src kind customer plate => Sys2Proof.Machine.execTicketOpen src kind customer plate s
  | .ticketRead src ticket part => Sys2Proof.Machine.execTicketRead src ticket part s
  | .ticketList src all start => Sys2Proof.Machine.execTicketList src all start s
  | .lineGrade src ticket place code => Sys2Proof.Machine.execLineGrade src ticket place code s
  | .lineDeduct src ticket place mode => Sys2Proof.Machine.execLineDeduct src ticket place mode s
  | .lineStrike src ticket place => Sys2Proof.Machine.execLineStrike src ticket place s
  | .weighingStrike src ticket => Sys2Proof.Machine.execWeighingStrike src ticket s
  | .ticketFinish src ticket storedTare storeTare customer plate => Sys2Proof.Machine.execTicketFinish src ticket storedTare storeTare customer plate s
  | .ticketReopen src ticket => Sys2Proof.Machine.execTicketReopen src ticket s
  | .ticketSettle src ticket => Sys2Proof.Machine.execTicketSettle src ticket s
  | .ticketApprove src ticket => Sys2Proof.Machine.execTicketApprove src ticket s
  | .ticketClaim src ticket => Sys2Proof.Machine.execTicketClaim src ticket s
  | .ticketRelease src ticket => Sys2Proof.Machine.execTicketRelease src ticket s
  | .ticketVoid src ticket => Sys2Proof.Machine.execTicketVoid src ticket s
  | .ticketResolve src ticket handed => Sys2Proof.Machine.execTicketResolve src ticket handed s
  | .storeLoad src store load => Sys2Proof.Machine.execStoreLoad src store load s
  | .storeEnable src store enable => Sys2Proof.Machine.execStoreEnable src store enable s
  | .storeRead src => Sys2Proof.Machine.execStoreRead src s
  | .payoutStart src ticket acceptPartial => Sys2Proof.Machine.execPayoutStart src ticket acceptPartial s
  | .payoutCancel src => Sys2Proof.Machine.execPayoutCancel src s
  | .retractLogRead src start => Sys2Proof.Machine.execRetractLogRead src start s
  | .retractBinEmpty src => Sys2Proof.Machine.execRetractBinEmpty src s
  | .dispenserClear src => Sys2Proof.Machine.execDispenserClear src s
  | .receiptPrint src ticket form => Sys2Proof.Machine.execReceiptPrint src ticket form s
  | .printCancel src job => Sys2Proof.Machine.execPrintCancel src job s
  | .printerState src part => Sys2Proof.Machine.execPrinterState src part s
  | .headerSet src h1 h2 h3 autoBridge autoCounter => Sys2Proof.Machine.execHeaderSet src h1 h2 h3 autoBridge autoCounter s
  | .clockSet src year month day hour minute second => Sys2Proof.Machine.execClockSet src year month day hour minute second s
  | .clockRead src => Sys2Proof.Machine.execClockRead src s
  | .releaseHourSet src hour => Sys2Proof.Machine.execReleaseHourSet src hour s
  | .alertRead src => Sys2Proof.Machine.execAlertRead src s
  | .alertSet src globalEnable enables => Sys2Proof.Machine.execAlertSet src globalEnable enables s
  | .alertClear src all named => Sys2Proof.Machine.execAlertClear src all named s
  | .characterArriving p c => Sys2Proof.Machine.execCharacterArriving p c s
  | .mainPowerLoss => Sys2Proof.Machine.execMainPowerLoss s

end Sys2Proof.Machine
end

