-- ==== Sys2Proof/WellFormed.lean ====
section
/-! DEFINITION. Which commands are well formed: operands within what a frame (R213), a report or a line of the part can carry. Ranges
that a request's own rule checks are not tested here: such a request is well formed and is refused by its meaning. -/

namespace Sys2Proof

/-- A number of n bytes. -/
def fitsBytes (n value : Nat) : Bool := decide (value < 256 ^ n)

/-- A signed quantity of four bytes. -/
def fitsSigned (z : Int) : Bool := decide (-2147483648 ≤ z ∧ z ≤ 2147483647)

/-- A raw count of a digitizer (section 1.1). -/
def fitsRaw (z : Int) : Bool := decide (-8388608 ≤ z ∧ z ≤ 8388607)

/-- A yard line, L0 to L15. -/
def isLine (n : Nat) : Bool := decide (n < 16)

/-- A text field as its bytes stand: at most 255 characters of one byte each. -/
def fitsText (t : Text) : Bool := decide (t.length ≤ 255) && t.all fun c => decide (c < 256)

def fitsTextOption : Option Text → Bool
  | none => true
  | some t => fitsText t

/-- An optional field whose absence is sent as 0: present, it is not 0. -/
def fitsZeroAbsent (n : Nat) : Option Nat → Bool
  | none => true
  | some v => decide (v ≠ 0) && fitsBytes n v

def fitsSignedOption : Option Int → Bool
  | none => true
  | some z => fitsSigned z

def AspectRow.wellFormed (r : AspectRow) : Bool :=
  fitsBytes 1 r.entryRed && fitsBytes 1 r.entryGreen && fitsBytes 1 r.exitRed && fitsBytes 1 r.exitGreen

def ChannelParams.wellFormed (x : ChannelParams) : Bool :=
  fitsSigned x.d && fitsSigned x.K && fitsBytes 1 x.M && fitsBytes 1 x.b && fitsBytes 1 x.T && fitsBytes 1 x.A && fitsBytes 1 x.Rf

def Limits.wellFormed (l : Limits) : Bool :=
  fitsBytes 4 l.cashLimit && fitsBytes 4 l.unit && fitsBytes 4 l.approvalLimit && fitsBytes 4 l.fee && fitsBytes 2 l.claimLapse
    && fitsBytes 2 l.takeTimeout && fitsBytes 2 l.tareValidity

def DeductMode.wellFormed : DeductMode → Bool
  | .grade => true
  | .percent p => fitsBytes 2 p
  | .weight t => fitsSigned t

def TareSelect.wellFormed : TareSelect → Bool
  | .plate p => fitsText p
  | .page n => fitsBytes 1 n

def StoreContents.wellFormed (c : StoreContents) : Bool :=
  fitsBytes 1 c.kind && fitsBytes 4 c.denomination && fitsBytes 2 c.count && fitsBytes 2 c.capacity && fitsBytes 2 c.lowThreshold

/-- A well-formed command. -/
def WellFormed : Instr → Bool
  | .powerUp _ _ straps => decide (straps < 32)
  | .resetLine => true
  | .digitizerSample _ raw _ => fitsRaw raw
  | .signalTimeout _ => true
  | .attemptTimeout _ => true
  | .inputLevelChange line _ => isLine line
  | .debouncedChange line => isLine line
  | .beamFaultTimeout _ _ => true
  | .stretchTimeout _ => true
  | .overrideTimeout _ => true
  | .lampTick _ _ _ => true
  | .claimLapse n => fitsBytes 3 n
  | .clockTick => true
  | .clockStop => true
  | .dailyRelease => true
  | .pieceOk => true
  | .pieceReject => true
  | .pickFail => true
  | .presented => true
  | .trayEmpty => true
  | .takeTimeout => true
  | .retracted k => fitsBytes 2 k
  | .jam => true
  | .ready => true
  | .dispenserAnswerTimeout => true
  | .lineDone => true
  | .cutDone => true
  | .paperLow => true
  | .paperOut => true
  | .paperIn => true
  | .coverOpen => true
  | .coverClosed => true
  | .headHot => true
  | .headCool => true
  | .printerAnswerTimeout => true
  | .frameCheckFailed _ => true
  | .lengthError _ _ => true
  | .characterError _ => true
  | .receiverOverrun _ => true
  | .frameGap _ => true
  | .lineBreak _ => true
  | .frameWhileAnswering _ => true
  | .groupRequestDropped kind => fitsBytes 1 kind
  | .answerSent _ => true
  | .unknownRequest _ kind => fitsBytes 1 kind
  | .ident _ => true
  | .eventsFetch _ => true
  | .eventsMask _ _ => true
  | .linkCounters _ => true
  | .restart _ => true
  | .channelState _ ch => fitsBytes 1 ch
  | .channelSet _ ch params => fitsBytes 1 ch && params.wellFormed
  | .channelService _ ch _ => fitsBytes 1 ch
  | .zero _ ch => fitsBytes 1 ch
  | .capture _ ch ticket grade tare =>
    fitsBytes 1 ch && fitsZeroAbsent 3 ticket && fitsZeroAbsent 1 grade && fitsSignedOption tare
  | .captureAbort _ ch => fitsBytes 1 ch
  | .outcomeFetch _ target => fitsBytes 1 target
  | .calibrateZero _ ch => fitsBytes 1 ch
  | .calibrateSpan _ ch weight => fitsBytes 1 ch && fitsSigned weight
  | .deckState _ => true
  | .lampPatternSet _ pattern _ tick pause => fitsBytes 1 pattern && fitsBytes 1 tick && fitsBytes 1 pause
  | .aspectSet _ rows stretch => decide (rows.length = 7) && rows.all AspectRow.wellFormed && fitsBytes 2 stretch
  | .lampOverride _ bridge setting =>
    fitsBytes 1 bridge &&
      (match setting with
        | none => true
        | some (row, duration) => row.wellFormed && fitsBytes 2 duration)
  | .lineMapSet _ entries beamDebounce beamFault =>
    decide (entries.length = 16) && fitsBytes 2 beamDebounce && fitsBytes 2 beamFault
  | .linesRead _ => true
  | .lineWrite _ line _ => fitsBytes 1 line
  | .gradeSet _ code name price deduction _ holdDays _ =>
    fitsBytes 1 code && fitsText name && fitsBytes 4 price && fitsBytes 2 deduction && fitsBytes 1 holdDays
  | .gradeRead _ first count => fitsBytes 1 first && fitsBytes 1 count
  | .priceSet _ pairs => decide (pairs.length ≤ 255) && pairs.all fun x => fitsBytes 1 x.1 && fitsBytes 4 x.2
  | .limitsSet _ limits => limits.wellFormed
  | .tareStore _ plate ch tare => fitsText plate && fitsBytes 1 ch && fitsSigned tare
  | .tareRead _ select => select.wellFormed
  | .tareDelete _ plate => fitsTextOption plate
  | .ticketOpen _ _ customer plate => fitsTextOption customer && fitsTextOption plate
  | .ticketRead _ ticket part => fitsBytes 3 ticket && fitsBytes 1 part
  | .ticketList _ _ start => fitsBytes 1 start
  | .lineGrade _ ticket place code => fitsBytes 3 ticket && fitsBytes 1 place && fitsBytes 1 code
  | .lineDeduct _ ticket place mode => fitsBytes 3 ticket && fitsBytes 1 place && mode.wellFormed
  | .lineStrike _ ticket place => fitsBytes 3 ticket && fitsBytes 1 place
  | .weighingStrike _ ticket => fitsBytes 3 ticket
  | .ticketFinish _ ticket _ _ customer plate => fitsBytes 3 ticket && fitsTextOption customer && fitsTextOption plate
  | .ticketReopen _ ticket => fitsBytes 3 ticket
  | .ticketSettle _ ticket => fitsBytes 3 ticket
  | .ticketApprove _ ticket => fitsBytes 3 ticket
  | .ticketClaim _ ticket => fitsBytes 3 ticket
  | .ticketRelease _ ticket => fitsBytes 3 ticket
  | .ticketVoid _ ticket => fitsBytes 3 ticket
  | .ticketResolve _ ticket handed => fitsBytes 3 ticket && fitsBytes 4 handed
  | .storeLoad _ store load =>
    fitsBytes 1 store &&
      (match load with
        | none => true
        | some c => c.wellFormed)
  | .storeEnable _ store _ => fitsBytes 1 store
  | .storeRead _ => true
  | .payoutStart _ ticket _ => fitsBytes 3 ticket
  | .payoutCancel _ => true
  | .retractLogRead _ start => fitsBytes 1 start
  | .retractBinEmpty _ => true
  | .dispenserClear _ => true
  | .receiptPrint _ ticket form => fitsBytes 3 ticket && fitsBytes 1 form
  | .printCancel _ job => fitsBytes 1 job
  | .printerState _ part => fitsBytes 1 part
  | .headerSet _ h1 h2 h3 _ _ => fitsText h1 && fitsText h2 && fitsText h3
  | .clockSet _ year month day hour minute second =>
    decide (2000 ≤ year ∧ year ≤ 2255) && fitsBytes 1 month && fitsBytes 1 day && fitsBytes 1 hour && fitsBytes 1 minute
      && fitsBytes 1 second
  | .clockRead _ => true
  | .releaseHourSet _ hour => fitsBytes 1 hour
  | .alertRead _ => true
  | .alertSet _ _ _ => true
  | .alertClear _ _ _ => true
  | .characterArriving _ _ => true
  | .mainPowerLoss => true

end Sys2Proof
end

