-- ==== Sys2Proof/Safety.lean ====
section
/-! DEFINITION. What claims about the part are stated in: a port ready for a request, a request answered, the invariants of the blocks
that every step keeps, and frames fed to a line. -/

namespace Sys2Proof.Machine

/-! Requests answered -/

/-- A port that takes the next good frame as a request: the part has power, the port receives, and its cycle is IDLE (R202, R205). -/
abbrev State.ready (s : State) (p : Port) : Prop := s.powered = true ∧ s.receives p = true ∧ (s.port p).answer = none

/-- How a request for this station alone is sent to a port. -/
def Port.sender : Port → Sender
  | .office => .office
  | .window => .window

/-- The first code of a table of checks whose condition holds. -/
def firstFailing : List (Bool × Status) → Option Status
  | [] => none
  | x :: rest => if x.1 then some x.2 else firstFailing rest

/-- The state as a request finds it once its frame has been taken: the receiver back in HUNTING (R203). -/
def State.taken (s : State) (p : Port) : State := s.setPort p { s.port p with rx := .hunting }

/-- The state with an answer started on a port, and lamps and outputs judged. -/
def State.answered (s : State) (p : Port) (kind : Nat) (status : Status) (data : List Field) : State :=
  (s.answer p kind ⟨status, data⟩).settle

/-- The state with a group request dropped and counted (R208). -/
def State.groupCounted (s : State) : State :=
  s.setPort .office
    { s.office with
      rx := .hunting
      counters := { s.office.counters with groupDropped := min (s.office.counters.groupDropped + 1) 65535 } }

/-- The figures of the payout in flight changed and written into its ticket's payout record, as one change of the record (R85). -/
def State.figuresWritten (s : State) (p : Payout) : State :=
  ({ s with pyu := { s.pyu with payout := some p } } : State).changeTicket p.ticket fun t =>
    { t with
      payout := t.payout.map fun r =>
        { r with
          planned := p.planned, plannedPieces := p.plannedPieces, pickedPieces := p.picked.sum, pickedAmount := p.pickedAmount
          presentedAmount := if p.presented then p.pickedAmount else 0
          presentedPieces := if p.presented then p.picked.sum else 0 } }

/-- A payout going on after the answer to a PICK with something left to do: the next PICK, PRESENT, or the draw-back of a cancelled
bundle (R136, R140, R146). -/
def State.picksOn (s : State) (p : Payout) : State :=
  { s with
    pyu :=
      { s.pyu with
        disp := if p.cancelled then .retracting else if p.todo = [] then .presenting else .picking
        command := if p.cancelled then some .retract else match p.todo with
          | (i, _) :: _ => some (.pick i)
          | [] => some .present } }

/-- The stores with one of them changed by a report, and CASH_LOW latched when it takes the count from above the threshold to at or
below it (R125). -/
def State.withStore (s : State) (i : Nat) (before after : Store) : State :=
  let t : State := { s with pyu := { s.pyu with stores := s.pyu.stores.set i after } }
  if before.lowThreshold < before.count ∧ after.count ≤ before.lowThreshold then t.latchBoth .cashLow else t

/-- The record of a kept ticket after a reset (R92): a claim ended, and the payout of a PAYING ticket interrupted, DISPUTED when its
dispenser had reached WAITING; then, with a hold due by the check date of the power-up release, released (R184, R188). An adjusted
record's revision advances once. -/
def Ticket.keptByReset (t : Ticket) (reached : Bool) (check : Date) : Ticket :=
  let revision := if t.revision < 255 then t.revision + 1 else 0
  match t.st with
  | .claimed => { t with st := .settled, claim := none, lapse := none, revision := revision }
  | .paying =>
    { t with
      st := if reached then .disputed else .settled, claim := none, lapse := none, revision := revision
      payout := t.payout.map fun r => { r with paid := 0, shortfall := 0, last := some .interrupted } }
  | .held =>
    if (t.settlement.bind (·.holdUntil)).any fun h => decide (h.number ≤ check.number) then
      { t with st := .settled, revision := revision }
    else t
  | _ => t

/-- Whether a plan draws on one store before another: the larger denomination, notes before coins, the fuller store, the lower store
number (R129). -/
def drawnBefore (i : Nat) (x : Store) (j : Nat) (y : Store) : Bool :=
  decide (y.denomination.getD 0 < x.denomination.getD 0) ||
    (x.denomination == y.denomination &&
      ((x.kind == some .note && y.kind == some .coin) ||
        (x.kind == y.kind && (decide (y.count < x.count) || (x.count == y.count && decide (i < j))))))

/-- How many receipts of a kind a ticket owes for which no automatic job stands in the queue, orphaned jobs not counted (R161). -/
def State.unqueued (s : State) (t : Ticket) (k : JobKind) : Nat :=
  (match k with
    | .weighSlip => t.owed.slip
    | .payout => t.owed.copies
    | .voidNotice => t.owed.notice
    | .copy => 0) -
  (s.rpu.queue.filter fun j =>
    j.source == .auto && j.ticket == ⟨t.number, t.opening⟩ && j.kind == k && !j.orphaned).length

/-- A ticket with an unqueued receipt (R161). -/
def State.owesUnqueued (s : State) (t : Ticket) : Bool :=
  decide (0 < s.unqueued t .weighSlip ∨ 0 < s.unqueued t .payout ∨ 0 < s.unqueued t .voidNotice)

/-- The printer is READY but for the head job: its paper, cover and head admit printing, it answers, and no cut of a cancelled copy is
to come (R159). -/
abbrev Rpu.admitsStart (r : Rpu) : Prop :=
  r.offline = false ∧ r.paper ≠ .out ∧ r.cover = .closed ∧ r.head = .cool ∧ r.cancelCut = .none

/-- The channel that takes a digitizer's next sample: the bridge's own, or the platform the arbiter selects (R1, R2). -/
def State.deliversTo (s : State) : Digitizer → Option Channel
  | .bridge b => some b.channel
  | .platform => s.selected.map Platform.channel

/-- What a digitizer's sample, or a timer of one channel or bridge, leaves alone: every other channel, the channel's settings and
serial counter, the yard lines and the tables of chapter 2, every block but those a weighing reaches, the masks, and every event flag
but CHANNEL and CAPTURE_END of the channel and DECK of its bridge (R10, R24, R37). A bridge's channel leaves the arbiter alone (R2). -/
def State.sampleKeeps (s : State) (ch : Channel) (t : State) : Prop :=
  t = { s with evu := t.evu, outs := t.outs, wch := t.wch, dsu := t.dsu, lamps := t.lamps, tkt := t.tkt } ∧
    t.dsu = { s.dsu with bridge0 := t.dsu.bridge0, bridge1 := t.dsu.bridge1 } ∧ t.evu.alerts = s.evu.alerts ∧
    (∀ o, o ≠ ch → t.chan o = s.chan o) ∧ (t.chan ch).set = (s.chan ch).set ∧ (t.chan ch).serial = (s.chan ch).serial ∧
    (ch.bridge?.isSome = true → t.wch.nextPlatform = s.wch.nextPlatform) ∧
    ∀ p, (t.events p).mask = (s.events p).mask ∧ ∀ f, f ≠ .channel ch → f ≠ .captureEnd ch → (∀ b, ch.bridge? = some b → f ≠ .deck b) →
      (t.events p).has f = (s.events p).has f

/-- A capture of a channel is no longer in flight: one that was has ended with an outcome and no weight, held in the slot for its port,
with CAPTURE_END latched there, and where there was none the slot is as it was (R22, R24). -/
abbrev State.captureEnded (s t : State) (ch : Channel) (outcome : CaptureEnd) : Prop :=
  (t.chan ch).capture = none ∧ ((s.chan ch).capture = none → (t.chan ch).slot = (s.chan ch).slot) ∧
    ∀ k, (s.chan ch).capture = some k → (t.events k.port).has (.captureEnd ch) = true ∧
      (t.chan ch).slot.map (fun x => (x.1, x.2.outcome, x.2.serial, x.2.weight, x.2.application)) =
        some (k.port, outcome, k.serial, none, none)

/-- The three alert conditions of the yard lines read the same in both states. -/
def State.sameConditions (s t : State) : Prop :=
  s.alertCondition .cashDoor = t.alertCondition .cashDoor ∧ s.alertCondition .cabinet = t.alertCondition .cabinet ∧
    s.alertCondition .calSwitch = t.alertCondition .calSwitch

/-- The sender and the kind byte of a request row; none for a row that is no request. -/
def requestOf : Instr → Option (Sender × Nat)
  | .ident src => some (src, 0x01)
  | .eventsFetch src => some (src, 0x02)
  | .eventsMask src _ => some (src, 0x03)
  | .linkCounters src => some (src, 0x04)
  | .restart src => some (src, 0x05)
  | .channelState src _ => some (src, 0x10)
  | .channelSet src _ _ => some (src, 0x11)
  | .channelService src _ _ => some (src, 0x12)
  | .zero src _ => some (src, 0x13)
  | .capture src _ _ _ _ => some (src, 0x14)
  | .captureAbort src _ => some (src, 0x15)
  | .outcomeFetch src _ => some (src, 0x16)
  | .calibrateZero src _ => some (src, 0x17)
  | .calibrateSpan src _ _ => some (src, 0x18)
  | .deckState src => some (src, 0x20)
  | .lampPatternSet src _ _ _ _ => some (src, 0x21)
  | .aspectSet src _ _ => some (src, 0x22)
  | .lampOverride src _ _ => some (src, 0x23)
  | .lineMapSet src _ _ _ => some (src, 0x24)
  | .linesRead src => some (src, 0x25)
  | .lineWrite src _ _ => some (src, 0x26)
  | .gradeSet src _ _ _ _ _ _ _ => some (src, 0x30)
  | .gradeRead src _ _ => some (src, 0x31)
  | .priceSet src _ => some (src, 0x32)
  | .limitsSet src _ => some (src, 0x33)
  | .tareStore src _ _ _ => some (src, 0x38)
  | .tareRead src _ => some (src, 0x39)
  | .tareDelete src _ => some (src, 0x3A)
  | .ticketOpen src _ _ _ => some (src, 0x40)
  | .ticketRead src _ _ => some (src, 0x41)
  | .ticketList src _ _ => some (src, 0x42)
  | .lineGrade src _ _ _ => some (src, 0x43)
  | .lineDeduct src _ _ _ => some (src, 0x44)
  | .lineStrike src _ _ => some (src, 0x45)
  | .weighingStrike src _ => some (src, 0x46)
  | .ticketFinish src _ _ _ _ _ => some (src, 0x47)
  | .ticketReopen src _ => some (src, 0x48)
  | .ticketSettle src _ => some (src, 0x49)
  | .ticketApprove src _ => some (src, 0x4A)
  | .ticketClaim src _ => some (src, 0x4B)
  | .ticketRelease src _ => some (src, 0x4C)
  | .ticketVoid src _ => some (src, 0x4D)
  | .ticketResolve src _ _ => some (src, 0x4E)
  | .storeLoad src _ _ => some (src, 0x50)
  | .storeEnable src _ _ => some (src, 0x51)
  | .storeRead src => some (src, 0x52)
  | .payoutStart src _ _ => some (src, 0x53)
  | .payoutCancel src => some (src, 0x54)
  | .retractLogRead src _ => some (src, 0x55)
  | .retractBinEmpty src => some (src, 0x56)
  | .dispenserClear src => some (src, 0x57)
  | .receiptPrint src _ _ => some (src, 0x60)
  | .printCancel src _ => some (src, 0x61)
  | .printerState src _ => some (src, 0x62)
  | .headerSet src _ _ _ _ _ => some (src, 0x63)
  | .clockSet src _ _ _ _ _ _ => some (src, 0x68)
  | .clockRead src => some (src, 0x69)
  | .releaseHourSet src _ => some (src, 0x6A)
  | .alertRead src => some (src, 0x70)
  | .alertSet src _ _ => some (src, 0x71)
  | .alertClear src _ _ => some (src, 0x72)
  | .unknownRequest src kind => if kind ∈ knownKinds then none else some (src, kind)
  | .powerUp _ _ _ => none
  | .resetLine => none
  | .digitizerSample _ _ _ => none
  | .signalTimeout _ => none
  | .attemptTimeout _ => none
  | .inputLevelChange _ _ => none
  | .debouncedChange _ => none
  | .beamFaultTimeout _ _ => none
  | .stretchTimeout _ => none
  | .overrideTimeout _ => none
  | .lampTick _ _ _ => none
  | .claimLapse _ => none
  | .clockTick => none
  | .clockStop => none
  | .dailyRelease => none
  | .pieceOk => none
  | .pieceReject => none
  | .pickFail => none
  | .presented => none
  | .trayEmpty => none
  | .takeTimeout => none
  | .retracted _ => none
  | .jam => none
  | .ready => none
  | .dispenserAnswerTimeout => none
  | .lineDone => none
  | .cutDone => none
  | .paperLow => none
  | .paperOut => none
  | .paperIn => none
  | .coverOpen => none
  | .coverClosed => none
  | .headHot => none
  | .headCool => none
  | .printerAnswerTimeout => none
  | .frameCheckFailed _ => none
  | .lengthError _ _ => none
  | .characterError _ => none
  | .receiverOverrun _ => none
  | .frameGap _ => none
  | .lineBreak _ => none
  | .frameWhileAnswering _ => none
  | .groupRequestDropped _ => none
  | .answerSent _ => none
  | .characterArriving _ _ => none
  | .mainPowerLoss => none

/-- The commands that reach a part without power: power returning or failing, the calendar's seconds, and the yard driving its lines
(R179, R29). -/
def actsUnpowered : Instr → Bool
  | .powerUp _ _ _ => true
  | .mainPowerLoss => true
  | .clockTick => true
  | .clockStop => true
  | .dailyRelease => true
  | .inputLevelChange _ _ => true
  | _ => false

/-! Frames on a line -/

/-- Characters arriving on a line one after another. -/
def feed (p : Port) : List LineChar → State → Host.Outcome State Fault Refusal
  | [], s => .next s
  | c :: rest, s =>
    match exec (.characterArriving p c) s with
    | .next t => feed p rest t
    | .fault r => .fault r
    | .refused r => .refused r

/-- The lead of a request frame from a sender to this part (R202, R213). -/
def State.requestLead (s : State) : Sender → LineChar
  | .office => 0x100#9 ||| BitVec.ofNat 9 s.straps
  | .group => 0x11F#9
  | .window => 0x0A5#9

/-! Invariants -/

/-- Conservation of a store: the pieces of its last load are those counted, picked, rejected and written off (R125). -/
abbrev Store.conserves (x : Store) : Prop := x.loaded = x.count + x.picked + x.rejected + x.writtenOff

abbrev Pyu.conserves (u : Pyu) : Prop := ∀ x ∈ u.stores, x.conserves

/-- The ticket table of R61: 48 places, each holding at most one record, and no two records with one number. -/
abbrev Tkt.placed (k : Tkt) : Prop :=
  (∀ t ∈ k.tickets, 1 ≤ t.place ∧ t.place ≤ 48) ∧ (k.tickets.map (·.place)).Nodup ∧ (k.tickets.map (·.number)).Nodup

/-- Claims of R81 and R82: a ticket has a claim exactly while it is CLAIMED or PAYING, its lapse timer runs only while it is CLAIMED,
and each port holds at most one claim. -/
abbrev Tkt.claimsSound (k : Tkt) : Prop :=
  (∀ t ∈ k.tickets, t.claim.isSome = t.underClaim ∧ (t.lapse.isSome = true → t.st = .claimed)) ∧
    (k.tickets.filter fun t => t.claimant == some Port.office).length ≤ 1 ∧
    (k.tickets.filter fun t => t.claimant == some Port.window).length ≤ 1

/-- The dispenser states in which a payout is in flight (R132). -/
def DispenserSt.paysOut : DispenserSt → Bool
  | .picking => true
  | .presenting => true
  | .waiting => true
  | .retracting => true
  | _ => false

/-- A payout is in flight exactly in those states and its ticket stands in the table, a ticket is PAYING exactly while the payout in
flight is its own (R84, R132), a recovery at reset is still to run only in RECOVERING or behind an open door (R154), and the retract
log keeps room for the record of a payout in flight or of one that a reset interrupted (R144). -/
abbrev State.payoutSound (s : State) : Prop :=
  s.pyu.payout.isSome = s.pyu.disp.paysOut ∧ s.pyu.remembered.paysOut = false ∧
    (∀ p, s.pyu.payout = some p → ∃ t ∈ s.tkt.tickets, t.number = p.ticket) ∧
    (∀ t ∈ s.tkt.tickets, (t.st = .paying ↔ s.pyu.payout.map (·.ticket) = some t.number)) ∧
    (s.pyu.recovery.isSome = true → s.pyu.disp = .recovering ∨ (s.pyu.disp = .doorOpen ∧ s.pyu.remembered = .recovering)) ∧
    s.pyu.log.length ≤ 16 ∧ ((s.pyu.payout.isSome || (s.pyu.recovery.bind (·.interrupted)).isSome) = true → s.pyu.log.length ≤ 15)

/-- The print queue of R160 and the ended-job list of R165: at most 8 jobs, at most 6 of them from ports, no id twice, at most 8
ended jobs. -/
abbrev Rpu.queueSound (r : Rpu) : Prop :=
  r.queue.length ≤ 8 ∧ r.portJobs ≤ 6 ∧ (r.queue.map (·.id)).Nodup ∧ r.ended.length ≤ 8

/-- Only the head job is ever in PRINTING, PAUSED or STALLED (R160): every job behind it is QUEUED and has not started. -/
abbrev Rpu.headAlone (r : Rpu) : Prop := ∀ j ∈ r.queue.drop 1, j.st = .queued ∧ j.started = false

/-- The settings of a channel lie in the ranges of section 1.2. -/
abbrev ChannelSettings.legal (x : ChannelSettings) : Prop :=
  (1 ≤ x.G ∧ x.G ≤ 16777215) ∧ x.d ∈ [1, 2, 5, 10, 20, 50, 100, 200, 500] ∧ x.K % x.d = 0 ∧ 100 * x.d ≤ x.K ∧ x.K ≤ 10000 * x.d ∧
    x.K ≤ 999990 ∧ (4 ≤ x.M ∧ x.M ≤ 32) ∧ (1 ≤ x.b ∧ x.b ≤ 4) ∧ (x.T % 2 = 0 ∧ 10 ≤ x.T ∧ x.T ≤ 100) ∧ (1 ≤ x.A ∧ x.A ≤ 5) ∧
    (1 ≤ x.Rf ∧ x.Rf ≤ 7) ∧ x.calCounter ≤ 65535

/-- A reported weight is a whole multiple of the division between -20 divisions and capacity plus 9 divisions (R5). -/
def Report.within (x : ChannelSettings) : Report → Bool
  | .weight w => decide (w % (x.d : Int) = 0 ∧ -(20 * (x.d : Int)) ≤ w ∧ w ≤ (x.K + 9 * x.d : Nat))
  | _ => true

/-- What holds of a channel at every moment: legal settings; at most M samples in the stability window, stable only in ACTIVE and
SERVICE with a full window, and in ACTIVE exactly when the window is full and meets the band (R6); fewer than M good samples counted in
STARTING and fewer than M in the zero-tracking block, which is empty outside ACTIVE (R7, R13); the signal timer running in STARTING and
ACTIVE and stopped in OFF and FAULT, where the live weight is absent (R1, R8); a live weight in ACTIVE within the limits of R5; and a
slot that is empty in OFF and SERVICE (R9). -/
abbrev ChannelState.sound (c : ChannelState) : Prop :=
  c.set.legal ∧ c.serial ≤ 65535 ∧ c.window.length ≤ c.set.M ∧
    (c.stable = true → (c.st = .active ∨ c.st = .service) ∧ c.window.length = c.set.M) ∧
    (c.st = .active → (c.stable = true ↔ c.window.length = c.set.M ∧ fineSpread c.window ≤ (c.set.b * c.set.d : Nat))) ∧
    (c.st = .starting → c.goodCount < c.set.M) ∧ c.block.samples.length < c.set.M ∧ (c.st ≠ .active → c.block = ⟨[], false⟩) ∧
    (c.st = .starting ∨ c.st = .active → c.signalTimer.isSome = true) ∧
    (c.st = .off ∨ c.st = .fault → c.signalTimer = none ∧ c.live = .absent) ∧
    (c.st = .active → c.live ≠ .absent ∧ c.live.within c.set = true) ∧ (c.st = .off ∨ c.st = .service → c.slot = none)

/-- The four channels are sound, and a capture is in flight only in ACTIVE, with its slot empty, its vehicle in place (the deck in
ON_DECK, the platform occupied), at most M samples in its post-start list (log 42), and attempt 1 to Rf + 2 (R18 to R22, R25). A
captured mark is set only while the deck is ON_DECK with no capture in flight (R38). -/
abbrev State.weighingSound (s : State) : Prop :=
  (∀ ch ∈ [Channel.c0, .c1, .c2, .c3], (s.chan ch).sound ∧
    ∀ k, (s.chan ch).capture = some k →
      (s.chan ch).st = .active ∧ (s.chan ch).slot = none ∧ s.inPlace ch = true ∧
        k.samples.length ≤ (s.chan ch).set.M ∧ 1 ≤ k.attempt ∧ k.attempt ≤ (s.chan ch).set.Rf + 2 ∧ 0 ≤ k.tare) ∧
    ∀ b ∈ [Bridge.b0, .b1], (s.bridge b).captured = true → (s.bridge b).pos = .onDeck ∧ (s.chan b.channel).capture = none

/-- The tare register of R115: at most 32 entries, no plate twice. -/
abbrev registerSound (vtr : List TareEntry) : Prop := vtr.length ≤ 32 ∧ (vtr.map (·.plate)).Nodup

/-- The calendar holds a value of R179, and the release hour is an hour. -/
abbrev Clu.sound (c : Clu) : Prop := c.now.legal = true ∧ c.releaseHour ≤ 23

/-- Bit 23 names no flag and is 0 in both latched sets and both masks (R192, R213). -/
abbrev Evu.sound (e : Evu) : Prop :=
  e.office.latched.getLsbD 23 = false ∧ e.window.latched.getLsbD 23 = false ∧ e.office.mask.getLsbD 23 = false ∧
    e.window.mask.getLsbD 23 = false

/-- The lamp view of a bridge by the table of R38: the first entry that holds. -/
def State.viewByTable (s : State) (b : Bridge) : LampView :=
  if (s.bridge b).pos = .fault ∨ (s.chan b.channel).st ∈ [ChannelSt.fault, .service, .off] then .fault
  else if (s.chan b.channel).capture.isSome then .capturing
  else if (s.bridge b).pos = .entering ∨ (s.bridge b).stretch.isSome then .entering
  else if (s.bridge b).captured then .captured
  else if (s.bridge b).pos = .empty then .empty
  else if (s.bridge b).pos = .onDeck then .onDeck
  else .leaving

/-- The four lamp roles of a bridge run the patterns of the override in force, else those of the aspect row of the view (R38, R40,
R43). -/
abbrev State.lampsFollow (s : State) (b : Bridge) : Prop :=
  [(s.lampBank b).entryRed.pattern, (s.lampBank b).entryGreen.pattern, (s.lampBank b).exitRed.pattern,
      (s.lampBank b).exitGreen.pattern] =
    (fun r : AspectRow => [r.entryRed, r.entryGreen, r.exitRed, r.exitGreen])
      (match (s.bridge b).override with
        | some o => o.row
        | none => match s.viewByTable b with
          | .fault => s.dsu.aspects.fault
          | .capturing => s.dsu.aspects.capturing
          | .entering => s.dsu.aspects.entering
          | .captured => s.dsu.aspects.captured
          | .empty => s.dsu.aspects.empty
          | .onDeck => s.dsu.aspects.onDeck
          | .leaving => s.dsu.aspects.leaving)

/-- Something calls the window: one of the 23 flags is latched for it and not masked, or an outcome slot holds an outcome for it
(R193, R194). -/
abbrev State.callsWindow (s : State) : Prop :=
  (∃ i, i < 23 ∧ s.evu.window.latched.getLsbD i = true ∧ s.evu.window.mask.getLsbD i = false) ∨
    (s.chan .c0).slot.map (·.1) = some .window ∨ (s.chan .c1).slot.map (·.1) = some .window ∨
    (s.chan .c2).slot.map (·.1) = some .window ∨ (s.chan .c3).slot.map (·.1) = some .window ∨
    s.pyu.slot.map (·.1) = some .window

/-- Something calls the yard: the global enable is set, and a source whose enable is set is latched (R196). -/
abbrev State.callsYard (s : State) : Prop :=
  s.evu.alerts.globalEnable = true ∧
    ∃ a ∈ [s.evu.alerts.cashDoor, s.evu.alerts.cabinet, s.evu.alerts.calSwitch, s.evu.alerts.retract, s.evu.alerts.dispute],
      a.enabled = true ∧ a.latch.isSome = true

/-- Lamps and outputs are as they are judged (R38, R194, R196), and the outputs released on a part without power (log 10). -/
abbrev State.judged (s : State) : Prop :=
  if s.powered = true then
    s.lampsFollow .b0 ∧ s.lampsFollow .b1 ∧ (s.outs.attention = true ↔ s.callsWindow) ∧ (s.outs.yardAlert = true ↔ s.callsYard)
  else s.outs = ⟨false, false⟩

/-- The figures of a settlement block balance: cash part and remainder together are the payable and the rounding difference, which is
at most half the rounding unit (R107). -/
abbrev Settlement.balances (b : Settlement) : Prop :=
  (b.cash : Int) + b.remainder = b.payable + b.rounding ∧ 2 * b.rounding.natAbs ≤ b.unit

abbrev Tkt.balances (k : Tkt) : Prop := ∀ t ∈ k.tickets, ∀ b, t.settlement = some b → b.balances

end Sys2Proof.Machine
end

