-- ==== Sys2Proof/Certificates/Slice0/Obligations.lean ====
section
/-! DEFINITION. The statements for the provers. Numbers "log n" are entries of notes/assumptions; each docstring says which rule a
statement formalises, or that it states a choice of the model. In every statement a running timer is its length and the model's count of
seconds `elapsed` at its start (log 2, 3). -/

section

open Sys2Proof Sys2Proof.Machine

/-! ## The machine as a whole -/

/-- A step takes the command at the front of the queue and runs it on the queue's rest; on an empty queue the part idles. The queue is
the model's form of the commands waiting (log 9). -/
def Obligations.StepTakesFrontCommand : Prop :=
  (∀ (s : State) (c : Instr) (rest : List Instr), s.pending = c :: rest → step s = exec c { s with pending := rest }) ∧
    ∀ s : State, s.pending = [] → step s = .next s

/-- The state after reset meets every invariant stated below, and holds what a power-up with both stores lost gives by R28, R60, R93,
R94, R155, R177, R188, R199, R200 and R212. That both stores are lost, the straps read 1 and no line is driven are choices of the
model (log 1). -/
def Obligations.ResetMeetsInvariants : Prop :=
  State.reset.pyu.conserves ∧ State.reset.tkt.placed ∧ State.reset.tkt.claimsSound ∧ State.reset.payoutSound ∧
    State.reset.rpu.queueSound ∧ State.reset.rpu.headAlone ∧ State.reset.weighingSound ∧ registerSound State.reset.vtr ∧
    State.reset.clu.sound ∧ State.reset.evu.sound ∧
    State.reset.judged ∧ State.reset.tkt.balances ∧ State.reset.tkt.tickets = [] ∧ State.reset.tkt.counter = 1 ∧
    State.reset.tkt.series = 1 ∧ State.reset.grt = ⟨defaultGrades, 0, defaultLimits⟩ ∧
    State.reset.pyu.stores = List.replicate 6 uncountedStore ∧ State.reset.rpu.serial = 1 ∧ State.reset.clu = ⟨epoch, false, 6⟩ ∧
    (∀ ch, (State.reset.chan ch).st = .off ∧ (State.reset.chan ch).z = 0) ∧ State.reset.office = idlePort ∧
    State.reset.window = idlePort

/-- POWER_UP (R26 to R28, R45, R46, R60, R92 to R94, R124, R154, R155, R176 to R178, R188, R189, R199, R200, R202, R212): what the
settings store keeps and defaults, what retained memory keeps and loses, and the working state every block starts with: channels,
lines, decks and lamps, the ticket records as the reset adjusts them, the dispenser with its recovery, the print queue, the alerts and
the flags latched. That the bundle of an earlier interrupted payout still to be recorded is kept with retained memory is the model's
reading (log 34), and so is the order of the events of one reset (log 12); the rows 0 and 1 of the default pattern table and the pull-ups
of L4 to L11 in the default line map are the model's choice (log 18). -/
def Obligations.PowerUpStartsEveryBlock : Prop :=
  ∀ (s : State) (rv sv : Bool) (straps : Nat), straps < 32 →
    ∃ t, exec (.powerUp rv sv straps) s = .next t ∧ t.powered = true ∧ t.straps = straps ∧ t.retainLost = !rv ∧ t.settingsLost = !sv ∧
      t.office = idlePort ∧ t.window = idlePort ∧ t.evu.office.mask = 0 ∧ t.evu.window.mask = 0 ∧ t.judged ∧
      t.grt = (if sv then s.grt else ⟨defaultGrades, 0, defaultLimits⟩) ∧ t.vtr = (if rv && sv then s.vtr else []) ∧
      t.clu = ⟨if rv then s.clu.now else epoch, rv && s.clu.valid, if sv then s.clu.releaseHour else 6⟩ ∧
      (∀ ch, (t.chan ch).set = (if sv then (s.chan ch).set else defaultChannelSettings) ∧
        (t.chan ch).z = (if sv then (if rv then (s.chan ch).z else (s.chan ch).set.zCal) else 0) ∧
        (t.chan ch).serial = (if rv then (s.chan ch).serial else 0) ∧
        (t.chan ch).st = (if (t.chan ch).set.enabled && (t.chan ch).set.calibrated then .starting else .off) ∧
        (t.chan ch).window = [] ∧ (t.chan ch).capture = none ∧ (t.chan ch).slot = none ∧ (t.chan ch).drift = false ∧
        (t.chan ch).occupied = false) ∧
      t.wch.nextPlatform = .c2 ∧
      t.dsu.beamDebounce = (if sv then s.dsu.beamDebounce else 50) ∧ t.dsu.beamFault = (if sv then s.dsu.beamFault else 120) ∧
      t.dsu.stretchTime = (if sv then s.dsu.stretchTime else 500) ∧
      t.dsu.patterns = (if sv then s.dsu.patterns else defaultPatterns) ∧
      t.dsu.aspects = (if sv then s.dsu.aspects else defaultAspects) ∧
      (∀ (i : Nat) (l : YardLine) (e : LineEntry), s.dsu.lines[i]? = some l →
        (if sv then some l.entry else defaultLineMap[i]?) = some e →
        t.dsu.lines[i]? =
          some (⟨e, l.drive,
            LineFunction.debounces e.function && Polarity.active e.polarity (({ l with entry := e } : YardLine).inputLevel i), none,
            false⟩ : YardLine)) ∧
      (∀ b, (t.bridge b).captured = false ∧ (t.bridge b).override = none ∧
        (t.bridge b).pos = (if t.beamBlocked b .entry || t.beamBlocked b .exit then .entering else .empty) ∧
        (t.bridge b).stretch =
          (if t.beamBlocked b .entry || t.beamBlocked b .exit then some ⟨t.dsu.stretchTime, s.elapsed⟩ else none) ∧
        (∀ side, (t.bridge b).faultTimer side =
          if t.beamBlocked b side then some ⟨t.dsu.beamFault * 1000, s.elapsed⟩ else none) ∧
        ∀ side colour, ((t.lampBank b).get side colour).step = 1 ∧ ((t.lampBank b).get side colour).pauseLeft = 0) ∧
      (rv = false → t.tkt.tickets = [] ∧ t.tkt.spent = [] ∧ t.tkt.counter = 1 ∧ t.tkt.opening = 0) ∧
      t.tkt.series = (if sv then (if rv then s.tkt.series else if s.tkt.series < 99 then s.tkt.series + 1 else 1) else 1) ∧
      (∀ check, check = (if t.clu.releaseHour ≤ s.clu.now.hour then s.clu.now.date else s.clu.now.date.previous) → rv = true →
        t.tkt.tickets = s.tkt.tickets.map (fun k => k.keptByReset (s.pyu.payout.any (·.presented)) check) ∧
          t.tkt.spent = s.tkt.spent ∧ t.tkt.counter = s.tkt.counter ∧ t.tkt.opening = s.tkt.opening) ∧
      t.pyu.stores = (if rv then s.pyu.stores else List.replicate 6 uncountedStore) ∧ t.pyu.log = (if rv then s.pyu.log else []) ∧
      t.pyu.bin = (if rv then s.pyu.bin else 0) ∧ t.pyu.payout = none ∧ t.pyu.slot = none ∧
      (t.pyu.disp = if t.cashDoorOpen then .doorOpen else .recovering) ∧
      t.pyu.command = (if t.cashDoorOpen then none else some .retract) ∧ (t.cashDoorOpen = true → t.pyu.remembered = .recovering) ∧
      t.pyu.recovery =
        some ⟨if rv then (match s.pyu.payout with
            | some p => some ⟨p.ticket, p.picked, p.pickedAmount, p.presented⟩
            | none => s.pyu.recovery.bind (·.interrupted))
          else none⟩ ∧
      t.rpu.header1 = (if sv then s.rpu.header1 else []) ∧ t.rpu.header2 = (if sv then s.rpu.header2 else []) ∧
      t.rpu.header3 = (if sv then s.rpu.header3 else []) ∧ t.rpu.autoBridge = (if sv then s.rpu.autoBridge else true) ∧
      t.rpu.autoCounter = (if sv then s.rpu.autoCounter else false) ∧ t.rpu.paper = .loaded ∧ t.rpu.cover = .closed ∧
      t.rpu.head = .cool ∧ t.rpu.offline = false ∧ t.rpu.cancelCut = .none ∧
      (∀ j ∈ t.rpu.queue, j.source = .auto ∧ j.orphaned = false ∧ j.restart = false ∧ j.next = 1) ∧
      ((∀ k ∈ t.tkt.tickets, k.owed.slip = 0 ∧ k.owed.copies = 0 ∧ k.owed.notice = 0) →
        t.rpu.queue = [] ∧ t.rpu.command = none ∧ t.rpu.serial = if rv then s.rpu.serial else 1) ∧
      (∀ serial, serial = (if rv then s.rpu.serial else 1) → s.tkt.placed →
        t.rpu.ended = [] ∧ t.rpu.queue.map (·.id) = List.range' 1 t.rpu.queue.length ∧
          (∀ k ∈ t.tkt.tickets, t.rpu.queue.length < 8 →
            t.unqueued k .weighSlip = 0 ∧ t.unqueued k .payout = 0 ∧ t.unqueued k .voidNotice = 0) ∧
          ∀ j rest, t.rpu.queue = j :: rest → j.st = .printing ∧ j.started = true ∧ j.serial = some serial ∧
            (∀ x ∈ rest, x.st = .queued ∧ x.started = false) ∧ t.rpu.serial = (if serial < 9999999 then serial + 1 else 1)) ∧
      (∀ (now : Stamp) (enable : Bool → Bool), now = ⟨t.clu.now, t.clu.valid⟩ → enable = (fun e => if sv then e else true) →
        t.evu.alerts =
          ⟨⟨if t.cashDoorOpen then some now else none, enable s.evu.alerts.cashDoor.enabled⟩,
            ⟨if t.cabinetOpen then some now else none, enable s.evu.alerts.cabinet.enabled⟩,
            ⟨if t.switchClosed then some now else none, enable s.evu.alerts.calSwitch.enabled⟩,
            ⟨none, enable s.evu.alerts.retract.enabled⟩,
            ⟨if rv && s.pyu.payout.any (·.presented) && s.tkt.tickets.any (fun k => decide (k.st = .paying)) then some now else none,
              enable s.evu.alerts.dispute.enabled⟩,
            enable s.evu.alerts.globalEnable⟩) ∧
      (s.tkt.placed → ∀ p f, (t.events p).has f =
        (match f with
          | .channel _ => true
          | .retainLost => !rv
          | .clock => !rv
          | .settingsLost => !sv
          | .holdRelease => rv && (s.tkt.tickets.zip t.tkt.tickets).any (fun x => decide (x.1.st = .held ∧ x.2.st = .settled))
          | .alert => t.evu.alerts.cashDoor.latch.isSome || t.evu.alerts.cabinet.latch.isSome ||
            t.evu.alerts.calSwitch.latch.isSome || t.evu.alerts.dispute.latch.isSome
          | _ => false))

/-- RESET_LINE (R211, R45, R92, R154, R176, R188, R199): a warm restart at once. The straps, the settings and what retained memory holds
stay, a claim or payout in flight ends as R92 states with the rest of each record kept, a hold due by the power-up release ends, and
the working state starts afresh. The restart starts the part as a power-up with both stores valid does, without touching the two
losses IDENT tells. -/
def Obligations.WarmRestartKeepsStores : Prop :=
  ∀ s : State, s.powered = true →
    ∃ t, exec .resetLine s = .next t ∧ t.powered = true ∧ t.straps = s.straps ∧ t.retainLost = s.retainLost ∧
      t.settingsLost = s.settingsLost ∧ t.grt = s.grt ∧ t.vtr = s.vtr ∧ t.clu = s.clu ∧ t.pyu.stores = s.pyu.stores ∧
      t.pyu.log = s.pyu.log ∧ t.pyu.bin = s.pyu.bin ∧ t.tkt.counter = s.tkt.counter ∧ t.tkt.opening = s.tkt.opening ∧
      t.tkt.series = s.tkt.series ∧ t.tkt.spent = s.tkt.spent ∧
      t.tkt.tickets =
        s.tkt.tickets.map (fun k => k.keptByReset (s.pyu.payout.any (·.presented))
          (if s.clu.releaseHour ≤ s.clu.now.hour then s.clu.now.date else s.clu.now.date.previous)) ∧
      (∀ k ∈ t.tkt.tickets, k.st ≠ .claimed ∧ k.st ≠ .paying) ∧ t.office = idlePort ∧ t.window = idlePort ∧ t.pyu.payout = none ∧
      t.pyu.slot = none ∧ t.rpu.header1 = s.rpu.header1 ∧ t.rpu.header2 = s.rpu.header2 ∧ t.rpu.header3 = s.rpu.header3 ∧
      t.rpu.autoBridge = s.rpu.autoBridge ∧ t.rpu.autoCounter = s.rpu.autoCounter ∧
      (∀ j ∈ t.rpu.queue, j.source = .auto ∧ ∀ n, j.serial = some n →
        n = s.rpu.serial ∧ t.rpu.serial = if n < 9999999 then n + 1 else 1) ∧
      ((∀ j ∈ t.rpu.queue, j.started = false) → t.rpu.serial = s.rpu.serial) ∧
      t.dsu.beamDebounce = s.dsu.beamDebounce ∧ t.dsu.beamFault = s.dsu.beamFault ∧ t.dsu.patterns = s.dsu.patterns ∧
      t.dsu.aspects = s.dsu.aspects ∧ t.dsu.stretchTime = s.dsu.stretchTime ∧
      t.dsu.lines.map (fun l => (l.entry, l.drive)) = s.dsu.lines.map (fun l => (l.entry, l.drive)) ∧
      t.evu.alerts.globalEnable = s.evu.alerts.globalEnable ∧ t.evu.alerts.cashDoor.enabled = s.evu.alerts.cashDoor.enabled ∧
      t.evu.alerts.cabinet.enabled = s.evu.alerts.cabinet.enabled ∧ t.evu.alerts.calSwitch.enabled = s.evu.alerts.calSwitch.enabled ∧
      t.evu.alerts.retract.enabled = s.evu.alerts.retract.enabled ∧ t.evu.alerts.dispute.enabled = s.evu.alerts.dispute.enabled ∧
      (∀ ch, (t.chan ch).set = (s.chan ch).set ∧ (t.chan ch).z = (s.chan ch).z ∧ (t.chan ch).serial = (s.chan ch).serial ∧
        (t.chan ch).capture = none ∧ (t.chan ch).slot = none) ∧
      (s.straps < 32 →
        exec (.powerUp true true s.straps) s = .next { t with retainLost := false, settingsLost := false })

/-- MAIN_POWER_LOSS stops the part; without power the calendar goes on counting (R179). That MAIN_POWER_LOSS releases the two outputs is
the model's choice, since no rule gives outputs without power (log 10), and so is that without power every command but power itself, the
calendar's seconds and the levels of the yard lines leaves the state as it is (log 10), and the count of seconds `elapsed` (log 3). -/
def Obligations.PowerOffAndUnpoweredPart : Prop :=
  (∀ s : State, exec .mainPowerLoss s = .next { s with powered := false, outs := ⟨false, false⟩ }) ∧
    (∀ (s : State) (c : Instr), s.powered = false → actsUnpowered c = false → exec c s = .next s) ∧
    ∀ s : State, s.powered = false →
      exec .clockTick s = .next { s with clu := { s.clu with now := s.clu.now.next }, elapsed := s.elapsed + 1 }

/-! ## Requests -/

/-- Every request taken by a ready port is answered with its own kind byte, and a refused request has no effect but its answer (R205,
R206); check 1 and check 2 of R206: an unknown kind is answered UNKNOWN_REQUEST, and a known kind that R207 does not list for the
window port is answered WRONG_PORT there, whatever else the request carries. A request that names a ticket no record holds is refused
NO_TICKET (R66), where its texts are printable; TicketOpenMakesRecord and TicketFinishCompletes say that a text that is not is refused
BAD_PARAM. That a channel number above 3 or a bridge number above 1 is refused BAD_PARAM is the model's choice (log 28). -/
def Obligations.RequestsAnsweredOrRefused : Prop :=
  (∀ (s : State) (c : Instr) (src : Sender) (kind : Nat), requestOf c = some (src, kind) → src ≠ .group → s.ready src.port →
      ∃ t a, exec c s = .next t ∧ (t.port src.port).answer = some a ∧ a.kind = kind ∧
        (a.status.refuses = true → t = (s.taken src.port).answered src.port kind a.status a.data)) ∧
  (∀ (s : State) (p : Port) (kind : Nat), s.ready p → kind ∉ knownKinds →
      exec (.unknownRequest (Port.sender p) kind) s = .next ((s.taken p).answered p kind .unknownRequest [])) ∧
  (∀ (s : State) (c : Instr) (kind : Nat), requestOf c = some (.window, kind) → s.ready .window → kind ∈ knownKinds →
      kind ∉ windowKinds → exec c s = .next ((s.taken .window).answered .window kind .wrongPort [])) ∧
  (∀ (s : State) (p : Port) (n place code form : Nat) (mode : DeductMode) (b b' : Bool) (customer plate : Option Text), s.ready p →
      s.ticket? n = none → printableOption customer = true → printableOption plate = true →
      ∀ c ∈ [ Instr.lineGrade (Port.sender p) n place code, .lineDeduct (Port.sender p) n place mode,
          .lineStrike (Port.sender p) n place, .ticketFinish (Port.sender p) n b b' customer plate, .ticketSettle (Port.sender p) n,
          .ticketClaim (Port.sender p) n, .ticketRelease (Port.sender p) n, .ticketVoid (Port.sender p) n,
          .payoutStart (Port.sender p) n b, .receiptPrint (Port.sender p) n form ],
        ∀ kind, requestOf c = some (Port.sender p, kind) → exec c s = .next ((s.taken p).answered p kind .noTicket [])) ∧
  (∀ (s : State) (n h : Nat), s.ready .office → s.ticket? n = none →
      ∀ c ∈ [ Instr.weighingStrike .office n, .ticketReopen .office n, .ticketApprove .office n, .ticketResolve .office n h ],
        ∀ kind, requestOf c = some (.office, kind) → exec c s = .next ((s.taken .office).answered .office kind .noTicket [])) ∧
  (∀ (s : State) (p : Port) (n : Nat) (ticket grade : Option Nat) (tare : Option Int), s.ready p → 3 < n →
      ∀ c ∈ [ Instr.channelState (Port.sender p) n, .capture (Port.sender p) n ticket grade tare, .captureAbort (Port.sender p) n ],
        ∀ kind, requestOf c = some (Port.sender p, kind) → exec c s = .next ((s.taken p).answered p kind .badParam [])) ∧
  ∀ (s : State) (n : Nat) (x : ChannelParams) (enter : Bool) (weight : Int) (setting : Option (AspectRow × Nat)), s.ready .office →
    (3 < n →
      ∀ c ∈ [ Instr.channelSet .office n x, .channelService .office n enter, .zero .office n, .calibrateZero .office n,
          .calibrateSpan .office n weight ],
        ∀ kind, requestOf c = some (.office, kind) → exec c s = .next ((s.taken .office).answered .office kind .badParam [])) ∧
    (1 < n → exec (.lampOverride .office n setting) s = .next ((s.taken .office).answered .office 0x23 .badParam []))

/-- R208: a group request of any kind but the five is dropped and counted, with no answer and no other effect. R205: while a port sends an
answer, a frame for it is discarded and counted OVERRUN, with no other effect. R202: an offline office port takes nothing and counts
nothing. -/
def Obligations.DroppedFramesCounted : Prop :=
  ((∀ (s : State) (c : Instr) (kind : Nat), requestOf c = some (.group, kind) → s.ready .office →
        kind ∉ [0x30, 0x32, 0x33, 0x63, 0x68] → exec c s = .next s.groupCounted.settle) ∧
      ∀ (s : State) (kind : Nat), s.ready .office → kind ∉ [0x30, 0x32, 0x33, 0x63, 0x68] →
        exec (.groupRequestDropped kind) s = .next s.groupCounted.settle) ∧
  (∀ (s : State) (c : Instr) (src : Sender) (kind : Nat), requestOf c = some (src, kind) → s.powered = true →
      s.receives src.port = true → (s.port src.port).answer.isSome = true →
      exec c s = .next (s.setPort src.port
        { s.port src.port with
          rx := .hunting
          counters := { (s.port src.port).counters with overrun := min ((s.port src.port).counters.overrun + 1) 65535 } }).settle) ∧
    (∀ s : State, ∀ p : Port, s.powered = true → s.receives p = true → (s.port p).answer.isSome = true →
      exec (.frameWhileAnswering p) s = .next (s.setPort p
        { s.port p with
          rx := .hunting
          counters := { (s.port p).counters with overrun := min ((s.port p).counters.overrun + 1) 65535 } }).settle) ∧
    ∀ (s : State) (c : Instr) (src : Sender) (kind : Nat), requestOf c = some (src, kind) → src.port = .office → s.powered = true →
      (s.straps = 0 ∨ 30 < s.straps) → exec c s = .next s.settle

/-- Requests that only read change nothing but start their answer, whose fields are given: IDENT, LINES READ, DECK STATE, CLOCK READ and
ALERT READ (R32, R44, R183, R198, R210); CHANNEL STATE, GRADE READ, STORE READ, RETRACT LOG READ and PRINTER STATE (R10, R51, R128, R145,
R170), with a number out of range refused BAD_PARAM; TICKET READ, TICKET LIST and TARE READ (R90, R91, R123). A part of TICKET READ holds
the fields R90 lists, with the settled figures or, under R111, provisional ones, whose values TicketSettleWritesFigures gives; an entry of
TARE READ holds its age in calendar days, 0 where the present date lies before the stored one, and the result of the test of R116 with the
first reason. The widths of fields that no rule gives, and their presence bytes, are the model's (log 20 to 24), and so are the BAD_PARAM
of a channel number above 3 (log 28), the absent next release at the end of the calendar's range (log 50), the time left of a timer in
DECK STATE (log 3), a clock set to the last second shown as stopped in CLOCK READ (log 32, DEDUCED), the printer shown BUSY before the cut
of a cancelled copy is outstanding (log 27, DEDUCED), the pull-up that LINES READ shows for an output (log 52), the places of the picked
amount in the payout record of TICKET READ part 0 and of the next line of a job in PRINTER STATE (log 53), and a next line one past the
last while a copy is cut (log 55, DEDUCED). -/
def Obligations.ReadsChangeNothing : Prop :=
  (∀ (s : State) (p : Port), s.ready p →
      exec (.ident (Port.sender p)) s = .next ((s.taken p).answered p 0x01 .done
        [.text (txt "RZS-48"), .u8 Config.firmwareLevel, .u8 s.straps, flagField s.online, .u8 s.tkt.series, flagField s.settingsLost,
          flagField s.retainLost]) ∧
      exec (.linesRead (Port.sender p)) s = .next ((s.taken p).answered p 0x25 .done
        (s.dsu.lines.zipIdx.flatMap (fun x =>
            LineEntry.fields x.1.entry ++ [flagField (s.lineLevel x.2 x.1)]
              ++ optU8 ((s.lineState x.1).map fun b => if b then 1 else 0))
          ++ [.u16 s.dsu.beamDebounce, .u16 s.dsu.beamFault])) ∧
      exec (.deckState (Port.sender p)) s = .next ((s.taken p).answered p 0x20 .done
        (s.deckFields .b0 ++ s.deckFields .b1
          ++ s.dsu.patterns.flatMap (fun x => [.u8 x.steps.toNat, .u8 x.tick, .u8 x.pause])
          ++ s.dsu.aspects.rows.flatMap AspectRow.fields ++ [.u16 s.dsu.stretchTime])) ∧
      exec (.clockRead (Port.sender p)) s = .next ((s.taken p).answered p 0x69 .done
        ([.stamp ⟨s.clu.now, s.clu.valid⟩, flagField (s.clu.now == lastSecond), .u8 s.clu.releaseHour]
          ++ optStamp
            ((if s.clu.now.hour * 3600 + s.clu.now.minute * 60 + s.clu.now.second < s.clu.releaseHour * 3600 then some s.clu.now.date
              else if s.clu.now.date = ⟨2099, 12, 31⟩ then none else some s.clu.now.date.next).map fun d =>
                ⟨⟨d.year, d.month, d.day, s.clu.releaseHour, 0, 0⟩, s.clu.valid⟩)
          ++ [.u8 (s.tkt.tickets.filter fun t => t.st == .held).length])) ∧
      (p = .office →
        exec (.alertRead .office) s = .next ((s.taken .office).answered .office 0x70 .done
          (s.alertFields .cashDoor ++ s.alertFields .cabinet ++ s.alertFields .calSwitch ++ s.alertFields .retract
            ++ s.alertFields .dispute ++ [flagField s.evu.alerts.globalEnable, flagField s.outs.yardAlert])))) ∧
  (∀ (s : State) (p : Port), s.ready p →
      (∀ n, ∃ a, exec (.channelState (Port.sender p) n) s = .next ((s.taken p).answered p 0x10 (if n ≤ 3 then .done else .badParam) a) ∧
        ∀ ch, Channel.ofNat? n = some ch →
          a = [.u8 (s.chan ch).st.code] ++ optU8 (if (s.chan ch).st = .service then some (s.chan ch).signal.code else none)
            ++ (s.chan ch).live.fields
            ++ [flagField (s.chan ch).stable, flagField (s.chan ch).occupied, flagField (s.chan ch).drift, .i32 (s.chan ch).z,
              .i32 (s.chan ch).set.zCal]
            ++ (s.chan ch).set.fields ++ (s.chan ch).captureFields ++ [optPort ((s.chan ch).slot.map (·.1))]) ∧
      (∀ first count, exec (.gradeRead (Port.sender p) first count) s =
        if 1 ≤ first ∧ first ≤ 64 ∧ 1 ≤ count ∧ count ≤ 6 then
          .next ((s.taken p).answered p 0x31 .done
            (listFields (fun x => Grade.fields x.1 x.2)
                (((s.grt.grades.drop (first - 1)).take count).zipIdx.map fun x => (first + x.2, x.1))
              ++ [.u16 s.grt.version] ++ Limits.fields s.grt.limits))
        else .next ((s.taken p).answered p 0x31 .badParam [])) ∧
      exec (.storeRead (Port.sender p)) s = .next ((s.taken p).answered p 0x52 .done
        (s.pyu.stores.flatMap Store.fields
          ++ [.u8 s.pyu.disp.code, if s.pyu.disp = .doorOpen then .u8 s.pyu.remembered.code else flagField s.pyu.doorPending]
          ++ s.pyu.payoutFields ++ [optPort (s.pyu.slot.map (·.1)), .u8 s.pyu.log.length, .u16 s.pyu.bin])) ∧
      (p = .office → ∀ start, exec (.retractLogRead .office start) s = .next ((s.taken .office).answered .office 0x55 .done
        ([.u8 s.pyu.log.length, .u16 s.pyu.bin] ++ listFields RetractRecord.fields ((s.pyu.log.drop start).take 4)
          ++ [flagField (decide (start + 4 < s.pyu.log.length))]))) ∧
      ∀ part, ∃ a, exec (.printerState (Port.sender p) part) s =
          .next ((s.taken p).answered p 0x62 (if part ≤ 3 then .done else .badParam) a) ∧
        (part = 0 → a = s.rpu.stateFields ++ [flagField (!s.rpu.queue.isEmpty || !s.rpu.ended.isEmpty)]) ∧
        (part = 1 → a = listFields Job.fields (s.rpu.queue.take 4)
          ++ [flagField (decide (4 < s.rpu.queue.length) || !s.rpu.ended.isEmpty)]) ∧
        (part = 2 → a = listFields Job.fields (s.rpu.queue.drop 4) ++ [flagField (!s.rpu.ended.isEmpty)]) ∧
        (part = 3 → a = listFields EndedJob.fields s.rpu.ended ++ [flagField false])) ∧
  ∀ (s : State) (p : Port), s.ready p →
    (∀ (n part : Nat) (t : Ticket) (provisional more : Bool) (line : TicketLine → List Field) (figures payout content : List Field),
      part ≤ 3 →
      s.ticket? n = some t →
      provisional = (t.settlement.isNone && decide (t.st = .opened ∨ t.st = .weighing ∨ t.st = .complete)) →
      line = (fun l => l.fields ++
        (match l.figures with
          | some f => .u8 1 :: f.fields
          | none => if provisional then .u8 2 :: (s.provisionalLine l).fields else [.u8 0])) →
      figures =
        (match t.settlement with
          | some b => .u8 1 :: b.fields
          | none => if provisional then .u8 2 :: (s.provisionalTotals t).fields else [.u8 0]) →
      payout =
        (match t.payout with
          | none => [.u8 0]
          | some r => .u8 1 :: r.fields) →
      content =
        (match part with
          | 0 =>
            [.u24 t.number, .u8 t.series, .u8 (kindCode t.kind), .u8 t.st.code, .stamp t.openedAt] ++ optStamp t.closedAt
              ++ optText t.customer ++ optText t.plate ++ [flagField t.approved, flagField t.needsApproval, optPort t.claimant]
              ++ optStamp (t.claim.map (·.granted)) ++ [.u8 t.owed.slip, .u8 t.owed.copies, .u8 t.owed.notice]
              ++ optStamp t.owed.since
              ++ [.u8 t.reprints, flagField t.receiptCancelled, .u8 t.lines.length, .u8 t.weighings.length] ++ figures ++ payout
          | 1 => listFields Weighing.fields t.weighings
          | 2 => listFields line (t.lines.take 4)
          | _ => listFields line (t.lines.drop 4)) →
      more =
        decide ((part = 0 ∧ (t.weighings ≠ [] ∨ t.lines ≠ [])) ∨ (part = 1 ∧ t.lines ≠ []) ∨ (part = 2 ∧ 4 < t.lines.length)) →
      exec (.ticketRead (Port.sender p) n part) s = .next ((s.taken p).answered p 0x41 .done
        (content ++ [.u8 t.revision, flagField more]))) ∧
    (∀ n part, part ≤ 3 → s.ticket? n = none →
      exec (.ticketRead (Port.sender p) n part) s = .next ((s.taken p).answered p 0x41 .noTicket [])) ∧
    (∀ n part, 3 < part → exec (.ticketRead (Port.sender p) n part) s = .next ((s.taken p).answered p 0x41 .badParam [])) ∧
    (∀ start, exec (.ticketList (Port.sender p) true start) s = .next ((s.taken p).answered p 0x42 .done
      (.u8 s.tkt.tickets.length :: listFields Ticket.summaryFields ((s.tkt.tickets.drop start).take 12)
        ++ [flagField (decide (start + 12 < s.tkt.tickets.length))]))) ∧
    (∀ start live, live = (s.tkt.tickets.filter fun t => !t.isSpent) →
      exec (.ticketList (Port.sender p) false start) s = .next ((s.taken p).answered p 0x42 .done
        (.u8 live.length :: listFields Ticket.summaryFields ((live.drop start).take 12)
          ++ [flagField (decide (start + 12 < live.length))]))) ∧
    (∀ (number : Date → Nat) (age : TareEntry → Nat) (shown test entry : TareEntry → List Field),
      number = (fun d => 365 * (d.year - 2000) + (d.year - 2000 + 3) / 4 + (d.day - 1)
            + ((List.range (d.month - 1)).map fun m =>
                if m + 1 = 2 then (if d.year % 4 = 0 then 29 else 28) else if m + 1 ∈ [4, 6, 9, 11] then 30 else 31).sum) →
      age = (fun e => number s.clu.now.date - number e.storedAt.time.date) →
      shown = (fun e => if s.clu.valid = true ∧ e.storedAt.valid = true then [.u8 1, .u16 (age e)] else [.u8 0, .u16 0]) →
      test =
        (fun e => if s.clu.valid = false then [.u8 0, .u8 1] else if e.storedAt.valid = false then [.u8 0, .u8 2]
          else if age e ≤ s.grt.limits.tareValidity then [.u8 1, .u8 0] else [.u8 0, .u8 3]) →
      entry = (fun e => e.fields ++ shown e ++ test e) →
      (∀ start, exec (.tareRead (Port.sender p) (.page start)) s = .next ((s.taken p).answered p 0x39 .done
        (.u8 s.vtr.length :: listFields entry ((s.vtr.drop start).take 4)
          ++ [flagField (decide (start + 4 < s.vtr.length))]))) ∧
      ∀ plate q e, normalisePlate plate = some q → s.tare? q = some e →
        exec (.tareRead (Port.sender p) (.plate plate)) s = .next ((s.taken p).answered p 0x39 .done (entry e))) ∧
    (∀ plate q, normalisePlate plate = some q → s.tare? q = none →
      exec (.tareRead (Port.sender p) (.plate plate)) s = .next ((s.taken p).answered p 0x39 .noTare [])) ∧
    ∀ plate, normalisePlate plate = none →
      exec (.tareRead (Port.sender p) (.plate plate)) s = .next ((s.taken p).answered p 0x39 .badParam [])

/-! ## Events, counters and the two lines -/

/-- EVENTS FETCH, EVENTS MASK and LINK COUNTERS act on the asking port alone (R191, R192, R204). RESTART is answered DONE from the office
port; when an answer has been sent the cycle is IDLE again, and after the answer to a taken RESTART the part restarts as at the reset
line (R205, R211). -/
def Obligations.EventsCountersAndRestart : Prop :=
  (∀ (s : State) (p : Port), s.ready p →
      exec (.eventsFetch (Port.sender p)) s =
        .next (((s.taken p).setEvents p ⟨0, (s.events p).mask⟩).answered p 0x02 .done
          [.u24 (s.events p).latched.toNat, .u24 (s.events p).mask.toNat]) ∧
      (∀ m : BitVec 24, m.getLsbD 23 = false →
        exec (.eventsMask (Port.sender p) m) s =
          .next (((s.taken p).setEvents p ⟨(s.events p).latched, m⟩).answered p 0x03 .done [.u24 m.toNat])) ∧
      (∀ m : BitVec 24, m.getLsbD 23 = true →
        exec (.eventsMask (Port.sender p) m) s = .next ((s.taken p).answered p 0x03 .badParam [])) ∧
      exec (.linkCounters (Port.sender p)) s =
        .next ((s.setPort p idlePort).answered p 0x04 .done
          [.u16 (s.port p).counters.check, .u16 (s.port p).counters.char, .u16 (s.port p).counters.overrun,
            .u16 (s.port p).counters.gap, .u16 (s.port p).counters.length, .u16 (s.port p).counters.break_,
            .u16 (s.port p).counters.groupDropped])) ∧
  (∀ s : State, s.ready .office → exec (.restart .office) s = .next ((s.taken .office).answered .office 0x05 .done [])) ∧
    (∀ (s : State) (p : Port) (a : Answer), s.powered = true → (s.port p).answer = some a →
      (a.kind ≠ 0x05 ∨ a.status ≠ .done) →
      exec (.answerSent p) s = .next (s.setPort p { s.port p with answer := none }).settle) ∧
    ∀ (s : State) (p : Port) (a : Answer), s.powered = true → (s.port p).answer = some a → a.kind = 0x05 → a.status = .done →
      ∃ t, exec (.answerSent p) s = .next t ∧ exec .resetLine s = .next t

/-- R203 and R204: an error in mid-frame discards the frame and counts it once in the counter of its kind, which stops at 65,535, and in
HUNTING only a break is counted; how the receiver moves through HUNTING, LENGTH, BODY and CHECK as characters arrive, and what a
length error is. -/
def Obligations.ReceiverTakesCharacters : Prop :=
  (∀ (s : State) (p : Port), s.powered = true → s.receives p = true →
      (∀ c : Counters, c = (s.port p).counters →
        ((s.port p).rx ≠ .hunting →
          exec (.characterError p) s =
            .next (s.setPort p { s.port p with rx := .hunting, counters := { c with char := min (c.char + 1) 65535 } }).settle ∧
          exec (.receiverOverrun p) s =
            .next (s.setPort p { s.port p with rx := .hunting, counters := { c with overrun := min (c.overrun + 1) 65535 } }).settle ∧
          exec (.frameGap p) s =
            .next (s.setPort p { s.port p with rx := .hunting, counters := { c with gap := min (c.gap + 1) 65535 } }).settle) ∧
        exec (.lineBreak p) s =
          .next (s.setPort p { s.port p with rx := .hunting, counters := { c with break_ := min (c.break_ + 1) 65535 } }).settle ∧
        (∀ lead kept first, (s.port p).rx = .check lead kept (some first) →
          exec (.frameCheckFailed p) s =
            .next (s.setPort p { s.port p with rx := .hunting, counters := { c with check := min (c.check + 1) 65535 } }).settle) ∧
        ∀ ch : LineChar, s.lengthErrorAt p ch = true →
          exec (.lengthError p ch) s =
            .next (s.setPort p
              { s.port p with
                rx := if p = .office ∧ isAddress ch = true ∧ s.isLead .office ch = true then .length ch else .hunting
                counters := { c with length := min (c.length + 1) 65535 } }).settle) ∧
      ((s.port p).rx = .hunting →
        exec (.characterError p) s = .next s.settle ∧ exec (.receiverOverrun p) s = .next s.settle ∧
          exec (.frameGap p) s = .next s.settle)) ∧
  ∀ (s : State) (p : Port) (c : LineChar), s.powered = true → s.receives p = true →
    (s.lengthErrorAt p c = true ↔
      (s.port p).rx ≠ .hunting ∧ ((p = .office ∧ isAddress c = true) ∨
        ((∃ lead, (s.port p).rx = .length lead) ∧ ((byteOf c).toNat = 0 ∨ 200 < (byteOf c).toNat)))) ∧
    (s.lengthErrorAt p c = true → exec (.characterArriving p c) s = exec (.lengthError p c) s) ∧
    (s.lengthErrorAt p c = false →
      ((s.port p).rx = .hunting →
        exec (.characterArriving p c) s =
          .next (s.setPort p { s.port p with rx := if s.isLead p c = true then .length c else .hunting }).settle) ∧
      (∀ lead, (s.port p).rx = .length lead →
        exec (.characterArriving p c) s = .next (s.setPort p { s.port p with rx := .body lead (byteOf c).toNat [] }).settle) ∧
      (∀ lead need kept, (s.port p).rx = .body lead need kept →
        exec (.characterArriving p c) s =
          .next (s.setPort p
            { s.port p with
              rx := if need ≤ kept.length + 1 then .check lead (kept ++ [byteOf c]) none
                else .body lead need (kept ++ [byteOf c]) }).settle) ∧
      (∀ lead kept, (s.port p).rx = .check lead kept none →
        exec (.characterArriving p c) s = .next (s.setPort p { s.port p with rx := .check lead kept (some (byteOf c)) }).settle) ∧
      ∀ lead kept first, (s.port p).rx = .check lead kept (some first) →
        (kept = [] ∨ [first, byteOf c] ≠ checkBytes (BitVec.ofNat 8 kept.length :: kept)) →
        exec (.characterArriving p c) s = exec (.frameCheckFailed p) s)

/-- R203, R205, R206 and R213 together: the characters of a whole good frame, one after another from HUNTING, do exactly what the
request they spell does, taken at once; and the frame of a request row, whose body is the fields its owning rule names in that order with
the row's operands in them (`requestForm`), does exactly what the row does. The widths, codes and forms of fields that R213 does not give
are the model's (log 20 to 23), and so is that an absent text must be printable as a present one must, or else the body is BAD_PARAM (log
22). -/
def Obligations.FramesActAsRequests : Prop :=
  (∀ (s : State) (src : Sender) (kind : Byte) (body : List Byte), s.judged → s.powered = true → s.receives src.port = true →
    (s.port src.port).rx = .hunting → body.length ≤ 199 →
    feed src.port (frameChars (s.requestLead src) kind body) s =
      request src kind.toNat (handlerOf kind.toNat body) s) ∧
  ∀ (s : State) (c : Instr) (src : Sender) (kind : Nat) (fields : List Field), WellFormed c = true →
    requestForm c = some (src, kind, fields) → (fields.flatMap Field.bytes).length ≤ 199 → s.judged → s.powered = true →
    s.receives src.port = true → (s.port src.port).rx = .hunting →
    feed src.port (frameChars (s.requestLead src) (BitVec.ofNat 8 kind) (fields.flatMap Field.bytes)) s = exec c s

/-! ## Weighing channels -/

/-- CHANNEL SET (R3, R17, R122): refused outside SERVICE, refused whole when a value is out of range, and else stored whole, A clamped;
a change of d or K advances the calibration counter and drops the tares of the channel, and a change of d, K or M empties window and
block. -/
def Obligations.ChannelSetStoresSettings : Prop :=
  ∀ (s : State) (n : Nat) (ch : Channel) (x : ChannelParams) (inRange : Bool) (c : ChannelState), s.ready .office →
    Channel.ofNat? n = some ch → c = s.chan ch →
    (inRange = true ↔ 0 ≤ x.d ∧ x.d.toNat ∈ [1, 2, 5, 10, 20, 50, 100, 200, 500] ∧ x.K % x.d = 0 ∧ 100 * x.d ≤ x.K ∧
      x.K ≤ 10000 * x.d ∧ x.K ≤ 999990 ∧ 4 ≤ x.M ∧ x.M ≤ 32 ∧ 1 ≤ x.b ∧ x.b ≤ 4 ∧ x.T % 2 = 0 ∧ 10 ≤ x.T ∧ x.T ≤ 100 ∧
      1 ≤ x.Rf ∧ x.Rf ≤ 7) →
    (c.st ≠ .service → exec (.channelSet .office n x) s = .next ((s.taken .office).answered .office 0x11 .wrongState [])) ∧
    (c.st = .service → inRange = false →
      exec (.channelSet .office n x) s = .next ((s.taken .office).answered .office 0x11 .badParam [])) ∧
    (c.st = .service → inRange = true → ∀ changed emptied : Bool,
      (changed = true ↔ x.d.toNat ≠ c.set.d ∨ x.K.toNat ≠ c.set.K) → (emptied = (changed || x.M != c.set.M)) →
      exec (.channelSet .office n x) s =
        .next (({ s.taken .office with
            vtr := if changed then s.vtr.filter fun e => decide (e.channel.channel ≠ ch) else s.vtr }.setChan ch
          { c with
            set :=
              { c.set with
                enabled := x.enabled, d := x.d.toNat, K := x.K.toNat, M := x.M, b := x.b, T := x.T, A := max 1 (min x.A 5),
                Rf := x.Rf, calCounter := if changed then min (c.set.calCounter + 1) 65535 else c.set.calCounter }
            window := if emptied then [] else c.window
            stable := if emptied then false else c.stable
            block := if emptied then ⟨[], false⟩ else c.block }).answered .office 0x11 .done []))

/-- CHANNEL SERVICE (R9, R11): enter and leave, what each refuses, and the state each leaves; entering from OFF wakes the platform's
conversions (R2), and leaving begins the CAL_SWITCH condition when the switch is closed and no other channel is in SERVICE: the source
latches with the stamp of that moment and ALERT to both ports, unless it is latched already (R195). -/
def Obligations.ChannelServiceEntersAndLeaves : Prop :=
  ∀ (s : State) (n : Nat) (ch : Channel) (c : ChannelState) (timer : Timer) (begins : Bool), s.ready .office →
    Channel.ofNat? n = some ch → c = s.chan ch → timer = ⟨if ch.bridge?.isSome then 200 else 400, s.elapsed⟩ →
    begins =
      (s.switchClosed && ([Channel.c0, .c1, .c2, .c3].all fun o => decide (o = ch ∨ (s.chan o).st ≠ .service))
        && s.evu.alerts.calSwitch.latch.isNone) →
    (c.st = .service →
      exec (.channelService .office n true) s = .next ((s.taken .office).answered .office 0x12 .wrongState [])) ∧
    (c.st ≠ .service → (c.capture.isSome ∨ c.slot.isSome) →
      exec (.channelService .office n true) s = .next ((s.taken .office).answered .office 0x12 .unitBusy [])) ∧
    (c.st ≠ .service → c.capture = none → c.slot = none →
      exec (.channelService .office n true) s =
        .next (((((s.taken .office).wakePlatform ch).setChan ch
          { c with
            st := .service, signal := .good, window := [], stable := false, block := ⟨[], false⟩, goodCount := 0,
            signalTimer := some timer }).latchBoth (.channel ch)).answered .office 0x12 .done [])) ∧
    (c.st ≠ .service →
      exec (.channelService .office n false) s = .next ((s.taken .office).answered .office 0x12 .wrongState [])) ∧
    (c.st = .service → c.set.enabled = true → c.set.calibrated = true →
      ∀ left, left = (((s.taken .office).setChan ch
          { c with st := .starting, window := [], stable := false, goodCount := 0, signalTimer := some timer }).latchBoth
            (.channel ch)) →
      exec (.channelService .office n false) s =
        .next ((if begins then
            (left.setAlert .calSwitch ⟨some ⟨s.clu.now, s.clu.valid⟩, s.evu.alerts.calSwitch.enabled⟩).latchBoth .alert
          else left).answered .office 0x12 .done [])) ∧
    (c.st = .service → (c.set.enabled && c.set.calibrated) = false →
      ∀ left, left = ((((s.taken .office).setChan ch
          { c with st := .off, live := .absent, stable := false, signalTimer := none }).latchBoth (.channel ch)).setOccupied ch
            false) →
      exec (.channelService .office n false) s =
        .next ((if begins then
            (left.setAlert .calSwitch ⟨some ⟨s.clu.now, s.clu.valid⟩, s.evu.alerts.calSwitch.enabled⟩).latchBoth .alert
          else left).answered .office 0x12 .done []))

/-- ZERO, CALIBRATE ZERO and CALIBRATE SPAN (R12, R14 to R17): the first check that fails decides; a taken ZERO moves Z to the window
mean, a zero calibration Z and Zcal, a span calibration G. The live weight in the answers is that of the newest sample (log 31), and
its form and the width of G are the model's (log 20). -/
def Obligations.ZeroAndCalibrationRequests : Prop :=
  (∀ (s : State) (n : Nat) (ch : Channel) (c : ChannelState) (mean : Int), s.ready .office → Channel.ofNat? n = some ch →
      c = s.chan ch → mean = roundAway (rawSum c.window) c.window.length →
      match firstFailing
        [ (decide (c.st ≠ .active), .wrongState), (c.capture.isSome, .unitBusy), (!c.stable, .notStable),
          (decide (c.set.K * 65536 < (mean - c.set.zCal).natAbs * c.set.G * 50), .zeroRange) ] with
      | some code => exec (.zero .office n) s = .next ((s.taken .office).answered .office 0x13 code [])
      | none =>
        exec (.zero .office n) s =
          .next ((if c.drift then
              ((s.taken .office).setChan ch { c with z := mean, block := ⟨[], false⟩, drift := false }).latchBoth (.channel ch)
            else (s.taken .office).setChan ch { c with z := mean, block := ⟨[], false⟩ }).answered .office 0x13 .done
              (.i32 mean :: ({ c with z := mean } : ChannelState).relive.fields))) ∧
  ∀ (s : State) (n : Nat) (ch : Channel) (c : ChannelState) (mean g weight den : Int) (locked unfit : Bool), s.ready .office →
    Channel.ofNat? n = some ch → c = s.chan ch → mean = roundAway (rawSum c.window) c.window.length →
    den = rawSum c.window - c.set.M * c.set.zCal → g = roundHalfUp (weight * 65536 * c.set.M) den.toNat →
    (locked = true ↔ c.st ≠ .service ∨ s.switchClosed = false) →
    (unfit = true ↔ c.signal ≠ .good ∨ c.stable = false) →
    (match firstFailing [(locked, .calLocked), (unfit, .notStable)] with
      | some code => exec (.calibrateZero .office n) s = .next ((s.taken .office).answered .office 0x17 code [])
      | none =>
        exec (.calibrateZero .office n) s =
          .next ((if c.drift then
              ((s.taken .office).setChan ch
                { c with
                  z := mean, set := { c.set with zCal := mean, calCounter := min (c.set.calCounter + 1) 65535 },
                  block := ⟨[], false⟩, drift := false }).latchBoth (.channel ch)
            else (s.taken .office).setChan ch
              { c with
                z := mean, set := { c.set with zCal := mean, calCounter := min (c.set.calCounter + 1) 65535 },
                block := ⟨[], false⟩ }).answered .office 0x17 .done [.i32 mean])) ∧
    (match firstFailing
        [ (locked, .calLocked),
          (decide (weight % c.set.d ≠ 0 ∨ weight < 50 * c.set.d ∨ (c.set.K : Int) < weight), .badParam), (unfit, .notStable),
          (decide (den ≤ 0 ∨ g < 1 ∨ 16777215 < g), .spanRange) ] with
      | some code => exec (.calibrateSpan .office n weight) s = .next ((s.taken .office).answered .office 0x18 code [])
      | none =>
        ∀ c' : ChannelState, c' =
            { c with
              set := { c.set with G := g.toNat, calibrated := true, calCounter := min (c.set.calCounter + 1) 65535 } } →
        exec (.calibrateSpan .office n weight) s =
          .next (((s.taken .office).setChan ch c').answered .office 0x18 .done (.u32 g.toNat :: c'.relive.fields)))

/-- CAPTURE (R18, R19, R38): the first check of R18 that fails decides; a taken capture fills its record, takes its serial, disqualifies
the zero-tracking block and clears the bridge's captured mark. The one-byte channel of the answer is the model's (log 20). -/
def Obligations.CaptureStartsOrIsRefused : Prop :=
  ∀ (s : State) (p : Port) (n : Nat) (ch : Channel) (ticket grade : Option Nat) (tare : Option Int) (c : ChannelState) (w : Int)
      (named : Option Ticket), s.ready p → Channel.ofNat? n = some ch → c = s.chan ch → w = tare.getD 0 →
    named = ticket.bind s.ticket? →
    match firstFailing
      [ (decide (p = .window) && ch.bridge?.isSome, .wrongPort),
        (grade.any (fun g => decide (g < 1 ∨ 64 < g)) || decide (w < 0 ∨ w % c.set.d ≠ 0 ∨ (c.set.K : Int) < w), .badParam),
        (decide (c.st ≠ .active), .wrongState),
        (c.capture.isSome || decide (c.slot.map (·.1) = some p.other), .unitBusy),
        (decide (c.slot.map (·.1) = some p), .outcomeUnread),
        ((match ch.bridge? with
          | some b => decide ((s.bridge b).pos ≠ .onDeck)
          | none => !c.occupied), .position),
        (ticket.isSome && named.isNone, .noTicket),
        (named.any (fun k => decide (k.st ≠ .opened ∧ k.st ≠ .weighing)), .ticketState),
        (named.any (fun k => decide (k.kind = .bridge) != ch.bridge?.isSome), .wrongChannel) ] with
    | some code => exec (.capture (Port.sender p) n ticket grade tare) s = .next ((s.taken p).answered p 0x14 code [])
    | none =>
      ∀ after : State, after = (s.taken p).setChan ch
          { c with
            capture :=
              some
                { port := p, serial := c.serial, ticket := named.map fun k => ⟨k.number, k.opening⟩, grade := grade, tare := w,
                  attempt := 1, attemptTimer := ⟨c.set.A * 1000, s.elapsed⟩, samples := [],
                  startedAt := ⟨s.clu.now, s.clu.valid⟩ }
            serial := if c.serial < 65535 then c.serial + 1 else 0
            block := { c.block with disqualified := true } } →
        exec (.capture (Port.sender p) n ticket grade tare) s =
          .next ((match ch.bridge? with
            | some b => after.setBridge b { s.bridge b with captured := false }
            | none => after).answered p 0x14 .started [.u8 ch.num, .u16 c.serial])

/-- R24, R25 and R38: what every end of a capture leaves: the outcome record in the slot for the starting port, no capture in flight,
CAPTURE_END latched to that port alone, and the bridge's captured mark set after a weighing. -/
def Obligations.CaptureEndLeavesOutcome : Prop :=
  ∀ (s : State) (ch : Channel) (k : Capture) (e : CaptureEnd) (weight : Option Int) (app : Option Application) (c : ChannelState),
    c = s.chan ch → c.capture = some k →
    ∀ after : State, after = s.setChan ch
        { c with
          capture := none
          slot :=
            some (k.port,
              { channel := ch, serial := k.serial, outcome := e, weight := weight, fineAttempts := min k.attempt c.set.Rf,
                coarseAttempts := k.attempt - c.set.Rf, time := ⟨s.clu.now, s.clu.valid⟩, application := app,
                ticket := k.ticket.map (·.number) }) } →
      s.endCapture ch e weight app =
        (match ch.bridge? with
          | some b =>
            if e = CaptureEnd.captured ∨ e = CaptureEnd.capturedCoarse then after.setBridge b { s.bridge b with captured := true } else after
          | none => after).latch k.port (.captureEnd ch)

/-- CAPTURE ABORT and ATTEMPT_TIMEOUT (R21, R23), and OUTCOME FETCH (R25, R153, R209): the port an outcome is held for takes it and
empties the slot; any other fetch is refused. -/
def Obligations.CaptureAbortAttemptsAndOutcomes : Prop :=
  ((∀ (s : State) (p : Port) (n : Nat) (ch : Channel), s.ready p → Channel.ofNat? n = some ch →
      (p = .window → ch.bridge? = none) →
      (((s.chan ch).capture.map (·.port)) = some p →
        exec (.captureAbort (Port.sender p) n) s =
          .next (((s.taken p).endCapture ch .aborted none none).answered p 0x15 .done [])) ∧
      (((s.chan ch).capture.map (·.port)) ≠ some p →
        exec (.captureAbort (Port.sender p) n) s = .next ((s.taken p).answered p 0x15 .noOperation []))) ∧
    (∀ (s : State) (n : Nat) (ch : Channel) (b : Bridge), s.ready .window → Channel.ofNat? n = some ch → ch.bridge? = some b →
      exec (.captureAbort .window n) s = .next ((s.taken .window).answered .window 0x15 .wrongPort [])) ∧
    ∀ (s : State) (ch : Channel) (k : Capture), s.powered = true → (s.chan ch).capture = some k →
      (k.attempt < (s.chan ch).set.Rf + 2 →
        exec (.attemptTimeout ch) s =
          .next (s.setChan ch
            { s.chan ch with
              capture :=
                some { k with attempt := k.attempt + 1, attemptTimer := ⟨(s.chan ch).set.A * 1000, s.elapsed⟩ } }).settle) ∧
      ((s.chan ch).set.Rf + 2 ≤ k.attempt → exec (.attemptTimeout ch) s = .next (s.endCapture ch .unstable none none).settle)) ∧
  ∀ (s : State) (p : Port), s.ready p →
    (∀ (n : Nat) (ch : Channel), Channel.ofNat? n = some ch → (p = .window → ch.bridge? = none) →
      (∀ o, (s.chan ch).slot = some (p, o) → (s.chan ch).capture = none →
        exec (.outcomeFetch (Port.sender p) n) s =
          .next (((s.taken p).setChan ch { s.chan ch with slot := none }).answered p 0x16 .done (.u8 n :: o.fields))) ∧
      (((s.chan ch).slot.map (·.1) ≠ some p ∨ (s.chan ch).capture.isSome = true) →
        exec (.outcomeFetch (Port.sender p) n) s = .next ((s.taken p).answered p 0x16 .noOperation []))) ∧
    (∀ o, s.pyu.slot = some (p, o) → s.pyu.payout = none →
      exec (.outcomeFetch (Port.sender p) 4) s =
        .next ({ s.taken p with pyu := { s.pyu with slot := none } }.answered p 0x16 .done (.u8 4 :: o.fields))) ∧
    ((s.pyu.slot.map (·.1) ≠ some p ∨ s.pyu.payout.isSome = true) →
      exec (.outcomeFetch (Port.sender p) 4) s = .next ((s.taken p).answered p 0x16 .noOperation [])) ∧
    (∀ n, 4 < n → exec (.outcomeFetch (Port.sender p) n) s = .next ((s.taken p).answered p 0x16 .badParam [])) ∧
    ∀ n, n < 2 → p = .window → exec (.outcomeFetch .window n) s = .next ((s.taken .window).answered .window 0x16 .wrongPort [])

/-- R1, R4 to R8, R10 and R11 for a good sample: the live report, the fine weight, the window, the stability, the occupancy, the signal
timer, the signal (GOOD in SERVICE), the good count of STARTING, and the state it leaves its channel in, with CHANNEL latched exactly at
a change of state or of ZERO_DRIFT. Outside ACTIVE the working zero and ZERO_DRIFT stay, and so does the zero-tracking block but where
the channel enters ACTIVE, with an empty one (R7, R13; ZeroTrackingJudgesBlocks says what a sample in ACTIVE does to them). Where no
capture is in flight none starts, the outcome slot and the ticket table stay as they are, and no CAPTURE_END is latched. R35, R37: on C0
and C1 a change of occupancy moves the deck position from EMPTY to ON_DECK while both beams are clear, and from ON_DECK to EMPTY, with
the DECK flag exactly then; every other position holds, and so does the other bridge. -/
def Obligations.GoodSampleConverts : Prop :=
  ∀ (s : State) (dig : Digitizer) (ch : Channel) (raw w f : Int) (c : ChannelState) (kept : List Sample), s.powered = true →
    s.deliversTo dig = some ch → c = s.chan ch → c.st ≠ .off → w = roundAway ((raw - c.z) * c.set.G) (65536 * c.set.d) * c.set.d →
    f = Int.tdiv ((raw - c.z) * c.set.G) 65536 → kept = (if c.st = .fault then [] else c.window) ++ [⟨raw, f⟩] →
    ∃ t : State, exec (.digitizerSample dig raw true) s = .next t ∧ s.sampleKeeps ch t ∧
      (t.chan ch).live =
        (if (c.set.K + 9 * c.set.d : Nat) < w then .over else if w < -(20 * (c.set.d : Int)) then .under else .weight w) ∧
      (t.chan ch).fine = some f ∧ (t.chan ch).window = kept.drop (kept.length - c.set.M) ∧
      (t.chan ch).st =
        (match c.st with
          | .fault => if 1 < c.set.M then .starting else .active
          | .starting => if c.goodCount + 1 < c.set.M then .starting else .active
          | other => other) ∧
      (∀ p, (t.events p).has (.channel ch) =
        ((s.events p).has (.channel ch) || decide ((t.chan ch).st ≠ c.st ∨ (t.chan ch).drift ≠ c.drift))) ∧
      (t.chan ch).goodCount =
        (match c.st with
          | .fault => 1
          | .starting => c.goodCount + 1
          | _ => c.goodCount) ∧
      (t.chan ch).signal = (if c.st = .service then .good else c.signal) ∧
      (c.st ≠ .active → (t.chan ch).z = c.z ∧ (t.chan ch).drift = c.drift ∧
        (t.chan ch).block = if (t.chan ch).st = .active then ⟨[], false⟩ else c.block) ∧
      (c.capture = none → t.tkt = s.tkt ∧ (t.chan ch).capture = none ∧ (t.chan ch).slot = c.slot ∧
        ∀ p, (t.events p).has (.captureEnd ch) = (s.events p).has (.captureEnd ch)) ∧
      ((t.chan ch).stable = true ↔ ((t.chan ch).st = .active ∨ (t.chan ch).st = .service) ∧
        c.set.M ≤ (t.chan ch).window.length ∧ fineSpread (t.chan ch).window ≤ (c.set.b * c.set.d : Nat)) ∧
      (t.chan ch).signalTimer = some ⟨if ch.bridge?.isSome then 200 else 400, s.elapsed⟩ ∧
      ((t.chan ch).occupied = true ↔ (c.set.K + 9 * c.set.d : Nat) < w ∨
        (-(20 * (c.set.d : Int)) ≤ w ∧ if c.occupied then (c.set.T / 2 * c.set.d : Nat) ≤ w else (c.set.T * c.set.d : Nat) ≤ w)) ∧
      (∀ b : Bridge, ch.bridge? ≠ some b → t.bridge b = s.bridge b) ∧
      ∀ (b : Bridge) (new : Position), ch.bridge? = some b →
        new =
          (if (t.chan ch).occupied = c.occupied then (s.bridge b).pos
          else match (s.bridge b).pos with
            | .empty =>
              if (t.chan ch).occupied && !s.beamBlocked b .entry && !s.beamBlocked b .exit then .onDeck else .empty
            | .onDeck => if (t.chan ch).occupied then .onDeck else .empty
            | held => held) →
        t.bridge b = { s.bridge b with pos := new, captured := (t.bridge b).captured } ∧
        (∀ p, (t.events p).has (.deck b) = ((s.events p).has (.deck b) || decide (new ≠ (s.bridge b).pos))) ∧
        (c.capture = none →
          t.bridge b =
            { s.bridge b with
              pos := new
              captured := if (s.bridge b).pos = .onDeck ∧ new ≠ .onDeck then false else (s.bridge b).captured })

/-- R13: a good sample in ACTIVE joins the zero-tracking block, which is disqualified from the first sample that comes with a capture in
flight, with the deck other than EMPTY (C0, C1) or with the platform occupied (C2, C3). A full block is judged and dropped, and one that
fits moves Z to its mean within the bound of R12, or sets ZERO_DRIFT beyond it. That position and occupancy count as they stand after
the sample's own occupancy step, and a capture as it stands before it, is the model's reading (log 45). -/
def Obligations.ZeroTrackingJudgesBlocks : Prop :=
  ∀ (s : State) (dig : Digitizer) (ch : Channel) (raw f mean : Int) (c : ChannelState) (samples : List Sample)
      (away disqualified fits inBound : Bool) (t : State), s.powered = true → s.deliversTo dig = some ch → c = s.chan ch →
    c.st = .active → f = Int.tdiv ((raw - c.z) * c.set.G) 65536 → samples = c.block.samples ++ [⟨raw, f⟩] →
    exec (.digitizerSample dig raw true) s = .next t →
    away =
      (match ch.bridge? with
        | some b => decide ((t.bridge b).pos ≠ .empty)
        | none => (t.chan ch).occupied) →
    disqualified = (c.block.disqualified || c.capture.isSome || away) →
    fits =
      (!disqualified && decide (fineSpread samples ≤ (c.set.b * c.set.d : Nat))
        && decide (2 * ((rawSum samples - c.set.M * c.z) * c.set.G).natAbs ≤ c.set.d * 65536 * c.set.M)) →
    mean = roundAway (rawSum samples) samples.length →
    inBound = decide ((mean - c.set.zCal).natAbs * c.set.G * 50 ≤ c.set.K * 65536) →
    (samples.length < c.set.M →
      (t.chan ch).z = c.z ∧ (t.chan ch).drift = c.drift ∧ (t.chan ch).block = ⟨samples, disqualified⟩) ∧
    (c.set.M ≤ samples.length →
      (t.chan ch).block = ⟨[], false⟩ ∧ (t.chan ch).z = (if fits = true ∧ inBound = true then mean else c.z) ∧
        (t.chan ch).drift = (c.drift || (fits && decide (mean ≠ c.z) && !inBound)) ∧
        ((t.chan ch).drift ≠ c.drift → ∀ p, (t.events p).has (.channel ch) = true))

/-- R1, R8 and R22: an OVERRANGE sample, or the expiry of a running signal timer, takes a channel in STARTING or ACTIVE to FAULT and
ends its capture SIGNAL; in SERVICE the signal is LOST, and the sample restarts the signal timer; in FAULT an OVERRANGE sample changes
nothing of its channel; in OFF a sample of a bridge's digitizer is discarded, good or not. The rest of the channel's record stays, its
occupancy, working zero and ZERO_DRIFT among it, and so does every bridge record (R8, R35). -/
def Obligations.SignalFaults : Prop :=
  (∀ (s : State) (ch : Channel) (c : ChannelState) (dig : Digitizer) (raw : Int) (timeout : Bool) (i : Instr), s.powered = true →
    c = s.chan ch → i = (if timeout then .signalTimeout ch else .digitizerSample dig raw false) →
    (timeout = true → c.signalTimer.isSome = true) → (timeout = false → s.deliversTo dig = some ch) →
    ((c.st = .starting ∨ c.st = .active) →
      ∃ t : State, exec i s = .next t ∧ s.sampleKeeps ch t ∧ (timeout = true → t.wch.nextPlatform = s.wch.nextPlatform) ∧
        t.tkt = s.tkt ∧ t.dsu = s.dsu ∧
        t.chan ch =
          { c with
            st := .fault, live := .absent, window := [], stable := false, block := ⟨[], false⟩, signalTimer := none, capture := none
            goodCount := (t.chan ch).goodCount, slot := (t.chan ch).slot } ∧
        (c.st = .starting → (t.chan ch).goodCount = 0) ∧ (∀ p, (t.events p).has (.channel ch) = true) ∧
        (c.capture = none → (t.chan ch).slot = c.slot ∧ ∀ p, (t.events p).has (.captureEnd ch) = (s.events p).has (.captureEnd ch)) ∧
        (∀ b p, (t.events p).has (.deck b) = (s.events p).has (.deck b)) ∧
        ∀ k, c.capture = some k → (t.events k.port).has (.captureEnd ch) = true ∧
          ((t.chan ch).slot.map fun x => (x.1, x.2.outcome, x.2.serial, x.2.weight)) = some (k.port, .signal, k.serial, none)) ∧
    (c.st = .service →
      ∃ t : State, exec i s = .next t ∧ s.sampleKeeps ch t ∧ (timeout = true → t.wch.nextPlatform = s.wch.nextPlatform) ∧
        t.tkt = s.tkt ∧ t.dsu = s.dsu ∧ t.evu = s.evu ∧
        t.chan ch =
          { c with
            signal := .lost, live := .absent, window := [], stable := false
            signalTimer := if timeout then none else some ⟨if ch.bridge?.isSome then 200 else 400, s.elapsed⟩ }) ∧
    (c.st = .fault → timeout = false →
      ∃ t : State, exec i s = .next t ∧ s.sampleKeeps ch t ∧ t.chan ch = c ∧ t.tkt = s.tkt ∧ t.dsu = s.dsu ∧ t.evu = s.evu)) ∧
  ∀ (s : State) (b : Bridge) (raw : Int) (good : Bool), s.powered = true → (s.chan b.channel).st = .off →
    exec (.digitizerSample (.bridge b) raw good) s = .next s.settle

/-- R1, R2: the arbiter delivers a sample to the platform whose turn it is, or to the only one out of OFF, and the turn passes to the
other platform if that is out of OFF; with both in OFF nothing happens; a bridge's sample is discarded in OFF. That the platform is
chosen when the sample is delivered, by the states of that moment, where R2 chooses before the conversion, is the model's reading (log
41). -/
def Obligations.ArbiterAlternatesPlatforms : Prop :=
  ∀ (s : State) (raw : Int) (ok : Bool), s.powered = true →
    ((s.chan .c2).st = .off → (s.chan .c3).st = .off → exec (.digitizerSample .platform raw ok) s = .next s.settle) ∧
    (∀ b : Bridge, (s.chan b.channel).st = .off → exec (.digitizerSample (.bridge b) raw ok) s = .next s.settle) ∧
    ∀ n : Platform, (s.chan n.channel).st ≠ .off → (s.wch.nextPlatform = n ∨ (s.chan n.other.channel).st = .off) →
      ∃ t : State, exec (.digitizerSample .platform raw ok) s = .next t ∧ s.sampleKeeps n.channel t ∧
        t.wch.nextPlatform = if (s.chan n.other.channel).st = .off then n else n.other

/-- R20 and R24: a good sample on an occupied channel with a capture in flight joins the post-start list; the window of the M newest is
tested against the band of the attempt, and a window that passes completes the capture with the weight of R4, handed to the ticket table
once, and the bridge's captured mark is set (R38). R22: a good sample that gives OVER or UNDER ends the capture OVERLOAD or UNDERLOAD, and
one that leaves the platform or the deck vacant ends it POSITION, with no weight and no hand-over. That the live report goes before the
occupancy of the same sample is the model's reading (log 30). -/
def Obligations.CaptureWindowCompletes : Prop :=
  (∀ (s : State) (dig : Digitizer) (ch : Channel) (raw w : Int) (c : ChannelState) (k : Capture) (window : List Int) (coarse : Bool)
      (weight : Int) (weighing : Weighing), s.powered = true → s.deliversTo dig = some ch → c = s.chan ch → c.st = .active →
    c.capture = some k → c.occupied = true → w = roundAway ((raw - c.z) * c.set.G) (65536 * c.set.d) * c.set.d →
    ((c.set.T / 2 * c.set.d : Nat) : Int) ≤ w → w ≤ (c.set.K + 9 * c.set.d : Nat) →
    window = (k.samples ++ [raw]).drop ((k.samples ++ [raw]).length - c.set.M) → coarse = decide (c.set.Rf < k.attempt) →
    weight = roundAway ((sumInt window - c.set.M * c.z) * c.set.G) (65536 * c.set.M * c.set.d) * c.set.d →
    weighing =
      { channel := ch, weight := weight, division := c.set.d, calCounter := c.set.calCounter, serial := k.serial,
        time := ⟨s.clu.now, s.clu.valid⟩, coarse := coarse } →
    ∃ t : State, exec (.digitizerSample dig raw true) s = .next t ∧ s.sampleKeeps ch t ∧
      if c.set.M ≤ window.length ∧ spread (window.map fun r => Int.tdiv ((r - c.z) * c.set.G) 65536) ≤
          (if coarse then min (2 * (c.set.b * c.set.d)) (8 * c.set.d) else c.set.b * c.set.d : Nat) then
        (t.chan ch).capture = none ∧ (t.events k.port).has (.captureEnd ch) = true ∧
        (if (c.set.K + 9 * c.set.d : Nat) < weight ∨ weight < -(20 * (c.set.d : Int)) then
          t.tkt = s.tkt ∧ (∀ b, t.bridge b = s.bridge b) ∧
          ((t.chan ch).slot.map fun x => (x.1, x.2.outcome, x.2.serial, x.2.weight, x.2.application)) =
            some (k.port, if weight < 0 then .underload else .overload, k.serial, none, none)
        else
          t.tkt = (s.handOver k.ticket weighing k.grade k.tare).1.tkt ∧
          (∀ b, t.bridge b = if ch.bridge? = some b then { s.bridge b with captured := true } else s.bridge b) ∧
          ((t.chan ch).slot.map fun x => (x.1, x.2.outcome, x.2.serial, x.2.weight, x.2.application)) =
            some (k.port, if coarse then .capturedCoarse else .captured, k.serial, some weight,
              some (s.handOver k.ticket weighing k.grade k.tare).2))
      else (t.chan ch).capture = some { k with samples := window } ∧ (t.chan ch).slot = c.slot ∧ t.tkt = s.tkt ∧
        ∀ b, t.bridge b = s.bridge b) ∧
  ∀ (s : State) (dig : Digitizer) (ch : Channel) (raw w : Int) (c : ChannelState) (k : Capture) (vacated : Bool), s.powered = true →
    s.deliversTo dig = some ch → c = s.chan ch → c.st = .active → c.capture = some k →
    w = roundAway ((raw - c.z) * c.set.G) (65536 * c.set.d) * c.set.d →
    vacated =
      (c.occupied && decide (w < ((c.set.T / 2 * c.set.d : Nat) : Int))
        && (ch.bridge?.all fun b => decide ((s.bridge b).pos = .onDeck))) →
    ((c.set.K + 9 * c.set.d : Nat) < w ∨ w < -(20 * (c.set.d : Int)) ∨ vacated = true) →
    ∃ t : State, exec (.digitizerSample dig raw true) s = .next t ∧ s.sampleKeeps ch t ∧ t.tkt = s.tkt ∧
      (t.chan ch).capture = none ∧ (t.events k.port).has (.captureEnd ch) = true ∧
      ((t.chan ch).slot.map fun x => (x.1, x.2.outcome, x.2.serial, x.2.weight, x.2.application)) =
        some (k.port, if (c.set.K + 9 * c.set.d : Nat) < w then .overload
          else if w < -(20 * (c.set.d : Int)) then .underload else .position, k.serial, none, none) ∧
      ∀ b, (t.bridge b).captured =
        if ch.bridge? = some b ∧ (s.bridge b).pos = .onDeck ∧ (t.bridge b).pos ≠ .onDeck then false else (s.bridge b).captured

/-- The roundings of 00_scope.md as R4, R6, R99, R105 and R106 use them. The result of the three that round to a nearest value is the
nearest, and ties go where the rule says; the floor multiple is the largest multiple not above the value; the truncated value is the
integer part toward zero. -/
def Obligations.RoundingsAreNearest : Prop :=
  (∀ (n : Int) (d : Nat), 0 < d → 2 * (n - roundAway n d * d).natAbs ≤ d ∧
      (2 * (n - roundAway n d * d).natAbs = d → n.natAbs < (roundAway n d).natAbs * d)) ∧
    (∀ (n : Int) (d : Nat), 0 < d → -(d : Int) ≤ 2 * (n - roundHalfUp n d * d) ∧ 2 * (n - roundHalfUp n d * d) < d) ∧
    (∀ n u : Nat, 0 < u → nearestMultiple n u % u = 0 ∧ 2 * n < 2 * nearestMultiple n u + u ∧ 2 * nearestMultiple n u ≤ 2 * n + u) ∧
    (∀ n u : Nat, 0 < u → floorMultiple n u % u = 0 ∧ floorMultiple n u ≤ n ∧ n < floorMultiple n u + u) ∧
    ∀ (n : Int) (d : Nat), 0 < d → (truncate n d * d).natAbs ≤ n.natAbs ∧ n.natAbs < (truncate n d * d).natAbs + d ∧
      0 ≤ truncate n d * n

/-! ## Deck position, lamps and yard lines -/

/-- R29 and R30: a level that departs from the debounced state starts the debounce, one that returns cancels it, and its completion
flips the state and hands it to the user of the line's role, GP_IN to both ports (R31). The cash door (R151): opened at rest the
dispenser enters DOOR_OPEN and remembers the state it left, opened in PICKING it acts as a jam, opened in any other operation it is
pending; closed, the dispenser returns to the state it remembers, with RETRACT for a recovery at reset still to run. The alerts of the
contacts (R195): CASH_DOOR, CABINET and CAL_SWITCH latch when their condition begins, with the stamp of that moment and ALERT to both
ports, and a source that is latched already keeps its first stamp. The model's readings: a part without power only sees the level (log
10), the drive of an output or NONE line is recorded with no debounce (log 16), the completion of a debounce that is not in progress
does nothing (log 2, 6), and CASH_FAULT is latched again as the door closes on FAULT or OFFLINE (log 38). -/
def Obligations.LinesDebounce : Prop :=
  (∀ (s : State) (n : Nat) (l : YardLine), s.dsu.lines[n]? = some l →
    (∀ drive, s.powered = false →
      exec (.inputLevelChange n drive) s = .next (s.setLine n { l with drive := drive })) ∧
    (∀ drive debounce, s.powered = true →
      debounce =
        (if LineFunction.debounces l.entry.function = false then l.debounce
        else if Polarity.active l.entry.polarity (({ l with drive := drive } : YardLine).inputLevel n) = l.debounced then none
        else if l.debounce.isSome then l.debounce
        else some ⟨match l.entry.function with
          | .beam _ _ => s.dsu.beamDebounce
          | _ => 20, s.elapsed⟩) →
      exec (.inputLevelChange n drive) s = .next (s.setLine n { l with drive := drive, debounce := debounce }).settle) ∧
    (∀ after, s.powered = true → l.debounce.isSome = true →
      after = s.setLine n { l with debounced := !l.debounced, debounce := none } →
      exec (.debouncedChange n) s = .next (s.conclude
        (match l.entry.function with
          | .beam b side => after.beamChange b side (!l.debounced)
          | .cashDoor => if l.debounced then after.doorOpens else after.doorCloses
          | .gpIn => after.latchBoth .lineChange
          | _ => after))) ∧
    (s.powered = true → l.debounce = none → exec (.debouncedChange n) s = .next s.settle)) ∧
  (∀ s : State,
    ((s.pyu.disp = .idle ∨ s.pyu.disp = .fault ∨ s.pyu.disp = .offline) →
      s.doorOpens = { s with pyu := { s.pyu with disp := .doorOpen, remembered := s.pyu.disp } }) ∧
    (s.pyu.disp = .doorOpen → s.doorOpens = s) ∧
    ((s.pyu.disp = .presenting ∨ s.pyu.disp = .waiting ∨ s.pyu.disp = .retracting ∨ s.pyu.disp = .recovering) →
      s.doorOpens = { s with pyu := { s.pyu with doorPending := true } }) ∧
    (∀ p t, s.pyu.disp = .picking → s.pyu.payout = some p → t = s.doorOpens →
      t = ({ s with pyu := { s.pyu with doorPending := true } } : State).payoutEnd p .notPaid .jammed (some ⟨.jam, 0, true⟩) .fault ∧
        t.pyu.disp = .doorOpen ∧ t.pyu.remembered = .fault ∧ t.pyu.doorPending = false ∧ t.pyu.command = none ∧
        t.pyu.payout = none ∧ t.pyu.stores = s.pyu.stores ∧
        (t.pyu.slot.map fun x => (x.1, x.2.ticket, x.2.outcome)) = some (p.port, p.ticket, .jammed) ∧
        (0 < p.picked.sum → s.pyu.log.length < 16 →
          (t.pyu.log.getLast?.map fun x => (x.ticket, x.cause, x.pieces, x.amount, x.counted, x.known)) =
            some (some p.ticket, .jam, p.picked.sum, p.pickedAmount, 0, true)) ∧
        ∀ q, (t.events q).has .cashFault = true) ∧
    (s.pyu.disp ≠ .doorOpen → s.doorCloses = { s with pyu := { s.pyu with doorPending := false } }) ∧
    ∀ closed : State, s.pyu.disp = .doorOpen →
      closed =
        { s with
          pyu :=
            { s.pyu with
              disp := s.pyu.remembered
              command := if s.pyu.remembered = .recovering ∧ s.pyu.recovery.isSome = true then some .retract else none } } →
      s.doorCloses =
        if s.pyu.remembered = .fault ∨ s.pyu.remembered = .offline then closed.latchBoth .cashFault else closed) ∧
  ∀ (before after : State) (begins : AlertSource → (State → Bool) → Bool) (door cabinet switch : Bool) (mark : EventSet → EventSet),
    begins = (fun src holds => holds after && !holds before && (after.evu.alerts.get src).latch.isNone) →
    door = begins .cashDoor State.cashDoorOpen → cabinet = begins .cabinet State.cabinetOpen →
    switch = begins .calSwitch (fun x =>
      x.switchClosed && [x.wch.c0.st, x.wch.c1.st, x.wch.c2.st, x.wch.c3.st].all fun st => decide (st ≠ .service)) →
    mark = (fun e => if door || cabinet || switch then { e with latched := e.latched ||| 0x200000 } else e) →
    before.conclude after =
        ({ after with
          evu :=
            { office := mark after.evu.office
              window := mark after.evu.window
              alerts :=
                { after.evu.alerts with
                  cashDoor :=
                    if door then ⟨some ⟨after.clu.now, after.clu.valid⟩, after.evu.alerts.cashDoor.enabled⟩
                    else after.evu.alerts.cashDoor
                  cabinet :=
                    if cabinet then ⟨some ⟨after.clu.now, after.clu.valid⟩, after.evu.alerts.cabinet.enabled⟩
                    else after.evu.alerts.cabinet
                  calSwitch :=
                    if switch then ⟨some ⟨after.clu.now, after.clu.valid⟩, after.evu.alerts.calSwitch.enabled⟩
                    else after.evu.alerts.calSwitch } } } : State).settle ∧
      (before.sameConditions after → before.conclude after = after.settle)

/-- R35 to R39: the position table of a bridge over beam and occupancy changes, the DECK flag of the entries of R37, the start of the
stretch timer, and, as the deck leaves ON_DECK, the captured mark cleared and a capture in flight ended POSITION with its outcome in the
slot and CAPTURE_END latched (R22, R24, R37, R38). No other block, channel or bridge changes. -/
def Obligations.DeckFollowsTable : Prop :=
  (∀ (s v : State) (b : Bridge) (side : Side) (blocked : Bool) (old new : Position), old = (s.bridge b).pos →
    s.beamBlocked b side = blocked → v = s.beamChange b side blocked →
    new = (if blocked then (match old with
        | .empty => .entering
        | .onDeck => .leaving
        | x => x)
      else if s.beamBlocked b .entry || s.beamBlocked b .exit then old
      else match old with
        | .entering => if (s.chan b.channel).occupied then .onDeck else .empty
        | .leaving => if (s.chan b.channel).occupied then .onDeck else .empty
        | .fault => if (s.chan b.channel).occupied then .onDeck else .empty
        | x => x) →
    s.sampleKeeps b.channel v ∧ v.tkt = s.tkt ∧ (∀ o, o ≠ b → v.bridge o = s.bridge o) ∧
      v.bridge b =
        { s.bridge b with
          pos := new
          entryFault :=
            if side = .entry then (if blocked then some ⟨s.dsu.beamFault * 1000, s.elapsed⟩ else none) else (s.bridge b).entryFault
          exitFault :=
            if side = .exit then (if blocked then some ⟨s.dsu.beamFault * 1000, s.elapsed⟩ else none) else (s.bridge b).exitFault
          stretch := if old ≠ .entering ∧ new = .entering then some ⟨s.dsu.stretchTime, s.elapsed⟩ else (s.bridge b).stretch
          captured := if old = .onDeck ∧ new ≠ .onDeck then false else (s.bridge b).captured } ∧
      (old ≠ new → (new = .onDeck ∨ new = .empty ∨ new = .fault) → ∀ p, (v.events p).has (.deck b) = true) ∧
      (old = .onDeck → new ≠ .onDeck → s.captureEnded v b.channel .position) ∧ (old ≠ .onDeck ∨ new = .onDeck → v.wch = s.wch)) ∧
  ∀ (s u : State) (b : Bridge) (occupied : Bool) (old new : Position), old = (s.bridge b).pos →
    occupied ≠ (s.chan b.channel).occupied → u = s.setOccupied b.channel occupied →
    new = (match old with
      | .empty => if occupied && !s.beamBlocked b .entry && !s.beamBlocked b .exit then .onDeck else .empty
      | .onDeck => if occupied then .onDeck else .empty
      | x => x) →
    s.sampleKeeps b.channel u ∧ u.tkt = s.tkt ∧ (∀ o, o ≠ b → u.bridge o = s.bridge o) ∧
      u.bridge b =
        { s.bridge b with pos := new, captured := if old = .onDeck ∧ new ≠ .onDeck then false else (s.bridge b).captured } ∧
      (u.chan b.channel).occupied = occupied ∧ (old ≠ new → ∀ p, (u.events p).has (.deck b) = true) ∧
      (old = .onDeck → new ≠ .onDeck → s.captureEnded u b.channel .position) ∧
      (old ≠ .onDeck ∨ new = .onDeck → u.chan b.channel = { s.chan b.channel with occupied := occupied })

/-- BEAM_FAULT_TIMEOUT, STRETCH_TIMEOUT, OVERRIDE_TIMEOUT and LAMP_TICK (R36, R39, R40, R43): a beam fault puts the position in FAULT and
ends a capture in flight POSITION (R22, R24), with the captured mark of a deck that leaves ON_DECK cleared (R37); a tick brings a lamp
the next step of its pattern, and after step 8 as many further ticks of step 8 as the pause counts. That each tick of a pause is one
LAMP_TICK (log 2), that the expiry of an override without a timer, and a tick of patterns 0 and 1, leave the state as it is (log 2, 6),
are the model's readings. -/
def Obligations.DeckTimersExpire : Prop :=
  ∀ (s : State) (b : Bridge), s.powered = true →
    (∀ side, ((s.bridge b).faultTimer side).isSome = true →
      ∃ t : State, exec (.beamFaultTimeout b side) s = .next t ∧ s.sampleKeeps b.channel t ∧ t.tkt = s.tkt ∧
        (∀ o, o ≠ b → t.bridge o = s.bridge o) ∧
        t.bridge b =
          { s.bridge b with
            pos := .fault
            entryFault := if side = .entry then none else (s.bridge b).entryFault
            exitFault := if side = .exit then none else (s.bridge b).exitFault
            captured := if (s.bridge b).pos = .onDeck then false else (s.bridge b).captured } ∧
        ((s.bridge b).pos ≠ .fault → s.captureEnded t b.channel .position ∧ ∀ p, (t.events p).has (.deck b) = true) ∧
        ((s.bridge b).pos = .fault → t.evu = s.evu ∧ t.wch = s.wch)) ∧
    exec (.stretchTimeout b) s = .next (s.setBridge b { s.bridge b with stretch := none }).settle ∧
    (∀ row timer, (s.bridge b).override = some ⟨row, some timer⟩ →
      exec (.overrideTimeout b) s = .next (s.setBridge b { s.bridge b with override := none }).settle) ∧
    (∀ row, (s.bridge b).override = some ⟨row, none⟩ → exec (.overrideTimeout b) s = .next s.settle) ∧
    ∀ side colour r, r = (s.lampBank b).get side colour →
      (r.pattern < 2 → exec (.lampTick b side colour) s = .next s.settle) ∧
      (2 ≤ r.pattern →
        exec (.lampTick b side colour) s = .next (s.setLampBank b ((s.lampBank b).put side colour
          (if 1 < r.pauseLeft then ⟨r.pattern, r.step, r.pauseLeft - 1⟩
          else if r.pauseLeft = 1 ∨ (8 ≤ r.step ∧ (s.pattern r.pattern).pause = 0) then ⟨r.pattern, 1, 0⟩
          else if r.step < 8 then ⟨r.pattern, r.step + 1, 0⟩
          else ⟨r.pattern, r.step, (s.pattern r.pattern).pause⟩))).settle)

/-- LAMP PATTERN SET, ASPECT SET and LAMP OVERRIDE (R41 to R43). -/
def Obligations.LampRequests : Prop :=
  ∀ s : State, s.ready .office →
    (∀ (n : Nat) (steps : BitVec 8) (tick pause : Nat),
      exec (.lampPatternSet .office n steps tick pause) s =
        if 2 ≤ n ∧ n ≤ 7 ∧ pause ≤ 15 then
          .next ({ s.taken .office with
            dsu := { s.dsu with patterns := s.dsu.patterns.set n ⟨steps, max 1 (min tick 50), pause⟩ }
            lamps := ⟨s.lamps.bridge0.restart n, s.lamps.bridge1.restart n⟩ }.answered .office 0x21 .done [])
        else .next ((s.taken .office).answered .office 0x21 .badParam [])) ∧
    (∀ (a b c d e f g : AspectRow) (stretch : Nat),
      exec (.aspectSet .office [a, b, c, d, e, f, g] stretch) s =
        if [a, b, c, d, e, f, g].all (fun r => decide (r.entryRed ≤ 7 ∧ r.entryGreen ≤ 7 ∧ r.exitRed ≤ 7 ∧ r.exitGreen ≤ 7)) then
          .next ({ s.taken .office with
            dsu :=
              { s.dsu with
                aspects := ⟨a, b, c, d, e, f, g⟩, stretchTime := max 200 (min stretch 2000) } }.answered .office 0x22 .done [])
        else .next ((s.taken .office).answered .office 0x22 .badParam [])) ∧
    (∀ (n : Nat) (b : Bridge) (row : AspectRow) (seconds : Nat), Bridge.ofNat? n = some b →
      exec (.lampOverride .office n (some (row, seconds))) s =
        if row.entryRed ≤ 7 ∧ row.entryGreen ≤ 7 ∧ row.exitRed ≤ 7 ∧ row.exitGreen ≤ 7 then
          .next (((s.taken .office).setBridge b
            { s.bridge b with
              override :=
                some ⟨row, if seconds = 0 then none else some ⟨min seconds 600 * 1000, s.elapsed⟩⟩ }).answered .office 0x23 .done [])
        else .next ((s.taken .office).answered .office 0x23 .badParam [])) ∧
    ∀ (n : Nat) (b : Bridge), Bridge.ofNat? n = some b →
      exec (.lampOverride .office n none) s =
        if (s.bridge b).override.isSome then
          .next (((s.taken .office).setBridge b { s.bridge b with override := none }).answered .office 0x23 .done [])
        else .next ((s.taken .office).answered .office 0x23 .noOperation [])

/-- LINE MAP SET and LINE WRITE (R31, R33, R34): the checks in their order, BAD_PARAM exactly where two entries hold one beam role, one
lamp role, or CAL_SWITCH, CASH_DOOR or CABINET (GP_IN, GP_OUT and NONE being free), or where there are not sixteen; and every line under
its new entry with its debounced state straight from its level. A beam that the map makes blocked takes its bridge to ENTERING (R35, R39);
a cash door whose condition the map changes acts on the dispenser as an opening or a closing (R151), and where it does not, dispenser,
ticket table and printer stay as they are; a contact whose condition the map begins latches its alert, and no other flag is latched; the
lamps' patterns run on. The model's choices: no LINE_CHANGE for a line that stays GP_IN with its polarity and takes another debounced
state (log 17), a line number naming no line refused BAD_PARAM (log 28), and the pull-up of an output stored as sent (log 52). -/
def Obligations.LineRequests : Prop :=
  ∀ s : State, s.ready .office →
    (∀ (entries : List LineEntry) (d f : Nat) (single : List LineFunction),
      single = ((entries.map (·.function)).filter fun x => decide (x ≠ .gpIn ∧ x ≠ .gpOut ∧ x ≠ .unmapped)) →
      (entries.length ≠ 16 ∨ ¬single.Nodup) →
      exec (.lineMapSet .office entries d f) s = .next ((s.taken .office).answered .office 0x24 .badParam [])) ∧
    (∀ (entries : List LineEntry) (d f : Nat) (single : List LineFunction), entries.length = 16 →
      single = ((entries.map (·.function)).filter fun x => decide (x ≠ .gpIn ∧ x ≠ .gpOut ∧ x ≠ .unmapped)) → single.Nodup →
      (s.dsu.bridge0.pos ≠ .empty ∨ s.dsu.bridge1.pos ≠ .empty) →
      exec (.lineMapSet .office entries d f) s = .next ((s.taken .office).answered .office 0x24 .wrongState [])) ∧
    (∀ (entries : List LineEntry) (d f : Nat) (single : List LineFunction), entries.length = 16 →
      single = ((entries.map (·.function)).filter fun x => decide (x ≠ .gpIn ∧ x ≠ .gpOut ∧ x ≠ .unmapped)) → single.Nodup →
      s.dsu.bridge0.pos = .empty → s.dsu.bridge1.pos = .empty →
      ∃ t : State, exec (.lineMapSet .office entries d f) s = .next t ∧
        (t.office.answer.map fun a => (a.kind, a.status, a.data)) = some (0x24, .done, []) ∧ t.office.counters = s.office.counters ∧
        (∀ (i : Nat) (l : YardLine) (e : LineEntry), s.dsu.lines[i]? = some l → entries[i]? = some e →
          t.dsu.lines[i]? =
            some (⟨e, l.drive,
              LineFunction.debounces e.function
                && Polarity.active e.polarity (({ l with entry := e } : YardLine).inputLevel i),
              none, decide (l.entry.function = .gpOut ∧ e.function = .gpOut) && l.out⟩ : YardLine)) ∧
        t =
          { s with
            office := t.office, evu := t.evu, outs := t.outs, dsu := t.dsu, lamps := t.lamps, pyu := t.pyu, tkt := t.tkt,
            rpu := t.rpu } ∧
        t.dsu =
          { s.dsu with
            lines := t.dsu.lines, beamDebounce := max 10 (min d 500), beamFault := max 30 (min f 600), bridge0 := t.dsu.bridge0
            bridge1 := t.dsu.bridge1 } ∧
        (∀ (b : Bridge) (enters : Bool),
          enters =
            ((t.beamBlocked b .entry && !s.beamBlocked b .entry) || (t.beamBlocked b .exit && !s.beamBlocked b .exit)) →
          t.bridge b =
            { s.bridge b with
              pos := if enters then .entering else .empty
              stretch := if enters then some ⟨s.dsu.stretchTime, s.elapsed⟩ else (s.bridge b).stretch
              entryFault := if t.beamBlocked b .entry then some ⟨t.dsu.beamFault * 1000, s.elapsed⟩ else none
              exitFault := if t.beamBlocked b .exit then some ⟨t.dsu.beamFault * 1000, s.elapsed⟩ else none }) ∧
        (∀ b, t.lampBank b = (s.lampBank b).take (t.lampRow b)) ∧
        (∀ acted : State,
          acted = (if t.cashDoorOpen = s.cashDoorOpen then s else if t.cashDoorOpen then s.doorOpens else s.doorCloses) →
          t.pyu = acted.pyu ∧ t.tkt = acted.tkt ∧ t.rpu = acted.rpu ∧
            ∀ begins : AlertSource → Bool,
              begins = (fun a =>
                t.alertCondition a && !s.alertCondition a && (acted.evu.alerts.get a).latch.isNone) →
              (∀ a, t.evu.alerts.get a =
                if begins a then ⟨some ⟨s.clu.now, s.clu.valid⟩, (acted.evu.alerts.get a).enabled⟩ else acted.evu.alerts.get a) ∧
              t.evu.alerts.globalEnable = s.evu.alerts.globalEnable ∧
              ∀ p, t.events p =
                if begins .cashDoor || begins .cabinet || begins .calSwitch then (acted.events p).latch .alert else acted.events p)) ∧
    (∀ n on l, s.dsu.lines[n]? = some l → l.entry.function = .gpOut →
      exec (.lineWrite .office n on) s =
        .next (((s.taken .office).setLine n { l with out := on }).answered .office 0x26 .done [])) ∧
    (∀ n on l, s.dsu.lines[n]? = some l → l.entry.function ≠ .gpOut →
      exec (.lineWrite .office n on) s = .next ((s.taken .office).answered .office 0x26 .badParam [])) ∧
    ∀ n on, s.dsu.lines[n]? = none →
      exec (.lineWrite .office n on) s = .next ((s.taken .office).answered .office 0x26 .badParam [])

/-! ## Grades, prices, limits, header and clock: the five requests that may be sent to the group -/

/-- GRADE SET, PRICE SET, LIMITS SET and HEADER SET (R48 to R50, R54, R172, R208), addressed and to the group. Widths in the answers that
R213 does not give are the model's (log 20). -/
def Obligations.GradesLimitsAndHeader : Prop :=
  (∀ (s : State) (version : Nat), s.ready .office → version = (if s.grt.version < 65535 then s.grt.version + 1 else 0) →
      (∀ (code : Nat) (name : Text) (price deduction : Nat) (restricted : Bool) (hold : Nat) (enabled : Bool) (g : Grade) (t : State),
        g = ⟨name.take 16, price, min deduction 500, restricted, min hold 30, enabled⟩ →
        t = { s.taken .office with grt := { s.grt with grades := s.grt.grades.set (code - 1) g, version := version } } →
        if 1 ≤ code ∧ code ≤ 64 ∧ name ≠ [] ∧ printableText name = true ∧ price ≤ 99999999 then
          exec (.gradeSet .office code name price deduction restricted hold enabled) s =
              .next (t.answered .office 0x30 .done (g.fields code ++ [.u16 version])) ∧
            exec (.gradeSet .group code name price deduction restricted hold enabled) s = .next t.settle
        else
          exec (.gradeSet .office code name price deduction restricted hold enabled) s =
              .next ((s.taken .office).answered .office 0x30 .badParam []) ∧
            exec (.gradeSet .group code name price deduction restricted hold enabled) s = .next s.groupCounted.settle) ∧
      ∀ (pairs : List (Nat × Nat)) (ok : Bool) (grades : List Grade) (t : State),
        (ok = true ↔ 1 ≤ pairs.length ∧ pairs.length ≤ 16 ∧ (∀ x ∈ pairs, 1 ≤ x.1 ∧ x.1 ≤ 64 ∧ x.2 ≤ 99999999) ∧
          (pairs.map (·.1)).Nodup) →
        grades = (s.grt.grades.zipIdx.map fun g => match pairs.find? (fun x => x.1 - 1 == g.2) with
          | some x => { g.1 with price := x.2 }
          | none => g.1) →
        t = { s.taken .office with grt := { s.grt with grades := grades, version := version } } →
        exec (.priceSet .office pairs) s =
            .next (if ok then t.answered .office 0x32 .done [.u16 version] else (s.taken .office).answered .office 0x32 .badParam []) ∧
          exec (.priceSet .group pairs) s = .next (if ok then t.settle else s.groupCounted.settle)) ∧
  ∀ s : State, s.ready .office →
    (∀ (l l' : Limits) (t : State),
      l' =
        { l with
          claimLapse := max 30 (min l.claimLapse 600), takeTimeout := max 10 (min l.takeTimeout 120),
          tareValidity := max 1 (min l.tareValidity 365) } →
      t = { s.taken .office with grt := { s.grt with limits := l' } } →
      if l.cashLimit ≤ 99999999 ∧ l.unit ∈ [1, 5, 10, 50, 100] ∧ l.approvalLimit ≤ 99999999 ∧ l.fee ≤ 99999 then
        exec (.limitsSet .office l) s =
            .next (t.answered .office 0x33 .done
              [.u32 l'.cashLimit, .u32 l'.unit, .u32 l'.approvalLimit, .u32 l'.fee, .u16 l'.claimLapse, .u16 l'.takeTimeout,
                .u16 l'.tareValidity]) ∧
          exec (.limitsSet .group l) s = .next t.settle
      else
        exec (.limitsSet .office l) s = .next ((s.taken .office).answered .office 0x33 .badParam []) ∧
          exec (.limitsSet .group l) s = .next s.groupCounted.settle) ∧
    ∀ (h1 h2 h3 : Text) (b c : Bool) (t : State),
      t = { s.taken .office with
        rpu :=
          { s.rpu with
            header1 := h1.take 40, header2 := h2.take 40, header3 := h3.take 40, autoBridge := b, autoCounter := c } } →
      if printableText h1 = true ∧ printableText h2 = true ∧ printableText h3 = true then
        exec (.headerSet .office h1 h2 h3 b c) s =
            .next (t.answered .office 0x63 .done
              [.text (h1.take 40), .text (h2.take 40), .text (h3.take 40), flagField b, flagField c]) ∧
          exec (.headerSet .group h1 h2 h3 b c) s = .next t.settle
      else
        exec (.headerSet .office h1 h2 h3 b c) s = .next ((s.taken .office).answered .office 0x63 .badParam []) ∧
          exec (.headerSet .group h1 h2 h3 b c) s = .next s.groupCounted.settle

/-- CLOCK SET and RELEASE HOUR SET (R181, R182, R208): the calendar takes the value and becomes valid, CLOCK is latched to both ports, and
a release check runs against the new date. CLOCK_TICK, CLOCK_STOP and DAILY_RELEASE (R179, R184, R185): a second advances the
calendar; the one that reaches the end of the range latches CLOCK, and the one that opens the release hour runs the release check of
its date; at 2099-12-31 23:59:59 the calendar stays, no flag is latched and no release runs. That a clock set to that second stays there
too is the model's reading (log 32), and so is the count of seconds `elapsed`, which goes on (log 3). That CLOCK_STOP and DAILY_RELEASE
name a second as above, and do nothing at another, is the model's reading (log 33). That the
CLOCK SET answer gives the two calendar values as stamps, with a flags byte, and the count and the release hour in one byte, is the
model's choice (log 20). -/
def Obligations.ClockRequestsAndSeconds : Prop :=
  (∀ s : State, s.ready .office →
      (∀ (year month day hour minute second : Nat) (v : DateTime) (t : State), v = ⟨year, month, day, hour, minute, second⟩ →
        t = (({ s.taken .office with clu := ⟨v, true, s.clu.releaseHour⟩ } : State).latchBoth .clock).releaseCheck ⟨year, month, day⟩ →
        if 2000 ≤ year ∧ year ≤ 2099 ∧ 1 ≤ month ∧ month ≤ 12 ∧ 1 ≤ day ∧ day ≤ monthLength year month ∧ hour ≤ 23 ∧ minute ≤ 59 ∧
            second ≤ 59 then
          exec (.clockSet .office year month day hour minute second) s =
              .next (t.answered .office 0x68 .done
                [.stamp ⟨s.clu.now, s.clu.valid⟩, .stamp ⟨v, true⟩, .u8 (s.dueCount ⟨year, month, day⟩)]) ∧
            exec (.clockSet .group year month day hour minute second) s = .next t.settle
        else
          exec (.clockSet .office year month day hour minute second) s =
              .next ((s.taken .office).answered .office 0x68 .badParam []) ∧
            exec (.clockSet .group year month day hour minute second) s = .next s.groupCounted.settle) ∧
      ∀ hour, exec (.releaseHourSet .office hour) s =
        if hour ≤ 23 then
          .next ({ s.taken .office with clu := { s.clu with releaseHour := hour } }.answered .office 0x6A .done [.u8 hour])
        else .next ((s.taken .office).answered .office 0x6A .badParam [])) ∧
  (∀ s : State, s.powered = true → s.clu.now = ⟨2099, 12, 31, 23, 59, 59⟩ →
    exec .clockTick s = .next ({ s with elapsed := s.elapsed + 1 } : State).settle ∧ exec .clockStop s = .next s ∧
      exec .dailyRelease s = .next s) ∧
  ∀ (s : State) (v : DateTime) (t : State), s.powered = true → s.clu.now ≠ lastSecond → v = s.clu.now.next →
    t = { s with clu := { s.clu with now := v }, elapsed := s.elapsed + 1 } →
    (∀ u, u = (if v = lastSecond then t.latchBoth .clock else t) →
      exec .clockTick s =
        .next (if v.hour = s.clu.releaseHour ∧ v.minute = 0 ∧ v.second = 0 then (u.releaseCheck v.date).settle else u.settle)) ∧
      exec .clockStop s = (if v = lastSecond then exec .clockTick s else .next s) ∧
      exec .dailyRelease s =
        (if v.hour = s.clu.releaseHour ∧ v.minute = 0 ∧ v.second = 0 then exec .clockTick s else .next s) ∧
      (s.clu.now.legal = true → v.number = s.clu.now.number + 1 ∧ v.legal = true)

/-- R184: a release check releases exactly the HELD tickets due by its date, each with its settlement kept and its revision advanced,
and latches HOLD_RELEASE to both ports when it released any. R187: a date some days later is a date of the calendar that lies exactly
so many days on, by the month lengths and leap years of R179, or 2099-12-31 where that would lie beyond it. -/
def Obligations.ReleaseCheckReleasesDue : Prop :=
  ∀ (number : Date → Nat) (length : Nat → Nat → Nat),
    length = (fun y m => if m = 2 then (if y % 4 = 0 then 29 else 28) else if m ∈ [4, 6, 9, 11] then 30 else 31) →
    number = (fun d => 365 * (d.year - 2000) + (d.year - 2000 + 3) / 4 + (d.day - 1)
      + ((List.range (d.month - 1)).map fun m => length d.year (m + 1)).sum) →
    (∀ (d later : Date) (n : Nat), 2000 ≤ d.year → d.year ≤ 2099 → 1 ≤ d.month → d.month ≤ 12 → 1 ≤ d.day →
      d.day ≤ length d.year d.month → later = d.addDays n →
      number later = min (number d + n) (number ⟨2099, 12, 31⟩) ∧ 2000 ≤ later.year ∧ later.year ≤ 2099 ∧ 1 ≤ later.month ∧
        later.month ≤ 12 ∧ 1 ≤ later.day ∧ later.day ≤ length later.year later.month) ∧
    ∀ (s : State) (d : Date) (due : Ticket → Bool),
      due = (fun t => t.st == .held && (t.settlement.bind (·.holdUntil)).any fun h => decide (number h ≤ number d)) →
      s.releaseCheck d =
        (if s.tkt.tickets.any due then
          ({ s with
            tkt :=
              { s.tkt with
                tickets := s.tkt.tickets.map fun t =>
                  if due t then { t with st := .settled, revision := if t.revision < 255 then t.revision + 1 else 0 } else t } } :
              State).latchBoth .holdRelease
        else s)

/-! ## Tares -/

/-- TARE STORE and TARE DELETE (R117, R119, R121): the checks in their order; a stored tare stands at the newest end of the use order with
uses 0, in place of one with its plate, or evicting the least recently used of a full register, and the answer tells the entry, whether
it was new (0) or updated (1), and the plate evicted. The codes 0 and 1, the presence byte of the plate, and the one byte of the count a
TARE DELETE answers are the model's (log 20, 22). -/
def Obligations.TaresStoredAndDeleted : Prop :=
  ∀ s : State, s.ready .office →
    (∀ (plate q : Text) (n : Nat) (b : Bridge) (tare : Int) (set : ChannelSettings) (now : Stamp) (e : TareEntry)
        (rest : List TareEntry) (gone : Option Text),
      normalisePlate plate = some q → Bridge.ofNat? n = some b → set = (s.chan b.channel).set → now = ⟨s.clu.now, s.clu.valid⟩ →
      e = ⟨q, tare, b, set.d, now, now, 0⟩ →
      rest =
        (if (s.vtr.map (·.plate)).contains q then s.vtr.filter fun x => decide (x.plate ≠ q)
        else if 32 ≤ s.vtr.length then s.vtr.tail else s.vtr) →
      gone = (if (s.vtr.map (·.plate)).contains q ∨ s.vtr.length < 32 then none else s.vtr.head?.map (·.plate)) →
      exec (.tareStore .office plate n tare) s =
        if set.calibrated = false then .next ((s.taken .office).answered .office 0x38 .wrongState [])
        else if tare % set.d ≠ 0 ∨ tare < set.d ∨ (set.K + 9 * set.d : Nat) < tare then
          .next ((s.taken .office).answered .office 0x38 .badParam [])
        else
          .next (({ s.taken .office with vtr := rest ++ [e] } : State).answered .office 0x38 .done
            (e.fields ++ [.u8 (if (s.vtr.map (·.plate)).contains q then 1 else 0)] ++ optText gone))) ∧
    (∀ (plate : Text) (n : Nat) (tare : Int), (normalisePlate plate = none ∨ Bridge.ofNat? n = none) →
      exec (.tareStore .office plate n tare) s = .next ((s.taken .office).answered .office 0x38 .badParam [])) ∧
    exec (.tareDelete .office none) s =
      .next (({ s.taken .office with vtr := [] } : State).answered .office 0x3A .done [.u8 s.vtr.length]) ∧
    (∀ plate, normalisePlate plate = none →
      exec (.tareDelete .office (some plate)) s = .next ((s.taken .office).answered .office 0x3A .badParam [])) ∧
    ∀ plate q, normalisePlate plate = some q →
      exec (.tareDelete .office (some plate)) s =
        if (s.vtr.map (·.plate)).contains q then
          .next (({ s.taken .office with vtr := s.vtr.filter fun x => decide (x.plate ≠ q) } : State).answered .office 0x3A .done
            [.u8 1])
        else .next ((s.taken .office).answered .office 0x3A .noTare [])

/-! ## Tickets -/

/-- R61, R62 and R66: one event alters the record that holds the number and no other, advances its revision by one, 255 to 0, exactly
when a field changes, and puts a record it leaves spent at the end of the order of spending. -/
def Obligations.RevisionCountsChanges : Prop :=
  ∀ (s : State) (n : Nat) (f : Ticket → Ticket) (t t' : Ticket), s.tkt.placed → s.ticket? n = some t → (f t).number = n →
    t' = (if f t = t then t else { f t with revision := if t.revision < 255 then t.revision + 1 else 0 }) →
    (s.changeTicket n f).ticket? n = some t' ∧ (∀ m, m ≠ n → (s.changeTicket n f).ticket? m = s.ticket? m) ∧
      (s.changeTicket n f).tkt.tickets.length = s.tkt.tickets.length ∧
      (s.changeTicket n f).tkt.spent =
        (if t'.isSpent = true ∧ t.isSpent = false then s.tkt.spent ++ [n] else s.tkt.spent) ∧
      s.changeTicket n f = { s with tkt := (s.changeTicket n f).tkt } ∧
      (s.changeTicket n f).tkt.counter = s.tkt.counter ∧ (s.changeTicket n f).tkt.opening = s.tkt.opening ∧
      (s.changeTicket n f).tkt.series = s.tkt.series

/-- TICKET OPEN (R63 to R65): a text field that holds an unprintable character does not fit the kind and is refused BAD_PARAM first
(R206 check 3); then the port's rights, the checks of customer reference and plate, TABLE_FULL, the place taken (the first free
one in place order, else that of the record spent longest, whose content is discarded), the number (the first from the counter on that
no record holds), and the new record. The one-byte series of the answer (log 20) and the form of an absent plate, a presence byte 0 and
an empty text (log 22), are the model's. -/
def Obligations.TicketOpenMakesRecord : Prop :=
  ∀ (s : State) (p : Port) (kind : TicketKind) (customer plate plate' : Option Text), s.ready p →
    plate' = plate.bind normalisePlate →
    ((printableOption customer && printableOption plate) = false →
      exec (.ticketOpen (Port.sender p) kind customer plate) s = .next ((s.taken p).answered p 0x40 .badParam [])) ∧
    (printableOption customer = true → printableOption plate = true →
      (p = .window → kind = .bridge →
        exec (.ticketOpen (Port.sender p) kind customer plate) s = .next ((s.taken p).answered p 0x40 .wrongPort [])) ∧
      ((p = .office ∨ kind = .counter) → (customer.any (fun c => !customerOk c) ∨ (plate.isSome ∧ plate'.isNone)) →
        exec (.ticketOpen (Port.sender p) kind customer plate) s = .next ((s.taken p).answered p 0x40 .badParam [])) ∧
      ((p = .office ∨ kind = .counter) → customer.any (fun c => !customerOk c) = false → plate.isSome = plate'.isSome →
        ∀ chosen : Option (Nat × Tkt),
          chosen = (match ((List.range 48).map (· + 1)).find? (fun k => decide (∀ t ∈ s.tkt.tickets, t.place ≠ k)) with
            | some k => some (k, s.tkt)
            | none =>
              (s.tkt.spent.find? fun n => (s.ticket? n).any fun t =>
                decide ((t.st = .closed ∨ t.st = .void) ∧ t.owed.slip = 0 ∧ t.owed.copies = 0 ∧ t.owed.notice = 0)).bind fun n =>
                  (s.ticket? n).map fun gone =>
                    (gone.place,
                      { s.tkt with
                        tickets := s.tkt.tickets.filter fun x => decide (x.number ≠ n)
                        spent := s.tkt.spent.filter fun m => decide (m ≠ n) })) →
        (chosen = none →
          exec (.ticketOpen (Port.sender p) kind customer plate) s = .next ((s.taken p).answered p 0x40 .tableFull [])) ∧
        ∀ place table number, chosen = some (place, table) → 1 ≤ table.counter → table.counter ≤ 999999 →
          ((List.range 49).map fun i => (table.counter - 1 + i) % 999999 + 1).find?
            (fun n => decide (∀ t ∈ table.tickets, t.number ≠ n)) = some number →
          exec (.ticketOpen (Port.sender p) kind customer plate) s =
            .next (({ s.taken p with
              tkt :=
                { table with
                  tickets :=
                    table.tickets ++
                      [ { place := place, number := number, series := table.series, opening := table.opening, kind := kind,
                          st := .opened, openedAt := ⟨s.clu.now, s.clu.valid⟩, closedAt := none, customer := customer,
                          plate := plate', weighings := [], lines := [], approved := false, needsApproval := false, claim := none,
                          lapse := none, settlement := none, payout := none, owed := ⟨0, 0, 0, none⟩, reprints := 0,
                          receiptCancelled := false, revision := 0 } ]
                  counter := if number < 999999 then number + 1 else 1
                  opening := if table.opening < 4294967295 then table.opening + 1 else 0 } } : State).answered p 0x40 .done
              ([.u24 number, .u8 table.series] ++ optText plate'))))

/-- R67 and R69, with the line of R68: the result of a weighing handed over, the first that applies, and the line or weighing an APPLIED one
gives its ticket in one change; every other result leaves the table as it was. -/
def Obligations.HandOverDecidesResult : Prop :=
  ∀ (s : State) (r : TicketRef) (w : Weighing) (grade : Option Nat) (tare : Int),
    s.handOver none w grade tare = (s, .notBound) ∧ (s.ticket? r.number = none → s.handOver (some r) w grade tare = (s, .ticketGone)) ∧
    ∀ t : Ticket, s.ticket? r.number = some t → s.handOver (some r) w grade tare =
      if t.opening ≠ r.opening ∨ t.st = .void then (s, .ticketGone)
      else if t.st ≠ .opened ∧ t.st ≠ .weighing then (s, .ticketState)
      else match t.kind with
        | .bridge =>
          if 9 ≤ t.weighings.length then (s, .listFull)
          else match t.weighings.getLast? with
            | some last =>
              if last.weight - w.weight < w.division then (s, .noDrop)
              else
                (s.changeTicket r.number fun t =>
                  { t with
                    st := .weighing, weighings := t.weighings ++ [w]
                    lines :=
                      t.lines ++
                        [ { grade := grade, gross := last.weight, tare := w.weight, source := .weighed,
                            net := last.weight - w.weight, division := max last.division w.division, mode := .grade,
                            coarse := last.coarse || w.coarse, capture := none, figures := none } ] }, .applied)
            | none => (s.changeTicket r.number fun t => { t with st := .weighing, weighings := t.weighings ++ [w] }, .applied)
        | .counter =>
          if 8 ≤ t.lines.length then (s, .listFull)
          else if w.weight ≤ tare then (s, .noDrop)
          else
            (s.changeTicket r.number fun t =>
              { t with
                st := .weighing
                lines :=
                  t.lines ++
                    [ { grade := grade, gross := w.weight, tare := tare, source := .container, net := w.weight - tare,
                        division := w.division, mode := .grade, coarse := w.coarse,
                        capture := some ⟨w.channel, w.calCounter, w.serial, w.time⟩, figures := none } ] }, .applied)

/-- LINE GRADE, LINE DEDUCT, LINE STRIKE and WEIGHING STRIKE (R70 to R73): the checks in their order and the change each makes. The
widths of the answers and the presence byte of a line's settled figures are the model's (log 20, 22), and so are BAD_PARAM for a line
place of 0 (log 28) and the place of the revision behind the line in the LINE DEDUCT answer (log 53). -/
def Obligations.LineAndWeighingRequests : Prop :=
  ∀ (s : State) (p : Port) (n place : Nat) (t : Ticket), s.ready p → s.ticket? n = some t →
    (∀ code, match firstFailing
        [ (decide (p = .window ∧ t.kind = .bridge), .wrongPort), (decide (t.st ≠ .weighing ∧ t.st ≠ .complete), .wrongState),
          ((t.lineAt? place).isNone || decide (code < 1 ∨ 64 < code), .badParam) ] with
      | some c => exec (.lineGrade (Port.sender p) n place code) s = .next ((s.taken p).answered p 0x43 c [])
      | none => ∀ l after, t.lineAt? place = some l →
        after = (s.taken p).changeTicket n (fun x => { x with lines := x.lines.set (place - 1) { l with grade := some code } }) →
        exec (.lineGrade (Port.sender p) n place code) s = .next (after.answered p 0x43 .done [.u8 (after.revision n)])) ∧
    (∀ mode, match firstFailing
        [ (decide (p = .window ∧ t.kind = .bridge), .wrongPort), (decide (t.st ≠ .weighing ∧ t.st ≠ .complete), .wrongState),
          ((t.lineAt? place).any (fun l => match mode with
            | .weight w => decide (w < 0 ∨ l.net < w ∨ w % l.division ≠ 0)
            | _ => false) || (t.lineAt? place).isNone, .badParam) ] with
      | some c => exec (.lineDeduct (Port.sender p) n place mode) s = .next ((s.taken p).answered p 0x44 c [])
      | none => ∀ (l l' : TicketLine) (after : State), t.lineAt? place = some l →
        l' = { l with mode := (match mode with
          | .percent x => .percent (min x 500)
          | other => other) } →
        after = (s.taken p).changeTicket n (fun x => { x with lines := x.lines.set (place - 1) l' }) →
        exec (.lineDeduct (Port.sender p) n place mode) s =
          .next (after.answered p 0x44 .done
            (l'.fields ++
              (match l'.figures with
                | some f => .u8 1 :: f.fields
                | none => [.u8 0]) ++ [.u8 (after.revision n)]))) ∧
    (match firstFailing
        [ (decide (p = .window ∧ t.kind = .bridge), .wrongPort), (decide (t.kind = .bridge), .badParam),
          (decide (t.st ≠ .weighing), .wrongState), ((t.lineAt? place).isNone, .badParam) ] with
      | some c => exec (.lineStrike (Port.sender p) n place) s = .next ((s.taken p).answered p 0x45 c [])
      | none => ∀ after, after = (s.taken p).changeTicket n (fun x => { x with lines := x.lines.eraseIdx (place - 1) }) →
        exec (.lineStrike (Port.sender p) n place) s =
          .next (after.answered p 0x45 .done [.u8 (t.lines.length - 1), .u8 (after.revision n)])) ∧
    (p = .office → match firstFailing
        [(decide (t.kind = .counter), .badParam), (decide (t.st ≠ .weighing), .wrongState), (t.weighings.isEmpty, .badParam)] with
      | some c => exec (.weighingStrike .office n) s = .next ((s.taken .office).answered .office 0x46 c [])
      | none => ∀ after, after = (s.taken .office).changeTicket n (fun x =>
          { x with
            weighings := x.weighings.dropLast, lines := if 2 ≤ x.weighings.length then x.lines.dropLast else x.lines }) →
        exec (.weighingStrike .office n) s =
          .next (after.answered .office 0x46 .done [.u8 (t.weighings.length - 1), .u8 (after.revision n)]))

/-- TICKET FINISH (R74, R75, R118 to R120): a text field that holds an unprintable character does not fit the kind and is refused
BAD_PARAM before any check of R74, whether the table holds the ticket or not (R206 check 3); else the first check of R74 that fails
decides. A stored tare is usable (R116) when the clock and its stamp are valid and its age, the calendar days from its stored date to the
present one and 0 where that lies before, is not above the tare validity. A taken finish completes the ticket, with a stored tare forms
the final line and records the use, and with STORE_TARE hands the last weighing to the register, which leaves a stale one out, updates
the entry of its plate, or makes a new one, evicting the least recently used of 32. The answer tells the number of lines, the revision,
the register's result and the plate evicted. That the last two stand behind the first two, the codes 1 NOT_STORED, 2 UPDATED, 3 STORED
and 0 without STORE_TARE, and the presence byte of the plate, are the model's (log 20, 22, 53). -/
def Obligations.TicketFinishCompletes : Prop :=
  (∀ (s : State) (p : Port) (n : Nat) (useTareOpt storeOpt : Bool) (customer plate : Option Text), s.ready p →
    (printableOption customer && printableOption plate) = false →
      exec (.ticketFinish (Port.sender p) n useTareOpt storeOpt customer plate) s =
        .next ((s.taken p).answered p 0x47 .badParam [])) ∧
  ∀ (s : State) (p : Port) (n : Nat) (useTareOpt storeOpt : Bool) (customer plate plate' held : Option Text) (t : Ticket)
      (entry : Option TareEntry) (last : Option Weighing) (number : Date → Nat) (usable : TareEntry → Bool), s.ready p →
    s.ticket? n = some t → number = (fun d => 365 * (d.year - 2000) + (d.year - 2000 + 3) / 4 + (d.day - 1)
        + ((List.range (d.month - 1)).map fun m =>
            if m + 1 = 2 then (if d.year % 4 = 0 then 29 else 28) else if m + 1 ∈ [4, 6, 9, 11] then 30 else 31).sum) →
    usable =
      (fun e => s.clu.valid && e.storedAt.valid
        && decide (number s.clu.now.date - number e.storedAt.time.date ≤ s.grt.limits.tareValidity)) →
    printableOption customer = true → printableOption plate = true → plate' = plate.bind normalisePlate →
    held = plate'.or t.plate → entry = held.bind (fun q => (s.vtr.find? fun e => decide (e.plate = q)).filter usable) →
    last = t.weighings.getLast? →
    match firstFailing
      [ (decide (p = .window ∧ t.kind = .bridge), .wrongPort), (decide (t.st ≠ .weighing), .wrongState),
        ((decide (t.kind = .counter) && (useTareOpt || storeOpt)) || (useTareOpt && storeOpt)
          || customer.any (fun c => !customerOk c) || (plate.isSome && plate'.isNone), .badParam),
        ((match t.kind with
          | .bridge => if useTareOpt then t.weighings.isEmpty else decide (t.weighings.length < 2)
          | .counter => t.lines.isEmpty), .wrongState),
        (storeOpt && held.isNone, .badParam), (useTareOpt && entry.isNone, .noTare),
        (useTareOpt && decide (8 ≤ t.lines.length), .listFull),
        (useTareOpt && (entry.any fun e => last.any fun w => decide (w.weight - e.tare < (e.division : Int))), .noDrop) ] with
    | some c =>
      exec (.ticketFinish (Port.sender p) n useTareOpt storeOpt customer plate) s = .next ((s.taken p).answered p 0x47 c [])
    | none =>
      ∀ (final : List TicketLine) (register : List TareEntry × Nat × Option Text) (now : Stamp) (after : State),
        now = ⟨s.clu.now, s.clu.valid⟩ →
        final =
          (match useTareOpt, entry, last with
            | true, some e, some w =>
              [ { grade := none, gross := w.weight, tare := e.tare, source := .stored, net := w.weight - e.tare,
                  division := max w.division e.division, mode := .grade, coarse := w.coarse, capture := none, figures := none } ]
            | _, _, _ => []) →
        register =
          (match useTareOpt, storeOpt, entry, held, last with
            | true, _, some e, _, _ =>
              ((s.vtr.filter fun x => decide (x.plate ≠ e.plate)) ++ [{ e with lastUsedAt := now, uses := min (e.uses + 1) 65535 }], 0,
                none)
            | false, true, _, some q, some w =>
              if w.division ≠ (s.chan w.channel).set.d ∨ w.calCounter ≠ (s.chan w.channel).set.calCounter then (s.vtr, 1, none)
              else if (s.vtr.map (·.plate)).contains q then
                ((s.vtr.filter fun x => decide (x.plate ≠ q)) ++ [⟨q, w.weight, w.bridge, w.division, now, now, 0⟩], 2, none)
              else if s.vtr.length < 32 then (s.vtr ++ [⟨q, w.weight, w.bridge, w.division, now, now, 0⟩], 3, none)
              else
                (s.vtr.tail ++ [⟨q, w.weight, w.bridge, w.division, now, now, 0⟩], 3, s.vtr.head?.map (·.plate))
            | _, _, _, _, _ => (s.vtr, 0, none)) →
        after = { (s.taken p).changeTicket n (fun x =>
          { x with
            st := .complete, customer := customer.or x.customer, plate := plate'.or x.plate, lines := x.lines ++ final }) with
          vtr := register.1 } →
        exec (.ticketFinish (Port.sender p) n useTareOpt storeOpt customer plate) s =
          .next (after.answered p 0x47 .done
            ([.u8 (t.lines.length + final.length), .u8 (after.revision n), .u8 register.2.1] ++ optText register.2.2))

/-- TICKET REOPEN, APPROVE, VOID and RESOLVE (R76, R77, R80, R86, R89, R162). The codes 1 and 2 of the ticket states WEIGHING and
COMPLETE in the answers and their one-byte state and revision are the model's (log 20). -/
def Obligations.ReopenApproveVoidResolve : Prop :=
  (∀ (s : State) (n : Nat) (t : Ticket) (now : Stamp), s.ready .office → s.ticket? n = some t → now = ⟨s.clu.now, s.clu.valid⟩ →
    (t.st = .complete → ∀ after, after = (s.taken .office).changeTicket n (fun x =>
        { x with
          st := .weighing, approved := false
          lines :=
            if x.lines.getLast?.any (fun l => decide (l.source = .stored)) then x.lines.dropLast else x.lines }) →
      exec (.ticketReopen .office n) s = .next (after.answered .office 0x48 .done [.u8 1, .u8 (after.revision n)])) ∧
    ((t.st = .settled ∨ t.st = .held) → ∀ after,
      after = ((s.taken .office).changeTicket n (fun x =>
        { x with
          st := .complete, settlement := none, needsApproval := false, approved := false, payout := none
          lines := x.lines.map fun l => { l with figures := none }
          owed :=
            ⟨0, x.owed.copies, x.owed.notice,
              if x.owed.copies + x.owed.notice = 0 then none else if x.owed.total = 0 then some now else x.owed.since⟩ })).withdrawSlips
          ⟨t.number, t.opening⟩ →
      exec (.ticketReopen .office n) s = .next (after.answered .office 0x48 .done [.u8 2, .u8 (after.revision n)])) ∧
    (t.st ≠ .complete → t.st ≠ .settled → t.st ≠ .held →
      exec (.ticketReopen .office n) s = .next ((s.taken .office).answered .office 0x48 .wrongState [])) ∧
    (∀ after, after = (s.taken .office).changeTicket n (fun x => { x with approved := true }) →
      exec (.ticketApprove .office n) s =
        if t.st = .settled ∨ t.st = .held then .next (after.answered .office 0x4A .done [.u8 (after.revision n)])
        else .next ((s.taken .office).answered .office 0x4A .wrongState [])) ∧
    ∀ h after, after = ((s.taken .office).changeTicket n (fun x =>
        { x with
          st := .paid, claim := none, lapse := none, owed := x.owed.become x.owed.slip 2 x.owed.notice now
          payout := x.payout.map fun r => { r with paid := h, shortfall := x.cash - h } })).pump →
      exec (.ticketResolve .office n h) s =
        if t.st ≠ .disputed then .next ((s.taken .office).answered .office 0x4E .wrongState [])
        else if t.presented < h then .next ((s.taken .office).answered .office 0x4E .badParam [])
        else .next (after.answered .office 0x4E .done [.u32 h, .u32 (t.cash - h), .u8 (after.revision n)])) ∧
  ∀ (s : State) (p : Port) (n : Nat) (t : Ticket) (now : Stamp) (after : State), s.ready p → s.ticket? n = some t →
    now = ⟨s.clu.now, s.clu.valid⟩ →
    after = ((s.taken p).changeTicket n (fun x =>
      { x with
        st := .void, closedAt := some now
        owed :=
          x.owed.become 0 x.owed.copies (if x.weighings.isEmpty && x.lines.isEmpty then x.owed.notice else 1)
            now })).withdrawSlips ⟨t.number, t.opening⟩ →
    exec (.ticketVoid (Port.sender p) n) s =
      if p = .window ∧ t.kind = .bridge then .next ((s.taken p).answered p 0x4D .wrongPort [])
      else if t.st = .opened ∨ t.st = .weighing ∨ (p = .office ∧ (t.st = .complete ∨ t.st = .settled ∨ t.st = .held)) then
        .next (after.answered p 0x4D .done [.u8 (after.revision n)])
      else .next ((s.taken p).answered p 0x4D .wrongState [])

/-- TICKET CLAIM, TICKET RELEASE and CLAIM_LAPSE (R81 to R83). Widths in the answers that R213 does not give are the model's (log
20). -/
def Obligations.ClaimsGrantedAndEnded : Prop :=
  (∀ (s : State) (p : Port) (n : Nat) (t : Ticket), s.ready p → s.ticket? n = some t →
    (match firstFailing
        [ (decide ((t.st = .claimed ∨ t.st = .paying) ∧ t.claim.map (·.port) = some p.other), .claimedElsewhere),
          (s.tkt.tickets.any (fun x => decide (x.claim.map (·.port) = some p)), .claimHeld), (decide (t.st = .held), .held),
          (decide (t.st ≠ .settled), .wrongState),
          (decide (p = .window) && t.needsApproval && !t.approved, .needsApproval) ] with
      | some c => exec (.ticketClaim (Port.sender p) n) s = .next ((s.taken p).answered p 0x4B c [])
      | none => ∀ after, after = (s.taken p).changeTicket n (fun x =>
          { x with
            st := .claimed, claim := some ⟨p, ⟨s.clu.now, s.clu.valid⟩⟩
            lapse := some ⟨s.grt.limits.claimLapse * 1000, s.elapsed⟩ }) →
        exec (.ticketClaim (Port.sender p) n) s =
          .next (after.answered p 0x4B .done [.u32 t.cash, .u32 t.remainder, .u8 (after.revision n)])) ∧
    (∀ after, after = (s.taken p).changeTicket n (fun x => { x with st := .settled, claim := none, lapse := none }) →
      exec (.ticketRelease (Port.sender p) n) s =
        if ¬((t.st = .claimed ∨ t.st = .paying) ∧ t.claim.map (·.port) = some p) then
          .next ((s.taken p).answered p 0x4C .notClaimed [])
        else if t.st = .paying then .next ((s.taken p).answered p 0x4C .wrongState [])
        else .next (after.answered p 0x4C .done [.u8 (after.revision n)]))) ∧
  ∀ (s : State) (n : Nat) (t : Ticket) (c : Claim) (timer : Timer), s.powered = true → s.ticket? n = some t → t.st = .claimed →
    t.claim = some c → t.lapse = some timer →
    exec (.claimLapse n) s =
      .next ((s.changeTicket n (fun x => { x with st := .settled, claim := none, lapse := none })).latch c.port .claimLapsed).settle

/-! ## Settlement -/

/-- The figures of a line under its grade, as R99, R100 and R102 compute them: the percentage in force, the deduction of d_line times
the rounded quotient or the weight the line carries, the price, and the amount rounded half up to a whole cent. R101: the paid weight is the
net less the deduction, never negative and never above the net, by way of the quotient of R99, and a settled line holds it. -/
def Obligations.PaidWeightWithinNet : Prop :=
  ∀ (s : State) (l : TicketLine) (g : Grade), 1 ≤ l.division → 1 ≤ l.net → s.lineGrade? l = some g → g.deduction ≤ 500 →
    (match l.mode with
      | .percent p => decide (p ≤ 500)
      | .weight w => decide (0 ≤ w ∧ w ≤ l.net)
      | .grade => true) = true →
    (∀ p : Nat, p ≤ 500 →
      2 * (l.net * p) ≤ l.net * 1000 ∧ (l.net < l.division → roundHalfUp (l.net * p) (1000 * l.division) = 0) ∧
      (l.net = l.division → roundHalfUp (l.net * p) (1000 * l.division) ≤ 1) ∧
      l.division * roundHalfUp (l.net * p) (1000 * l.division) ≤ l.net) ∧
    (∀ ded paid : Int,
      ded = (match l.mode with
        | .grade => l.division * roundHalfUp (l.net * g.deduction) (1000 * l.division)
        | .percent p => l.division * roundHalfUp (l.net * p) (1000 * l.division)
        | .weight w => w) →
      paid = l.net - ded →
      l.figuresUnder g =
        { figure := (match l.mode with
            | .grade => some g.deduction
            | .percent p => some p
            | .weight _ => none)
          deduction := ded, paid := paid, price := g.price, amount := ((paid * g.price + 500) / 1000).toNat
          restricted := g.restricted }) ∧
    0 ≤ (l.figuresUnder g).paid ∧ (l.figuresUnder g).paid ≤ l.net ∧
    (s.settleLine l).figures.map (·.paid) = some (l.figuresUnder g).paid

/-- R105 to R107: the cash split of a payable, the range of its rounding difference, and the balance of its figures. -/
def Obligations.CashSplitBalances : Prop :=
  ∀ (l : Limits) (payable usable : Nat), l.unit ∈ [1, 5, 10, 50, 100] → usable = l.cashLimit / l.unit * l.unit →
    (payable ≤ usable →
      (cashSplit l payable).1 % l.unit = 0 ∧ (cashSplit l payable).1 ≤ usable ∧ (cashSplit l payable).2.1 = 0 ∧
        (cashSplit l payable).2.2 = (cashSplit l payable).1 - (payable : Int) ∧
        -(((l.unit - 1) / 2 : Nat) : Int) ≤ (cashSplit l payable).2.2 ∧ (cashSplit l payable).2.2 ≤ (l.unit / 2 : Nat)) ∧
    (usable < payable → cashSplit l payable = (usable, payable - usable, 0)) ∧
    ((cashSplit l payable).1 : Int) + (cashSplit l payable).2.1 = payable + (cashSplit l payable).2.2

/-- TICKET SETTLE (R78, R95, R96, R99 to R109): refused outside COMPLETE and by the first check of R96 whose condition holds, with the
place it answers; a taken one writes every line's figures, the settlement block, the needs-approval flag and the slip owed, in one
change. R111 to R113, the second part: what TICKET READ shows of a record not settled, computed under the table, limits and clock as they
stand (ReadsChangeNothing says in which records and parts): the provisional figures of a line, with a disabled grade flagged and counted,
no amount above the limit, and what an ungraded line has by its mode; and the totals over the lines that have an amount, the largest hold
days among the restricted lines, the first code of R96 as the settle check, and the flags incomplete and over limit. The codes 4 and 3 of
the states HELD and SETTLED in the answer, and the widths there that R213 does not give, are the model's (log 20), and so is the figure
shown for an ungraded PERCENT line (log 54). -/
def Obligations.TicketSettleWritesFigures : Prop :=
  (∀ (s : State) (p : Port) (n : Nat) (t : Ticket), s.ready p → s.ticket? n = some t →
    (t.st ≠ .complete → exec (.ticketSettle (Port.sender p) n) s = .next ((s.taken p).answered p 0x49 .wrongState [])) ∧
    ∀ (grade : TicketLine → Option Grade) (ded : TicketLine → Grade → Int) (amount : TicketLine → Grade → Nat)
        (first : (TicketLine → Bool) → Option Nat) (total : Nat) (verdict : Option (Status × Nat)), t.st = .complete →
      grade = (fun l => l.grade.bind fun code => if code = 0 then none else s.grt.grades[code - 1]?) →
      ded = (fun l g => match l.mode with
        | .grade => l.division * roundHalfUp (l.net * g.deduction) (1000 * l.division)
        | .percent x => l.division * roundHalfUp (l.net * x) (1000 * l.division)
        | .weight w => w) →
      amount = (fun l g => (((l.net - ded l g) * g.price + 500) / 1000).toNat) →
      first = (fun test => (t.lines.findIdx? test).map (· + 1)) →
      total = (t.lines.map fun l => match grade l with
        | some g => amount l g
        | none => 0).sum →
      verdict =
        ([ (Status.lineUngraded, first fun l => (grade l).isNone), (.gradeDisabled, first fun l => (grade l).any fun g => !g.enabled),
            (.noCustomer, if t.customer.isNone then first fun l => (grade l).any (·.restricted) else none),
            (.clockInvalid, if s.clu.valid then none else first fun l => (grade l).any (·.restricted)),
            (.amountLimit, first fun l => (grade l).any fun g => decide (99999999 < amount l g)),
            (.amountLimit, if 99999999 < total then some 0 else none) ].findSome? fun x => x.2.map fun place => (x.1, place)) →
      (∀ code place, verdict = some (code, place) →
        exec (.ticketSettle (Port.sender p) n) s = .next ((s.taken p).answered p 0x49 code [.u8 place])) ∧
      ∀ (fee payable usable cash remainder days : Nat) (rounding : Int) (hold : Option Date) (needs : Bool) (after : State),
        verdict = none → fee = (if t.kind = .bridge then s.grt.limits.fee else 0) → payable = total - fee →
        usable = s.grt.limits.cashLimit / s.grt.limits.unit * s.grt.limits.unit →
        cash = (if payable ≤ usable then nearestMultiple payable s.grt.limits.unit else usable) →
        remainder = (if payable ≤ usable then 0 else payable - usable) →
        rounding = (if payable ≤ usable then (cash : Int) - payable else 0) →
        days = (t.lines.map fun l => match grade l with
          | some g => if g.restricted then g.holdDays else 0
          | none => 0).foldl max 0 →
        hold = (if days = 0 then none else some (s.clu.now.date.addDays days)) →
        needs = (decide (s.grt.limits.approvalLimit < payable) || t.lines.any (·.coarse)) →
        after = ((s.taken p).changeTicket n (fun x =>
          { x with
            st := if hold.isSome then .held else .settled
            lines := x.lines.map fun l => match grade l with
              | some g =>
                { l with
                  figures :=
                    some
                      { figure := (match l.mode with
                          | .grade => some g.deduction
                          | .percent x => some x
                          | .weight _ => none)
                        deduction := ded l g, paid := l.net - ded l g, price := g.price, amount := amount l g
                        restricted := g.restricted } }
              | none => l
            settlement :=
              some
                { version := s.grt.version, fee := fee, payable := payable, cash := cash, remainder := remainder, rounding := rounding,
                  unit := s.grt.limits.unit, cashLimit := s.grt.limits.cashLimit, holdUntil := hold }
            needsApproval := needs
            owed := if s.autoSlip t.kind then x.owed.become 1 x.owed.copies x.owed.notice ⟨s.clu.now, s.clu.valid⟩ else x.owed })).pump →
        exec (.ticketSettle (Port.sender p) n) s =
          .next (after.answered p 0x49 .done
            [.u8 (if hold.isSome then 4 else 3), .u32 payable, .u32 cash, flagField needs, .u8 (after.revision n)])) ∧
  ∀ (s : State) (t : Ticket) (grade : TicketLine → Option Grade) (percentOf : TicketLine → Nat → Int) (ded : TicketLine → Grade → Int)
      (amount : TicketLine → Grade → Nat) (excess : TicketLine → Bool)
      (within fee payable usable : Nat),
    grade = (fun l => l.grade.bind fun code => if code = 0 then none else s.grt.grades[code - 1]?) →
    percentOf = (fun (l : TicketLine) (x : Nat) => l.division * roundHalfUp (l.net * x) (1000 * l.division)) →
    ded = (fun l g => match l.mode with
      | .grade => percentOf l g.deduction
      | .percent x => percentOf l x
      | .weight w => w) →
    amount = (fun l g => (((l.net - ded l g) * g.price + 500) / 1000).toNat) →
    excess = (fun l => (grade l).any fun g => decide (99999999 < amount l g)) →
    within = (t.lines.map fun l => match grade l with
      | some g => if excess l then 0 else amount l g
      | none => 0).sum →
    fee = (if t.kind = .bridge then s.grt.limits.fee else 0) → payable = within - fee →
    usable = s.grt.limits.cashLimit / s.grt.limits.unit * s.grt.limits.unit →
    (∀ l g, grade l = some g →
      s.provisionalLine l =
        { figure := (match l.mode with
            | .grade => some g.deduction
            | .percent x => some x
            | .weight _ => none)
          deduction := some (ded l g), paid := some (l.net - ded l g), price := some g.price
          amount := if 99999999 < amount l g then none else some (amount l g)
          restricted := some g.restricted, disabled := !g.enabled, overLimit := decide (99999999 < amount l g) }) ∧
    (∀ l, grade l = none →
      s.provisionalLine l =
        (match l.mode with
          | .grade => ⟨none, none, none, none, none, none, false, false⟩
          | .percent x => ⟨some x, some (percentOf l x), some (l.net - percentOf l x), none, none, none, false, false⟩
          | .weight w => ⟨none, some w, some (l.net - w), none, none, none, false, false⟩)) ∧
    s.provisionalTotals t =
      { sum := within, fee := fee
        figures :=
          if 99999999 < within then none
          else if payable ≤ usable then
            some (payable, nearestMultiple payable s.grt.limits.unit, 0,
              (nearestMultiple payable s.grt.limits.unit : Int) - payable)
          else some (payable, usable, payable - usable, 0)
        needsApproval := decide (s.grt.limits.approvalLimit < payable) || t.lines.any (·.coarse)
        holdDays :=
          (t.lines.map fun l => match grade l with
            | some g => if g.restricted then g.holdDays else 0
            | none => 0).foldl max 0
        check :=
          ([ (Status.lineUngraded, t.lines.any fun l => (grade l).isNone),
              (.gradeDisabled, t.lines.any fun l => (grade l).any fun g => !g.enabled),
              (.noCustomer, t.customer.isNone && t.lines.any fun l => (grade l).any (·.restricted)),
              (.clockInvalid, !s.clu.valid && t.lines.any fun l => (grade l).any (·.restricted)),
              (.amountLimit, t.lines.any excess), (.amountLimit, decide (99999999 < within)) ].find? (·.2)).map (·.1)
        incomplete := t.lines.any fun l => (grade l).isNone || excess l
        overLimit := decide (99999999 < within) }

/-! ## Cash -/

/-- STORE LOAD, STORE ENABLE, PAYOUT CANCEL, RETRACT BIN EMPTY and DISPENSER CLEAR (R126, R127, R145, R146, R150). The model's choices:
a store number that names no store fails check 3 for STORE ENABLE (log 28); the kind codes 0 NOTE and 1 COIN of STORE LOAD, and the
one-byte store state and count of records and the other widths of the answers that R213 does not give (log 20). -/
def Obligations.CashStoreAndPayoutRequests : Prop :=
  (∀ s : State, s.ready .office →
      (∀ (i : Nat) (load : Option StoreContents) (ok : Bool) (x : Store),
        ok = (decide (i ≤ 5) && (match load with
          | none => true
          | some c => decide (c.kind ≤ 1 ∧ 1 ≤ c.denomination ∧ c.denomination ≤ 99999999 ∧ 1 ≤ c.capacity ∧ c.capacity ≤ 3000))) →
        x = (match load with
          | none => ⟨none, none, 0, 0, 0, .absent, 0, 0, 0, 0, 0⟩
          | some c =>
            ⟨some (if c.kind = 0 then .note else .coin), some c.denomination, min c.count c.capacity, c.capacity,
              min c.lowThreshold c.capacity, if 0 < min c.count c.capacity then .enabled else .empty, min c.count c.capacity,
              0, 0, 0, 0⟩) →
        exec (.storeLoad .office i load) s =
          if s.pyu.disp ≠ .idle ∧ s.pyu.disp ≠ .doorOpen then .next ((s.taken .office).answered .office 0x50 .unitBusy [])
          else if ok then
            .next (({ s.taken .office with pyu := { s.pyu with stores := s.pyu.stores.set i x } } : State).answered .office 0x50 .done
              x.fields)
          else .next ((s.taken .office).answered .office 0x50 .badParam [])) ∧
      (∀ (i : Nat) (enable : Bool), s.pyu.stores[i]? = none →
        exec (.storeEnable .office i enable) s = .next ((s.taken .office).answered .office 0x51 .badParam [])) ∧
      ∀ (i : Nat) (enable : Bool) (x : Store) (st : StoreSt), s.pyu.stores[i]? = some x →
        st = (if enable then (if x.st = .disabled ∧ x.count = 0 then .empty else .enabled) else .disabled) →
        exec (.storeEnable .office i enable) s =
          if s.pyu.disp.working then .next ((s.taken .office).answered .office 0x51 .unitBusy [])
          else if x.st = .enabled ∨ x.st = .disabled then
            .next (({ s.taken .office with pyu := { s.pyu with stores := s.pyu.stores.set i { x with st := st } } } : State).answered
              .office 0x51 .done [.u8 st.code])
          else .next ((s.taken .office).answered .office 0x51 .wrongState [])) ∧
  ∀ (s : State) (p : Port), s.ready p →
    (s.pyu.payout.map (·.port) ≠ some p →
      exec (.payoutCancel (Port.sender p)) s = .next ((s.taken p).answered p 0x54 .noOperation [])) ∧
    (s.pyu.payout.map (·.port) = some p → s.pyu.disp ≠ .picking →
      exec (.payoutCancel (Port.sender p)) s = .next ((s.taken p).answered p 0x54 .tooLate [])) ∧
    (∀ x, s.pyu.payout = some x → x.port = p → s.pyu.disp = .picking → s.pyu.command.isSome = true →
      exec (.payoutCancel (Port.sender p)) s =
        .next (({ s.taken p with
          pyu := { s.pyu with payout := some { x with cancelled := true, todo := [] } } } : State).answered p 0x54 .done [])) ∧
    (p = .office →
      exec (.retractBinEmpty .office) s =
        (if s.pyu.disp = .picking ∨ s.pyu.disp = .presenting ∨ s.pyu.disp = .waiting ∨ s.pyu.disp = .retracting ∨
            s.pyu.disp = .recovering then .next ((s.taken .office).answered .office 0x56 .unitBusy [])
        else .next (({ s.taken .office with pyu := { s.pyu with log := [], bin := 0 } } : State).answered .office 0x56 .done
          [.u8 s.pyu.log.length, .u16 s.pyu.bin])) ∧
      exec (.dispenserClear .office) s =
        (if s.pyu.disp = .doorOpen then .next ((s.taken .office).answered .office 0x57 .doorOpen [])
        else if s.pyu.disp = .fault ∨ s.pyu.disp = .offline then
          .next (({ s.taken .office with
            pyu := { s.pyu with disp := .recovering, command := some .reset, recovery := none } } : State).answered .office 0x57
              .done [])
        else .next ((s.taken .office).answered .office 0x57 .wrongState [])))

/-- R129: a plan stays within its target, within what each usable store counts, and within its allowances, it gives exactly the amount
it has taken off the target, it draws on the stores in the order of the rule, and it is greedy: each usable store gives all it counts,
or what is left of the target once it has been drawn on is less than its denomination, or the allowance of its kind is used up. -/
def Obligations.PlansStayWithinBounds : Prop :=
  ∀ (stores : List Store) (target notes coins : Nat) (plan : Plan), stores.length = 6 → plan = makePlan stores target notes coins →
    plan.rest ≤ target ∧
      target - plan.rest = (plan.steps.map fun x => x.2 * ((stores[x.1]?.bind (·.denomination)).getD 0)).sum ∧
      (plan.steps.map (·.1)).Nodup ∧
      (∀ x ∈ plan.steps, 0 < x.2 ∧ ∃ y, stores[x.1]? = some y ∧ y.st = .enabled ∧ x.2 ≤ y.count) ∧
      ((plan.steps.filter fun x => decide ((stores[x.1]?.bind (·.kind)) = some StoreKind.note)).map (·.2)).sum + plan.notes = notes ∧
      ((plan.steps.filter fun x => decide ((stores[x.1]?.bind (·.kind)) = some StoreKind.coin)).map (·.2)).sum + plan.coins = coins ∧
      (plan.steps.Pairwise fun a b => (match stores[a.1]?, stores[b.1]? with
        | some x, some y => drawnBefore a.1 x b.1 y
        | _, _ => false) = true) ∧
      ∀ (i : Nat) (x : Store) (k : StoreKind) (v : Nat) (upTo : List (Nat × Nat)), stores[i]? = some x → x.st = .enabled →
        x.kind = some k → x.denomination = some v → 0 < v →
        upTo = (plan.steps.filter fun a => a.1 == i || stores[a.1]?.any fun y => drawnBefore a.1 y i x) →
        ((plan.steps.filter fun a => a.1 == i).map (·.2)).sum = x.count ∨
          target < (upTo.map fun a => a.2 * ((stores[a.1]?.bind (·.denomination)).getD 0)).sum + v ∨
          ((upTo.filter fun a => decide ((stores[a.1]?.bind (·.kind)) = some k)).map (·.2)).sum =
            (match k with
              | .note => notes
              | .coin => coins)

/-- PAYOUT START (R84, R133 to R135): the checks in their order, the start with a cash part of 0, and the payout put in flight. That a
start clears the last outcome of the ticket's payout record is the model's reading (log 43); widths in the answer that R213 does not
give are the model's (log 20). -/
def Obligations.PayoutStarts : Prop :=
  ∀ (s : State) (p : Port) (n : Nat) (accept : Bool) (t : Ticket) (plan : Plan) (planned attempts : Nat) (pieces : List Nat),
    s.ready p → s.ticket? n = some t → plan = makePlan s.pyu.stores t.cash 50 100 → planned = t.cash - plan.rest →
    pieces = piecesOf plan.steps →
    attempts = (match t.payout with
      | some r => min (r.attempts + 1) 255
      | none => 1) →
    (¬(t.st = .claimed ∧ t.claim.map (·.port) = some p) →
      exec (.payoutStart (Port.sender p) n accept) s = .next ((s.taken p).answered p 0x53 .notClaimed [])) ∧
    (t.st = .claimed → t.claim.map (·.port) = some p → t.cash = 0 →
      exec (.payoutStart (Port.sender p) n accept) s =
        .next (((s.taken p).changeTicket n (fun x =>
          { x with
            st := .paid, claim := none, lapse := none
            owed := x.owed.become x.owed.slip 2 x.owed.notice ⟨s.clu.now, s.clu.valid⟩
            payout := some ⟨0, [0, 0, 0, 0, 0, 0], 0, 0, 0, 0, 0, 0, attempts, some .paid⟩ })).pump.answered p 0x53 .done [])) ∧
    (t.st = .claimed → t.claim.map (·.port) = some p → 0 < t.cash →
      match firstFailing
        [ (decide (s.pyu.disp = .doorOpen), .doorOpen),
          (decide (s.pyu.disp ≠ .idle ∨ s.pyu.slot.map (·.1) = some p.other), .unitBusy),
          (decide (s.pyu.slot.map (·.1) = some p), .outcomeUnread), (decide (16 ≤ s.pyu.log.length), .retractFull),
          ((decide (plan.rest ≠ 0) && !accept) || plan.steps.isEmpty, .cannotMake) ] with
      | some code =>
        exec (.payoutStart (Port.sender p) n accept) s =
          .next ((s.taken p).answered p 0x53 code (if code = .cannotMake then .u32 planned :: pieces.map .u16 else []))
      | none => ∀ i k rest, plan.steps = (i, k) :: rest →
        exec (.payoutStart (Port.sender p) n accept) s =
          .next ((({ s.taken p with
            pyu :=
              { s.pyu with
                disp := .picking, command := some (.pick i)
                payout :=
                  some
                    { ticket := n, port := p, planned := planned, plannedPieces := pieces, todo := plan.steps,
                      picked := [0, 0, 0, 0, 0, 0], pickedAmount := 0, presented := false, cancelled := false } } } :
              State).changeTicket n (fun x =>
            { x with
              st := .paying, lapse := none
              payout := some ⟨planned, pieces, 0, 0, 0, 0, 0, 0, attempts, none⟩ })).answered p 0x53 .started
            ([.u24 n, .u32 planned] ++ pieces.map .u16 ++ [.u32 (t.cash - planned)])))

/-- PIECE_OK, PIECE_REJECT and PICK_FAIL (R85, R125, R136 to R140, R146): the store the PICK names, the bundle, the new plan when the
store drops out, the figures written into the ticket's record, those of a pick and those of a new plan each as a change of its own, and
what the dispenser does next. A reject that is both the third in a row and the last piece leaves FAULT or EMPTY, a free value (log 8).
The new plan (R130, R139): its target is the planned amount less the amount picked, its allowances are 50 less the notes picked and 100
less the coins picked, and the planned amount and pieces become those picked and those of the new plan together, the amount
never above what it was. -/
def Obligations.PickReportsTaken : Prop :=
  (∀ (s : State) (i : Nat) (p : Payout) (x : Store), s.powered = true → s.pyu.disp = .picking → s.pyu.command = some (.pick i) →
    s.pyu.payout = some p → s.pyu.stores[i]? = some x → 0 < x.count →
    (∀ (y : Store) (p1 p2 : Payout),
      y = { x with
        count := x.count - 1, picked := x.picked + 1, rejectRun := 0
        st := if x.count = 1 ∧ x.st = .enabled then .empty else x.st } →
      p1 = { p with
        picked := p.picked.set i (p.picked.getD i 0 + 1), pickedAmount := p.pickedAmount + x.denomination.getD 0
        todo := match p.todo with
          | (j, k) :: rest => if k ≤ 1 then rest else (j, k - 1) :: rest
          | [] => [] } →
      p2 = (if y.st ≠ .enabled ∧ p1.still i = true ∧ p.cancelled = false then p1.replan (s.pyu.stores.set i y) else p1) →
      0 < p1.picked.sum →
      exec .pieceOk s = .next ((((s.withStore i x y).figuresWritten p1).figuresWritten p2).picksOn p2).settle) ∧
    (∀ (y : Store) (p2 : Payout) (written : State),
      y = { x with
        count := x.count - 1, rejected := x.rejected + 1, rejectRun := x.rejectRun + 1
        st :=
          if 2 ≤ x.rejectRun ∧ (x.count ≠ 1 ∨ Config.lastRejectFaults = true) then .fault
          else if x.count = 1 ∧ x.st = .enabled then .empty else x.st } →
      p2 = (if y.st ≠ .enabled ∧ p.cancelled = false then p.replan (s.pyu.stores.set i y) else p) →
      written = (s.withStore i x y).figuresWritten p2 →
      exec .pieceReject s =
        .next (if p.picked.sum = 0 ∧ (p.cancelled = true ∨ p2.todo = []) then
            (written.payoutEnd p2 .notPaid .cancelled none .idle).settle
          else (written.picksOn p2).settle)) ∧
    ∀ (y : Store) (p2 : Payout) (written : State), y = { x with count := 0, writtenOff := x.writtenOff + x.count, st := .empty } →
      p2 = (if p.cancelled = false then p.replan (s.pyu.stores.set i y) else p) →
      written = (s.withStore i x y).figuresWritten p2 →
      exec .pickFail s =
        .next (if p.picked.sum = 0 ∧ (p.cancelled = true ∨ p2.todo = []) then
            (written.payoutEnd p2 .notPaid .cancelled none .idle).settle
          else (written.picksOn p2).settle)) ∧
  ∀ (p p' : Payout) (stores : List Store) (target : Nat) (pickedOf : StoreKind → Nat) (plan : Plan), p.picked.length = 6 →
    stores.length = 6 → target = p.planned - p.pickedAmount →
    pickedOf = (fun k => (((stores.zip p.picked).filter fun x => decide (x.1.kind = some k)).map (·.2)).sum) →
    plan = makePlan stores target (50 - pickedOf .note) (100 - pickedOf .coin) → p' = p.replan stores →
    p' = { p with todo := plan.steps, planned := p.pickedAmount + (target - plan.rest), plannedPieces := p'.plannedPieces } ∧
      p'.plannedPieces.length = 6 ∧
      (∀ i, i < 6 →
        p'.plannedPieces.getD i 0 = p.picked.getD i 0 + ((plan.steps.filter fun x => decide (x.1 = i)).map (·.2)).sum) ∧
      (p.pickedAmount ≤ p.planned → p'.planned ≤ p.planned)

/-- R85, R144 and R152: what the end of a payout leaves: no payout in flight, the outcome in the slot for the starting port, PAYOUT_END
latched to that port, the retract record and bin count, the dispenser's state, with CASH_FAULT to both ports where it is FAULT or OFFLINE
(R132, R147, R149; that it is latched also where a pending door makes the dispenser's state DOOR_OPEN is the model's reading, log 38,
DEDUCED), and the alert of a disputed or drawn-back bundle, which keeps its first stamp while it is latched (R195). The ticket
takes its state, the paid amount, the shortfall and the last outcome as one change, with two payout copies owed at a paid end, and the
print queue is filled after it (R85, R87). -/
def Obligations.PayoutEndLeavesOutcome : Prop :=
  ∀ (s t : State) (p : Payout) (result : PayoutResult) (code : PayoutEnd) (drawn : Option Drawn) (d : DispenserSt),
    t = s.payoutEnd p result code drawn d →
    t.pyu.payout = none ∧ t.pyu.command = none ∧ t.pyu.takeTimer = none ∧ t.pyu.stores = s.pyu.stores ∧
      t.pyu.disp = (if s.pyu.doorPending then .doorOpen else d) ∧ (s.pyu.doorPending = true → t.pyu.remembered = d) ∧
      (t.events p.port).has .payoutEnd = true ∧ (d = .fault ∨ d = .offline → ∀ q, (t.events q).has .cashFault = true) ∧
      t.pyu.slot =
        some (p.port,
          { ticket := p.ticket, outcome := code, planned := p.planned, pickedAmount := p.pickedAmount, pickedPieces := p.picked.sum,
            presentedAmount := if p.presented then p.pickedAmount else 0, presentedPieces := if p.presented then p.picked.sum else 0,
            paid := if result = .paid then p.pickedAmount else 0, pieces := p.picked,
            shortfall := if result = .paid then s.cashOf p.ticket - p.pickedAmount else 0, time := ⟨s.clu.now, s.clu.valid⟩ }) ∧
      t.pyu.bin = (match drawn with
        | some x => min (s.pyu.bin + x.counted) 65535
        | none => s.pyu.bin) ∧
      t.pyu.log = (match drawn with
        | some x =>
          if p.picked.sum = 0 ∨ 16 ≤ s.pyu.log.length then s.pyu.log
          else s.pyu.log ++
            [ { ticket := some p.ticket, cause := x.cause, pieces := p.picked.sum, amount := p.pickedAmount, perStore := p.picked,
                counted := x.counted, excess := x.counted - p.picked.sum, known := x.known, time := ⟨s.clu.now, s.clu.valid⟩ } ]
        | none => s.pyu.log) ∧
      (result = .disputed →
        t.evu.alerts.dispute = ⟨some (s.evu.alerts.dispute.latch.getD ⟨s.clu.now, s.clu.valid⟩), s.evu.alerts.dispute.enabled⟩ ∧
          (s.evu.alerts.dispute.latch = none → ∀ q, (t.events q).has .alert = true)) ∧
      (result = .notPaid → code = .retracted →
        t.evu.alerts.retract = ⟨some (s.evu.alerts.retract.latch.getD ⟨s.clu.now, s.clu.valid⟩), s.evu.alerts.retract.enabled⟩ ∧
          (s.evu.alerts.retract.latch = none → ∀ q, (t.events q).has .alert = true)) ∧
      (∀ changed : State,
        changed = s.changeTicket p.ticket (fun k =>
          { k with
            st :=
              (match result with
                | .paid => .paid
                | .notPaid => .settled
                | .disputed => .disputed)
            claim := none
            lapse := none
            payout := k.payout.map fun r =>
              { r with
                planned := p.planned, plannedPieces := p.plannedPieces, pickedPieces := p.picked.sum, pickedAmount := p.pickedAmount
                presentedAmount := if p.presented then p.pickedAmount else 0
                presentedPieces := if p.presented then p.picked.sum else 0
                paid := if result = .paid then p.pickedAmount else 0
                shortfall := if result = .paid then k.cash - p.pickedAmount else 0
                last := some code }
            owed := if result = .paid then k.owed.become k.owed.slip 2 k.owed.notice ⟨s.clu.now, s.clu.valid⟩ else k.owed }) →
        t.tkt = changed.pump.tkt ∧ t.rpu = changed.pump.rpu) ∧
      ∀ k, s.ticket? p.ticket = some k → k.number = p.ticket → ∃ k', t.ticket? p.ticket = some k' ∧
        k'.st = (match result with
          | .paid => .paid
          | .notPaid => .settled
          | .disputed => .disputed) ∧ k'.claim = none ∧ k'.lapse = none ∧
        (k'.payout.map fun r => (r.paid, r.shortfall, r.last, r.attempts)) =
          (k.payout.map fun r =>
            if result = .paid then (p.pickedAmount, k.cash - p.pickedAmount, some code, r.attempts)
            else (0, 0, some code, r.attempts)) ∧
        k'.owed.copies = if result = .paid then 2 else k.owed.copies

/-- PRESENTED, TRAY_EMPTY, TAKE_TIMEOUT and RETRACTED (R141 to R143, R146, R154); a TRAY_EMPTY in any other state is discarded. -/
def Obligations.BundlePresentedAndTaken : Prop :=
  ∀ s : State, s.powered = true →
    (∀ p, s.pyu.disp = .presenting → s.pyu.command = some .present → s.pyu.payout = some p →
      exec .presented s =
        .next ((({ s with
          pyu :=
            { s.pyu with
              disp := .waiting, command := none, payout := some { p with presented := true }
              takeTimer := some ⟨s.grt.limits.takeTimeout * 1000, s.elapsed⟩ } } : State).changeTicket p.ticket
                ({ p with presented := true } : Payout).sync).settle)) ∧
    (∀ p, s.pyu.disp = .waiting → s.pyu.payout = some p →
      exec .trayEmpty s =
        .next (s.payoutEnd p .paid (if s.cashOf p.ticket ≤ p.pickedAmount then .paid else .paidShort) none .idle).settle) ∧
    (s.pyu.disp ≠ .waiting → exec .trayEmpty s = .next s.settle) ∧
    (s.pyu.disp = .waiting → s.pyu.takeTimer.isSome = true →
      exec .takeTimeout s =
        .next ({ s with pyu := { s.pyu with disp := .retracting, takeTimer := none, command := some .retract } } : State).settle) ∧
    (∀ k p, s.pyu.disp = .retracting → s.pyu.command = some .retract → s.pyu.payout = some p →
      exec (.retracted k) s =
        .next (if p.presented then
            if p.picked.sum ≤ k then s.payoutEnd p .notPaid .retracted (some ⟨.timeout, k, true⟩) .idle
            else s.payoutEnd p .disputed .retractedPartial (some ⟨.timeout, k, false⟩) .idle
          else s.payoutEnd p .notPaid .cancelled (some ⟨.cancel, k, true⟩) .idle).settle) ∧
    ∀ k, s.pyu.disp = .recovering → s.pyu.command = some .retract →
      exec (.retracted k) s = .next (s.recoveryEnds k .idle).settle

/-- JAM, READY and the answer timer of a dispenser command (R131, R147 to R150), and what the end of a recovery leaves (R144, R148 to R151,
R154). The model's readings: the end of a recovery latches CASH_FAULT for FAULT and OFFLINE also when a pending door turns it into
DOOR_OPEN (log 38), the record of an interrupted payout is appended also for an empty bundle (log 39), and an answer timeout with no
command outstanding does nothing (log 6). -/
def Obligations.JamsFailuresAndRecoveries : Prop :=
  (∀ s : State, s.powered = true →
      (∀ p i code, s.pyu.payout = some p → (i = Instr.jam ∧ code = PayoutEnd.jammed ∨
          i = Instr.dispenserAnswerTimeout ∧ code = PayoutEnd.mechFault ∧ s.pyu.command.isSome = true) →
        ((s.pyu.disp = .picking ∨ s.pyu.disp = .presenting) →
          exec i s = .next (s.payoutEnd p .notPaid code (some ⟨.jam, 0, true⟩) .fault).settle) ∧
        (s.pyu.disp = .waiting → exec i s = .next (s.payoutEnd p .disputed code (some ⟨.jam, 0, false⟩) .fault).settle) ∧
        (s.pyu.disp = .retracting →
          exec i s =
            .next (if p.presented then s.payoutEnd p .disputed code (some ⟨.timeout, 0, false⟩) .fault
              else s.payoutEnd p .notPaid code (some ⟨.cancel, 0, true⟩) .fault).settle)) ∧
      (s.pyu.disp = .idle → s.pyu.doorPending = false →
        exec .jam s =
          .next ((({ s with pyu := { s.pyu with disp := .fault, command := none, takeTimer := none } } : State).latchBoth
            .cashFault)).settle) ∧
      ((s.pyu.disp = .fault ∨ s.pyu.disp = .offline ∨ s.pyu.disp = .doorOpen) → exec .jam s = .next s.settle) ∧
      (∀ i d, s.pyu.disp = .recovering → (i = Instr.jam ∧ d = DispenserSt.fault ∨
          i = Instr.ready ∧ d = DispenserSt.idle ∧ s.pyu.command = some .reset ∨
          i = Instr.dispenserAnswerTimeout ∧ d = DispenserSt.offline ∧ s.pyu.command.isSome = true) →
        exec i s = .next (s.recoveryEnds 0 d).settle) ∧
      (s.pyu.command = none → exec .dispenserAnswerTimeout s = .next s.settle)) ∧
  ∀ (s t : State) (k : Nat) (d : DispenserSt), t = s.recoveryEnds k d →
    t.pyu.recovery = none ∧ t.pyu.command = none ∧ t.pyu.disp = (if s.pyu.doorPending then .doorOpen else d) ∧
      ((d = .fault ∨ d = .offline) → ∀ p, (t.events p).has .cashFault = true) ∧ t.tkt = s.tkt ∧ t.pyu.stores = s.pyu.stores ∧
      (s.pyu.recovery = none → t.pyu.log = s.pyu.log ∧ t.pyu.bin = s.pyu.bin) ∧
      ∀ r, s.pyu.recovery = some r → t.pyu.bin = min (s.pyu.bin + k) 65535 ∧
        (0 < k →
          t.evu.alerts.retract = ⟨some (s.evu.alerts.retract.latch.getD ⟨s.clu.now, s.clu.valid⟩), s.evu.alerts.retract.enabled⟩ ∧
            (s.evu.alerts.retract.latch = none → ∀ q, (t.events q).has .alert = true)) ∧
        (r.interrupted = none → k = 0 → t.pyu.log = s.pyu.log) ∧
        (s.pyu.log.length < 16 → r.interrupted = none → 0 < k →
          t.pyu.log = s.pyu.log ++ [⟨none, .recovery, 0, 0, [0, 0, 0, 0, 0, 0], k, k, true, ⟨s.clu.now, s.clu.valid⟩⟩]) ∧
        ∀ b, s.pyu.log.length < 16 → r.interrupted = some b →
          t.pyu.log = s.pyu.log ++
            [⟨some b.ticket, .recovery, b.perStore.sum, b.amount, b.perStore, k, k - b.perStore.sum,
              !b.reachedTray || decide (b.perStore.sum ≤ k), ⟨s.clu.now, s.clu.valid⟩⟩]

/-! ## Printing -/

/-- RECEIPT PRINT and PRINT CANCEL (R163, R169): the checks in their order, the job that joins the tail, and the job that leaves. Filling
the queue (R161): while it holds fewer than 8 jobs and some receipt is unqueued, a job joins for the ticket owing longest, in opening
order among equals, for its first kind in the order of the rule. Withdrawing the slips of a ticket (R162): those not started leave and
end WITHDRAWN, those started are orphaned, and the queue is filled. A cancel of a paused job with no command outstanding gives CUT at
once: that is the model's reading (log 37). The form codes 0 SLIP and 1 COPY of RECEIPT PRINT, and the one-byte job id, place and job
state of the answers, are the model's choices (log 20). -/
def Obligations.PrintRequests : Prop :=
  (∀ (s : State) (p : Port), s.ready p →
    (∀ (n form : Nat) (t : Ticket) (r : Rpu) (id : Nat), s.ticket? n = some t → id = freeId s.rpu.queue 8 s.rpu.nextId →
      r = { s.rpu with
        queue :=
          s.rpu.queue ++
            [ { id := id, ticket := ⟨t.number, t.opening⟩, kind := if form = 0 then .weighSlip else .copy,
                label := if form = 0 then some .customer else none, source := .port p, st := .queued, started := false,
                serial := none, orphaned := false, content := [], next := 1, restart := false, marker := false } ]
        nextId := if id < 255 then id + 1 else 1 } →
      match firstFailing
        [ (decide (1 < form), .badParam), (decide (t.st = .opened ∨ (form = 0 ∧ t.st = .void)), .wrongState),
          (decide (8 ≤ s.rpu.queue.length ∨ 6 ≤ (s.rpu.queue.filter fun j => j.source != .auto).length), .queueFull) ] with
      | some c => exec (.receiptPrint (Port.sender p) n form) s = .next ((s.taken p).answered p 0x60 c [])
      | none =>
        exec (.receiptPrint (Port.sender p) n form) s =
          .next (({ s.taken p with rpu := r } : State).startPrint.answered p 0x60 .done
            [.u8 id, .u8 (s.rpu.queue.length + 1)])) ∧
    (∀ id, (∀ j ∈ s.rpu.queue, j.id ≠ id) →
      exec (.printCancel (Port.sender p) id) s = .next ((s.taken p).answered p 0x61 .noOperation [])) ∧
    ∀ (id : Nat) (j : Job) (r : Rpu), s.rpu.queue.find? (fun j => j.id == id) = some j →
      r = { s.rpu with
        queue := s.rpu.queue.filter fun x => x.id != id
        command := if j.underWay && s.rpu.command.isNone then some .cut else s.rpu.command
        cancelCut :=
          if j.underWay then (match s.rpu.command with
            | some (.line _) => .afterLine
            | _ => .cutting)
          else s.rpu.cancelCut } →
      exec (.printCancel (Port.sender p) id) s =
        if p = .window ∧ j.source ≠ .port .window then .next ((s.taken p).answered p 0x61 .wrongPort [])
        else
          .next ((((({ s.taken p with rpu := r } : State).dischargeJob j true).recordEnd j .cancelled).pump).answered p 0x61 .done
            [.u8 j.st.code])) ∧
  (∀ s : State, s.pump = s.fill.startPrint) ∧
  (∀ s : State, (8 ≤ s.rpu.queue.length ∨ ∀ t ∈ s.tkt.tickets, s.owesUnqueued t = false) → s.fill = s) ∧
  (∀ (s : State) (i id : Nat) (t : Ticket) (k : JobKind) (label : CopyLabel), s.rpu.queue.length < 8 → s.tkt.tickets[i]? = some t →
      s.owesUnqueued t = true → (∀ u ∈ s.tkt.tickets.take i, s.owesUnqueued u = true → t.owedSince < u.owedSince) →
      (∀ u ∈ s.tkt.tickets.drop (i + 1), s.owesUnqueued u = true → t.owedSince ≤ u.owedSince) →
      k = (if 0 < s.unqueued t .weighSlip then .weighSlip else if 0 < s.unqueued t .payout then .payout else .voidNotice) →
      label = (match k with
        | .weighSlip => .customer
        | .payout => if 2 ≤ s.unqueued t .payout then .customer else .yard
        | _ => .yard) →
      1 ≤ s.rpu.nextId → s.rpu.nextId ≤ 255 →
      ((List.range 9).map fun n => (s.rpu.nextId - 1 + n) % 255 + 1).find? (fun n => decide (∀ j ∈ s.rpu.queue, j.id ≠ n)) = some id →
      s.fill =
        ({ s with
          rpu :=
            { s.rpu with
              queue :=
                s.rpu.queue ++
                  [ { id := id, ticket := ⟨t.number, t.opening⟩, kind := k, label := some label, source := .auto, st := .queued,
                      started := false, serial := none, orphaned := false, content := [], next := 1, restart := false,
                      marker := false } ]
              nextId := if id < 255 then id + 1 else 1 } } : State).fill) ∧
  ∀ (s : State) (ref : TicketRef) (slip : Job → Bool) (gone : List Job),
    slip = (fun j => j.source == .auto && j.ticket == ref && j.kind == .weighSlip && !j.orphaned) →
    gone = (s.rpu.queue.filter fun j => slip j && !j.started) →
    ∀ t : State,
      t = { s with
        rpu :=
          { s.rpu with
            queue := (s.rpu.queue.filter fun j => !slip j || j.started).map fun j => if slip j then { j with orphaned := true } else j
            ended :=
              if gone = [] then s.rpu.ended
              else (fun l : List EndedJob => l.drop (l.length - 8))
                (s.rpu.ended ++ gone.map fun j => ⟨j.id, j.ticket.number, j.kind, j.label, j.source, j.serial, .withdrawn⟩) } } →
      s.withdrawSlips ref = (if gone = [] then t else t.latchBoth .printEnd).pump

/-- LINE_DONE, CUT_DONE and the answer timer of a printer command (R158, R165, R166, R168, R169). The start of the head job (R164, R171):
a first start takes the serial, gives a COPY its label and body, builds the content and prints its first line; a restart prints the
marker line first; a job whose ticket is gone ends GONE and the next is tested. The end of a job (R165) and the receipt it discharges
(R87, R169). The content of a receipt: its sections in their order, its line blocks, its totals and its forms (R173 to R175). The model's
choices: columns, spacing and words no rule states (log 25); that a missing answer to the LINE of a cancelled copy, with its CUT still to
come, ends that cut as an expiry during the cut does (log 49, DEDUCED); that a restart clears the restart mark (log 51); and that the next
line is one past the last after the last LINE_DONE and stays at 1 after the marker's (log 55, DEDUCED). -/
def Obligations.PrinterAnswersTaken : Prop :=
  (∀ s : State, s.powered = true →
    (∀ text (j : Job) rest (j' : Job), s.rpu.offline = false → s.rpu.command = some (.line text) → s.rpu.cancelCut = .none →
      s.rpu.queue = j :: rest →
      j' = (if j.marker then { j with marker := false } else { j with next := j.next + 1 }) →
      (j.st = .printing →
        exec .lineDone s =
          .next ({ s with
            rpu :=
              { s.rpu with
                queue := j' :: rest
                command := some (match j'.content[j'.next - 1]? with
                  | some line => if j'.marker then .line markerLine else .line line
                  | none => if j'.marker then .line markerLine else .cut) } } : State).settle) ∧
      (j.st = .paused → exec .lineDone s = .next ({ s with rpu := { s.rpu with queue := j' :: rest, command := none } } : State).settle)) ∧
    (∀ text, s.rpu.offline = false → s.rpu.command = some (.line text) → s.rpu.cancelCut = .afterLine →
      exec .lineDone s = .next ({ s with rpu := { s.rpu with command := some .cut, cancelCut := .cutting } } : State).settle) ∧
    (∀ j rest, s.rpu.offline = false → s.rpu.command = some .cut → s.rpu.cancelCut ≠ .cutting → s.rpu.queue = j :: rest →
      exec .cutDone s =
        .next (((({ s with rpu := { s.rpu with command := none, cancelCut := .none, queue := rest } } : State).dischargeJob j
          false).recordEnd j .cut).pump).settle) ∧
    (s.rpu.offline = false → s.rpu.command = some .cut → s.rpu.cancelCut = .cutting →
      exec .cutDone s = .next ({ s with rpu := { s.rpu with command := none, cancelCut := .none } } : State).startPrint.settle) ∧
    (s.rpu.offline = false → s.rpu.command = none → exec .lineDone s = .next s.settle ∧ exec .cutDone s = .next s.settle) ∧
    (s.rpu.command.isSome = true → s.rpu.offline = false → ∃ t : State, exec .printerAnswerTimeout s = .next t ∧
      t = ({ s with rpu := t.rpu, evu := t.evu } : State).settle ∧ t.evu.alerts = s.evu.alerts ∧ t.rpu.offline = true ∧
      t.rpu.command = none ∧ t.rpu.cancelCut = .none ∧ (∀ p, (t.events p).has .printer = true) ∧
      t.rpu.queue = (match s.rpu.queue with
        | j :: rest =>
          (if j.st = .printing ∨ j.st = .paused then { j with st := .queued, restart := true, marker := false } else j) :: rest
        | [] => []))) ∧
  (∀ s : State, (s.rpu.queue = [] ∨ ¬ s.rpu.admitsStart ∨ s.rpu.queue.head?.any (fun j => decide (j.st ≠ .queued)) = true) →
      s.startPrint = s) ∧
  (∀ (s : State) (j : Job) (rest : List Job), s.rpu.queue = j :: rest → s.rpu.admitsStart → j.st = .queued →
      (j.started = true →
        s.startPrint =
          ({ s with
            rpu :=
              { s.rpu with
                queue := { j with st := .printing, next := 1, restart := false, marker := true } :: rest
                command := some (.line (txt "REPRINT AFTER PRINTER FAULT")) } } : State)) ∧
      (j.started = false → s.tkt.placed → s.rpu.queueSound →
        (s.ticket? j.ticket.number).map (·.opening) ≠ some j.ticket.opening →
        s.startPrint = ((({ s with rpu := { s.rpu with queue := rest } } : State).recordEnd j .gone).fill).startPrint) ∧
      ∀ (k : Ticket) (serial : Nat) (label : CopyLabel) (body : Body) (content : List Text) (t : State), j.started = false →
        j.marker = false → s.ticket? j.ticket.number = some k → k.opening = j.ticket.opening → serial = s.rpu.serial →
        label = (if j.kind = .copy then .copy (min (k.reprints + 1) 255) else j.label.getD .customer) →
        body = (match j.kind with
          | .weighSlip => .weighSlip
          | .payout => .payout
          | .voidNotice => .voidNotice
          | .copy =>
            if k.st = .void then .voidNotice else if k.st = .paid ∨ k.st = .closed then .payout else .weighSlip) →
        content = s.receipt k body label serial →
        t = (if j.kind = .copy then s.changeTicket k.number (fun x => { x with reprints := min (x.reprints + 1) 255 }) else s) →
        s.startPrint =
          ({ t with
            rpu :=
              { s.rpu with
                queue :=
                  { j with
                    st := .printing, started := true, serial := some serial, label := some label, content := content, next := 1 } ::
                    rest
                command := some (match content with
                  | line :: _ => .line line
                  | [] => .cut)
                serial := if serial < 9999999 then serial + 1 else 1 } } : State)) ∧
  (∀ (s : State) (j : Job) (e : JobEnd) (t : State),
      t = { s with
        rpu :=
          { s.rpu with
            ended := (fun l : List EndedJob => l.drop (l.length - 8))
              (s.rpu.ended ++ [⟨j.id, j.ticket.number, j.kind, j.label, j.source, j.serial, e⟩]) } } →
      s.recordEnd j e = (match j.source with
        | .auto => t.latchBoth .printEnd
        | .port p => t.latch p .printEnd)) ∧
  (∀ (s : State) (j : Job) (cancelled : Bool),
      s.dischargeJob j cancelled =
        if j.source = .auto ∧ j.orphaned = false then
          s.changeTicket j.ticket.number fun x =>
            (fun owed : Owed => { x with
              owed := owed, receiptCancelled := x.receiptCancelled || cancelled
              st := if x.st = .paid ∧ j.kind = .payout ∧ owed.copies = 0 then .closed else x.st
              closedAt :=
                if x.st = .paid ∧ j.kind = .payout ∧ owed.copies = 0 then some ⟨s.clu.now, s.clu.valid⟩ else x.closedAt })
              (match j.kind with
                | .weighSlip => x.owed.become (x.owed.slip - 1) x.owed.copies x.owed.notice ⟨s.clu.now, s.clu.valid⟩
                | .payout => x.owed.become x.owed.slip (x.owed.copies - 1) x.owed.notice ⟨s.clu.now, s.clu.valid⟩
                | .voidNotice => x.owed.become x.owed.slip x.owed.copies (x.owed.notice - 1) ⟨s.clu.now, s.clu.valid⟩
                | .copy => x.owed)
        else s) ∧
  (∀ (s : State) (t : Ticket) (body : Body) (label : CopyLabel) (serial : Nat),
      s.receipt t body label serial =
        ([s.rpu.header1, s.rpu.header2, s.rpu.header3].filter fun h => decide (h ≠ [])) ++
        [ match body with
          | .weighSlip => txt "WEIGH SLIP"
          | .payout => txt "PAYOUT RECEIPT"
          | .voidNotice => txt "VOID NOTICE" ] ++
        [ txt "STATION " ++ decimalWidth 2 s.straps ++ txt "   TICKET " ++ decimalWidth 2 t.series ++ txt "-" ++
            decimalWidth 6 t.number ++ txt "   " ++ (if t.kind = .bridge then txt "BRIDGE" else txt "COUNTER") ] ++
        [txt "OPENED  " ++ stampText t.openedAt] ++ (t.closedAt.toList.map fun c => txt "CLOSED  " ++ stampText c) ++
        [txt "PRINTED " ++ stampText ⟨s.clu.now, s.clu.valid⟩] ++
        (if t.openedAt.valid && t.closedAt.all (·.valid) && s.clu.valid then [] else [txt "CLOCK NOT SET"]) ++
        (t.plate.toList.map fun x => txt "PLATE " ++ x) ++ (t.customer.toList.map fun x => txt "CUSTOMER " ++ x) ++
        (t.lines.zipIdx.flatMap fun x => s.lineBlock t body x.1 x.2) ++ closingLines t body ++
        [ (match label with
            | .customer => txt "CUSTOMER COPY"
            | .yard => txt "YARD COPY"
            | .copy n => txt "COPY " ++ decimal n) ++ txt "   RECEIPT " ++ decimalWidth 7 serial ]) ∧
  (∀ (s : State) (t : Ticket) (body : Body) (l : TicketLine) (i : Nat) (source : Nat → Text),
      source = (fun n => match t.weighings[n]? with
        | some w => txt "  C" ++ decimal w.channel.num ++ txt " CAL " ++ decimal w.calCounter
        | none => []) →
      s.lineBlock t body l i =
        [ decimal (i + 1) ++ txt " " ++ (match s.lineGrade? l with
            | some g => g.name
            | none => txt "UNGRADED"),
          weightLine (txt "GROSS") l.gross (match l.capture with
            | some c => txt "  C" ++ decimal c.channel.num ++ txt " CAL " ++ decimal c.calCounter
            | none => source i),
          weightLine (txt "TARE") l.tare (match l.source with
            | .weighed => source (i + 1)
            | .container => txt "  CONTAINER"
            | .stored => txt "  STORED TARE"),
          weightLine (txt "NET") l.net [] ] ++
        (if l.coarse then [txt "COARSE"] else []) ++
        (match l.figures with
          | none => []
          | some f =>
            if body = .voidNotice then []
            else
              paired
                  (txt "DEDUCT " ++ (match f.figure with
                    | some p => percentage p ++ txt "  "
                    | none => []) ++ kilograms f.deduction ++ txt " KG")
                  (txt "PAID WT " ++ kilograms f.paid ++ txt " KG")
                ++ paired (pricePerKilogram f.price) (txt "AMOUNT " ++ money f.amount))) ∧
  (∀ (t : Ticket) (totals : Settlement → List Text) (balance : Nat → List Text),
      totals = (fun b =>
        (if t.kind = .bridge then [txt "FEE " ++ money b.fee] else []) ++ [txt "PAYABLE " ++ money b.payable] ++
          paired (txt "CASH PART " ++ money b.cash) (txt "ROUNDING " ++ signedMoney b.rounding)) →
      balance = (fun n => if 0 < n then [txt "BALANCE BY OTHER MEANS " ++ money n] else []) →
      closingLines t .voidNotice = [txt "VOID"] ∧ (t.settlement = none → closingLines t .weighSlip = [txt "NOT SETTLED"]) ∧
        ∀ b, t.settlement = some b →
          closingLines t .weighSlip =
            totals b ++ balance b.remainder ++
              (if t.st = .held then b.holdUntil.toList.map fun d => txt "HOLD UNTIL " ++ dateText d else []) ∧
          ∀ r, t.payout = some r →
            closingLines t .payout =
              totals b ++ [txt "CASH PAID " ++ money r.paid] ++
                (if 0 < r.shortfall then [txt "SHORTFALL " ++ money r.shortfall] else []) ++
                balance (b.remainder + r.shortfall)) ∧
  kilograms 312400 = txt "31,240.0" ∧ money 2055190 = txt "20,551.90" ∧ pricePerKilogram 68450 = txt "6.8450/KG" ∧
    percentage 15 = txt "1.5%" ∧ signedMoney 2 = txt "+0.02" ∧ signedMoney (-2) = txt "-0.02" ∧ decimalWidth 7 20418 = txt "0020418" ∧
    (∀ valid, stampText ⟨⟨2030, 12, 18, 11, 40, 10⟩, valid⟩ = txt "2030-12-18 11:40:10")

/-- PAPER_LOW, PAPER_OUT, PAPER_IN, COVER_OPEN, COVER_CLOSED, HEAD_HOT and HEAD_COOL, and a LINE_DONE or CUT_DONE that arrives in OFFLINE
(R157 to R159, R166 to R168): each sets its condition, the others staying, and ends OFFLINE. PAPER_OUT and COVER_OPEN end the outstanding
command unmade and stall a head job PRINTING or PAUSED. The other reports answer no command. With no job in the queue, or a head job
PRINTING or PAUSED, they leave the queue, the command outstanding and the tickets as they are (R157, R159), but that HEAD_HOT pauses a
PRINTING job, and HEAD_COOL returns a PAUSED one to PRINTING, with its next line where no command is outstanding and with the outstanding
one kept where one is (R166). A head job STALLED or QUEUED stays as it is while paper or cover still stall the printer. Once they do not
it waits in QUEUED while the head is hot or a cancelled copy is still to be cut (R164, R166, R169), and else it restarts with the marker
line under its serial, or, not started, starts as R164 states. PRINTER is latched to both ports exactly at a change of the printer state
from or to STALLED or OFFLINE, also between the two, PAPER_LOW exactly by its report (R159), PRINT_END by no report but where a start
finds its job gone (R164, R165), and no other flag. The model's readings: a head turning hot or cool ends OFFLINE too (log 19), the
printer is BUSY before the cut of a cancelled copy is outstanding (log 27), a paused job with no line left is given CUT when the head
cools (log 37), paper out and cover open end also a cut that was still to follow a cancelled copy's LINE (log 49, DEDUCED), and a restart
clears the restart mark (log 51). -/
def Obligations.PrinterConditionsSet : Prop :=
  ∀ (s : State) (r : Rpu), s.powered = true → r = { s.rpu with offline := false } →
    ∀ x ∈ [ (Instr.paperLow, { r with paper := Paper.low }), (.paperOut, { r with paper := .out }),
        (.paperIn, { r with paper := .loaded }), (.coverOpen, { r with cover := .opened }), (.coverClosed, { r with cover := .closed }),
        (.headHot, { r with head := .hot }), (.headCool, { r with head := .cool }) ] ++
        (if s.rpu.offline then [(Instr.lineDone, r), (.cutDone, r)] else []),
    ∃ t : State, exec x.1 s = .next t ∧ t = ({ s with rpu := t.rpu, evu := t.evu, tkt := t.tkt } : State).settle ∧
      t.evu.alerts = s.evu.alerts ∧ t.rpu.offline = false ∧ t.rpu.paper = x.2.paper ∧ t.rpu.cover = x.2.cover ∧
      t.rpu.head = x.2.head ∧
      (∀ p, (t.events p).mask = (s.events p).mask ∧
        (t.events p).has .printer =
          ((s.events p).has .printer ||
            decide (s.rpu.st ≠ t.rpu.st ∧ (s.rpu.st ∈ [PrinterSt.stalled, .offline] ∨ t.rpu.st ∈ [PrinterSt.stalled, .offline]))) ∧
        (t.events p).has .paperLow = ((s.events p).has .paperLow || decide (x.1 = .paperLow)) ∧
        ∀ f, f ≠ .printer → f ≠ .paperLow → f ≠ .printEnd → (t.events p).has f = (s.events p).has f) ∧
      ∀ becomes : Rpu → Prop,
        becomes = (fun u => t.rpu = u ∧ t.tkt = s.tkt ∧ ∀ p, (t.events p).has .printEnd = (s.events p).has .printEnd) →
        (x.1 = .paperOut ∨ x.1 = .coverOpen → becomes
          { x.2 with
            command := none, cancelCut := .none
            queue := match s.rpu.queue with
              | j :: rest =>
                (if j.st = .printing ∨ j.st = .paused then { j with st := .stalled, restart := true, marker := false } else j) :: rest
              | [] => [] }) ∧
        (x.1 ≠ .paperOut → x.1 ≠ .coverOpen →
          (s.rpu.queue = [] → becomes x.2) ∧
          ∀ j rest, s.rpu.queue = j :: rest →
            (j.st = .printing →
              becomes { x.2 with queue := (if x.1 = .headHot then { j with st := .paused } else j) :: rest }) ∧
            (j.st = .paused → x.1 ≠ .headCool → becomes x.2) ∧
            (j.st = .paused → x.1 = .headCool → s.rpu.paper ≠ .out → s.rpu.cover = .closed → becomes
              { x.2 with
                queue := { j with st := .printing } :: rest
                command := match s.rpu.command with
                  | some c => some c
                  | none =>
                    if j.marker then some (.line (txt "REPRINT AFTER PRINTER FAULT"))
                    else match j.content[j.next - 1]? with
                      | some line => some (.line line)
                      | none => some .cut }) ∧
            (j.st = .stalled ∨ j.st = .queued →
              (x.2.paper = .out ∨ x.2.cover = .opened → becomes x.2) ∧
              (x.2.paper ≠ .out → x.2.cover = .closed →
                (x.2.head = .hot ∨ x.2.cancelCut ≠ .none → becomes { x.2 with queue := { j with st := .queued } :: rest }) ∧
                (x.2.head = .cool → x.2.cancelCut = .none → j.started = true → becomes
                  { x.2 with
                    queue := { j with st := .printing, next := 1, restart := false, marker := true } :: rest
                    command := some (.line (txt "REPRINT AFTER PRINTER FAULT")) }) ∧
                ∀ start : State, start = ({ s with rpu := { x.2 with queue := { j with st := .queued } :: rest } } : State).startPrint →
                  x.2.head = .cool → x.2.cancelCut = .none → j.started = false →
                  t.rpu = start.rpu ∧ t.tkt = start.tkt ∧ ∀ p, (t.events p).has .printEnd = (start.events p).has .printEnd)))

/-! ## Alerts -/

/-- ALERT SET and ALERT CLEAR (R196, R197): the enables replaced with no latch changed; the named sources cleared unless their condition
persists. That the answer tells the sources still latched as five marks of one byte is the model's form (log 21). -/
def Obligations.AlertRequests : Prop :=
  ∀ s : State, s.ready .office →
    (∀ (on : Bool) (m : AlertMarks),
      exec (.alertSet .office on m) s =
        .next (({ s.taken .office with
          evu :=
            { s.evu with
              alerts :=
                ⟨⟨s.evu.alerts.cashDoor.latch, m.cashDoor⟩, ⟨s.evu.alerts.cabinet.latch, m.cabinet⟩,
                  ⟨s.evu.alerts.calSwitch.latch, m.calSwitch⟩, ⟨s.evu.alerts.retract.latch, m.retract⟩,
                  ⟨s.evu.alerts.dispute.latch, m.dispute⟩, on⟩ } } : State).answered .office 0x71 .done [])) ∧
    (exec (.alertClear .office false ⟨false, false, false, false, false⟩) s =
      .next ((s.taken .office).answered .office 0x72 .badParam [])) ∧
    ∀ (all : Bool) (m : AlertMarks) (a : Alerts), (all || m.cashDoor || m.cabinet || m.calSwitch || m.retract || m.dispute) = true →
      a = { s.evu.alerts with
        cashDoor := if (all || m.cashDoor) && !s.cashDoorOpen then ⟨none, s.evu.alerts.cashDoor.enabled⟩ else s.evu.alerts.cashDoor
        cabinet := if (all || m.cabinet) && !s.cabinetOpen then ⟨none, s.evu.alerts.cabinet.enabled⟩ else s.evu.alerts.cabinet
        calSwitch :=
          if (all || m.calSwitch) && !(s.switchClosed && !s.anyInService) then ⟨none, s.evu.alerts.calSwitch.enabled⟩
          else s.evu.alerts.calSwitch
        retract := if all || m.retract then ⟨none, s.evu.alerts.retract.enabled⟩ else s.evu.alerts.retract
        dispute := if all || m.dispute then ⟨none, s.evu.alerts.dispute.enabled⟩ else s.evu.alerts.dispute } →
      exec (.alertClear .office all m) s =
        .next (({ s.taken .office with evu := { s.evu with alerts := a } } : State).answered .office 0x72 .done
          [flagField a.cashDoor.latch.isSome, flagField a.cabinet.latch.isSome, flagField a.calSwitch.latch.isSome,
            flagField a.retract.latch.isSome, flagField a.dispute.latch.isSome])

/-! ## What every step keeps -/

/-- R125: pieces loaded are those counted, picked, rejected and written off, after every command. -/
def Obligations.StepsConserveStores : Prop :=
  ∀ s t : State, s.pyu.conserves → step s = .next t → t.pyu.conserves

/-- R61, R64, R65, R81, R82: the ticket table keeps its places and numbers apart, and its claims sound. -/
def Obligations.StepsKeepTicketTable : Prop :=
  ∀ s t : State, s.tkt.placed → s.tkt.claimsSound → step s = .next t → t.tkt.placed ∧ t.tkt.claimsSound

/-- R84, R132, R135, R144, R154: a payout is in flight exactly in the dispenser's paying states, a ticket is PAYING exactly while the
payout is its own, and the retract log keeps room for the record to come. -/
def Obligations.StepsKeepPayoutSound : Prop :=
  ∀ s t : State, s.tkt.placed → s.payoutSound → step s = .next t → t.payoutSound

/-- R160 and R165: the print queue, its port jobs, its ids and the ended-job list keep their bounds, and only the head job is ever in
PRINTING, PAUSED or STALLED: every job behind it is QUEUED and has not started. -/
def Obligations.StepsKeepQueueSound : Prop :=
  (∀ s t : State, s.rpu.queueSound → step s = .next t → t.rpu.queueSound) ∧
    ∀ s t : State, s.rpu.headAlone → step s = .next t → t.rpu.headAlone

/-- R115: the tare register keeps at most 32 entries, no plate twice. R179, R182, R192, R213: the calendar keeps a legal value, the release
hour stays an hour, and bit 23 of every event set and mask stays 0. R3, R5 to R9, R13, R18 to R22 and R25: the settings of every channel
stay in their ranges; window, good count and zero-tracking block keep below their bound M, the block empty outside ACTIVE; a channel in
ACTIVE is stable exactly when its full window meets the band and reports a live weight within its limits, or OVER or UNDER; and a
capture is in flight only in ACTIVE, never beside a held outcome, with the vehicle in place, and a captured mark set only on a deck in
ON_DECK (R38). That a capture keeps at most M samples is the model's (log 42). -/
def Obligations.StepsKeepRegisterAndCalendar : Prop :=
  (∀ s t : State, registerSound s.vtr → step s = .next t → registerSound t.vtr) ∧
  (∀ s t : State, s.clu.sound → s.evu.sound → step s = .next t → t.clu.sound ∧ t.evu.sound) ∧
  ∀ s t : State, s.weighingSound → step s = .next t → t.weighingSound

/-- R38, R40, R43, R193, R194, R196: after every command each lamp role runs the pattern of the override in force or else of the row of
the view that R38's table chooses, the attention output is asserted exactly while an unmasked flag is latched for the window or a slot
holds an outcome for it, and the yard alert output exactly while the global enable is set and an enabled source is latched. That an
unpowered part releases its outputs is the model's choice (log 10). -/
def Obligations.StepsKeepLampsAndOutputsJudged : Prop :=
  ∀ s t : State, s.judged → step s = .next t → t.judged

/-- The first two clauses of R107: for every ticket that holds a settlement block, cash part plus remainder equals payable plus rounding
difference, and the rounding difference is at most half the rounding unit. -/
def Obligations.StepsKeepSettlementsBalanced : Prop :=
  ∀ s t : State, s.tkt.balances → step s = .next t → t.tkt.balances

end
end

