-- ==== Sys2Proof/Laws/State.lean ====
section
/-! SUPPORT. One lemma for each field under each update of the state, and what each access reads after its own update. -/

namespace Sys2Proof.Machine

/-! setChan -/

@[simp] theorem State.setChan_powered (s : State) (ch : Channel) (x : ChannelState) : (s.setChan ch x).powered = s.powered := by cases ch <;> rfl
@[simp] theorem State.setChan_elapsed (s : State) (ch : Channel) (x : ChannelState) : (s.setChan ch x).elapsed = s.elapsed := by cases ch <;> rfl
@[simp] theorem State.setChan_straps (s : State) (ch : Channel) (x : ChannelState) : (s.setChan ch x).straps = s.straps := by cases ch <;> rfl
@[simp] theorem State.setChan_settingsLost (s : State) (ch : Channel) (x : ChannelState) : (s.setChan ch x).settingsLost = s.settingsLost := by cases ch <;> rfl
@[simp] theorem State.setChan_retainLost (s : State) (ch : Channel) (x : ChannelState) : (s.setChan ch x).retainLost = s.retainLost := by cases ch <;> rfl
@[simp] theorem State.setChan_office (s : State) (ch : Channel) (x : ChannelState) : (s.setChan ch x).office = s.office := by cases ch <;> rfl
@[simp] theorem State.setChan_window (s : State) (ch : Channel) (x : ChannelState) : (s.setChan ch x).window = s.window := by cases ch <;> rfl
@[simp] theorem State.setChan_evu (s : State) (ch : Channel) (x : ChannelState) : (s.setChan ch x).evu = s.evu := by cases ch <;> rfl
@[simp] theorem State.setChan_outs (s : State) (ch : Channel) (x : ChannelState) : (s.setChan ch x).outs = s.outs := by cases ch <;> rfl
@[simp] theorem State.setChan_clu (s : State) (ch : Channel) (x : ChannelState) : (s.setChan ch x).clu = s.clu := by cases ch <;> rfl
@[simp] theorem State.setChan_dsu (s : State) (ch : Channel) (x : ChannelState) : (s.setChan ch x).dsu = s.dsu := by cases ch <;> rfl
@[simp] theorem State.setChan_lamps (s : State) (ch : Channel) (x : ChannelState) : (s.setChan ch x).lamps = s.lamps := by cases ch <;> rfl
@[simp] theorem State.setChan_grt (s : State) (ch : Channel) (x : ChannelState) : (s.setChan ch x).grt = s.grt := by cases ch <;> rfl
@[simp] theorem State.setChan_tkt (s : State) (ch : Channel) (x : ChannelState) : (s.setChan ch x).tkt = s.tkt := by cases ch <;> rfl
@[simp] theorem State.setChan_vtr (s : State) (ch : Channel) (x : ChannelState) : (s.setChan ch x).vtr = s.vtr := by cases ch <;> rfl
@[simp] theorem State.setChan_pyu (s : State) (ch : Channel) (x : ChannelState) : (s.setChan ch x).pyu = s.pyu := by cases ch <;> rfl
@[simp] theorem State.setChan_rpu (s : State) (ch : Channel) (x : ChannelState) : (s.setChan ch x).rpu = s.rpu := by cases ch <;> rfl
@[simp] theorem State.setChan_pending (s : State) (ch : Channel) (x : ChannelState) : (s.setChan ch x).pending = s.pending := by cases ch <;> rfl

/-! setBridge -/

@[simp] theorem State.setBridge_powered (s : State) (b : Bridge) (x : BridgeState) : (s.setBridge b x).powered = s.powered := by cases b <;> rfl
@[simp] theorem State.setBridge_elapsed (s : State) (b : Bridge) (x : BridgeState) : (s.setBridge b x).elapsed = s.elapsed := by cases b <;> rfl
@[simp] theorem State.setBridge_straps (s : State) (b : Bridge) (x : BridgeState) : (s.setBridge b x).straps = s.straps := by cases b <;> rfl
@[simp] theorem State.setBridge_settingsLost (s : State) (b : Bridge) (x : BridgeState) : (s.setBridge b x).settingsLost = s.settingsLost := by cases b <;> rfl
@[simp] theorem State.setBridge_retainLost (s : State) (b : Bridge) (x : BridgeState) : (s.setBridge b x).retainLost = s.retainLost := by cases b <;> rfl
@[simp] theorem State.setBridge_office (s : State) (b : Bridge) (x : BridgeState) : (s.setBridge b x).office = s.office := by cases b <;> rfl
@[simp] theorem State.setBridge_window (s : State) (b : Bridge) (x : BridgeState) : (s.setBridge b x).window = s.window := by cases b <;> rfl
@[simp] theorem State.setBridge_evu (s : State) (b : Bridge) (x : BridgeState) : (s.setBridge b x).evu = s.evu := by cases b <;> rfl
@[simp] theorem State.setBridge_outs (s : State) (b : Bridge) (x : BridgeState) : (s.setBridge b x).outs = s.outs := by cases b <;> rfl
@[simp] theorem State.setBridge_clu (s : State) (b : Bridge) (x : BridgeState) : (s.setBridge b x).clu = s.clu := by cases b <;> rfl
@[simp] theorem State.setBridge_wch (s : State) (b : Bridge) (x : BridgeState) : (s.setBridge b x).wch = s.wch := by cases b <;> rfl
@[simp] theorem State.setBridge_lamps (s : State) (b : Bridge) (x : BridgeState) : (s.setBridge b x).lamps = s.lamps := by cases b <;> rfl
@[simp] theorem State.setBridge_grt (s : State) (b : Bridge) (x : BridgeState) : (s.setBridge b x).grt = s.grt := by cases b <;> rfl
@[simp] theorem State.setBridge_tkt (s : State) (b : Bridge) (x : BridgeState) : (s.setBridge b x).tkt = s.tkt := by cases b <;> rfl
@[simp] theorem State.setBridge_vtr (s : State) (b : Bridge) (x : BridgeState) : (s.setBridge b x).vtr = s.vtr := by cases b <;> rfl
@[simp] theorem State.setBridge_pyu (s : State) (b : Bridge) (x : BridgeState) : (s.setBridge b x).pyu = s.pyu := by cases b <;> rfl
@[simp] theorem State.setBridge_rpu (s : State) (b : Bridge) (x : BridgeState) : (s.setBridge b x).rpu = s.rpu := by cases b <;> rfl
@[simp] theorem State.setBridge_pending (s : State) (b : Bridge) (x : BridgeState) : (s.setBridge b x).pending = s.pending := by cases b <;> rfl

/-! setPort -/

@[simp] theorem State.setPort_powered (s : State) (p : Port) (x : PortState) : (s.setPort p x).powered = s.powered := by cases p <;> rfl
@[simp] theorem State.setPort_elapsed (s : State) (p : Port) (x : PortState) : (s.setPort p x).elapsed = s.elapsed := by cases p <;> rfl
@[simp] theorem State.setPort_straps (s : State) (p : Port) (x : PortState) : (s.setPort p x).straps = s.straps := by cases p <;> rfl
@[simp] theorem State.setPort_settingsLost (s : State) (p : Port) (x : PortState) : (s.setPort p x).settingsLost = s.settingsLost := by cases p <;> rfl
@[simp] theorem State.setPort_retainLost (s : State) (p : Port) (x : PortState) : (s.setPort p x).retainLost = s.retainLost := by cases p <;> rfl
@[simp] theorem State.setPort_evu (s : State) (p : Port) (x : PortState) : (s.setPort p x).evu = s.evu := by cases p <;> rfl
@[simp] theorem State.setPort_outs (s : State) (p : Port) (x : PortState) : (s.setPort p x).outs = s.outs := by cases p <;> rfl
@[simp] theorem State.setPort_clu (s : State) (p : Port) (x : PortState) : (s.setPort p x).clu = s.clu := by cases p <;> rfl
@[simp] theorem State.setPort_wch (s : State) (p : Port) (x : PortState) : (s.setPort p x).wch = s.wch := by cases p <;> rfl
@[simp] theorem State.setPort_dsu (s : State) (p : Port) (x : PortState) : (s.setPort p x).dsu = s.dsu := by cases p <;> rfl
@[simp] theorem State.setPort_lamps (s : State) (p : Port) (x : PortState) : (s.setPort p x).lamps = s.lamps := by cases p <;> rfl
@[simp] theorem State.setPort_grt (s : State) (p : Port) (x : PortState) : (s.setPort p x).grt = s.grt := by cases p <;> rfl
@[simp] theorem State.setPort_tkt (s : State) (p : Port) (x : PortState) : (s.setPort p x).tkt = s.tkt := by cases p <;> rfl
@[simp] theorem State.setPort_vtr (s : State) (p : Port) (x : PortState) : (s.setPort p x).vtr = s.vtr := by cases p <;> rfl
@[simp] theorem State.setPort_pyu (s : State) (p : Port) (x : PortState) : (s.setPort p x).pyu = s.pyu := by cases p <;> rfl
@[simp] theorem State.setPort_rpu (s : State) (p : Port) (x : PortState) : (s.setPort p x).rpu = s.rpu := by cases p <;> rfl
@[simp] theorem State.setPort_pending (s : State) (p : Port) (x : PortState) : (s.setPort p x).pending = s.pending := by cases p <;> rfl

/-! setEvents -/

@[simp] theorem State.setEvents_powered (s : State) (p : Port) (x : EventSet) : (s.setEvents p x).powered = s.powered := by cases p <;> rfl
@[simp] theorem State.setEvents_elapsed (s : State) (p : Port) (x : EventSet) : (s.setEvents p x).elapsed = s.elapsed := by cases p <;> rfl
@[simp] theorem State.setEvents_straps (s : State) (p : Port) (x : EventSet) : (s.setEvents p x).straps = s.straps := by cases p <;> rfl
@[simp] theorem State.setEvents_settingsLost (s : State) (p : Port) (x : EventSet) : (s.setEvents p x).settingsLost = s.settingsLost := by cases p <;> rfl
@[simp] theorem State.setEvents_retainLost (s : State) (p : Port) (x : EventSet) : (s.setEvents p x).retainLost = s.retainLost := by cases p <;> rfl
@[simp] theorem State.setEvents_office (s : State) (p : Port) (x : EventSet) : (s.setEvents p x).office = s.office := by cases p <;> rfl
@[simp] theorem State.setEvents_window (s : State) (p : Port) (x : EventSet) : (s.setEvents p x).window = s.window := by cases p <;> rfl
@[simp] theorem State.setEvents_outs (s : State) (p : Port) (x : EventSet) : (s.setEvents p x).outs = s.outs := by cases p <;> rfl
@[simp] theorem State.setEvents_clu (s : State) (p : Port) (x : EventSet) : (s.setEvents p x).clu = s.clu := by cases p <;> rfl
@[simp] theorem State.setEvents_wch (s : State) (p : Port) (x : EventSet) : (s.setEvents p x).wch = s.wch := by cases p <;> rfl
@[simp] theorem State.setEvents_dsu (s : State) (p : Port) (x : EventSet) : (s.setEvents p x).dsu = s.dsu := by cases p <;> rfl
@[simp] theorem State.setEvents_lamps (s : State) (p : Port) (x : EventSet) : (s.setEvents p x).lamps = s.lamps := by cases p <;> rfl
@[simp] theorem State.setEvents_grt (s : State) (p : Port) (x : EventSet) : (s.setEvents p x).grt = s.grt := by cases p <;> rfl
@[simp] theorem State.setEvents_tkt (s : State) (p : Port) (x : EventSet) : (s.setEvents p x).tkt = s.tkt := by cases p <;> rfl
@[simp] theorem State.setEvents_vtr (s : State) (p : Port) (x : EventSet) : (s.setEvents p x).vtr = s.vtr := by cases p <;> rfl
@[simp] theorem State.setEvents_pyu (s : State) (p : Port) (x : EventSet) : (s.setEvents p x).pyu = s.pyu := by cases p <;> rfl
@[simp] theorem State.setEvents_rpu (s : State) (p : Port) (x : EventSet) : (s.setEvents p x).rpu = s.rpu := by cases p <;> rfl
@[simp] theorem State.setEvents_pending (s : State) (p : Port) (x : EventSet) : (s.setEvents p x).pending = s.pending := by cases p <;> rfl

/-! latch -/

@[simp] theorem State.latch_powered (s : State) (p : Port) (f : EventFlag) : (s.latch p f).powered = s.powered := by cases p <;> rfl
@[simp] theorem State.latch_elapsed (s : State) (p : Port) (f : EventFlag) : (s.latch p f).elapsed = s.elapsed := by cases p <;> rfl
@[simp] theorem State.latch_straps (s : State) (p : Port) (f : EventFlag) : (s.latch p f).straps = s.straps := by cases p <;> rfl
@[simp] theorem State.latch_settingsLost (s : State) (p : Port) (f : EventFlag) : (s.latch p f).settingsLost = s.settingsLost := by cases p <;> rfl
@[simp] theorem State.latch_retainLost (s : State) (p : Port) (f : EventFlag) : (s.latch p f).retainLost = s.retainLost := by cases p <;> rfl
@[simp] theorem State.latch_office (s : State) (p : Port) (f : EventFlag) : (s.latch p f).office = s.office := by cases p <;> rfl
@[simp] theorem State.latch_window (s : State) (p : Port) (f : EventFlag) : (s.latch p f).window = s.window := by cases p <;> rfl
@[simp] theorem State.latch_outs (s : State) (p : Port) (f : EventFlag) : (s.latch p f).outs = s.outs := by cases p <;> rfl
@[simp] theorem State.latch_clu (s : State) (p : Port) (f : EventFlag) : (s.latch p f).clu = s.clu := by cases p <;> rfl
@[simp] theorem State.latch_wch (s : State) (p : Port) (f : EventFlag) : (s.latch p f).wch = s.wch := by cases p <;> rfl
@[simp] theorem State.latch_dsu (s : State) (p : Port) (f : EventFlag) : (s.latch p f).dsu = s.dsu := by cases p <;> rfl
@[simp] theorem State.latch_lamps (s : State) (p : Port) (f : EventFlag) : (s.latch p f).lamps = s.lamps := by cases p <;> rfl
@[simp] theorem State.latch_grt (s : State) (p : Port) (f : EventFlag) : (s.latch p f).grt = s.grt := by cases p <;> rfl
@[simp] theorem State.latch_tkt (s : State) (p : Port) (f : EventFlag) : (s.latch p f).tkt = s.tkt := by cases p <;> rfl
@[simp] theorem State.latch_vtr (s : State) (p : Port) (f : EventFlag) : (s.latch p f).vtr = s.vtr := by cases p <;> rfl
@[simp] theorem State.latch_pyu (s : State) (p : Port) (f : EventFlag) : (s.latch p f).pyu = s.pyu := by cases p <;> rfl
@[simp] theorem State.latch_rpu (s : State) (p : Port) (f : EventFlag) : (s.latch p f).rpu = s.rpu := by cases p <;> rfl
@[simp] theorem State.latch_pending (s : State) (p : Port) (f : EventFlag) : (s.latch p f).pending = s.pending := by cases p <;> rfl

/-! latchBoth -/

@[simp] theorem State.latchBoth_powered (s : State) (f : EventFlag) : (s.latchBoth f).powered = s.powered := rfl
@[simp] theorem State.latchBoth_elapsed (s : State) (f : EventFlag) : (s.latchBoth f).elapsed = s.elapsed := rfl
@[simp] theorem State.latchBoth_straps (s : State) (f : EventFlag) : (s.latchBoth f).straps = s.straps := rfl
@[simp] theorem State.latchBoth_settingsLost (s : State) (f : EventFlag) : (s.latchBoth f).settingsLost = s.settingsLost := rfl
@[simp] theorem State.latchBoth_retainLost (s : State) (f : EventFlag) : (s.latchBoth f).retainLost = s.retainLost := rfl
@[simp] theorem State.latchBoth_office (s : State) (f : EventFlag) : (s.latchBoth f).office = s.office := rfl
@[simp] theorem State.latchBoth_window (s : State) (f : EventFlag) : (s.latchBoth f).window = s.window := rfl
@[simp] theorem State.latchBoth_outs (s : State) (f : EventFlag) : (s.latchBoth f).outs = s.outs := rfl
@[simp] theorem State.latchBoth_clu (s : State) (f : EventFlag) : (s.latchBoth f).clu = s.clu := rfl
@[simp] theorem State.latchBoth_wch (s : State) (f : EventFlag) : (s.latchBoth f).wch = s.wch := rfl
@[simp] theorem State.latchBoth_dsu (s : State) (f : EventFlag) : (s.latchBoth f).dsu = s.dsu := rfl
@[simp] theorem State.latchBoth_lamps (s : State) (f : EventFlag) : (s.latchBoth f).lamps = s.lamps := rfl
@[simp] theorem State.latchBoth_grt (s : State) (f : EventFlag) : (s.latchBoth f).grt = s.grt := rfl
@[simp] theorem State.latchBoth_tkt (s : State) (f : EventFlag) : (s.latchBoth f).tkt = s.tkt := rfl
@[simp] theorem State.latchBoth_vtr (s : State) (f : EventFlag) : (s.latchBoth f).vtr = s.vtr := rfl
@[simp] theorem State.latchBoth_pyu (s : State) (f : EventFlag) : (s.latchBoth f).pyu = s.pyu := rfl
@[simp] theorem State.latchBoth_rpu (s : State) (f : EventFlag) : (s.latchBoth f).rpu = s.rpu := rfl
@[simp] theorem State.latchBoth_pending (s : State) (f : EventFlag) : (s.latchBoth f).pending = s.pending := rfl

/-! setAlert -/

@[simp] theorem State.setAlert_powered (s : State) (src : AlertSource) (x : AlertState) : (s.setAlert src x).powered = s.powered := rfl
@[simp] theorem State.setAlert_elapsed (s : State) (src : AlertSource) (x : AlertState) : (s.setAlert src x).elapsed = s.elapsed := rfl
@[simp] theorem State.setAlert_straps (s : State) (src : AlertSource) (x : AlertState) : (s.setAlert src x).straps = s.straps := rfl
@[simp] theorem State.setAlert_settingsLost (s : State) (src : AlertSource) (x : AlertState) : (s.setAlert src x).settingsLost = s.settingsLost := rfl
@[simp] theorem State.setAlert_retainLost (s : State) (src : AlertSource) (x : AlertState) : (s.setAlert src x).retainLost = s.retainLost := rfl
@[simp] theorem State.setAlert_office (s : State) (src : AlertSource) (x : AlertState) : (s.setAlert src x).office = s.office := rfl
@[simp] theorem State.setAlert_window (s : State) (src : AlertSource) (x : AlertState) : (s.setAlert src x).window = s.window := rfl
@[simp] theorem State.setAlert_outs (s : State) (src : AlertSource) (x : AlertState) : (s.setAlert src x).outs = s.outs := rfl
@[simp] theorem State.setAlert_clu (s : State) (src : AlertSource) (x : AlertState) : (s.setAlert src x).clu = s.clu := rfl
@[simp] theorem State.setAlert_wch (s : State) (src : AlertSource) (x : AlertState) : (s.setAlert src x).wch = s.wch := rfl
@[simp] theorem State.setAlert_dsu (s : State) (src : AlertSource) (x : AlertState) : (s.setAlert src x).dsu = s.dsu := rfl
@[simp] theorem State.setAlert_lamps (s : State) (src : AlertSource) (x : AlertState) : (s.setAlert src x).lamps = s.lamps := rfl
@[simp] theorem State.setAlert_grt (s : State) (src : AlertSource) (x : AlertState) : (s.setAlert src x).grt = s.grt := rfl
@[simp] theorem State.setAlert_tkt (s : State) (src : AlertSource) (x : AlertState) : (s.setAlert src x).tkt = s.tkt := rfl
@[simp] theorem State.setAlert_vtr (s : State) (src : AlertSource) (x : AlertState) : (s.setAlert src x).vtr = s.vtr := rfl
@[simp] theorem State.setAlert_pyu (s : State) (src : AlertSource) (x : AlertState) : (s.setAlert src x).pyu = s.pyu := rfl
@[simp] theorem State.setAlert_rpu (s : State) (src : AlertSource) (x : AlertState) : (s.setAlert src x).rpu = s.rpu := rfl
@[simp] theorem State.setAlert_pending (s : State) (src : AlertSource) (x : AlertState) : (s.setAlert src x).pending = s.pending := rfl

/-! setLampBank -/

@[simp] theorem State.setLampBank_powered (s : State) (b : Bridge) (x : LampBank) : (s.setLampBank b x).powered = s.powered := by cases b <;> rfl
@[simp] theorem State.setLampBank_elapsed (s : State) (b : Bridge) (x : LampBank) : (s.setLampBank b x).elapsed = s.elapsed := by cases b <;> rfl
@[simp] theorem State.setLampBank_straps (s : State) (b : Bridge) (x : LampBank) : (s.setLampBank b x).straps = s.straps := by cases b <;> rfl
@[simp] theorem State.setLampBank_settingsLost (s : State) (b : Bridge) (x : LampBank) : (s.setLampBank b x).settingsLost = s.settingsLost := by cases b <;> rfl
@[simp] theorem State.setLampBank_retainLost (s : State) (b : Bridge) (x : LampBank) : (s.setLampBank b x).retainLost = s.retainLost := by cases b <;> rfl
@[simp] theorem State.setLampBank_office (s : State) (b : Bridge) (x : LampBank) : (s.setLampBank b x).office = s.office := by cases b <;> rfl
@[simp] theorem State.setLampBank_window (s : State) (b : Bridge) (x : LampBank) : (s.setLampBank b x).window = s.window := by cases b <;> rfl
@[simp] theorem State.setLampBank_evu (s : State) (b : Bridge) (x : LampBank) : (s.setLampBank b x).evu = s.evu := by cases b <;> rfl
@[simp] theorem State.setLampBank_outs (s : State) (b : Bridge) (x : LampBank) : (s.setLampBank b x).outs = s.outs := by cases b <;> rfl
@[simp] theorem State.setLampBank_clu (s : State) (b : Bridge) (x : LampBank) : (s.setLampBank b x).clu = s.clu := by cases b <;> rfl
@[simp] theorem State.setLampBank_wch (s : State) (b : Bridge) (x : LampBank) : (s.setLampBank b x).wch = s.wch := by cases b <;> rfl
@[simp] theorem State.setLampBank_dsu (s : State) (b : Bridge) (x : LampBank) : (s.setLampBank b x).dsu = s.dsu := by cases b <;> rfl
@[simp] theorem State.setLampBank_grt (s : State) (b : Bridge) (x : LampBank) : (s.setLampBank b x).grt = s.grt := by cases b <;> rfl
@[simp] theorem State.setLampBank_tkt (s : State) (b : Bridge) (x : LampBank) : (s.setLampBank b x).tkt = s.tkt := by cases b <;> rfl
@[simp] theorem State.setLampBank_vtr (s : State) (b : Bridge) (x : LampBank) : (s.setLampBank b x).vtr = s.vtr := by cases b <;> rfl
@[simp] theorem State.setLampBank_pyu (s : State) (b : Bridge) (x : LampBank) : (s.setLampBank b x).pyu = s.pyu := by cases b <;> rfl
@[simp] theorem State.setLampBank_rpu (s : State) (b : Bridge) (x : LampBank) : (s.setLampBank b x).rpu = s.rpu := by cases b <;> rfl
@[simp] theorem State.setLampBank_pending (s : State) (b : Bridge) (x : LampBank) : (s.setLampBank b x).pending = s.pending := by cases b <;> rfl

/-! setLine -/

@[simp] theorem State.setLine_powered (s : State) (line : Nat) (x : YardLine) : (s.setLine line x).powered = s.powered := rfl
@[simp] theorem State.setLine_elapsed (s : State) (line : Nat) (x : YardLine) : (s.setLine line x).elapsed = s.elapsed := rfl
@[simp] theorem State.setLine_straps (s : State) (line : Nat) (x : YardLine) : (s.setLine line x).straps = s.straps := rfl
@[simp] theorem State.setLine_settingsLost (s : State) (line : Nat) (x : YardLine) : (s.setLine line x).settingsLost = s.settingsLost := rfl
@[simp] theorem State.setLine_retainLost (s : State) (line : Nat) (x : YardLine) : (s.setLine line x).retainLost = s.retainLost := rfl
@[simp] theorem State.setLine_office (s : State) (line : Nat) (x : YardLine) : (s.setLine line x).office = s.office := rfl
@[simp] theorem State.setLine_window (s : State) (line : Nat) (x : YardLine) : (s.setLine line x).window = s.window := rfl
@[simp] theorem State.setLine_evu (s : State) (line : Nat) (x : YardLine) : (s.setLine line x).evu = s.evu := rfl
@[simp] theorem State.setLine_outs (s : State) (line : Nat) (x : YardLine) : (s.setLine line x).outs = s.outs := rfl
@[simp] theorem State.setLine_clu (s : State) (line : Nat) (x : YardLine) : (s.setLine line x).clu = s.clu := rfl
@[simp] theorem State.setLine_wch (s : State) (line : Nat) (x : YardLine) : (s.setLine line x).wch = s.wch := rfl
@[simp] theorem State.setLine_lamps (s : State) (line : Nat) (x : YardLine) : (s.setLine line x).lamps = s.lamps := rfl
@[simp] theorem State.setLine_grt (s : State) (line : Nat) (x : YardLine) : (s.setLine line x).grt = s.grt := rfl
@[simp] theorem State.setLine_tkt (s : State) (line : Nat) (x : YardLine) : (s.setLine line x).tkt = s.tkt := rfl
@[simp] theorem State.setLine_vtr (s : State) (line : Nat) (x : YardLine) : (s.setLine line x).vtr = s.vtr := rfl
@[simp] theorem State.setLine_pyu (s : State) (line : Nat) (x : YardLine) : (s.setLine line x).pyu = s.pyu := rfl
@[simp] theorem State.setLine_rpu (s : State) (line : Nat) (x : YardLine) : (s.setLine line x).rpu = s.rpu := rfl
@[simp] theorem State.setLine_pending (s : State) (line : Nat) (x : YardLine) : (s.setLine line x).pending = s.pending := rfl

/-! setNextPlatform -/

@[simp] theorem State.setNextPlatform_powered (s : State) (n : Platform) : (s.setNextPlatform n).powered = s.powered := rfl
@[simp] theorem State.setNextPlatform_elapsed (s : State) (n : Platform) : (s.setNextPlatform n).elapsed = s.elapsed := rfl
@[simp] theorem State.setNextPlatform_straps (s : State) (n : Platform) : (s.setNextPlatform n).straps = s.straps := rfl
@[simp] theorem State.setNextPlatform_settingsLost (s : State) (n : Platform) : (s.setNextPlatform n).settingsLost = s.settingsLost := rfl
@[simp] theorem State.setNextPlatform_retainLost (s : State) (n : Platform) : (s.setNextPlatform n).retainLost = s.retainLost := rfl
@[simp] theorem State.setNextPlatform_office (s : State) (n : Platform) : (s.setNextPlatform n).office = s.office := rfl
@[simp] theorem State.setNextPlatform_window (s : State) (n : Platform) : (s.setNextPlatform n).window = s.window := rfl
@[simp] theorem State.setNextPlatform_evu (s : State) (n : Platform) : (s.setNextPlatform n).evu = s.evu := rfl
@[simp] theorem State.setNextPlatform_outs (s : State) (n : Platform) : (s.setNextPlatform n).outs = s.outs := rfl
@[simp] theorem State.setNextPlatform_clu (s : State) (n : Platform) : (s.setNextPlatform n).clu = s.clu := rfl
@[simp] theorem State.setNextPlatform_dsu (s : State) (n : Platform) : (s.setNextPlatform n).dsu = s.dsu := rfl
@[simp] theorem State.setNextPlatform_lamps (s : State) (n : Platform) : (s.setNextPlatform n).lamps = s.lamps := rfl
@[simp] theorem State.setNextPlatform_grt (s : State) (n : Platform) : (s.setNextPlatform n).grt = s.grt := rfl
@[simp] theorem State.setNextPlatform_tkt (s : State) (n : Platform) : (s.setNextPlatform n).tkt = s.tkt := rfl
@[simp] theorem State.setNextPlatform_vtr (s : State) (n : Platform) : (s.setNextPlatform n).vtr = s.vtr := rfl
@[simp] theorem State.setNextPlatform_pyu (s : State) (n : Platform) : (s.setNextPlatform n).pyu = s.pyu := rfl
@[simp] theorem State.setNextPlatform_rpu (s : State) (n : Platform) : (s.setNextPlatform n).rpu = s.rpu := rfl
@[simp] theorem State.setNextPlatform_pending (s : State) (n : Platform) : (s.setNextPlatform n).pending = s.pending := rfl

/-! settle -/

@[simp] theorem State.settle_powered (s : State) : (s.settle).powered = s.powered := rfl
@[simp] theorem State.settle_elapsed (s : State) : (s.settle).elapsed = s.elapsed := rfl
@[simp] theorem State.settle_straps (s : State) : (s.settle).straps = s.straps := rfl
@[simp] theorem State.settle_settingsLost (s : State) : (s.settle).settingsLost = s.settingsLost := rfl
@[simp] theorem State.settle_retainLost (s : State) : (s.settle).retainLost = s.retainLost := rfl
@[simp] theorem State.settle_office (s : State) : (s.settle).office = s.office := rfl
@[simp] theorem State.settle_window (s : State) : (s.settle).window = s.window := rfl
@[simp] theorem State.settle_evu (s : State) : (s.settle).evu = s.evu := rfl
@[simp] theorem State.settle_clu (s : State) : (s.settle).clu = s.clu := rfl
@[simp] theorem State.settle_wch (s : State) : (s.settle).wch = s.wch := rfl
@[simp] theorem State.settle_dsu (s : State) : (s.settle).dsu = s.dsu := rfl
@[simp] theorem State.settle_grt (s : State) : (s.settle).grt = s.grt := rfl
@[simp] theorem State.settle_tkt (s : State) : (s.settle).tkt = s.tkt := rfl
@[simp] theorem State.settle_vtr (s : State) : (s.settle).vtr = s.vtr := rfl
@[simp] theorem State.settle_pyu (s : State) : (s.settle).pyu = s.pyu := rfl
@[simp] theorem State.settle_rpu (s : State) : (s.settle).rpu = s.rpu := rfl
@[simp] theorem State.settle_pending (s : State) : (s.settle).pending = s.pending := rfl

/-! second -/

@[simp] theorem State.second_powered (s : State) : (s.second).powered = s.powered := rfl
@[simp] theorem State.second_straps (s : State) : (s.second).straps = s.straps := rfl
@[simp] theorem State.second_settingsLost (s : State) : (s.second).settingsLost = s.settingsLost := rfl
@[simp] theorem State.second_retainLost (s : State) : (s.second).retainLost = s.retainLost := rfl
@[simp] theorem State.second_office (s : State) : (s.second).office = s.office := rfl
@[simp] theorem State.second_window (s : State) : (s.second).window = s.window := rfl
@[simp] theorem State.second_evu (s : State) : (s.second).evu = s.evu := rfl
@[simp] theorem State.second_outs (s : State) : (s.second).outs = s.outs := rfl
@[simp] theorem State.second_wch (s : State) : (s.second).wch = s.wch := rfl
@[simp] theorem State.second_dsu (s : State) : (s.second).dsu = s.dsu := rfl
@[simp] theorem State.second_lamps (s : State) : (s.second).lamps = s.lamps := rfl
@[simp] theorem State.second_grt (s : State) : (s.second).grt = s.grt := rfl
@[simp] theorem State.second_tkt (s : State) : (s.second).tkt = s.tkt := rfl
@[simp] theorem State.second_vtr (s : State) : (s.second).vtr = s.vtr := rfl
@[simp] theorem State.second_pyu (s : State) : (s.second).pyu = s.pyu := rfl
@[simp] theorem State.second_rpu (s : State) : (s.second).rpu = s.rpu := rfl
@[simp] theorem State.second_pending (s : State) : (s.second).pending = s.pending := rfl

/-! withPending -/

@[simp] theorem State.withPending_powered (s : State) (q : List Instr) : (s.withPending q).powered = s.powered := rfl
@[simp] theorem State.withPending_elapsed (s : State) (q : List Instr) : (s.withPending q).elapsed = s.elapsed := rfl
@[simp] theorem State.withPending_straps (s : State) (q : List Instr) : (s.withPending q).straps = s.straps := rfl
@[simp] theorem State.withPending_settingsLost (s : State) (q : List Instr) : (s.withPending q).settingsLost = s.settingsLost := rfl
@[simp] theorem State.withPending_retainLost (s : State) (q : List Instr) : (s.withPending q).retainLost = s.retainLost := rfl
@[simp] theorem State.withPending_office (s : State) (q : List Instr) : (s.withPending q).office = s.office := rfl
@[simp] theorem State.withPending_window (s : State) (q : List Instr) : (s.withPending q).window = s.window := rfl
@[simp] theorem State.withPending_evu (s : State) (q : List Instr) : (s.withPending q).evu = s.evu := rfl
@[simp] theorem State.withPending_outs (s : State) (q : List Instr) : (s.withPending q).outs = s.outs := rfl
@[simp] theorem State.withPending_clu (s : State) (q : List Instr) : (s.withPending q).clu = s.clu := rfl
@[simp] theorem State.withPending_wch (s : State) (q : List Instr) : (s.withPending q).wch = s.wch := rfl
@[simp] theorem State.withPending_dsu (s : State) (q : List Instr) : (s.withPending q).dsu = s.dsu := rfl
@[simp] theorem State.withPending_lamps (s : State) (q : List Instr) : (s.withPending q).lamps = s.lamps := rfl
@[simp] theorem State.withPending_grt (s : State) (q : List Instr) : (s.withPending q).grt = s.grt := rfl
@[simp] theorem State.withPending_tkt (s : State) (q : List Instr) : (s.withPending q).tkt = s.tkt := rfl
@[simp] theorem State.withPending_vtr (s : State) (q : List Instr) : (s.withPending q).vtr = s.vtr := rfl
@[simp] theorem State.withPending_pyu (s : State) (q : List Instr) : (s.withPending q).pyu = s.pyu := rfl
@[simp] theorem State.withPending_rpu (s : State) (q : List Instr) : (s.withPending q).rpu = s.rpu := rfl

/-! Reading back -/

@[simp] theorem State.chan_setChan (s : State) (ch : Channel) (x : ChannelState) : (s.setChan ch x).chan ch = x := by
  cases ch <;> rfl

theorem State.chan_setChan_of_ne (s : State) {ch ch' : Channel} (x : ChannelState) (h : ch' ≠ ch) :
    (s.setChan ch x).chan ch' = s.chan ch' := by
  cases ch <;> cases ch' <;> first | rfl | exact absurd rfl h

@[simp] theorem State.bridge_setBridge (s : State) (b : Bridge) (x : BridgeState) : (s.setBridge b x).bridge b = x := by
  cases b <;> rfl

theorem State.bridge_setBridge_of_ne (s : State) {b b' : Bridge} (x : BridgeState) (h : b' ≠ b) :
    (s.setBridge b x).bridge b' = s.bridge b' := by
  cases b <;> cases b' <;> first | rfl | exact absurd rfl h

@[simp] theorem State.port_setPort (s : State) (p : Port) (x : PortState) : (s.setPort p x).port p = x := by
  cases p <;> rfl

@[simp] theorem State.port_other_setPort (s : State) (p : Port) (x : PortState) :
    (s.setPort p x).port p.other = s.port p.other := by
  cases p <;> rfl

@[simp] theorem State.setPort_setPort (s : State) (p : Port) (x y : PortState) : (s.setPort p x).setPort p y = s.setPort p y := by
  cases p <;> rfl

@[simp] theorem State.setPort_port (s : State) (p : Port) : s.setPort p (s.port p) = s := by
  cases p <;> rfl

@[simp] theorem State.setChan_setChan (s : State) (ch : Channel) (x y : ChannelState) :
    (s.setChan ch x).setChan ch y = s.setChan ch y := by
  cases ch <;> rfl

@[simp] theorem State.setChan_chan (s : State) (ch : Channel) : s.setChan ch (s.chan ch) = s := by
  cases ch <;> rfl

@[simp] theorem State.setBridge_setBridge (s : State) (b : Bridge) (x y : BridgeState) :
    (s.setBridge b x).setBridge b y = s.setBridge b y := by
  cases b <;> rfl

@[simp] theorem State.events_setEvents (s : State) (p : Port) (x : EventSet) : (s.setEvents p x).events p = x := by
  cases p <;> rfl

@[simp] theorem State.events_setPort (s : State) (p q : Port) (x : PortState) : (s.setPort p x).events q = s.events q := by
  cases p <;> cases q <;> rfl

@[simp] theorem State.chan_setPort (s : State) (p : Port) (x : PortState) (ch : Channel) : (s.setPort p x).chan ch = s.chan ch := by
  cases p <;> cases ch <;> rfl

@[simp] theorem State.bridge_setPort (s : State) (p : Port) (x : PortState) (b : Bridge) :
    (s.setPort p x).bridge b = s.bridge b := by
  cases p <;> cases b <;> rfl

@[simp] theorem State.chan_setBridge (s : State) (b : Bridge) (x : BridgeState) (ch : Channel) :
    (s.setBridge b x).chan ch = s.chan ch := by
  cases b <;> cases ch <;> rfl

@[simp] theorem State.bridge_setChan (s : State) (ch : Channel) (x : ChannelState) (b : Bridge) :
    (s.setChan ch x).bridge b = s.bridge b := by
  cases b <;> cases ch <;> rfl

@[simp] theorem State.chan_latch (s : State) (p : Port) (f : EventFlag) (ch : Channel) : (s.latch p f).chan ch = s.chan ch := by
  cases p <;> cases ch <;> rfl

@[simp] theorem State.chan_latchBoth (s : State) (f : EventFlag) (ch : Channel) : (s.latchBoth f).chan ch = s.chan ch := by
  cases ch <;> rfl

@[simp] theorem State.bridge_latch (s : State) (p : Port) (f : EventFlag) (b : Bridge) :
    (s.latch p f).bridge b = s.bridge b := by
  cases p <;> cases b <;> rfl

@[simp] theorem State.bridge_latchBoth (s : State) (f : EventFlag) (b : Bridge) : (s.latchBoth f).bridge b = s.bridge b := by
  cases b <;> rfl

@[simp] theorem State.port_latch (s : State) (p q : Port) (f : EventFlag) : (s.latch p f).port q = s.port q := by
  cases p <;> cases q <;> rfl

@[simp] theorem State.port_latchBoth (s : State) (q : Port) (f : EventFlag) : (s.latchBoth f).port q = s.port q := by
  cases q <;> rfl

@[simp] theorem State.port_settle (s : State) (p : Port) : s.settle.port p = s.port p := by
  cases p <;> rfl

@[simp] theorem State.chan_settle (s : State) (ch : Channel) : s.settle.chan ch = s.chan ch := by
  cases ch <;> rfl

@[simp] theorem State.bridge_settle (s : State) (b : Bridge) : s.settle.bridge b = s.bridge b := by
  cases b <;> rfl

@[simp] theorem State.events_settle (s : State) (p : Port) : s.settle.events p = s.events p := by
  cases p <;> rfl

end Sys2Proof.Machine
end

