-- ==== Sys2Proof/Laws/Flags.lean ====
section
/-! SUPPORT. What latching a flag does to every flag and mask of both ports (R190). -/

namespace Sys2Proof.Machine

theorem EventFlag.bit_lt (f : EventFlag) : f.bit < 24 := by
  cases f with
  | captureEnd c => cases c <;> decide
  | channel c => cases c <;> decide
  | deck b => cases b <;> decide
  | _ => decide

/-- The flag a bit of the set names (section 11.7). -/
def EventFlag.ofBit : Nat → EventFlag
  | 0 => .captureEnd .c0 | 1 => .captureEnd .c1 | 2 => .captureEnd .c2 | 3 => .captureEnd .c3
  | 4 => .deck .b0 | 5 => .deck .b1
  | 6 => .channel .c0 | 7 => .channel .c1 | 8 => .channel .c2 | 9 => .channel .c3
  | 10 => .claimLapsed | 11 => .holdRelease | 12 => .payoutEnd | 13 => .cashLow | 14 => .cashFault | 15 => .printEnd
  | 16 => .printer | 17 => .paperLow | 18 => .clock | 19 => .retainLost | 20 => .settingsLost | 21 => .alert | _ => .lineChange

theorem EventFlag.ofBit_bit (f : EventFlag) : EventFlag.ofBit f.bit = f := by
  cases f with
  | captureEnd c => cases c <;> rfl
  | channel c => cases c <;> rfl
  | deck b => cases b <;> rfl
  | _ => rfl

/-- Two flags never share a bit. -/
theorem EventFlag.bit_injective {f g : EventFlag} (h : f.bit = g.bit) : f = g := by rw [← f.ofBit_bit, h, g.ofBit_bit]

/-- A flag's mark holds that flag and no other. -/
theorem EventFlag.mark_bit (f g : EventFlag) : f.mark.getLsbD g.bit = decide (g = f) := by
  simp only [EventFlag.mark, BitVec.getLsbD_shiftLeft]
  by_cases h : g = f
  · subst h; simp [g.bit_lt]
  · have hb : g.bit ≠ f.bit := fun e => h (EventFlag.bit_injective e)
    simp only [h, g.bit_lt, decide_true, Bool.true_and, decide_false, Bool.and_eq_false_iff, Bool.not_eq_false', decide_eq_true_eq,
      BitVec.getLsbD_one, decide_eq_false_iff_not]
    omega

/-- A flag latched to a port is latched there, and every other flag of either port is as it was. -/
theorem State.has_latch (s : State) (p q : Port) (f g : EventFlag) :
    ((s.latch p f).events q).has g = ((s.events q).has g || (decide (g = f) && decide (p = q))) := by
  cases p <;> cases q <;> simp [State.latch, State.setEvents, State.events, EventSet.latch, EventSet.has, EventFlag.mark_bit]

theorem State.has_latchBoth (s : State) (q : Port) (f g : EventFlag) :
    ((s.latchBoth f).events q).has g = ((s.events q).has g || decide (g = f)) := by
  simp only [State.latchBoth, State.has_latch]
  cases q <;> cases (s.events _).has g <;> simp

@[simp] theorem State.mask_latch (s : State) (p q : Port) (f : EventFlag) : ((s.latch p f).events q).mask = (s.events q).mask := by
  cases p <;> cases q <;> rfl

@[simp] theorem State.mask_latchBoth (s : State) (q : Port) (f : EventFlag) :
    ((s.latchBoth f).events q).mask = (s.events q).mask := by simp [State.latchBoth]

end Sys2Proof.Machine
end

