-- ==== Sys2Proof/Laws/Judging.lean ====
section
/-! SUPPORT. The lamps and outputs an event leaves, judged by the words of R38, R193, R194 and R196: the spelled-out judgement of
Safety.lean is what `State.settle` computes. -/

namespace Sys2Proof.Machine

/-- The view chosen step by step is that of the table of R38. -/
theorem State.viewByTable_eq (s : State) (b : Bridge) : s.viewByTable b = s.lampView b := by
  simp only [State.viewByTable, State.lampView, List.mem_cons, List.not_mem_nil, or_false]
  cases (s.bridge b).pos <;> simp

/-- A bank given a row stays as it is exactly when its roles run the row's patterns (R40). -/
theorem LampBank.take_eq_iff (l : LampBank) (r : AspectRow) : l.take r = l ↔
    [l.entryRed.pattern, l.entryGreen.pattern, l.exitRed.pattern, l.exitGreen.pattern] =
      [r.entryRed, r.entryGreen, r.exitRed, r.exitGreen] := by
  have one (x : LampRun) (n : Nat) : x.take n = x ↔ x.pattern = n := by
    unfold LampRun.take LampRun.begin
    split
    · simp_all
    · constructor
      · intro h; rw [← h] 
      · intro h; contradiction
  obtain ⟨a, b, c, d⟩ := l
  simp [LampBank.take, one]

theorem set_ne_zero (x : BitVec 24) : x ≠ 0 ↔ ∃ i, i < 24 ∧ x.getLsbD i = true := by
  constructor
  · intro h
    by_contra hc
    push Not at hc
    apply h
    apply BitVec.eq_of_getLsbD_eq
    intro i hi
    simpa using hc i hi
  · rintro ⟨i, -, hi⟩ rfl
    simp at hi


theorem set_or_eq_zero {w : Nat} (x y : BitVec w) : x ||| y = 0 ↔ x = 0 ∧ y = 0 := BitVec.or_eq_zero_iff

theorem EventSet.category_eq_zero (e : EventSet) (bits : BitVec 24) (place : Nat) (h : place < 8) :
    e.category bits place = 0 ↔ e.latched &&& ~~~e.mask &&& bits = 0 := by
  unfold EventSet.category
  split
  · simp_all
  · rename_i hc
    simp only [hc, iff_false]
    interval_cases place <;> decide

/-- The flag categories of a summary call exactly when one of the 23 flags is latched and not masked (R193). -/
theorem EventSet.summary_ne_zero (e : EventSet) :
    e.summary ≠ 0 ↔ ∃ i, i < 23 ∧ e.latched.getLsbD i = true ∧ e.mask.getLsbD i = false := by
  have key : e.summary = 0 ↔ (e.latched &&& ~~~e.mask) &&& 0x7FFFFF#24 = 0 := by
    have hb : (0x7FFFFF#24) = weighBits ||| ticketBits ||| cashBits ||| printBits ||| systemBits ||| alertBits := by decide
    rw [hb]
    simp only [BitVec.and_or_distrib_left, EventSet.summary, set_or_eq_zero]
    simp only [e.category_eq_zero _ _ (show 0 < 8 by decide), e.category_eq_zero _ _ (show 1 < 8 by decide),
      e.category_eq_zero _ _ (show 2 < 8 by decide), e.category_eq_zero _ _ (show 3 < 8 by decide),
      e.category_eq_zero _ _ (show 4 < 8 by decide), e.category_eq_zero _ _ (show 5 < 8 by decide)]
  rw [ne_eq, key, ← ne_eq, set_ne_zero]
  constructor
  · rintro ⟨i, hi, h⟩
    have h23 : i < 23 := by
      by_contra hc
      have : i = 23 := by omega
      subst this
      simp at h
    refine ⟨i, h23, ?_⟩
    simp at h
    tauto
  · rintro ⟨i, hi, h1, h2⟩
    refine ⟨i, by omega, ?_⟩
    have : (0x7FFFFF#24).getLsbD i = true := by interval_cases i <;> decide
    simp [h1, h2, this]
    omega

/-- The window attention output is asserted exactly while something calls the window (R194). -/
theorem State.summary_ne_zero_iff_callsWindow (s : State) : s.summary .window ≠ 0 ↔ s.callsWindow := by
  have h : s.summary .window = 0 ↔ s.evu.window.summary = 0 ∧ s.outcomeHeld .window = false := by
    unfold State.summary
    rw [set_or_eq_zero]
    cases s.outcomeHeld .window <;> simp [State.events]
  rw [ne_eq, h, not_and_or, ← ne_eq, EventSet.summary_ne_zero]
  have held {α : Type} (x : Option (Port × α)) : heldFor x .window = true ↔ x.map (·.1) = some .window := by
    rcases x with _ | ⟨p, y⟩ <;> simp [heldFor]
  simp only [State.callsWindow, State.outcomeHeld, Bool.not_eq_false, Bool.or_eq_true, held, State.chan, or_assoc]

/-- The yard alert output is asserted exactly while something calls the yard (R196). -/
theorem State.asserts_iff_callsYard (s : State) : s.evu.alerts.asserts = true ↔ s.callsYard := by
  simp only [Alerts.asserts, State.callsYard, AlertState.calls, Bool.and_eq_true, Bool.or_eq_true, List.exists_mem_cons_iff,
    List.not_mem_nil, false_and, exists_false, or_false, or_assoc]

/-- A part with power has its lamps and outputs judged exactly when judging them again changes nothing. -/
theorem State.judged_iff_settle (s : State) (hp : s.powered = true) : s.judged ↔ s.settle = s := by
  have h1 : (s.outs.attention = true ↔ s.callsWindow) ↔ decide (s.summary .window ≠ 0) = s.outs.attention := by
    rw [← State.summary_ne_zero_iff_callsWindow]; cases s.outs.attention <;> simp
  have h2 : (s.outs.yardAlert = true ↔ s.callsYard) ↔ s.evu.alerts.asserts = s.outs.yardAlert := by
    rw [← State.asserts_iff_callsYard]; cases s.outs.yardAlert <;> cases s.evu.alerts.asserts <;> simp
  have hl (b : Bridge) : s.lampsFollow b ↔ (s.lampBank b).take (s.lampRow b) = s.lampBank b := by
    rw [LampBank.take_eq_iff]
    unfold State.lampsFollow State.lampRow
    rw [State.viewByTable_eq]
    cases (s.bridge b).override with
    | some o => rfl
    | none => cases s.lampView b <;> rfl
  have : s.settle = s ↔ (s.lampBank .b0).take (s.lampRow .b0) = s.lampBank .b0 ∧ (s.lampBank .b1).take (s.lampRow .b1) = s.lampBank .b1
      ∧ decide (s.summary .window ≠ 0) = s.outs.attention ∧ s.evu.alerts.asserts = s.outs.yardAlert := by
    constructor
    · intro h
      have hL := congrArg State.lamps h
      have hO := congrArg State.outs h
      simp only [State.settle] at hL hO
      exact ⟨congrArg Lamps.bridge0 hL, congrArg Lamps.bridge1 hL, congrArg Outputs.attention hO, congrArg Outputs.yardAlert hO⟩
    · rintro ⟨a, b, c, d⟩
      unfold State.settle
      simp only [State.lampBank] at a b
      rw [a, b, c, d]
  rw [this, State.judged, if_pos hp, h1, h2, hl, hl]

/-- The figures of a payout spelled out are those `State.writePayout` writes (R85). -/
theorem State.figuresWritten_eq (s : State) (p : Payout) : s.figuresWritten p = s.writePayout p := rfl

end Sys2Proof.Machine
end

