-- ==== Sys2Proof/Laws/Operations.lean ====
section
/-! SUPPORT. What each shared operation reaches, said once: the blocks it may write, every other field of the state being as it was. -/

namespace Sys2Proof.Machine

/-! Events and alerts reach the event unit alone (R190, R195) -/

theorem State.latch_frame (s : State) (p : Port) (f : EventFlag) : ∃ e, s.latch p f = { s with evu := e } := by
  cases p <;> exact ⟨_, rfl⟩

theorem State.latchBoth_frame (s : State) (f : EventFlag) : ∃ e, s.latchBoth f = { s with evu := e } := ⟨_, rfl⟩

theorem State.markAlert_frame (s : State) (src : AlertSource) : ∃ e, s.markAlert src = { s with evu := e } := by
  unfold State.markAlert
  dsimp only
  split
  · exact ⟨s.evu, rfl⟩
  · exact ⟨_, rfl⟩

/-- A latched source keeps its first stamp (R195). -/
theorem State.markAlert_latched (s : State) (src : AlertSource) (x : Stamp) (h : (s.evu.alerts.get src).latch = some x) :
    s.markAlert src = s := by simp [State.markAlert, h]

theorem State.beginAlert_frame (s before : State) (src : AlertSource) : ∃ e, s.beginAlert before src = { s with evu := e } := by
  unfold State.beginAlert
  split
  · exact s.markAlert_frame src
  · exact ⟨s.evu, rfl⟩

theorem State.beginAlerts_frame (s before : State) : ∃ e, s.beginAlerts before = { s with evu := e } := by
  obtain ⟨e1, h1⟩ := s.beginAlert_frame before .cashDoor
  obtain ⟨e2, h2⟩ := State.beginAlert_frame { s with evu := e1 } before .cabinet
  obtain ⟨e3, h3⟩ := State.beginAlert_frame { s with evu := e2 } before .calSwitch
  exact ⟨e3, by rw [State.beginAlerts, h1, h2, h3]⟩

/-- Concluding an event writes the event unit, the lamps and the outputs. -/
theorem State.conclude_frame (before after : State) :
    ∃ e l o, before.conclude after = { after with evu := e, lamps := l, outs := o } := by
  obtain ⟨e, h⟩ := after.beginAlerts_frame before
  exact ⟨e, _, _, by rw [State.conclude, h]; rfl⟩

/-! The ticket table (R62) -/

theorem State.changeTicket_frame (s : State) (n : Nat) (f : Ticket → Ticket) :
    ∃ k, s.changeTicket n f = { s with tkt := k } := by
  unfold State.changeTicket
  split
  · exact ⟨s.tkt, rfl⟩
  · exact ⟨_, rfl⟩

/-- The table's counters and series are no part of a record's change. -/
theorem State.changeTicket_counters (s : State) (n : Nat) (f : Ticket → Ticket) :
    (s.changeTicket n f).tkt.counter = s.tkt.counter ∧ (s.changeTicket n f).tkt.opening = s.tkt.opening ∧
      (s.changeTicket n f).tkt.series = s.tkt.series := by
  unfold State.changeTicket
  split <;> exact ⟨rfl, rfl, rfl⟩

theorem Ticket.revised_number (t u : Ticket) (h : u.number = t.number) : (t.revised u).number = t.number := by
  unfold Ticket.revised
  split
  · rfl
  · exact h

/-- A change that leaves every field as it was leaves the revision (R62). -/
@[simp] theorem Ticket.revised_self (t : Ticket) : t.revised t = t := by simp [Ticket.revised]

theorem State.ticket?_number (s : State) (n : Nat) (t : Ticket) (h : s.ticket? n = some t) : t.number = n := by
  have := List.find?_some h
  simpa using this

theorem find?_replaced (l : List Ticket) (n m : Nat) (x : Ticket) (hx : x.number = n) (hm : m ≠ n) :
    (l.map fun y => if y.number = n then x else y).find? (fun y => y.number == m) = l.find? (fun y => y.number == m) := by
  induction l with
  | nil => rfl
  | cons y rest ih =>
    by_cases hy : y.number = n
    · have h1 : (x.number == m) = false := beq_eq_false_iff_ne.mpr fun h => hm (h.symm.trans hx)
      have h2 : (y.number == m) = false := beq_eq_false_iff_ne.mpr fun h => hm (h.symm.trans hy)
      rw [List.map_cons, if_pos hy, List.find?_cons, List.find?_cons, h1, h2]
      exact ih
    · simp only [List.map_cons, List.find?_cons, hy, if_false, ih]

theorem find?_replacing (l : List Ticket) (n : Nat) (t x : Ticket) (hx : x.number = n)
    (h : l.find? (fun y => y.number == n) = some t) :
    (l.map fun y => if y.number = n then x else y).find? (fun y => y.number == n) = some x := by
  induction l with
  | nil => simp at h
  | cons y rest ih =>
    by_cases hy : y.number = n
    · simp [List.map_cons, hy, hx]
    · have h2 : (y.number == n) = false := by simpa using hy
      rw [List.find?_cons, h2] at h
      simp only [List.map_cons, hy, if_false, List.find?_cons, h2]
      exact ih h

/-- The record an event has changed. -/
theorem State.ticket?_changeTicket (s : State) (n : Nat) (f : Ticket → Ticket) (t : Ticket) (h : s.ticket? n = some t)
    (hf : (f t).number = t.number) : (s.changeTicket n f).ticket? n = some (t.revised (f t)) := by
  have hn := s.ticket?_number n t h
  simp only [State.changeTicket, h]
  exact find?_replacing s.tkt.tickets n t _ ((t.revised_number _ hf).trans hn) h

/-- Every other record is as it was. -/
theorem State.ticket?_changeTicket_of_ne (s : State) (n m : Nat) (f : Ticket → Ticket) (hm : m ≠ n)
    (hf : ∀ t, s.ticket? n = some t → (f t).number = t.number) : (s.changeTicket n f).ticket? m = s.ticket? m := by
  cases h : s.ticket? n with
  | none => simp [State.changeTicket, h]
  | some t =>
    have hn := s.ticket?_number n t h
    simp only [State.changeTicket, h]
    exact find?_replaced s.tkt.tickets n m _ ((t.revised_number _ (hf t h)).trans hn) hm

/-- A weighing handed over reaches the ticket table, and only where it is APPLIED (R67). -/
theorem State.handOver_frame (s : State) (r : Option TicketRef) (w : Weighing) (g : Option Nat) (tare : Int) :
    ∃ k, (s.handOver r w g tare).1 = { s with tkt := k } ∧ ((s.handOver r w g tare).2 ≠ .applied → k = s.tkt) := by
  unfold State.handOver
  split
  · exact ⟨s.tkt, rfl, fun _ => rfl⟩
  · split
    · exact ⟨s.tkt, rfl, fun _ => rfl⟩
    · split
      · obtain ⟨k, h⟩ := s.changeTicket_frame _ _
        exact ⟨k, h, fun c => absurd rfl c⟩
      · exact ⟨s.tkt, rfl, fun _ => rfl⟩

theorem State.releaseCheck_frame (s : State) (d : Date) : ∃ k e, s.releaseCheck d = { s with tkt := k, evu := e } := by
  unfold State.releaseCheck
  dsimp only
  split
  · exact ⟨_, s.evu, rfl⟩
  · exact ⟨_, _, rfl⟩

/-! Channels and decks (R22, R24, R35) -/

theorem State.setChan_frame (s : State) (ch : Channel) (c : ChannelState) : ∃ w, s.setChan ch c = { s with wch := w } := by
  cases ch <;> exact ⟨_, rfl⟩

theorem State.setBridge_frame (s : State) (b : Bridge) (x : BridgeState) : ∃ d, s.setBridge b x = { s with dsu := d } := by
  cases b <;> exact ⟨_, rfl⟩

theorem State.endCapture_frame (s : State) (ch : Channel) (o : CaptureEnd) (w : Option Int) (a : Option Application) :
    ∃ x d e, s.endCapture ch o w a = { s with wch := x, dsu := d, evu := e } := by
  unfold State.endCapture
  dsimp only
  split
  · exact ⟨s.wch, s.dsu, s.evu, rfl⟩
  · rename_i k _
    generalize hc : (s.setChan ch _) = s1
    obtain ⟨x, hx⟩ : ∃ x, s1 = { s with wch := x } := hc ▸ s.setChan_frame ch _
    have : ∀ d e, ∃ x d' e', ({ s1 with dsu := d, evu := e } : State) = { s with wch := x, dsu := d', evu := e' } :=
      fun d e => ⟨x, d, e, by rw [hx]⟩
    split
    · split
      · rename_i b _ _
        obtain ⟨d, hd⟩ := s1.setBridge_frame b { s1.bridge b with captured := true }
        obtain ⟨e, he⟩ := State.latch_frame { s1 with dsu := d } k.port (.captureEnd ch)
        rw [hd, he]
        exact this d e
      · obtain ⟨e, he⟩ := State.latch_frame s1 k.port (.captureEnd ch)
        rw [he]
        exact this s1.dsu e
    · obtain ⟨e, he⟩ := State.latch_frame s1 k.port (.captureEnd ch)
      rw [he]
      exact this s1.dsu e

/-- With no capture in flight nothing ends. -/
@[simp] theorem State.endCapture_idle (s : State) (ch : Channel) (o : CaptureEnd) (w : Option Int) (a : Option Application)
    (h : (s.chan ch).capture = none) : s.endCapture ch o w a = s := by simp [State.endCapture, h]

theorem State.setPosition_frame (s : State) (b : Bridge) (p : Position) :
    ∃ x d e, s.setPosition b p = { s with wch := x, dsu := d, evu := e } := by
  unfold State.setPosition
  dsimp only
  generalize h1 : (ite ((s.bridge b).pos = .onDeck ∧ p ≠ .onDeck) _ s) = s1
  obtain ⟨x, d, e, hs⟩ : ∃ x d e, s1 = { s with wch := x, dsu := d, evu := e } := by
    subst h1
    split
    · obtain ⟨x, d, e, h⟩ := s.endCapture_frame b.channel .position none none
      rw [h]
      obtain ⟨d', h'⟩ := State.setBridge_frame { s with wch := x, dsu := d, evu := e } b
        { State.bridge { s with wch := x, dsu := d, evu := e } b with captured := false }
      exact ⟨x, d', e, h'⟩
    · exact ⟨s.wch, s.dsu, s.evu, rfl⟩
  generalize h2 : s1.setBridge b _ = s2
  obtain ⟨d', hd⟩ : ∃ d', s2 = { s1 with dsu := d' } := h2 ▸ s1.setBridge_frame b _
  split
  · obtain ⟨e', he⟩ := s2.latchBoth_frame (.deck b)
    exact ⟨x, d', e', by rw [he, hd, hs]⟩
  · exact ⟨x, d', e, by rw [hd, hs]⟩

theorem State.beamChange_frame (s : State) (b : Bridge) (side : Side) (blocked : Bool) :
    ∃ x d e, s.beamChange b side blocked = { s with wch := x, dsu := d, evu := e } := by
  unfold State.beamChange
  dsimp only
  generalize h1 : s.setBridge b _ = s1
  obtain ⟨d, hd⟩ : ∃ d, s1 = { s with dsu := d } := h1 ▸ s.setBridge_frame b _
  have hp : ∀ p, ∃ x d e, s1.setPosition b p = { s with wch := x, dsu := d, evu := e } := by
    intro p
    obtain ⟨x, d', e, h⟩ := s1.setPosition_frame b p
    exact ⟨x, d', e, by rw [h, hd]⟩
  have h0 : ∃ x d e, s1 = { s with wch := x, dsu := d, evu := e } := ⟨s.wch, d, s.evu, hd⟩
  split
  · split
    · exact hp _
    · exact hp _
    · exact h0
  · split
    · exact h0
    · split
      · exact hp _
      · exact hp _
      · exact hp _
      · exact h0

theorem State.occupancyChange_frame (s : State) (ch : Channel) :
    ∃ x d e, s.occupancyChange ch = { s with wch := x, dsu := d, evu := e } := by
  have h0 : ∃ x d e, s = { s with wch := x, dsu := d, evu := e } := ⟨s.wch, s.dsu, s.evu, rfl⟩
  unfold State.occupancyChange
  split
  · exact h0
  · dsimp only
    split
    · split
      · exact s.setPosition_frame _ _
      · exact h0
    · split
      · exact h0
      · exact s.setPosition_frame _ _
    · exact h0

theorem State.setOccupied_frame (s : State) (ch : Channel) (o : Bool) :
    ∃ x d e, s.setOccupied ch o = { s with wch := x, dsu := d, evu := e } := by
  unfold State.setOccupied
  dsimp only
  split
  · exact ⟨s.wch, s.dsu, s.evu, rfl⟩
  · obtain ⟨w, h⟩ := s.setChan_frame ch { s.chan ch with occupied := o }
    rw [h]
    obtain ⟨x, d, e, h'⟩ := State.occupancyChange_frame { s with wch := w } ch
    exact ⟨x, d, e, h'⟩

/-! The print queue (R160 to R165) -/

theorem State.fillOne_frame (s t : State) (h : s.fillOne = some t) : ∃ r, t = { s with rpu := r } := by
  unfold State.fillOne at h
  split at h
  · cases h
  · split at h
    · cases h
    · split at h
      · cases h
      · exact ⟨_, (Option.some.inj h).symm⟩

theorem fillUpTo_frame (n : Nat) (s : State) : ∃ r, fillUpTo n s = { s with rpu := r } := by
  induction n generalizing s with
  | zero => exact ⟨s.rpu, rfl⟩
  | succ n ih =>
    unfold fillUpTo
    split
    · rename_i t ht
      obtain ⟨r, hr⟩ := s.fillOne_frame t ht
      obtain ⟨r', hr'⟩ := ih t
      exact ⟨r', by rw [hr', hr]⟩
    · exact ⟨s.rpu, rfl⟩

theorem State.fill_frame (s : State) : ∃ r, s.fill = { s with rpu := r } := fillUpTo_frame 8 s

theorem State.recordEnd_frame (s : State) (j : Job) (x : JobEnd) : ∃ r e, s.recordEnd j x = { s with rpu := r, evu := e } := by
  unfold State.recordEnd
  dsimp only
  split
  · exact ⟨_, _, rfl⟩
  · rename_i p _
    obtain ⟨e, h⟩ := State.latch_frame { s with rpu := _ } p .printEnd
    exact ⟨_, e, h⟩

theorem State.dischargeJob_frame (s : State) (j : Job) (c : Bool) : ∃ k, s.dischargeJob j c = { s with tkt := k } := by
  unfold State.dischargeJob
  split
  · exact s.changeTicket_frame _ _
  · exact ⟨s.tkt, rfl⟩

theorem State.firstStart_frame (s : State) (j : Job) (rest : List Job) (t : Ticket) :
    ∃ r k, s.firstStart j rest t = { s with rpu := r, tkt := k } := by
  unfold State.firstStart
  dsimp only
  split
  · obtain ⟨k, h⟩ := s.changeTicket_frame t.number fun t => { t with reprints := saturating t.reprints 255 }
    rw [h]
    exact ⟨_, k, rfl⟩
  · exact ⟨_, s.tkt, rfl⟩

theorem startHead_frame (n : Nat) (s : State) : ∃ r k e, startHead n s = { s with rpu := r, tkt := k, evu := e } := by
  induction n generalizing s with
  | zero => exact ⟨s.rpu, s.tkt, s.evu, rfl⟩
  | succ n ih =>
    have h0 : ∃ r k e, s = { s with rpu := r, tkt := k, evu := e } := ⟨s.rpu, s.tkt, s.evu, rfl⟩
    unfold startHead
    split
    · exact h0
    · split
      · split
        · exact ⟨_, s.tkt, s.evu, rfl⟩
        · split
          · obtain ⟨r, k, h⟩ := s.firstStart_frame _ _ _
            exact ⟨r, k, s.evu, h⟩
          · rename_i j rest _ _ _ _ _
            obtain ⟨r1, e1, h1⟩ := State.recordEnd_frame { s with rpu := { s.rpu with queue := rest } } j .gone
            rw [h1]
            obtain ⟨r2, h2⟩ := State.fill_frame { s with rpu := r1, evu := e1 }
            obtain ⟨r, k, e, h⟩ := ih { s with rpu := r2, evu := e1 }
            exact ⟨r, k, e, by simp only at h2 ⊢; rw [h2, h]⟩
      · exact h0

theorem State.startPrint_frame (s : State) : ∃ r k e, s.startPrint = { s with rpu := r, tkt := k, evu := e } :=
  startHead_frame 16 s

theorem State.pump_frame (s : State) : ∃ r k e, s.pump = { s with rpu := r, tkt := k, evu := e } := by
  obtain ⟨r1, h1⟩ := s.fill_frame
  obtain ⟨r, k, e, h⟩ := State.startPrint_frame { s with rpu := r1 }
  exact ⟨r, k, e, by rw [State.pump, h1, h]⟩

theorem State.withdrawSlips_frame (s : State) (ref : TicketRef) :
    ∃ r k e, s.withdrawSlips ref = { s with rpu := r, tkt := k, evu := e } := by
  have hf : ∀ (l : List Job) (t : State), ∃ r e, l.foldl (fun (t : State) (j : Job) => t.recordEnd j .withdrawn) t =
      { t with rpu := r, evu := e } := by
    intro l
    induction l with
    | nil => exact fun t => ⟨t.rpu, t.evu, rfl⟩
    | cons j rest ih =>
      intro t
      obtain ⟨r1, e1, h1⟩ := t.recordEnd_frame j .withdrawn
      obtain ⟨r, e, h⟩ := ih { t with rpu := r1, evu := e1 }
      exact ⟨r, e, by rw [List.foldl_cons, h1, h]⟩
  unfold State.withdrawSlips
  dsimp only
  generalize (s.rpu.queue.filter fun j => j.isSlipOf ref && !j.started) = gone
  generalize ({ s.rpu with queue := _ } : Rpu) = r0
  obtain ⟨r1, e1, h1⟩ := hf gone { s with rpu := r0 }
  rw [h1]
  obtain ⟨r, k, e, h⟩ := State.pump_frame { s with rpu := r1, evu := e1 }
  exact ⟨r, k, e, h⟩

/-! The payout unit (R125, R132, R152, R154) -/

theorem State.changeStore_frame (s : State) (i : Nat) (f : Store → Store) : ∃ u e, s.changeStore i f = { s with pyu := u, evu := e } := by
  unfold State.changeStore
  split
  · exact ⟨s.pyu, s.evu, rfl⟩
  · dsimp only
    split
    · exact ⟨_, _, rfl⟩
    · exact ⟨_, s.evu, rfl⟩

theorem State.operationEnds_frame (s : State) (d : DispenserSt) : ∃ u e, s.operationEnds d = { s with pyu := u, evu := e } := by
  unfold State.operationEnds
  dsimp only
  split <;> split
  · exact ⟨_, _, rfl⟩
  · exact ⟨_, _, rfl⟩
  · exact ⟨_, s.evu, rfl⟩
  · exact ⟨_, s.evu, rfl⟩

theorem State.payoutEnd_frame (s : State) (p : Payout) (x : PayoutResult) (c : PayoutEnd) (w : Option Drawn) (d : DispenserSt) :
    ∃ u k r e, s.payoutEnd p x c w d = { s with pyu := u, tkt := k, rpu := r, evu := e } := by
  obtain ⟨u1, e1, h1⟩ := s.operationEnds_frame d
  obtain ⟨k1, h2⟩ := State.changeTicket_frame { s with pyu := u1, evu := e1 } p.ticket fun t => t.payoutEnds p x c s.stamp
  obtain ⟨r, k, e2, h3⟩ := State.pump_frame { s with pyu := u1, evu := e1, tkt := k1 }
  unfold State.payoutEnd
  dsimp only
  rw [h1, h2, h3]
  have hl : ∀ u : Pyu, ∃ u' k' r' e', State.latch { s with pyu := u, tkt := k, rpu := r, evu := e2 } p.port .payoutEnd =
      { s with pyu := u', tkt := k', rpu := r', evu := e' } := fun u =>
    ⟨u, k, r, _, (State.latch_frame { s with pyu := u, tkt := k, rpu := r, evu := e2 } p.port .payoutEnd).choose_spec⟩
  have hm : ∀ (u : Pyu) src, ∃ u' k' r' e',
      (State.latch { s with pyu := u, tkt := k, rpu := r, evu := e2 } p.port .payoutEnd).markAlert src =
      { s with pyu := u', tkt := k', rpu := r', evu := e' } := by
    intro u src
    obtain ⟨u1, k1, r1, e3, h4⟩ := hl u
    rw [h4]
    obtain ⟨e4, h5⟩ := State.markAlert_frame { s with pyu := u1, tkt := k1, rpu := r1, evu := e3 } src
    exact ⟨u1, k1, r1, e4, h5⟩
  clear h1 h2 h3
  cases x with
  | paid => exact hl _
  | disputed => exact hm _ _
  | notPaid =>
    dsimp only
    split
    · exact hm _ _
    · exact hl _

theorem State.recoveryEnds_frame (s : State) (n : Nat) (d : DispenserSt) :
    ∃ u e, s.recoveryEnds n d = { s with pyu := u, evu := e } := by
  obtain ⟨u1, e1, h1⟩ := s.operationEnds_frame d
  unfold State.recoveryEnds
  dsimp only
  rw [h1]
  split
  · exact ⟨u1, e1, rfl⟩
  · have hu : ∀ u : Pyu, ∃ u' e', (if 0 < n then State.markAlert { s with pyu := u, evu := e1 } .retract
        else { s with pyu := u, evu := e1 }) = { s with pyu := u', evu := e' } := by
      intro u
      split
      · obtain ⟨e2, h2⟩ := State.markAlert_frame { s with pyu := u, evu := e1 } .retract
        exact ⟨u, e2, h2⟩
      · exact ⟨u, e1, rfl⟩
    exact hu _

theorem State.writePayout_frame (s : State) (p : Payout) :
    ∃ k, s.writePayout p = { s with pyu := { s.pyu with payout := some p }, tkt := k } := by
  obtain ⟨k, h⟩ := State.changeTicket_frame { s with pyu := { s.pyu with payout := some p } } p.ticket p.sync
  exact ⟨k, h⟩

theorem State.goOn_frame (s : State) (p : Payout) : ∃ u k r e, s.goOn p = { s with pyu := u, tkt := k, rpu := r, evu := e } := by
  have hu : ∀ u : Pyu, ∃ u' k r e, ({ s with pyu := u } : State) = { s with pyu := u', tkt := k, rpu := r, evu := e } :=
    fun u => ⟨u, s.tkt, s.rpu, s.evu, rfl⟩
  have he : ∀ (u : Pyu) (c : PayoutEnd), ∃ u' k r e, ({ s with pyu := u } : State).payoutEnd p .notPaid c none .idle =
      { s with pyu := u', tkt := k, rpu := r, evu := e } := by
    intro u c
    obtain ⟨u', k, r, e, h⟩ := State.payoutEnd_frame { s with pyu := u } p .notPaid c none .idle
    exact ⟨u', k, r, e, h⟩
  unfold State.goOn
  dsimp only
  split
  · split
    · exact he _ _
    · exact hu _
  · split
    · exact hu _
    · split
      · exact he _ _
      · exact hu _

theorem State.doorEvent_frame (s : State) (o : Bool) :
    ∃ u k r e, s.doorEvent o = { s with pyu := u, tkt := k, rpu := r, evu := e } := by
  have hu : ∀ u : Pyu, ∃ u' k r e, ({ s with pyu := u } : State) = { s with pyu := u', tkt := k, rpu := r, evu := e } :=
    fun u => ⟨u, s.tkt, s.rpu, s.evu, rfl⟩
  cases o with
  | true =>
    rw [show s.doorEvent true = s.doorOpens from rfl]
    unfold State.doorOpens
    dsimp only
    split
    · rename_i p hd _
      have : State.payoutStops { s with pyu := { s.pyu with doorPending := true } } p .jammed =
          State.payoutEnd { s with pyu := { s.pyu with doorPending := true } } p .notPaid .jammed (some ⟨.jam, 0, true⟩) .fault := by
        simp [State.payoutStops, hd]
      rw [this]
      obtain ⟨u, k, r, e, h⟩ := State.payoutEnd_frame { s with pyu := { s.pyu with doorPending := true } } p .notPaid .jammed
        (some ⟨.jam, 0, true⟩) .fault
      exact ⟨u, k, r, e, h⟩
    · exact hu s.pyu
    · exact hu _
    · exact hu _
    · exact hu _
    · exact hu _
  | false =>
    rw [show s.doorEvent false = s.doorCloses from rfl]
    unfold State.doorCloses
    dsimp only
    split
    · split
      · exact ⟨_, s.tkt, s.rpu, _, rfl⟩
      · exact hu _
    · exact hu _

/-! A sample (R1): channels, decks, the ticket table and the event unit, and nothing else -/

/-- All that a weighing reaches. -/
abbrev State.weighingReaches (s t : State) : Prop := ∃ x d k e, t = { s with wch := x, dsu := d, tkt := k, evu := e }

theorem State.weighingReaches_refl (s : State) : s.weighingReaches s := ⟨s.wch, s.dsu, s.tkt, s.evu, rfl⟩

theorem State.weighingReaches_trans {s t u : State} (h : s.weighingReaches t) (g : t.weighingReaches u) : s.weighingReaches u := by
  obtain ⟨_, _, _, _, rfl⟩ := h
  obtain ⟨x, d, k, e, rfl⟩ := g
  exact ⟨x, d, k, e, rfl⟩

theorem State.setChan_weighs (s : State) (ch : Channel) (c : ChannelState) : s.weighingReaches (s.setChan ch c) := by
  obtain ⟨w, h⟩ := s.setChan_frame ch c
  exact ⟨w, s.dsu, s.tkt, s.evu, h⟩

theorem State.latchBoth_weighs (s : State) (f : EventFlag) : s.weighingReaches (s.latchBoth f) := by
  obtain ⟨e, h⟩ := s.latchBoth_frame f
  exact ⟨s.wch, s.dsu, s.tkt, e, h⟩

theorem State.endCapture_weighs (s : State) (ch : Channel) (o : CaptureEnd) (w : Option Int) (a : Option Application) :
    s.weighingReaches (s.endCapture ch o w a) := by
  obtain ⟨x, d, e, h⟩ := s.endCapture_frame ch o w a
  exact ⟨x, d, s.tkt, e, h⟩

theorem State.setOccupied_weighs (s : State) (ch : Channel) (o : Bool) : s.weighingReaches (s.setOccupied ch o) := by
  obtain ⟨x, d, e, h⟩ := s.setOccupied_frame ch o
  exact ⟨x, d, s.tkt, e, h⟩

theorem State.enter_weighs (s : State) (ch : Channel) (c : ChannelState) (st : ChannelSt) :
    s.weighingReaches (s.enter ch c st) :=
  State.weighingReaches_trans (s.setChan_weighs ch _) (State.latchBoth_weighs _ _)

theorem State.enterFault_weighs (s : State) (ch : Channel) : s.weighingReaches (s.enterFault ch) :=
  State.weighingReaches_trans (s.endCapture_weighs ch .signal none none) (State.enter_weighs _ ch _ _)

theorem State.decideOccupancy_weighs (s : State) (ch : Channel) : s.weighingReaches (s.decideOccupancy ch) := by
  unfold State.decideOccupancy
  dsimp only
  split
  · exact State.weighingReaches_trans (s.setOccupied_weighs ch _) (State.endCapture_weighs _ ch _ _ _)
  · exact s.setOccupied_weighs ch _

theorem State.setDrift_weighs (s : State) (ch : Channel) (b : Bool) : s.weighingReaches (s.setDrift ch b) := by
  unfold State.setDrift
  dsimp only
  split
  · exact s.weighingReaches_refl
  · exact State.weighingReaches_trans (s.setChan_weighs ch _) (State.latchBoth_weighs _ _)

theorem State.judgeBlock_weighs (s : State) (ch : Channel) (k : ZeroBlock) : s.weighingReaches (s.judgeBlock ch k) := by
  unfold State.judgeBlock
  dsimp only
  split
  · exact s.weighingReaches_refl
  · split
    · exact s.weighingReaches_refl
    · split
      · exact s.setChan_weighs ch _
      · exact s.setDrift_weighs ch true

theorem State.track_weighs (s : State) (ch : Channel) (x : Sample) (b : Bool) : s.weighingReaches (s.track ch x b) := by
  unfold State.track
  dsimp only
  split
  · exact s.setChan_weighs ch _
  · exact State.weighingReaches_trans (s.setChan_weighs ch _) (State.judgeBlock_weighs _ ch _)

theorem State.completeCapture_weighs (s : State) (ch : Channel) (k : Capture) : s.weighingReaches (s.completeCapture ch k) := by
  unfold State.completeCapture
  dsimp only
  split
  · exact s.endCapture_weighs ch _ _ _
  · exact s.endCapture_weighs ch _ _ _
  · refine State.weighingReaches_trans ?_ (State.endCapture_weighs _ ch _ _ _)
    obtain ⟨t, h, _⟩ := s.handOver_frame k.ticket _ k.grade k.tare
    exact ⟨s.wch, s.dsu, t, s.evu, h⟩

theorem State.testCapture_weighs (s : State) (ch : Channel) (r : Int) : s.weighingReaches (s.testCapture ch r) := by
  unfold State.testCapture
  dsimp only
  split
  · exact s.weighingReaches_refl
  · split
    · exact State.weighingReaches_trans (s.setChan_weighs ch _) (State.completeCapture_weighs _ ch _)
    · exact s.setChan_weighs ch _

theorem State.goodSample_weighs (s : State) (ch : Channel) (r : Int) : s.weighingReaches (s.goodSample ch r) := by
  have h1 : ∀ t : State, t.weighingReaches (t.endOutOfRange ch) := by
    intro t
    unfold State.endOutOfRange
    split
    · exact t.endCapture_weighs ch _ _ _
    · exact t.endCapture_weighs ch _ _ _
    · exact t.weighingReaches_refl
  have h2 : ∀ t : State, t.weighingReaches (t.countStarting ch) := by
    intro t
    unfold State.countStarting
    dsimp only
    split
    · exact t.setChan_weighs ch _
    · exact t.enter_weighs ch _ _
  have h3 := State.weighingReaches_trans (s.setChan_weighs ch ((s.chan ch).convert r))
    (State.weighingReaches_trans (h1 _) (State.decideOccupancy_weighs _ ch))
  unfold State.goodSample
  dsimp only
  refine State.weighingReaches_trans (State.weighingReaches_trans h3 ?_) (State.testCapture_weighs _ ch r)
  split
  · exact h2 _
  · exact State.track_weighs _ ch _ _
  · exact State.weighingReaches_refl _

theorem State.sample_weighs (s : State) (ch : Channel) (r : Int) (ok : Bool) : s.weighingReaches (s.sample ch r ok) := by
  unfold State.sample
  dsimp only
  split
  · exact s.weighingReaches_refl
  · split
    · exact State.weighingReaches_trans (s.enter_weighs ch _ _) (State.goodSample_weighs _ ch r)
    · exact s.weighingReaches_refl
  · split
    · exact State.weighingReaches_trans (s.setChan_weighs ch _) (State.goodSample_weighs _ ch r)
    · exact s.setChan_weighs ch _
  · split
    · exact State.weighingReaches_trans (s.setChan_weighs ch _) (State.goodSample_weighs _ ch r)
    · exact s.enterFault_weighs ch

/-! Requests (R205, R206) -/

/-- An answer started reaches its own port alone. -/
theorem State.answer_frame (s : State) (p : Port) (kind : Nat) (r : Reply) : ∃ x, s.answer p kind r = s.setPort p x := ⟨_, rfl⟩

end Sys2Proof.Machine
end

