-- ==== Sys2Proof/Laws/Printing.lean ====
section
/-! SUPPORT. What the printer's queue does when printing starts or resumes, case by case of its head job (R158, R159, R166). -/

namespace Sys2Proof.Machine

/-- The state with other events held: latching a flag changes nothing else. -/
def State.withEvents (s : State) (e : Evu) : State := { s with evu := e }

@[simp] theorem State.withEvents_rpu (s : State) (e : Evu) : (s.withEvents e).rpu = s.rpu := rfl
@[simp] theorem State.withEvents_tkt (s : State) (e : Evu) : (s.withEvents e).tkt = s.tkt := rfl
@[simp] theorem State.withEvents_evu (s : State) (e : Evu) : (s.withEvents e).evu = e := rfl

theorem State.events_congr {s t : State} (h : s.evu = t.evu) (p : Port) : s.events p = t.events p := by
  cases p <;> simp only [State.events, h]

/-! The queue's filling and its head's start read no event -/

theorem State.changeTicket_withEvents (s : State) (e : Evu) (n : Nat) (f : Ticket → Ticket) :
    (s.withEvents e).changeTicket n f = (s.changeTicket n f).withEvents e := by
  have found : (s.withEvents e).ticket? n = s.ticket? n := rfl
  unfold State.changeTicket
  rw [found]
  cases s.ticket? n <;> rfl

theorem State.fillOne_withEvents (s : State) (e : Evu) : (s.withEvents e).fillOne = s.fillOne.map (·.withEvents e) := by
  change ({ s with evu := e } : State).fillOne = s.fillOne.map fun t => { t with evu := e }
  unfold State.fillOne
  dsimp only
  split
  · rfl
  · split
    · rfl
    · split <;> rfl

theorem fillUpTo_withEvents (n : Nat) (s : State) (e : Evu) : fillUpTo n (s.withEvents e) = (fillUpTo n s).withEvents e := by
  induction n generalizing s with
  | zero => rfl
  | succ n ih =>
    simp only [fillUpTo, State.fillOne_withEvents]
    cases s.fillOne with
    | none => rfl
    | some t => exact ih t

theorem State.fill_withEvents (s : State) (e : Evu) : (s.withEvents e).fill = s.fill.withEvents e := fillUpTo_withEvents 8 s e

theorem State.firstStart_withEvents (s : State) (e : Evu) (j : Job) (rest : List Job) (t : Ticket) :
    (s.withEvents e).firstStart j rest t = (s.firstStart j rest t).withEvents e := by
  unfold State.firstStart
  simp only [State.changeTicket_withEvents]
  split <;> rfl

@[simp] theorem State.firstStart_events (s : State) (j : Job) (rest : List Job) (t : Ticket) (p : Port) :
    (s.firstStart j rest t).events p = s.events p := by
  obtain ⟨r, k, h⟩ := s.firstStart_frame j rest t
  rw [h]
  exact State.events_congr rfl p

@[simp] theorem State.fill_events (s : State) (p : Port) : s.fill.events p = s.events p := by
  obtain ⟨r, h⟩ := s.fill_frame
  rw [h]
  exact State.events_congr rfl p

/-- A job that ends because its ticket is gone latches PRINT_END and no other flag. -/
theorem State.recordEnd_flags (s : State) (j : Job) (r : JobEnd) (p : Port) :
    ((s.recordEnd j r).events p).mask = (s.events p).mask ∧
      ∀ f, f ≠ .printEnd → ((s.recordEnd j r).events p).has f = (s.events p).has f := by
  unfold State.recordEnd
  dsimp only
  cases j.source with
  | auto =>
    simp only [State.mask_latchBoth, State.has_latchBoth]
    exact ⟨by cases p <;> rfl, fun f hf => by cases p <;> simp [hf, State.events]⟩
  | port q =>
    simp only [State.mask_latch, State.has_latch]
    exact ⟨by cases p <;> rfl, fun f hf => by cases p <;> simp [hf, State.events]⟩

/-- It does so whatever events are held, and alike where PRINT_END is held alike. -/
theorem State.recordEnd_withEvents (s : State) (e : Evu) (j : Job) (r : JobEnd) :
    ∃ e', (s.withEvents e).recordEnd j r = (s.recordEnd j r).withEvents e' ∧
      ∀ p, ((s.withEvents e).events p).has .printEnd = (s.events p).has .printEnd →
        (((s.recordEnd j r).withEvents e').events p).has .printEnd = ((s.recordEnd j r).events p).has .printEnd := by
  refine ⟨((s.withEvents e).recordEnd j r).evu, ?_, fun p h => ?_⟩
  · unfold State.recordEnd
    dsimp only
    cases j.source with
    | auto => rfl
    | port q => cases q <;> rfl
  · have same : ((s.recordEnd j r).withEvents ((s.withEvents e).recordEnd j r).evu).events p = ((s.withEvents e).recordEnd j r).events p :=
      State.events_congr rfl p
    rw [same]
    unfold State.recordEnd
    dsimp only
    cases j.source with
    | auto =>
      simp only [State.has_latchBoth]
      cases p <;> simp [State.events]
    | port q =>
      simp only [State.has_latch]
      cases p <;> simp only [State.events, State.withEvents] at h ⊢ <;> rw [h]

/-- Starting the head reads no event: from states with other events it leaves the same queue and the same tickets, and PRINT_END as
it would where PRINT_END was held alike. -/
theorem startHead_withEvents (n : Nat) (s : State) (e : Evu) :
    (startHead n (s.withEvents e)).rpu = (startHead n s).rpu ∧ (startHead n (s.withEvents e)).tkt = (startHead n s).tkt ∧
      ∀ p, ((s.withEvents e).events p).has .printEnd = (s.events p).has .printEnd →
        ((startHead n (s.withEvents e)).events p).has .printEnd = ((startHead n s).events p).has .printEnd := by
  induction n generalizing s e with
  | zero => exact ⟨rfl, rfl, fun _ h => h⟩
  | succ n ih =>
    unfold startHead
    simp only [State.withEvents_rpu]
    cases s.rpu.queue with
    | nil => exact ⟨rfl, rfl, fun _ h => h⟩
    | cons j rest =>
      have found : (s.withEvents e).jobTicket? j = s.jobTicket? j := rfl
      simp only [found]
      by_cases ready : s.rpu.st = .ready ∧ j.st = .queued
      · simp only [if_pos ready]
        by_cases started : j.started = true
        · simp only [if_pos started]
          exact ⟨trivial, rfl, fun p h => by cases p <;> exact h⟩
        simp only [if_neg started]
        cases s.jobTicket? j with
        | some t =>
          simp only [State.firstStart_withEvents]
          refine ⟨rfl, rfl, fun p h => ?_⟩
          rw [State.firstStart_events, State.events_congr (s := (s.firstStart j rest t).withEvents e) (t := s.withEvents e) rfl p]
          exact h
        | none =>
          obtain ⟨e', h1, h2⟩ := State.recordEnd_withEvents { s with rpu := { s.rpu with queue := rest } } e j .gone
          obtain ⟨a, b, c⟩ := ih ((({ s with rpu := { s.rpu with queue := rest } } : State).recordEnd j .gone).fill) e'
          rw [← State.fill_withEvents] at a b c
          refine ⟨(congrArg (fun x => (startHead n (State.fill x)).rpu) h1).trans a,
            (congrArg (fun x => (startHead n (State.fill x)).tkt) h1).trans b, fun p h =>
            (congrArg (fun x => ((startHead n (State.fill x)).events p).has .printEnd) h1).trans (c p ?_)⟩
          simp only [State.fill_events]
          exact h2 p (by cases p <;> exact h)
      · simp only [if_neg ready]
        exact ⟨rfl, rfl, fun _ h => h⟩

/-- Starting the head latches no flag but PRINT_END and keeps the masks. -/
theorem startHead_flags (n : Nat) (s : State) (p : Port) : ((startHead n s).events p).mask = (s.events p).mask ∧
    ∀ f, f ≠ .printEnd → ((startHead n s).events p).has f = (s.events p).has f := by
  induction n generalizing s with
  | zero => exact ⟨rfl, fun _ _ => rfl⟩
  | succ n ih =>
    unfold startHead
    cases s.rpu.queue with
    | nil => exact ⟨rfl, fun _ _ => rfl⟩
    | cons j rest =>
      dsimp only
      split
      · split
        · cases p <;> exact ⟨rfl, fun _ _ => rfl⟩
        · cases s.jobTicket? j with
          | some t =>
            simp only [State.firstStart_events]
            exact ⟨trivial, fun _ _ => trivial⟩
          | none =>
            simp only
            obtain ⟨a, b⟩ := ih ((({ s with rpu := { s.rpu with queue := rest } } : State).recordEnd j .gone).fill)
            obtain ⟨c, d⟩ := State.recordEnd_flags { s with rpu := { s.rpu with queue := rest } } j .gone p
            rw [State.fill_events] at a b
            refine ⟨a.trans (c.trans ?_), fun f hf => (b f hf).trans ((d f hf).trans ?_)⟩ <;> cases p <;> rfl
      · exact ⟨rfl, fun _ _ => rfl⟩

/-! Resuming, by the head job -/

theorem startHead_nil (n : Nat) {s : State} (h : s.rpu.queue = []) : startHead n s = s := by cases n <;> simp [startHead, h]

theorem startHead_waits (n : Nat) {s : State} {j : Job} {rest : List Job} (h : s.rpu.queue = j :: rest)
    (waits : ¬ (s.rpu.st = .ready ∧ j.st = .queued)) : startHead n s = s := by
  cases n <;> simp [startHead, h, waits]

/-- A head that has been started before starts again with the marker line (R160). -/
theorem startHead_restarts (n : Nat) {s : State} {j : Job} {rest : List Job} (h : s.rpu.queue = j :: rest) (ready : s.rpu.st = .ready)
    (queued : j.st = .queued) (started : j.started = true) :
    startHead (n + 1) s = { s with rpu := s.rpu.print j.restarted rest } := by
  simp [startHead, h, ready, queued, started]

theorem State.resume_nil {s : State} (h : s.rpu.queue = []) : s.resume = s := by
  have : s.rpu.mapHead Job.unstall = s.rpu := by simp [Rpu.mapHead, h]
  simp [State.resume, this, State.startPrint, startHead_nil, h]

/-- A head under way goes on: resuming changes nothing. -/
theorem State.resume_underway {s : State} {j : Job} {rest : List Job} (h : s.rpu.queue = j :: rest)
    (underway : j.st = .printing ∨ j.st = .paused) : s.resume = s := by
  have same : j.unstall = j := by rcases underway with h' | h' <;> simp [Job.unstall, h']
  have : s.rpu.mapHead Job.unstall = s.rpu := by simp only [Rpu.mapHead, h, same]; rw [← h]
  simp only [State.resume, this, State.startPrint, ite_self]
  exact startHead_waits _ h (by rcases underway with h' | h' <;> simp [h'])

/-- While the paper is out or the cover open nothing resumes. -/
theorem State.resume_blocked {s : State} (h : s.rpu.blocked = true) : s.resume = s := by
  simp only [State.resume, h, Bool.or_true, if_true, State.startPrint]
  cases hq : s.rpu.queue with
  | nil => exact startHead_nil _ hq
  | cons j rest =>
    have : s.rpu.st ≠ .ready := by
      unfold Rpu.st
      split <;> simp
    exact startHead_waits _ hq fun ready => this ready.1

/-- Otherwise a STALLED or QUEUED head is QUEUED and the printer's head is started where the printer is READY. -/
theorem State.resume_waiting {s : State} {j : Job} {rest : List Job} (h : s.rpu.queue = j :: rest) (online : s.rpu.offline = false)
    (free : s.rpu.blocked = false) (waiting : j.st = .stalled ∨ j.st = .queued) :
    s.resume = ({ s with rpu := { s.rpu with queue := { j with st := .queued } :: rest } } : State).startPrint := by
  have queued : j.unstall = { j with st := .queued } := by
    rcases waiting with h' | h'
    · simp [Job.unstall, h']
    · cases j
      simp only at h'
      subst h'
      rfl
  simp [State.resume, online, free, Rpu.mapHead, h, queued]

/-- Where nothing blocks the printer it is PAUSED by heat, BUSY with a head that prints or a cut that ends a cancelled job, else READY
(R156). -/
theorem Rpu.st_free {r : Rpu} (online : r.offline = false) (free : r.blocked = false) :
    r.st = if r.head = .hot then .paused else if r.headPrinting || r.cancelCut != .none then .busy else .ready := by
  simp [Rpu.st, online, free]

/-- A QUEUED head does not print. -/
theorem Rpu.st_queued {r : Rpu} (online : r.offline = false) (free : r.blocked = false) (j : Job) (rest : List Job) :
    ({ r with queue := { j with st := .queued } :: rest } : Rpu).st =
      if r.head = .hot then .paused else if r.cancelCut != .none then .busy else .ready :=
  Rpu.st_free (r := { r with queue := { j with st := .queued } :: rest }) online free

/-! The printer's own flag and the end of the event -/

/-- PRINTER is latched to both ports where the printer goes into or out of STALLED or OFFLINE; no other flag and no mask changes
(R156, R192). -/
theorem State.notePrinter_has (t s : State) (p : Port) (f : EventFlag) : ((t.notePrinter s).events p).has f =
    ((t.events p).has f || (decide (f = .printer) &&
      decide (s.rpu.st ≠ t.rpu.st ∧ (s.rpu.st ∈ [PrinterSt.stalled, .offline] ∨ t.rpu.st ∈ [PrinterSt.stalled, .offline])))) := by
  have troubled : ∀ x : PrinterSt, x.troubled = decide (x ∈ [PrinterSt.stalled, .offline]) := by intro x; cases x <;> rfl
  unfold State.notePrinter
  simp only [troubled, decide_eq_true_eq]
  split
  · rename_i h
    rw [State.has_latchBoth, decide_eq_true h, Bool.and_true]
  · rename_i h
    rw [decide_eq_false h, Bool.and_false, Bool.or_false]

@[simp] theorem State.notePrinter_mask (t s : State) (p : Port) : ((t.notePrinter s).events p).mask = (t.events p).mask := by
  unfold State.notePrinter
  split
  · exact State.mask_latchBoth _ _ _
  · rfl

/-- An event of the printer begins no alert: it is concluded by the judgement of lamps and outputs alone. -/
theorem State.conclude_printing {s t : State} {r : Rpu} {k : Tkt} {e : Evu} (h : t = { s with rpu := r, tkt := k, evu := e }) :
    s.conclude t = t.settle := by
  have begun : ∀ src, t.beginAlert s src = t := by
    intro src
    have : t.alertCondition src = s.alertCondition src := by
      subst h
      cases src <;> rfl
    simp [State.beginAlert, this]
  simp only [State.conclude, State.beginAlerts, begun]

end Sys2Proof.Machine
end

