-- ==== Sys2Proof/Laws/Requests.lean ====
section
/-! SUPPORT. What a request can do, said once: taken by a ready port it has its handler's effect and its answer starts; refused, it
has none. -/

namespace Sys2Proof.Machine

@[simp] theorem Port.port_sender (p : Port) : (Port.sender p).port = p := by cases p <;> rfl

@[simp] theorem Port.sender_ne_group (p : Port) : Port.sender p ≠ .group := by cases p <;> simp [Port.sender]

/-! Conditions of the yard lines -/

theorem State.alertCondition_congr (s t : State) (hl : s.dsu.lines = t.dsu.lines) (hs : s.anyInService = t.anyInService)
    (src : AlertSource) : s.alertCondition src = t.alertCondition src := by
  cases src <;> simp [State.alertCondition, State.cashDoorOpen, State.cabinetOpen, State.switchClosed, State.served, hl, hs]

theorem State.sameConditions_of (s t : State) (hl : s.dsu.lines = t.dsu.lines) (hs : s.anyInService = t.anyInService) :
    s.sameConditions t :=
  ⟨s.alertCondition_congr t hl hs _, s.alertCondition_congr t hl hs _, s.alertCondition_congr t hl hs _⟩

@[simp] theorem State.anyInService_setPort (s : State) (p : Port) (x : PortState) :
    (s.setPort p x).anyInService = s.anyInService := by cases p <;> rfl

@[simp] theorem State.anyInService_answer (s : State) (p : Port) (k : Nat) (r : Reply) :
    (s.answer p k r).anyInService = s.anyInService := by cases p <;> rfl

@[simp] theorem State.alertCondition_setPort (s : State) (p : Port) (x : PortState) (src : AlertSource) :
    (s.setPort p x).alertCondition src = s.alertCondition src :=
  State.alertCondition_congr _ _ (by simp) (by simp) _

@[simp] theorem State.alertCondition_answer (s : State) (p : Port) (k : Nat) (r : Reply) (src : AlertSource) :
    (s.answer p k r).alertCondition src = s.alertCondition src := by simp [State.answer]

@[simp] theorem State.alertCondition_taken (s : State) (p : Port) (src : AlertSource) :
    (s.taken p).alertCondition src = s.alertCondition src := by simp [State.taken]

/-- Where no condition has begun, no alert latches. -/
theorem State.beginAlerts_of_same (s t : State) (h : s.sameConditions t) : s.beginAlerts t = s := by
  obtain ⟨h1, h2, h3⟩ := h
  simp [State.beginAlerts, State.beginAlert, h1, h2, h3]

/-! A port whose frame has been taken differs in its receiver alone -/

@[simp] theorem State.taken_powered (s : State) (p : Port) : (s.taken p).powered = s.powered := by simp [State.taken]
@[simp] theorem State.taken_elapsed (s : State) (p : Port) : (s.taken p).elapsed = s.elapsed := by simp [State.taken]
@[simp] theorem State.taken_straps (s : State) (p : Port) : (s.taken p).straps = s.straps := by simp [State.taken]
@[simp] theorem State.taken_settingsLost (s : State) (p : Port) : (s.taken p).settingsLost = s.settingsLost := by simp [State.taken]
@[simp] theorem State.taken_retainLost (s : State) (p : Port) : (s.taken p).retainLost = s.retainLost := by simp [State.taken]
@[simp] theorem State.taken_evu (s : State) (p : Port) : (s.taken p).evu = s.evu := by simp [State.taken]
@[simp] theorem State.taken_outs (s : State) (p : Port) : (s.taken p).outs = s.outs := by simp [State.taken]
@[simp] theorem State.taken_clu (s : State) (p : Port) : (s.taken p).clu = s.clu := by simp [State.taken]
@[simp] theorem State.taken_wch (s : State) (p : Port) : (s.taken p).wch = s.wch := by simp [State.taken]
@[simp] theorem State.taken_dsu (s : State) (p : Port) : (s.taken p).dsu = s.dsu := by simp [State.taken]
@[simp] theorem State.taken_lamps (s : State) (p : Port) : (s.taken p).lamps = s.lamps := by simp [State.taken]
@[simp] theorem State.taken_grt (s : State) (p : Port) : (s.taken p).grt = s.grt := by simp [State.taken]
@[simp] theorem State.taken_tkt (s : State) (p : Port) : (s.taken p).tkt = s.tkt := by simp [State.taken]
@[simp] theorem State.taken_vtr (s : State) (p : Port) : (s.taken p).vtr = s.vtr := by simp [State.taken]
@[simp] theorem State.taken_pyu (s : State) (p : Port) : (s.taken p).pyu = s.pyu := by simp [State.taken]
@[simp] theorem State.taken_rpu (s : State) (p : Port) : (s.taken p).rpu = s.rpu := by simp [State.taken]
@[simp] theorem State.taken_pending (s : State) (p : Port) : (s.taken p).pending = s.pending := by simp [State.taken]

@[simp] theorem State.chan_taken (s : State) (p : Port) (ch : Channel) : (s.taken p).chan ch = s.chan ch := by
  simp [State.taken]

@[simp] theorem State.bridge_taken (s : State) (p : Port) (b : Bridge) : (s.taken p).bridge b = s.bridge b := by
  simp [State.taken]

@[simp] theorem State.events_taken (s : State) (p q : Port) : (s.taken p).events q = s.events q := by simp [State.taken]

@[simp] theorem State.anyInService_taken (s : State) (p : Port) : (s.taken p).anyInService = s.anyInService := by
  simp [State.taken]

@[simp] theorem State.ticket?_taken (s : State) (p : Port) (n : Nat) : (s.taken p).ticket? n = s.ticket? n := by
  simp [State.ticket?]

@[simp] theorem State.stamp_taken (s : State) (p : Port) : (s.taken p).stamp = ⟨s.clu.now, s.clu.valid⟩ := by
  simp [State.stamp]

@[simp] theorem State.timer_taken (s : State) (p : Port) (ms : Nat) : (s.taken p).timer ms = ⟨ms, s.elapsed⟩ := by
  simp [State.timer]

theorem State.taken_sameConditions (s : State) (p : Port) : (s.taken p).sameConditions s :=
  State.sameConditions_of _ _ (by simp) (by simp)

/-! A ready port -/

theorem State.dispatch_known (s : State) (p : Port) (kind : Nat) (h : Handler) (hk : kind ∈ knownKinds)
    (hw : p = .window → kind ∈ windowKinds) :
    s.dispatch p kind h = (((h p s).1.beginAlerts s).answer p kind (h p s).2) := by
  have : ¬(p = .window ∧ kind ∉ windowKinds) := fun x => x.2 (hw x.1)
  simp [State.dispatch, hk, this]

/-- A frame taken by a ready port goes to the request cycle. -/
theorem State.takeFrame_ready (s : State) (p : Port) (kind : Nat) (h : Handler) (hr : s.ready p) :
    s.takeFrame (Port.sender p) kind h = (s.taken p).dispatch p kind h := by
  obtain ⟨_, hv, ha⟩ := hr
  cases p <;> simp_all [State.takeFrame, Port.sender, Sender.port, State.taken]

/-- A request of a kind the port may use, taken by a ready port, has its handler's effect, and its answer starts. -/
theorem request_taken (s : State) (p : Port) (kind : Nat) (h : Handler) (hr : s.ready p) (hk : kind ∈ knownKinds)
    (hw : p = .window → kind ∈ windowKinds) :
    request (Port.sender p) kind h s =
      .next (s.conclude (((h p (s.taken p)).1.beginAlerts (s.taken p)).answer p kind (h p (s.taken p)).2)) := by
  simp [request, run, hr.1, State.takeFrame_ready s p kind h hr, State.dispatch_known _ p kind h hk hw]

/-- The same where the effect leaves the alert conditions as they were. -/
theorem request_answered (s : State) (p : Port) (kind : Nat) (h : Handler) (hr : s.ready p) (hk : kind ∈ knownKinds)
    (hw : p = .window → kind ∈ windowKinds) (hc : (h p (s.taken p)).1.sameConditions s) :
    request (Port.sender p) kind h s =
      .next ((h p (s.taken p)).1.answered p kind (h p (s.taken p)).2.status (h p (s.taken p)).2.data) := by
  have h1 : (h p (s.taken p)).1.sameConditions (s.taken p) := by
    obtain ⟨a, b, c⟩ := hc
    exact ⟨by simpa using a, by simpa using b, by simpa using c⟩
  have h2 : (((h p (s.taken p)).1.answer p kind (h p (s.taken p)).2)).sameConditions s := by
    obtain ⟨a, b, c⟩ := hc
    exact ⟨by simpa using a, by simpa using b, by simpa using c⟩
  rw [request_taken s p kind h hr hk hw, State.conclude, State.beginAlerts_of_same _ _ h1, State.beginAlerts_of_same _ _ h2]
  rfl

/-- A group request of the five kinds that is not refused has its handler's effect, and no answer starts (R208). -/
theorem request_group (s : State) (kind : Nat) (h : Handler) (hr : s.ready .office) (hk : kind ∈ groupKinds)
    (hd : (h .office (s.taken .office)).2.status.refuses = false) (hc : (h .office (s.taken .office)).1.sameConditions s) :
    request .group kind h s = .next (h .office (s.taken .office)).1.settle := by
  have h1 : (h .office (s.taken .office)).1.sameConditions (s.taken .office) := by
    obtain ⟨a, b, c⟩ := hc
    exact ⟨by simpa using a, by simpa using b, by simpa using c⟩
  obtain ⟨hp, hv, ha⟩ := hr
  have ht : s.takeFrame .group kind h = (h .office (s.taken .office)).1 := by
    simp_all [State.takeFrame, Sender.port, State.taken, State.dispatchGroup, State.beginAlerts_of_same]
  simp [request, run, hp, ht, State.conclude, State.beginAlerts_of_same _ _ hc]

/-- A request that its own rule refuses, or that only reads. -/
theorem request_told (s : State) (p : Port) (kind : Nat) (h : Handler) (status : Status) (data : List Field) (hr : s.ready p)
    (hk : kind ∈ knownKinds) (hw : p = .window → kind ∈ windowKinds) (he : h p (s.taken p) = (s.taken p, ⟨status, data⟩)) :
    request (Port.sender p) kind h s = .next ((s.taken p).answered p kind status data) := by
  rw [request_answered s p kind h hr hk hw (by rw [he]; exact s.taken_sameConditions p), he]

/-- A request that takes the state, with its lines and its service states as they were, to another. -/
theorem request_acts (s t : State) (p : Port) (kind : Nat) (h : Handler) (status : Status) (data : List Field) (hr : s.ready p)
    (hk : kind ∈ knownKinds) (hw : p = .window → kind ∈ windowKinds) (he : h p (s.taken p) = (t, ⟨status, data⟩))
    (hl : t.dsu.lines = s.dsu.lines) (hs : t.anyInService = s.anyInService) :
    request (Port.sender p) kind h s = .next (t.answered p kind status data) := by
  rw [request_answered s p kind h hr hk hw (by rw [he]; exact State.sameConditions_of _ _ hl hs), he]

/-! Nothing to do -/

theorem LampRun.take_take (r : LampRun) (p : Nat) : (r.take p).take p = r.take p := by
  simp only [LampRun.take]
  split <;> simp_all [LampRun.begin]

theorem LampBank.take_take (l : LampBank) (r : AspectRow) : (l.take r).take r = l.take r := by
  simp [LampBank.take, LampRun.take_take]

/-- Judging lamps and outputs twice is judging them once. -/
@[simp] theorem State.settle_settle (s : State) : s.settle.settle = s.settle := by
  have h : s.settle.settle =
      { s.settle with
        lamps := ⟨(s.lamps.bridge0.take (s.lampRow .b0)).take (s.lampRow .b0),
          (s.lamps.bridge1.take (s.lampRow .b1)).take (s.lampRow .b1)⟩ } := rfl
  rw [h, LampBank.take_take, LampBank.take_take]
  rfl

end Sys2Proof.Machine
end

