-- ==== Sys2Proof/Laws/Reset.lean ====
section
/-! SUPPORT. The state after reset is what a power-up computes. -/

namespace Sys2Proof.Machine

set_option maxRecDepth 20000 in
/-- A power-up with retained memory lost, the settings store invalid and the straps reading 1, of a part with nothing wired and nothing
kept, leaves `State.reset` (log 1). -/
theorem State.powerUp_reset : State.reset.powerUp false false 1 = State.reset := by decide

end Sys2Proof.Machine
end

