-- ==== Sys2Proof/Laws/Weighing.lean ====
section
/-! SUPPORT. What the weighing invariant of Safety.lean reads, and what the end of a capture without a weight leaves. -/

namespace Sys2Proof.Machine

/-- The weighing invariant reads the channels, and of the bridges the position and the captured mark alone. -/
theorem State.weighingSound_congr {s t : State} (hw : t.wch = s.wch)
    (hb : ∀ b, (t.bridge b).pos = (s.bridge b).pos ∧ (t.bridge b).captured = (s.bridge b).captured) :
    t.weighingSound ↔ s.weighingSound := by
  have hc (ch : Channel) : t.chan ch = s.chan ch := by cases ch <;> simp [State.chan, hw]
  have hp (ch : Channel) : t.inPlace ch = s.inPlace ch := by
    unfold State.inPlace; cases ch.bridge? <;> simp [hc, hb]
  simp only [State.weighingSound, hc, hp, hb]

/-- Judging lamps and outputs leaves the weighing invariant as it is. -/
@[simp] theorem State.weighingSound_settle (s : State) : s.settle.weighingSound ↔ s.weighingSound :=
  State.weighingSound_congr rfl fun b => by cases b <;> exact ⟨rfl, rfl⟩

/-- With the head written out, the others are the rest of the queue. -/
theorem Rpu.headAlone_cons {r : Rpu} {j : Job} {rest : List Job} (h : r.queue = j :: rest) :
    r.headAlone ↔ ∀ x ∈ rest, x.st = .queued ∧ x.started = false := by simp [Rpu.headAlone, h]

/-- A flag latched to a port is latched there. -/
theorem State.latch_has (s : State) (p : Port) (f : EventFlag) : ((s.latch p f).events p).has f = true := by simp [State.has_latch]

/-- What the end of a capture leaves of its channel (R24). -/
theorem State.endCapture_chan {s : State} {ch : Channel} {k : Capture} (h : (s.chan ch).capture = some k) (e : CaptureEnd)
    (w : Option Int) (a : Option Application) :
    (s.endCapture ch e w a).chan ch =
      { s.chan ch with
        capture := none
        slot := some (k.port,
          ⟨ch, k.serial, e, w, fineAttempts (s.chan ch).set.Rf k.attempt, coarseAttempts (s.chan ch).set.Rf k.attempt, s.stamp, a,
            k.ticket.map (·.number)⟩) } := by
  simp only [State.endCapture, h]
  cases ch <;> simp only [State.chan, State.latch_wch, Channel.bridge?] <;> (try split) <;> rfl

/-- The end of a capture latches CAPTURE_END to the port that started it (R24). -/
theorem State.endCapture_has {s : State} {ch : Channel} {k : Capture} (h : (s.chan ch).capture = some k) (e : CaptureEnd)
    (w : Option Int) (a : Option Application) : ((s.endCapture ch e w a).events k.port).has (.captureEnd ch) = true := by
  simp only [State.endCapture, h]; exact State.latch_has _ _ _

/-- A capture that ends without a weight is ended in the sense of R22 and R24. -/
theorem State.endCapture_captureEnded (s : State) (ch : Channel) (e : CaptureEnd) :
    s.captureEnded (s.endCapture ch e none none) ch e := by
  cases h : (s.chan ch).capture with
  | none => simp [State.captureEnded, State.endCapture, h]
  | some k => simp [State.captureEnded, h, State.endCapture_chan h, State.endCapture_has h]

end Sys2Proof.Machine
end

