-- ==== Sys2Proof/Laws/Samples.lean ====
section
/-! SUPPORT. What a sample, a signal timeout and a deck's events leave alone, operation by operation. -/

namespace Sys2Proof

@[simp] theorem Bridge.bridge?_channel (b : Bridge) : b.channel.bridge? = some b := by cases b <;> rfl

theorem Channel.eq_of_bridge? {ch : Channel} {b : Bridge} (h : ch.bridge? = some b) : ch = b.channel := by
  cases ch <;> cases b <;> first | rfl | cases h

/-- The flags that a weighing event of a channel can latch: CHANNEL, CAPTURE_END, and DECK of its bridge. -/
def Channel.latches (ch : Channel) (f : Machine.EventFlag) : Prop :=
  f = .channel ch ∨ f = .captureEnd ch ∨ ∃ b, ch.bridge? = some b ∧ f = .deck b

end Sys2Proof

namespace Sys2Proof.Machine

/-- What every operation of a weighing event leaves alone: all of `State.sampleKeeps`, the lamps and outputs, the arbiter, and the
bridges that are not the channel's. -/
structure WeighingKeeps (s : State) (ch : Channel) (t : State) : Prop where
  blocks : t = { s with evu := t.evu, wch := t.wch, dsu := t.dsu, tkt := t.tkt }
  dsu : t.dsu = { s.dsu with bridge0 := t.dsu.bridge0, bridge1 := t.dsu.bridge1 }
  alerts : t.evu.alerts = s.evu.alerts
  channels : ∀ o, o ≠ ch → t.chan o = s.chan o
  set : (t.chan ch).set = (s.chan ch).set
  serial : (t.chan ch).serial = (s.chan ch).serial
  nextPlatform : t.wch.nextPlatform = s.wch.nextPlatform
  mask : ∀ p, (t.events p).mask = (s.events p).mask
  flags : ∀ p f, ¬ ch.latches f → (t.events p).has f = (s.events p).has f
  bridges : ∀ b, ch.bridge? ≠ some b → t.bridge b = s.bridge b

namespace WeighingKeeps

variable {s t u : State} {ch : Channel} {b : Bridge}

theorem refl (s : State) (ch : Channel) : WeighingKeeps s ch s :=
  ⟨rfl, rfl, rfl, fun _ _ => rfl, rfl, rfl, rfl, fun _ => rfl, fun _ _ _ => rfl, fun _ _ => rfl⟩

theorem trans (h : WeighingKeeps s ch t) (g : WeighingKeeps t ch u) : WeighingKeeps s ch u where
  blocks := by rw [g.blocks, h.blocks]
  dsu := by rw [g.dsu, h.dsu]
  alerts := g.alerts.trans h.alerts
  channels o ho := (g.channels o ho).trans (h.channels o ho)
  set := g.set.trans h.set
  serial := g.serial.trans h.serial
  nextPlatform := g.nextPlatform.trans h.nextPlatform
  mask p := (g.mask p).trans (h.mask p)
  flags p f hf := (g.flags p f hf).trans (h.flags p f hf)
  bridges b hb := (g.bridges b hb).trans (h.bridges b hb)

/-! The updates -/

theorem setChan (s : State) (ch : Channel) (c : ChannelState) (hs : c.set = (s.chan ch).set) (hn : c.serial = (s.chan ch).serial) :
    WeighingKeeps s ch (s.setChan ch c) where
  blocks := by cases ch <;> rfl
  dsu := by cases ch <;> rfl
  alerts := by simp
  channels _ ho := State.chan_setChan_of_ne s c ho
  set := by simp [hs]
  serial := by simp [hn]
  nextPlatform := by cases ch <;> rfl
  mask p := by cases ch <;> cases p <;> rfl
  flags p f _ := by cases ch <;> cases p <;> rfl
  bridges := by simp

theorem setBridge (s : State) (x : BridgeState) (h : ch.bridge? = some b) : WeighingKeeps s ch (s.setBridge b x) where
  blocks := by cases b <;> rfl
  dsu := by cases b <;> rfl
  alerts := by simp
  channels := by simp
  set := by simp
  serial := by simp
  nextPlatform := by simp
  mask p := by cases b <;> cases p <;> rfl
  flags p f _ := by cases b <;> cases p <;> rfl
  bridges o ho := State.bridge_setBridge_of_ne s x (by rintro rfl; exact ho h)

theorem latch (s : State) (p : Port) {f : EventFlag} (h : ch.latches f) : WeighingKeeps s ch (s.latch p f) where
  blocks := by cases p <;> rfl
  dsu := by cases p <;> rfl
  alerts := by cases p <;> rfl
  channels := by simp
  set := by simp
  serial := by simp
  nextPlatform := by simp
  mask := by simp
  flags q g hg := by
    have : g ≠ f := by rintro rfl; exact hg h
    simp [State.has_latch, this]
  bridges := by simp

theorem latchBoth (s : State) {f : EventFlag} (h : ch.latches f) : WeighingKeeps s ch (s.latchBoth f) :=
  (latch s .office h).trans (latch _ .window h)

theorem withTickets (s : State) (ch : Channel) (k : Tkt) : WeighingKeeps s ch { s with tkt := k } where
  blocks := rfl
  dsu := rfl
  alerts := rfl
  channels o _ := by cases o <;> rfl
  set := by cases ch <;> rfl
  serial := by cases ch <;> rfl
  nextPlatform := rfl
  mask p := by cases p <;> rfl
  flags p _ _ := by cases p <;> rfl
  bridges b _ := by cases b <;> rfl

/-! The operations -/

theorem endCapture (s : State) (ch : Channel) (o : CaptureEnd) (w : Option Int) (a : Option Application) :
    WeighingKeeps s ch (s.endCapture ch o w a) := by
  unfold State.endCapture
  dsimp only
  split
  · exact refl _ _
  · refine .trans ?_ (latch _ _ (.inr (.inl rfl)))
    split
    · rename_i b hb
      split
      · refine .trans ?_ (setBridge _ _ hb)
        exact setChan s ch _ rfl rfl
      · exact setChan s ch _ rfl rfl
    · exact setChan s ch _ rfl rfl

theorem setPosition (s : State) (b : Bridge) (p : Position) : WeighingKeeps s b.channel (s.setPosition b p) := by
  unfold State.setPosition
  dsimp only
  have left : WeighingKeeps s b.channel
      (if (s.bridge b).pos = .onDeck ∧ p ≠ .onDeck then
        (s.endCapture b.channel .position none none).setBridge b
          { (s.endCapture b.channel .position none none).bridge b with captured := false }
      else s) := by
    split
    · exact (endCapture _ _ _ _ _).trans (setBridge _ _ b.bridge?_channel)
    · exact refl _ _
  have moved := fun x => left.trans (setBridge _ x b.bridge?_channel)
  split
  · exact (moved _).trans (latchBoth _ (.inr (.inr ⟨b, b.bridge?_channel, rfl⟩)))
  · exact moved _

theorem beamChange (s : State) (b : Bridge) (side : Side) (blocked : Bool) :
    WeighingKeeps s b.channel (s.beamChange b side blocked) := by
  unfold State.beamChange
  have timer : ∀ x, WeighingKeeps s b.channel (s.setBridge b x) := fun x => setBridge _ x b.bridge?_channel
  cases side <;> cases blocked <;> dsimp only <;> (try simp only [if_true, if_false, Bool.false_eq_true]) <;> repeat' split
  all_goals first | exact (timer _).trans (setPosition _ _ _) | exact timer _

theorem setOccupied (s : State) (ch : Channel) (o : Bool) : WeighingKeeps s ch (s.setOccupied ch o) := by
  unfold State.setOccupied
  dsimp only
  split
  · exact refl _ _
  · refine (setChan s ch { s.chan ch with occupied := o } rfl rfl).trans ?_
    unfold State.occupancyChange
    split
    · exact refl _ _
    · rename_i b hb
      obtain rfl := Channel.eq_of_bridge? hb
      dsimp only
      repeat' split
      all_goals first | exact setPosition _ _ _ | exact refl _ _

theorem enter (s : State) (ch : Channel) (c : ChannelState) (st : ChannelSt) (hs : c.set = (s.chan ch).set)
    (hn : c.serial = (s.chan ch).serial) : WeighingKeeps s ch (s.enter ch c st) :=
  (setChan s ch { c with st := st } hs hn).trans (latchBoth _ (.inl rfl))

theorem enterFault (s : State) (ch : Channel) : WeighingKeeps s ch (s.enterFault ch) :=
  (endCapture s ch _ _ _).trans (enter _ ch _ _ rfl rfl)

theorem endOutOfRange (s : State) (ch : Channel) : WeighingKeeps s ch (s.endOutOfRange ch) := by
  unfold State.endOutOfRange
  split
  · exact endCapture _ _ _ _ _
  · exact endCapture _ _ _ _ _
  · exact refl _ _

theorem decideOccupancy (s : State) (ch : Channel) : WeighingKeeps s ch (s.decideOccupancy ch) := by
  unfold State.decideOccupancy
  dsimp only
  split
  · exact (setOccupied _ _ _).trans (endCapture _ _ _ _ _)
  · exact setOccupied _ _ _

theorem setDrift (s : State) (ch : Channel) (drift : Bool) : WeighingKeeps s ch (s.setDrift ch drift) := by
  unfold State.setDrift
  dsimp only
  split
  · exact refl _ _
  · exact (setChan s ch { s.chan ch with drift := drift } rfl rfl).trans (latchBoth _ (.inl rfl))

theorem judgeBlock (s : State) (ch : Channel) (k : ZeroBlock) : WeighingKeeps s ch (s.judgeBlock ch k) := by
  unfold State.judgeBlock
  dsimp only
  repeat' split
  · exact refl _ _
  · exact refl _ _
  · exact setChan s ch _ rfl rfl
  · exact setDrift _ _ _

theorem track (s : State) (ch : Channel) (x : Sample) (capturing : Bool) : WeighingKeeps s ch (s.track ch x capturing) := by
  unfold State.track
  dsimp only
  split
  · exact setChan s ch _ rfl rfl
  · exact (setChan s ch { s.chan ch with block := emptyBlock } rfl rfl).trans (judgeBlock _ _ _)

theorem completeCapture (s : State) (ch : Channel) (k : Capture) : WeighingKeeps s ch (s.completeCapture ch k) := by
  unfold State.completeCapture
  dsimp only
  split
  · exact endCapture _ _ _ _ _
  · exact endCapture _ _ _ _ _
  · obtain ⟨tkt, h, -⟩ := s.handOver_frame k.ticket
      { channel := ch, weight := weighed (s.chan ch).set (s.chan ch).z (sumInt k.samples) (s.chan ch).set.M
        division := (s.chan ch).set.d, calCounter := (s.chan ch).set.calCounter, serial := k.serial, time := s.stamp
        coarse := k.coarse (s.chan ch).set } k.grade k.tare
    rw [h]
    exact (withTickets s ch tkt).trans (endCapture _ _ _ _ _)

theorem testCapture (s : State) (ch : Channel) (raw : Int) : WeighingKeeps s ch (s.testCapture ch raw) := by
  unfold State.testCapture
  dsimp only
  split
  · exact refl _ _
  · split
    · refine .trans ?_ (completeCapture _ _ _)
      exact setChan s ch _ rfl rfl
    · exact setChan s ch _ rfl rfl

theorem countStarting (s : State) (ch : Channel) : WeighingKeeps s ch (s.countStarting ch) := by
  unfold State.countStarting
  dsimp only
  split
  · exact setChan s ch _ rfl rfl
  · exact enter s ch _ _ rfl rfl

theorem goodSample (s : State) (ch : Channel) (raw : Int) : WeighingKeeps s ch (s.goodSample ch raw) := by
  unfold State.goodSample
  dsimp only
  refine .trans ?_ (testCapture _ _ _)
  have judged : WeighingKeeps s ch (((s.setChan ch ((s.chan ch).convert raw)).endOutOfRange ch).decideOccupancy ch) :=
    (setChan s ch ((s.chan ch).convert raw) rfl rfl).trans ((endOutOfRange _ _).trans (decideOccupancy _ _))
  split
  · exact judged.trans (countStarting _ _)
  · exact judged.trans (track _ _ _ _)
  · exact judged

/-- A sample, good or not, leaves alone what R1 names no effect on. -/
theorem sample (s : State) (ch : Channel) (raw : Int) (ok : Bool) : WeighingKeeps s ch (s.sample ch raw ok) := by
  unfold State.sample
  dsimp only
  split
  · exact refl _ _
  · split
    · exact (enter s ch (s.timed ch { (s.chan ch).clearWindow with goodCount := 0 }) .starting rfl rfl).trans (goodSample _ _ _)
    · exact refl _ _
  · split
    · exact (setChan s ch { s.timed ch (s.chan ch) with signal := .good } rfl rfl).trans (goodSample _ _ _)
    · exact setChan s ch (s.timed ch (s.chan ch)).lose rfl rfl
  · split
    · exact (setChan s ch (s.timed ch (s.chan ch)) rfl rfl).trans (goodSample _ _ _)
    · exact enterFault _ _

/-! What follows from it -/

/-- It is all that `State.sampleKeeps` asks. -/
theorem sampleKeeps (h : WeighingKeeps s ch t) : s.sampleKeeps ch t := by
  have blocks := h.blocks
  refine ⟨?_, h.dsu, h.alerts, h.channels, h.set, h.serial, fun _ => h.nextPlatform, fun p => ⟨h.mask p, fun f h1 h2 h3 => h.flags p f ?_⟩⟩
  · have outs : t.outs = s.outs := by rw [blocks]
    have lamps : t.lamps = s.lamps := by rw [blocks]
    rw [outs, lamps]
    exact blocks
  · rintro (rfl | rfl | ⟨b, hb, rfl⟩)
    · exact h1 rfl
    · exact h2 rfl
    · exact h3 b hb rfl

/-- Such an event begins no alert where it takes its channel neither into nor out of SERVICE, so it is concluded by the judgement of
lamps and outputs alone. -/
theorem conclude (h : WeighingKeeps s ch t) (service : (t.chan ch).st = .service ↔ (s.chan ch).st = .service) :
    s.conclude t = t.settle := by
  have lines : t.dsu.lines = s.dsu.lines := by rw [h.dsu]
  have inService : ∀ o, ((t.chan o).st == ChannelSt.service) = ((s.chan o).st == ChannelSt.service) := by
    intro o
    by_cases ho : o = ch
    · subst ho; rw [Bool.eq_iff_iff]; simpa using service
    · rw [h.channels o ho]
  have any : t.anyInService = s.anyInService := by
    have h0 := inService .c0
    have h1 := inService .c1
    have h2 := inService .c2
    have h3 := inService .c3
    simp only [State.chan] at h0 h1 h2 h3
    simp only [State.anyInService, h0, h1, h2, h3]
  have begun : ∀ src, t.beginAlert s src = t := by
    intro src
    have : t.alertCondition src = s.alertCondition src := by
      cases src <;> simp [State.alertCondition, State.cashDoorOpen, State.cabinetOpen, State.switchClosed, State.served, lines, any]
    simp [State.beginAlert, this]
  simp only [State.conclude, State.beginAlerts, begun]

end WeighingKeeps

end Sys2Proof.Machine
end

