-- ==== Sys2Proof/Laws/Wire.lean ====
section
/-! SUPPORT. The readers of request bodies read back the fields a request is sent as (R213). -/

namespace Sys2Proof.Machine

/-- The bytes of fields, as a reader takes them. -/
def fieldCodes (fs : List Field) : List Nat := (fs.flatMap Field.bytes).map BitVec.toNat

theorem fieldCodes_append (a b : List Field) : fieldCodes (a ++ b) = fieldCodes a ++ fieldCodes b := by
  simp [fieldCodes, List.flatMap_append]

/-- A reader takes the bytes of these fields and no more, and answers x; with none, it finds that they do not fit. -/
def Reads {α : Type} (r : Reader α) (fs : List Field) (x : Option α) : Prop :=
  ∀ rest, r (fieldCodes fs ++ rest) = x.map fun a => (a, rest)

theorem Reads.pure {α : Type} (x : α) : Reads (Pure.pure x : Reader α) [] (some x) := fun _ => rfl

theorem Reads.bind {α β : Type} {r : Reader α} {k : α → Reader β} {f1 f2 : List Field} {x : α} {y : Option β}
    (h1 : Reads r f1 (some x)) (h2 : Reads (k x) f2 y) : Reads (r >>= k) (f1 ++ f2) y := by
  intro rest
  have e := h1 (fieldCodes f2 ++ rest)
  show (StateT.bind r k) _ = _
  simp only [fieldCodes_append, List.append_assoc, StateT.bind, e, Option.map_some]
  exact h2 rest

theorem Reads.field {α β : Type} {r : Reader α} {k : α → Reader β} {f : Field} {fs : List Field} {x : α} {y : Option β}
    (h1 : Reads r [f] (some x)) (h2 : Reads (k x) fs y) : Reads (r >>= k) (f :: fs) y :=
  Reads.bind h1 h2

/-- A first field that does not fit. -/
theorem Reads.bind_none {α β : Type} {r : Reader α} {k : α → Reader β} {f1 : List Field} (f2 : List Field)
    (h1 : Reads r f1 none) : Reads (r >>= k) (f1 ++ f2) none := by
  intro rest
  have e := h1 (fieldCodes f2 ++ rest)
  show (StateT.bind r k) _ = _
  simp only [fieldCodes_append, List.append_assoc, StateT.bind, e, Option.map_none]
  rfl

/-- A reader of the last field of a group, whose value is then put in its place. -/
theorem Reads.map {α β : Type} {r : Reader α} {g : α → β} {f1 : List Field} {x : Option α} (h : Reads r f1 x) :
    Reads (r >>= fun a => Pure.pure (g a)) f1 (x.map g) := by
  cases x with
  | none => simpa using Reads.bind_none (k := fun a => (Pure.pure (g a) : Reader β)) [] h
  | some x => simpa using Reads.bind (k := fun a => (Pure.pure (g a) : Reader β)) h (Reads.pure (g x))

/-! One field -/

theorem reads_u8 {n : Nat} (h : fitsBytes 1 n = true) : Reads Reader.u8 [.u8 n] (some n) := by
  intro rest
  have : n < 256 := by simpa [fitsBytes] using h
  simp [fieldCodes, Field.bytes, bigEndian, Reader.u8, Nat.mod_eq_of_lt this]

theorem reads_u16 {n : Nat} (h : fitsBytes 2 n = true) : Reads Reader.u16 [.u16 n] (some n) := by
  intro rest
  have : n < 65536 := by simpa [fitsBytes] using h
  simp [fieldCodes, Field.bytes, bigEndian, Reader.u16, Reader.unsigned, Reader.u8, bind, StateT.bind, pure, StateT.pure]
  omega

theorem reads_u24 {n : Nat} (h : fitsBytes 3 n = true) : Reads Reader.u24 [.u24 n] (some n) := by
  intro rest
  have : n < 16777216 := by simpa [fitsBytes] using h
  simp [fieldCodes, Field.bytes, bigEndian, Reader.u24, Reader.unsigned, Reader.u8, bind, StateT.bind, pure, StateT.pure]
  omega

theorem reads_u32 {n : Nat} (h : fitsBytes 4 n = true) : Reads Reader.u32 [.u32 n] (some n) := by
  intro rest
  have : n < 4294967296 := by simpa [fitsBytes] using h
  simp [fieldCodes, Field.bytes, bigEndian, Reader.u32, Reader.unsigned, Reader.u8, bind, StateT.bind, pure, StateT.pure]
  omega

theorem reads_i32 {z : Int} (h : fitsSigned z = true) : Reads Reader.i32 [.i32 z] (some z) := by
  have hz : -2147483648 ≤ z ∧ z ≤ 2147483647 := by simpa [fitsSigned] using h
  have hn : fitsBytes 4 (BitVec.ofInt 32 z).toNat = true := by simpa [fitsBytes] using (BitVec.ofInt 32 z).isLt
  have e : (if (BitVec.ofInt 32 z).toNat < 2147483648 then ((BitVec.ofInt 32 z).toNat : Int)
      else ((BitVec.ofInt 32 z).toNat : Int) - 4294967296) = z := by
    rw [BitVec.toNat_ofInt]
    split <;> omega
  have r := Reads.map (g := fun n : Nat => if n < 2147483648 then (n : Int) else (n : Int) - 4294967296) (reads_u32 hn)
  intro rest
  have := r rest
  simp only [Option.map_some, e] at this
  exact this

theorem reads_bool (b : Bool) : Reads Reader.bool [flagField b] (some b) := by
  intro rest
  cases b <;> rfl

theorem fieldCodes_text {t : Text} (h : fitsText t = true) : fieldCodes [.text t] = t.length :: t := by
  simp only [fitsText, Bool.and_eq_true, decide_eq_true_eq, List.all_eq_true] at h
  obtain ⟨h1, h2⟩ := h
  have e : List.map (BitVec.toNat ∘ BitVec.ofNat 8) t = t := by
    conv_rhs => rw [← List.map_id t]
    refine List.map_congr_left fun c hc => ?_
    have : c < 256 := h2 c hc
    simp [Nat.mod_eq_of_lt this]
  simp [fieldCodes, Field.bytes, e]
  omega

theorem chars_append (t rest : Text) :
    Reader.chars t.length (t ++ rest) = if printableText t then some (t, rest) else none := by
  induction t with
  | nil => rfl
  | cons c t ih =>
    have : Reader.chars (c :: t).length (c :: t ++ rest) =
        (Reader.chars t.length (t ++ rest)).bind fun x => if printable c then some (c :: x.1, x.2) else none := by
      simp only [List.length_cons, List.cons_append, Reader.chars, Reader.u8, bind, StateT.bind, Option.bind]
      cases Reader.chars t.length (t ++ rest) with
      | none => rfl
      | some x => by_cases hc : printable c = true <;> simp [hc, pure, StateT.pure, Reader.fail]
    have all : printableText (c :: t) = (printable c && printableText t) := rfl
    rw [this, ih, all]
    cases printable c <;> cases printableText t <;> rfl

theorem reads_text {t : Text} (h : fitsText t = true) :
    Reads Reader.text [.text t] (if printableText t then some t else none) := by
  intro rest
  rw [fieldCodes_text h]
  show Reader.chars t.length (t ++ rest) = _
  rw [chars_append]
  split <;> rfl

/-! Fields behind a presence byte, lists -/

theorem reads_some {α : Type} {r : Reader α} {fs : List Field} {x : Option α} (h : Reads r fs x) :
    Reads (Reader.presence r) (.u8 1 :: fs) (x.map some) :=
  Reads.bind (f1 := [.u8 1]) (reads_bool true) (Reads.map (g := some) h)

theorem reads_none {α : Type} {r : Reader α} {fs : List Field} {x : α} (h : Reads r fs (some x)) :
    Reads (Reader.presence r) (.u8 0 :: fs) (some none) :=
  Reads.bind (f1 := [.u8 0]) (reads_bool false) (Reads.map (g := fun _ => none) h)

theorem reads_optText {t : Option Text} (h : fitsTextOption t = true) :
    Reads (Reader.presence Reader.text) (optText t) (if printableOption t then some t else none) := by
  cases t with
  | none => exact reads_none (reads_text (t := []) rfl)
  | some t =>
    have := reads_some (reads_text h)
    rw [apply_ite (Option.map some)] at this
    exact this

theorem reads_optI32 {z : Option Int} (h : fitsSignedOption z = true) : Reads (Reader.presence Reader.i32) (optI32 z) (some z) := by
  cases z with
  | none => exact reads_none (reads_i32 (z := 0) rfl)
  | some z => exact reads_some (reads_i32 h)

theorem reads_zeroAbsent {r : Reader Nat} {f : Field} {n : Nat} {x : Option Nat} (h : Reads r [f] (some (x.getD 0)))
    (hx : fitsZeroAbsent n x = true) : Reads (Reader.zeroAbsent r) [f] (some x) := by
  have := Reads.map (g := fun n => if n = 0 then none else some n) h
  cases x with
  | none => exact this
  | some v =>
    have hv : v ≠ 0 := by simp [fitsZeroAbsent] at hx; exact hx.1
    simp only [Option.getD_some, Option.map_some, hv, if_false] at this
    exact this

theorem reads_zeroU24 {x : Option Nat} (h : fitsZeroAbsent 3 x = true) :
    Reads (Reader.zeroAbsent Reader.ticket) [zeroU24 x] (some x) :=
  reads_zeroAbsent (reads_u24 (by cases x <;> simp_all [fitsZeroAbsent, fitsBytes])) h

theorem reads_zeroU8 {x : Option Nat} (h : fitsZeroAbsent 1 x = true) : Reads (Reader.zeroAbsent Reader.u8) [zeroU8 x] (some x) :=
  reads_zeroAbsent (reads_u8 (by cases x <;> simp_all [fitsZeroAbsent, fitsBytes])) h

theorem reads_times {α : Type} {r : Reader α} {f : α → List Field} (l : List α) (h : ∀ x ∈ l, Reads r (f x) (some x)) :
    Reads (Reader.times r l.length) (l.flatMap f) (some l) := by
  induction l with
  | nil => exact Reads.pure []
  | cons x l ih =>
    exact Reads.bind (h x (by simp)) (Reads.map (g := fun rest => x :: rest) (ih fun y hy => h y (by simp [hy])))

theorem reads_list {α : Type} {r : Reader α} {f : α → List Field} (l : List α) (hl : l.length ≤ 255)
    (h : ∀ x ∈ l, Reads r (f x) (some x)) : Reads (Reader.listOf r) (listFields f l) (some l) :=
  Reads.bind (f1 := [.u8 l.length]) (reads_u8 (by simp [fitsBytes]; omega)) (reads_times l h)

/-! Groups of fields -/

theorem reads_oneOf {α : Type} {table : List α} {n : Nat} {x : α} (hn : fitsBytes 1 n = true) (h : table[n]? = some x) :
    Reads (Reader.oneOf table) [.u8 n] (some x) := by
  refine Reads.bind (f2 := []) (reads_u8 hn) ?_
  rw [h]
  exact Reads.pure x

theorem reads_optionalOf {α : Type} {table : List α} {f : α → Nat} (hf : ∀ x, fitsBytes 1 (f x) = true ∧ table[f x]? = some x)
    (x : Option α) : Reads (Reader.optionalOf table) (optU8 (x.map f)) (some x) := by
  cases x with
  | none => exact Reads.bind (f2 := []) (reads_none (reads_u8 (n := 0) rfl)) (Reads.pure none)
  | some x =>
    refine Reads.bind (f2 := []) (reads_some (reads_u8 (hf x).1)) ?_
    simp only [(hf x).2]
    exact Reads.pure (some x)

theorem reads_bridge (b : Option Bridge) :
    Reads (Reader.optionalOf [Bridge.b0, .b1]) (optU8 (b.map Bridge.num)) (some b) :=
  reads_optionalOf (fun x => by cases x <;> exact ⟨rfl, rfl⟩) b

theorem reads_side (x : Option Side) : Reads (Reader.optionalOf [Side.entry, .exit]) (optU8 (x.map Side.code)) (some x) :=
  reads_optionalOf (fun x => by cases x <;> exact ⟨rfl, rfl⟩) x

theorem reads_colour (c : Option Colour) : Reads (Reader.optionalOf [Colour.red, .green]) (optU8 (c.map Colour.code)) (some c) :=
  reads_optionalOf (fun x => by cases x <;> exact ⟨rfl, rfl⟩) c

theorem reads_lineFunction (f : LineFunction) : Reads Reader.lineFunction (LineFunction.fields f) (some f) := by
  have role (n : Nat) (hn : fitsBytes 1 n = true) (b : Option Bridge) (x : Option Side) (c : Option Colour) {y : Option LineFunction}
      (h : Reads (match n, b, x, c with
        | 0, some b, some x, _ => (pure (.beam b x) : Reader LineFunction)
        | 1, some b, some x, some c => pure (.lamp b x c)
        | 2, _, _, _ => pure .calSwitch
        | 3, _, _, _ => pure .cashDoor
        | 4, _, _, _ => pure .cabinet
        | 5, _, _, _ => pure .gpIn
        | 6, _, _, _ => pure .gpOut
        | 7, _, _, _ => pure .unmapped
        | _, _, _, _ => Reader.fail) [] y) : Reads Reader.lineFunction (roleFields n b x c) y := by
    have e : roleFields n b x c =
        [.u8 n] ++ (optU8 (b.map Bridge.num) ++ (optU8 (x.map Side.code) ++ (optU8 (c.map Colour.code) ++ []))) := by simp [roleFields]
    rw [e]
    exact Reads.bind (reads_u8 hn) (Reads.bind (reads_bridge b) (Reads.bind (reads_side x) (Reads.bind (reads_colour c) h)))
  cases f <;> exact role _ rfl _ _ _ (Reads.pure _)

theorem reads_lineEntry (e : LineEntry) : Reads Reader.lineEntry (LineEntry.fields e) (some e) := by
  obtain ⟨f, p, u⟩ := e
  refine Reads.bind (reads_lineFunction f) (Reads.bind (f1 := [flagField (p == .activeHigh)]) (x := p) ?_
    (Reads.map (g := fun u => LineEntry.mk f p u) (reads_bool u)))
  cases p <;> exact reads_oneOf rfl rfl

theorem reads_aspectRow {r : AspectRow} (h : r.wellFormed = true) : Reads Reader.aspectRow (AspectRow.fields r) (some r) := by
  simp only [AspectRow.wellFormed, Bool.and_eq_true] at h
  obtain ⟨⟨⟨h1, h2⟩, h3⟩, h4⟩ := h
  exact Reads.field (reads_u8 h1) (Reads.field (reads_u8 h2) (Reads.field (reads_u8 h3)
    (Reads.map (g := fun d => AspectRow.mk r.entryRed r.entryGreen r.exitRed d) (reads_u8 h4))))

theorem reads_channelParams {x : ChannelParams} (h : x.wellFormed = true) :
    Reads Reader.channelParams [flagField x.enabled, .i32 x.d, .i32 x.K, .u8 x.M, .u8 x.b, .u8 x.T, .u8 x.A, .u8 x.Rf] (some x) := by
  simp only [ChannelParams.wellFormed, Bool.and_eq_true] at h
  obtain ⟨⟨⟨⟨⟨⟨h1, h2⟩, h3⟩, h4⟩, h5⟩, h6⟩, h7⟩ := h
  exact Reads.field (reads_bool x.enabled) (Reads.field (reads_i32 h1) (Reads.field (reads_i32 h2)
    (Reads.field (reads_u8 h3) (Reads.field (reads_u8 h4) (Reads.field (reads_u8 h5)
      (Reads.field (reads_u8 h6)
        (Reads.map (g := fun rf => ChannelParams.mk x.enabled x.d x.K x.M x.b x.T x.A rf) (reads_u8 h7))))))))

theorem reads_limits {l : Limits} (h : l.wellFormed = true) : Reads Reader.limits (Limits.fields l) (some l) := by
  simp only [Limits.wellFormed, Bool.and_eq_true] at h
  obtain ⟨⟨⟨⟨⟨⟨h1, h2⟩, h3⟩, h4⟩, h5⟩, h6⟩, h7⟩ := h
  exact Reads.field (reads_u32 h1) (Reads.field (reads_u32 h2) (Reads.field (reads_u32 h3)
    (Reads.field (reads_u32 h4) (Reads.field (reads_u16 h5) (Reads.field (reads_u16 h6)
      (Reads.map (g := fun v => Limits.mk l.cashLimit l.unit l.approvalLimit l.fee l.claimLapse l.takeTimeout v) (reads_u16 h7)))))))

theorem reads_deductMode {m : DeductMode} (h : m.wellFormed = true) : Reads Reader.deductMode (DeductMode.fields m) (some m) := by
  cases m with
  | grade => exact Reads.field (fs := []) (reads_u8 (n := 0) rfl) (Reads.pure _)
  | percent p => exact Reads.field (reads_u8 (n := 1) rfl) (Reads.map (g := DeductMode.percent) (reads_u16 h))
  | weight t => exact Reads.field (reads_u8 (n := 2) rfl) (Reads.map (g := DeductMode.weight) (reads_i32 h))

theorem reads_ticketKind (k : TicketKind) : Reads Reader.ticketKind [.u8 (kindCode k)] (some k) := by
  cases k <;> exact reads_oneOf rfl rfl

theorem reads_storeContents {c : StoreContents} (h : c.wellFormed = true) :
    Reads Reader.storeContents [.u8 c.kind, .u32 c.denomination, .u16 c.count, .u16 c.capacity, .u16 c.lowThreshold] (some c) := by
  simp only [StoreContents.wellFormed, Bool.and_eq_true] at h
  obtain ⟨⟨⟨⟨h1, h2⟩, h3⟩, h4⟩, h5⟩ := h
  exact Reads.field (reads_u8 h1) (Reads.field (reads_u32 h2) (Reads.field (reads_u16 h3)
    (Reads.field (reads_u16 h4)
      (Reads.map (g := fun n => StoreContents.mk c.kind c.denomination c.count c.capacity n) (reads_u16 h5)))))

theorem reads_alertMarks (m : AlertMarks) : Reads Reader.alertMarks (AlertMarks.fields m) (some m) :=
  Reads.field (reads_bool m.cashDoor) (Reads.field (reads_bool m.cabinet)
    (Reads.field (reads_bool m.calSwitch) (Reads.field (reads_bool m.retract)
      (Reads.map (g := fun e => AlertMarks.mk m.cashDoor m.cabinet m.calSwitch m.retract e) (reads_bool m.dispute)))))

theorem reads_pricePair {x : Nat × Nat} (h : (fitsBytes 1 x.1 && fitsBytes 4 x.2) = true) :
    Reads Reader.pricePair [.u8 x.1, .u32 x.2] (some x) := by
  simp only [Bool.and_eq_true] at h
  exact Reads.field (reads_u8 h.1) (Reads.map (g := fun p => (x.1, p)) (reads_u32 h.2))

/-! Rows -/

/-- A field that may hold an unprintable text, and the rest behind it. -/
theorem Reads.bind_text {α β : Type} {r : Reader α} {k : α → Reader β} {f1 f2 : List Field} {x : α} {p : Bool} {y : Option β}
    (h1 : Reads r f1 (if p then some x else none)) (h2 : Reads (k x) f2 y) :
    Reads (r >>= k) (f1 ++ f2) (if p then y else none) := by
  cases p
  · exact Reads.bind_none f2 h1
  · exact Reads.bind h1 h2

theorem Reads.text_field {α β : Type} {r : Reader α} {k : α → Reader β} {f : Field} {fs : List Field} {x : α} {p : Bool}
    {y : Option β} (h1 : Reads r [f] (if p then some x else none)) (h2 : Reads (k x) fs y) :
    Reads (r >>= k) (f :: fs) (if p then y else none) :=
  Reads.bind_text h1 h2

/-- An unprintable plate is malformed (R63, R206 check 3). -/
theorem normalisePlate_unprintable {t : Text} (h : printableText t = false) : normalisePlate t = none := by
  obtain ⟨c, hc, hp⟩ : ∃ c ∈ t, printable c = false := by simpa [printableText] using h
  have hp : ¬(0x20 ≤ c ∧ c ≤ 0x7E) := by simpa [printable] using hp
  have fold : foldUpper c = c := if_neg (by omega)
  have bad : ¬((t.map foldUpper).filter (· ≠ 0x20)).all plateChar = true := by
    intro hall
    have := List.all_eq_true.mp hall c (List.mem_filter.mpr ⟨List.mem_map.mpr ⟨c, hc, fold⟩, by simp; omega⟩)
    simp [plateChar] at this
    omega
  exact if_neg fun h => bad h.2.2

theorem handlerOf_reads {kind : Nat} {fs : List Field} {x : Option Handler} (h : Reads (bodyReader kind) fs x) :
    handlerOf kind (fs.flatMap Field.bytes) = x.getD badBody := by
  have := h []
  simp only [fieldCodes, List.append_nil] at this
  simp only [handlerOf, Reader.whole, this]
  cases x <;> rfl

/-- The frame of a row does what the row does, when the reader of its kind reads its body back. -/
theorem request_reads {src a : Sender} {kind k : Nat} {fs f : List Field} {h : Handler} {s : State}
    (hf : some (a, k, f) = some (src, kind, fs)) (hr : handlerOf k (f.flatMap Field.bytes) = h) :
    request src kind (handlerOf kind (fs.flatMap Field.bytes)) s = request a k h s := by
  cases hf
  rw [hr]

theorem request_read {src a : Sender} {kind k : Nat} {fs f : List Field} {h : Handler} {s : State}
    (hf : some (a, k, f) = some (src, kind, fs)) (hr : Reads (bodyReader k) f (some h)) :
    request src kind (handlerOf kind (fs.flatMap Field.bytes)) s = request a k h s :=
  request_reads hf (handlerOf_reads hr)

/-- The frame of a request row, whatever its operands, does what the row does. A text field that holds an unprintable character does not
fit, and the row is then refused as the frame is (R206 check 3). -/
theorem request_form (c : Instr) {src : Sender} {kind : Nat} {fs : List Field} (s : State) (hw : WellFormed c = true)
    (hf : requestForm c = some (src, kind, fs)) :
    request src kind (handlerOf kind (fs.flatMap Field.bytes)) s = exec c s := by
  cases c with
  | ident src => exact request_read hf (Reads.pure _)
  | eventsFetch src => exact request_read hf (Reads.pure _)
  | linkCounters src => exact request_read hf (Reads.pure _)
  | restart src => exact request_read hf (Reads.pure _)
  | deckState src => exact request_read hf (Reads.pure _)
  | linesRead src => exact request_read hf (Reads.pure _)
  | storeRead src => exact request_read hf (Reads.pure _)
  | payoutCancel src => exact request_read hf (Reads.pure _)
  | retractBinEmpty src => exact request_read hf (Reads.pure _)
  | dispenserClear src => exact request_read hf (Reads.pure _)
  | clockRead src => exact request_read hf (Reads.pure _)
  | alertRead src => exact request_read hf (Reads.pure _)
  | channelState src ch => exact request_read hf (Reads.map (g := fun ch => withChannel ch Weigh.channelState) (reads_u8 hw))
  | zero src ch => exact request_read hf (Reads.map (g := fun ch => withChannel ch Weigh.zero) (reads_u8 hw))
  | captureAbort src ch => exact request_read hf (Reads.map (g := fun ch => withChannel ch Weigh.abort) (reads_u8 hw))
  | calibrateZero src ch =>
    exact request_read hf (Reads.map (g := fun ch => withChannel ch Weigh.calibrateZero) (reads_u8 hw))
  | channelSet src ch x =>
    simp only [WellFormed, Bool.and_eq_true] at hw
    obtain ⟨h1, h2⟩ := hw
    exact request_read hf (Reads.field (reads_u8 h1)
      (Reads.map (g := fun x => withChannel ch (Weigh.channelSet x)) (reads_channelParams h2)))
  | channelService src ch enter =>
    exact request_read hf (Reads.field (reads_u8 hw)
      (Reads.map (g := fun e => withChannel ch (Weigh.service e)) (reads_bool enter)))
  | capture src ch ticket grade tare =>
    simp only [WellFormed, Bool.and_eq_true] at hw
    obtain ⟨⟨⟨h1, h2⟩, h3⟩, h4⟩ := hw
    exact request_read hf (Reads.field (reads_u8 h1) (Reads.field (reads_zeroU24 h2) (Reads.field (reads_zeroU8 h3)
      (Reads.map (g := fun t => withChannel ch (Weigh.capture ticket grade t)) (reads_optI32 h4)))))
  | outcomeFetch src target => exact request_read hf (Reads.map (g := Weigh.fetch) (reads_u8 hw))
  | calibrateSpan src ch weight =>
    simp only [WellFormed, Bool.and_eq_true] at hw
    obtain ⟨h1, h2⟩ := hw
    exact request_read hf (Reads.field (reads_u8 h1)
      (Reads.map (g := fun w => withChannel ch (Weigh.calibrateSpan w)) (reads_i32 h2)))
  | lineWrite src line on =>
    exact request_read hf (Reads.field (reads_u8 hw) (Reads.map (g := fun x => Lines.write line x) (reads_bool on)))
  | gradeRead src first count =>
    simp only [WellFormed, Bool.and_eq_true] at hw
    obtain ⟨h1, h2⟩ := hw
    exact request_read hf (Reads.field (reads_u8 h1) (Reads.map (g := fun x => Grades.read first x) (reads_u8 h2)))
  | limitsSet src limits => exact request_read hf (Reads.map (g := Grades.limitsSet) (reads_limits hw))
  | ticketRead src ticket part =>
    simp only [WellFormed, Bool.and_eq_true] at hw
    obtain ⟨h1, h2⟩ := hw
    exact request_read hf (Reads.field (reads_u24 h1) (Reads.map (g := fun x => Tickets.read ticket x) (reads_u8 h2)))
  | ticketList src all start =>
    exact request_read hf (Reads.field (reads_bool all) (Reads.map (g := fun x => Tickets.list all x) (reads_u8 hw)))
  | lineGrade src ticket place code =>
    simp only [WellFormed, Bool.and_eq_true] at hw
    obtain ⟨⟨h1, h2⟩, h3⟩ := hw
    exact request_read hf (Reads.field (reads_u24 h1) (Reads.field (reads_u8 h2)
      (Reads.map (g := fun x => Tickets.lineGrade ticket place x) (reads_u8 h3))))
  | lineDeduct src ticket place mode =>
    simp only [WellFormed, Bool.and_eq_true] at hw
    obtain ⟨⟨h1, h2⟩, h3⟩ := hw
    exact request_read hf (Reads.field (reads_u24 h1) (Reads.field (reads_u8 h2)
      (Reads.map (g := fun x => Tickets.lineDeduct ticket place x) (reads_deductMode h3))))
  | lineStrike src ticket place =>
    simp only [WellFormed, Bool.and_eq_true] at hw
    obtain ⟨h1, h2⟩ := hw
    exact request_read hf (Reads.field (reads_u24 h1) (Reads.map (g := fun x => Tickets.lineStrike ticket x) (reads_u8 h2)))
  | weighingStrike src ticket => exact request_read hf (Reads.map (g := Tickets.weighingStrike) (reads_u24 hw))
  | ticketReopen src ticket => exact request_read hf (Reads.map (g := Tickets.reopen) (reads_u24 hw))
  | ticketSettle src ticket => exact request_read hf (Reads.map (g := Tickets.settle) (reads_u24 hw))
  | ticketApprove src ticket => exact request_read hf (Reads.map (g := Tickets.approve) (reads_u24 hw))
  | ticketClaim src ticket => exact request_read hf (Reads.map (g := Tickets.claim) (reads_u24 hw))
  | ticketRelease src ticket => exact request_read hf (Reads.map (g := Tickets.release) (reads_u24 hw))
  | ticketVoid src ticket => exact request_read hf (Reads.map (g := Tickets.void) (reads_u24 hw))
  | ticketResolve src ticket handed =>
    simp only [WellFormed, Bool.and_eq_true] at hw
    obtain ⟨h1, h2⟩ := hw
    exact request_read hf (Reads.field (reads_u24 h1) (Reads.map (g := fun x => Tickets.resolve ticket x) (reads_u32 h2)))
  | storeEnable src store enable =>
    exact request_read hf (Reads.field (reads_u8 hw) (Reads.map (g := fun x => Cash.storeEnable store x) (reads_bool enable)))
  | payoutStart src ticket acceptPartial =>
    exact request_read hf (Reads.field (reads_u24 hw)
      (Reads.map (g := fun x => Cash.payoutStart ticket x) (reads_bool acceptPartial)))
  | retractLogRead src start => exact request_read hf (Reads.map (g := Cash.logRead) (reads_u8 hw))
  | receiptPrint src ticket form =>
    simp only [WellFormed, Bool.and_eq_true] at hw
    obtain ⟨h1, h2⟩ := hw
    exact request_read hf (Reads.field (reads_u24 h1) (Reads.map (g := fun x => Print.receiptPrint ticket x) (reads_u8 h2)))
  | printCancel src job => exact request_read hf (Reads.map (g := Print.cancel) (reads_u8 hw))
  | printerState src part => exact request_read hf (Reads.map (g := Print.state) (reads_u8 hw))
  | releaseHourSet src hour => exact request_read hf (Reads.map (g := Calendar.releaseHourSet) (reads_u8 hw))
  | alertSet src globalEnable enables =>
    exact request_read hf (Reads.field (reads_bool globalEnable)
      (Reads.map (g := fun x => Alert.set globalEnable x) (reads_alertMarks enables)))
  | alertClear src all named =>
    exact request_read hf (Reads.field (reads_bool all) (Reads.map (g := fun x => Alert.clear all x) (reads_alertMarks named)))
  | eventsMask src mask =>
    have r := Reads.map (g := fun m => General.eventsMask (BitVec.ofNat 24 m))
      (reads_u24 (n := mask.toNat) (by simpa [fitsBytes] using mask.isLt))
    rw [Option.map_some, BitVec.ofNat_toNat, BitVec.setWidth_eq] at r
    exact request_read hf r
  | lampPatternSet src pattern steps tick pause =>
    simp only [WellFormed, Bool.and_eq_true] at hw
    obtain ⟨⟨h1, h2⟩, h3⟩ := hw
    have e : BitVec.ofNat 8 steps.toNat = steps := by simp
    exact request_read hf (Reads.field (reads_u8 h1)
      (Reads.field (reads_u8 (n := steps.toNat) (by simpa [fitsBytes] using steps.isLt))
      (Reads.field (reads_u8 h2) (e.symm ▸ Reads.map (g := fun p => Deck.lampPatternSet pattern steps tick p) (reads_u8 h3)))))
  | aspectSet src rows stretch =>
    simp only [WellFormed, Bool.and_eq_true] at hw
    obtain ⟨⟨h1, h2⟩, h3⟩ := hw
    have r := reads_times rows fun x hx => reads_aspectRow (List.all_eq_true.mp h2 x hx)
    rw [of_decide_eq_true h1] at r
    exact request_read hf (Reads.bind r (Reads.map (g := fun x => Deck.aspectSet rows x) (reads_u16 h3)))
  | lampOverride src bridge setting =>
    simp only [WellFormed, Bool.and_eq_true] at hw
    obtain ⟨h1, h2⟩ := hw
    cases setting with
    | none =>
      have group : Reads (do let row ← Reader.aspectRow; let d ← Reader.u16; Pure.pure (row, d))
          (AspectRow.fields ⟨0, 0, 0, 0⟩ ++ [.u16 0]) (some (⟨0, 0, 0, 0⟩, 0)) :=
        Reads.bind (reads_aspectRow rfl) (Reads.map (g := fun d => (AspectRow.mk 0 0 0 0, d)) (reads_u16 rfl))
      exact request_read hf (Reads.field (reads_u8 h1) (Reads.map (g := fun x => Deck.lampOverride bridge x) (reads_none group)))
    | some x =>
      obtain ⟨row, d⟩ := x
      simp only [Bool.and_eq_true] at h2
      have group : Reads (do let row ← Reader.aspectRow; let d ← Reader.u16; Pure.pure (row, d))
          (AspectRow.fields row ++ [.u16 d]) (some (row, d)) :=
        Reads.bind (reads_aspectRow h2.1) (Reads.map (g := fun d => (row, d)) (reads_u16 h2.2))
      exact request_read hf (Reads.field (reads_u8 h1) (Reads.map (g := fun x => Deck.lampOverride bridge x) (reads_some group)))
  | lineMapSet src entries debounce fault =>
    simp only [WellFormed, Bool.and_eq_true] at hw
    obtain ⟨⟨h1, h2⟩, h3⟩ := hw
    have r := reads_times entries fun x _ => reads_lineEntry x
    rw [of_decide_eq_true h1] at r
    exact request_read hf (Reads.bind r (Reads.field (reads_u16 h2)
      (Reads.map (g := fun x => Lines.mapSet entries debounce x) (reads_u16 h3))))
  | gradeSet src code name price deduction restricted holdDays enabled =>
    simp only [WellFormed, Bool.and_eq_true] at hw
    obtain ⟨⟨⟨⟨h1, h2⟩, h3⟩, h4⟩, h5⟩ := hw
    refine request_reads hf ((handlerOf_reads (Reads.field (reads_u8 h1) (Reads.text_field (reads_text h2)
      (Reads.field (reads_u32 h3) (Reads.field (reads_u16 h4) (Reads.field (reads_bool restricted) (Reads.field (reads_u8 h5)
      (Reads.map (g := fun e => Grades.set code name price deduction restricted holdDays e) (reads_bool enabled))))))))).trans ?_)
    cases hp : printableText name
    · funext p s
      simp [Grades.set, badBody, hp]
    · rfl
  | priceSet src pairs =>
    simp only [WellFormed, Bool.and_eq_true] at hw
    exact request_read hf (Reads.map (g := Grades.priceSet)
      (reads_list pairs (of_decide_eq_true hw.1) fun x hx => reads_pricePair (List.all_eq_true.mp hw.2 x hx)))
  | tareStore src plate ch tare =>
    simp only [WellFormed, Bool.and_eq_true] at hw
    obtain ⟨⟨h1, h2⟩, h3⟩ := hw
    refine request_reads hf ((handlerOf_reads (Reads.text_field (reads_text h1) (Reads.field (reads_u8 h2)
      (Reads.map (g := fun t => Tares.store plate ch t) (reads_i32 h3))))).trans ?_)
    cases hp : printableText plate
    · funext p s
      simp [Tares.store, badBody, normalisePlate_unprintable hp]
    · rfl
  | tareRead src select =>
    cases select with
    | plate plate =>
      have r : Reads Reader.tareSelect [.u8 0, .text plate] _ := Reads.field (reads_u8 (n := 0) rfl)
        (Reads.map (g := TareSelect.plate) (reads_text hw))
      refine request_reads hf ((handlerOf_reads (kind := 0x39) (Reads.map (g := Tares.read) r)).trans ?_)
      cases hp : printableText plate
      · funext p s
        simp [Tares.read, badBody, normalisePlate_unprintable hp]
      · rfl
    | page start =>
      have r : Reads Reader.tareSelect [.u8 1, .u8 start] (some (.page start)) :=
        Reads.field (reads_u8 (n := 1) rfl) (Reads.map (g := TareSelect.page) (reads_u8 hw))
      exact request_read hf (Reads.map (g := Tares.read) r)
  | tareDelete src plate =>
    refine request_reads hf ((handlerOf_reads (kind := 0x3A) (Reads.map (g := Tares.delete) (reads_optText hw))).trans ?_)
    cases plate with
    | none => rfl
    | some plate =>
      cases hp : printableText plate
      · funext p s
        simp [printableOption, Tares.delete, badBody, hp, normalisePlate_unprintable hp]
      · simp [printableOption, hp]
  | ticketOpen src kind customer plate =>
    simp only [WellFormed, Bool.and_eq_true] at hw
    refine request_reads hf ((handlerOf_reads (Reads.field (reads_ticketKind kind) (Reads.bind_text (reads_optText hw.1)
      (Reads.map (g := fun p => Tickets.open_ kind customer p) (reads_optText hw.2))))).trans ?_)
    cases hc : printableOption customer <;> cases hp : printableOption plate
    case true.true => rfl
    all_goals funext p s; simp [Tickets.open_, badBody, hc, hp]
  | ticketFinish src ticket used stored customer plate =>
    simp only [WellFormed, Bool.and_eq_true] at hw
    obtain ⟨⟨h1, h2⟩, h3⟩ := hw
    refine request_reads hf ((handlerOf_reads (Reads.field (reads_u24 h1) (Reads.field (reads_bool used)
      (Reads.field (reads_bool stored) (Reads.bind_text (reads_optText h2)
      (Reads.map (g := fun p => Tickets.finish ticket used stored customer p) (reads_optText h3))))))).trans ?_)
    cases hc : printableOption customer <;> cases hp : printableOption plate
    case true.true => rfl
    all_goals funext p s; simp [Tickets.finish, badBody, hc, hp]
  | storeLoad src store load =>
    simp only [WellFormed, Bool.and_eq_true] at hw
    obtain ⟨h1, h2⟩ := hw
    cases load with
    | none =>
      exact request_read hf (Reads.field (reads_u8 h1)
        (Reads.map (g := fun x => Cash.storeLoad store x) (reads_none (reads_storeContents (c := ⟨0, 0, 0, 0, 0⟩) rfl))))
    | some c =>
      exact request_read hf (Reads.field (reads_u8 h1)
        (Reads.map (g := fun x => Cash.storeLoad store x) (reads_some (reads_storeContents h2))))
  | headerSet src t1 t2 t3 b c =>
    simp only [WellFormed, Bool.and_eq_true] at hw
    obtain ⟨⟨h1, h2⟩, h3⟩ := hw
    refine request_reads hf ((handlerOf_reads (Reads.text_field (reads_text h1) (Reads.text_field (reads_text h2)
      (Reads.text_field (reads_text h3) (Reads.field (reads_bool b)
      (Reads.map (g := fun x => Print.headerSet t1 t2 t3 b x) (reads_bool c))))))).trans ?_)
    cases p1 : printableText t1 <;> cases p2 : printableText t2 <;> cases p3 : printableText t3
    case true.true.true => rfl
    all_goals funext p s; simp [Print.headerSet, badBody, p1, p2, p3]
  | clockSet src year month day hour minute second =>
    simp only [WellFormed, Bool.and_eq_true] at hw
    obtain ⟨⟨⟨⟨⟨h1, h2⟩, h3⟩, h4⟩, h5⟩, h6⟩ := hw
    have hy := of_decide_eq_true h1
    have e : 2000 + (year - 2000) = year := by omega
    have r : Reads Reader.dateTime [.u8 (year - 2000), .u8 month, .u8 day, .u8 hour, .u8 minute, .u8 second]
        (some ⟨year, month, day, hour, minute, second⟩) := by
      refine Reads.field (reads_u8 (by simp [fitsBytes]; omega)) (?_)
      rw [e]
      exact Reads.field (reads_u8 h2) (Reads.field (reads_u8 h3) (Reads.field (reads_u8 h4) (Reads.field (reads_u8 h5)
        (Reads.map (g := fun x => DateTime.mk year month day hour minute x) (reads_u8 h6)))))
    exact request_read hf (Reads.map (g := Calendar.set) r)
  | powerUp => cases hf
  | resetLine => cases hf
  | digitizerSample => cases hf
  | signalTimeout => cases hf
  | attemptTimeout => cases hf
  | inputLevelChange => cases hf
  | debouncedChange => cases hf
  | beamFaultTimeout => cases hf
  | stretchTimeout => cases hf
  | overrideTimeout => cases hf
  | lampTick => cases hf
  | claimLapse => cases hf
  | clockTick => cases hf
  | clockStop => cases hf
  | dailyRelease => cases hf
  | pieceOk => cases hf
  | pieceReject => cases hf
  | pickFail => cases hf
  | presented => cases hf
  | trayEmpty => cases hf
  | takeTimeout => cases hf
  | retracted => cases hf
  | jam => cases hf
  | ready => cases hf
  | dispenserAnswerTimeout => cases hf
  | lineDone => cases hf
  | cutDone => cases hf
  | paperLow => cases hf
  | paperOut => cases hf
  | paperIn => cases hf
  | coverOpen => cases hf
  | coverClosed => cases hf
  | headHot => cases hf
  | headCool => cases hf
  | printerAnswerTimeout => cases hf
  | frameCheckFailed => cases hf
  | lengthError => cases hf
  | characterError => cases hf
  | receiverOverrun => cases hf
  | frameGap => cases hf
  | lineBreak => cases hf
  | frameWhileAnswering => cases hf
  | groupRequestDropped => cases hf
  | answerSent => cases hf
  | unknownRequest => cases hf
  | characterArriving => cases hf
  | mainPowerLoss => cases hf

/-- The kind of a request row is a byte. -/
theorem requestForm_kind_lt (c : Instr) {src : Sender} {kind : Nat} {fs : List Field} (hf : requestForm c = some (src, kind, fs)) :
    kind < 256 := by
  unfold requestForm at hf
  split at hf <;> first | (cases hf; decide) | cases hf

end Sys2Proof.Machine
end

