-- ==== Sys2Proof/Tests/Slice0.lean ====
section
/-! SUPPORT. Tests of one step each, with expected results from spec/, the smoke test of WellFormed, and witnesses that the
hypotheses of the statements can be met. -/

namespace Sys2Proof.Tests

open Sys2Proof Sys2Proof.Machine

set_option maxRecDepth 20000

/-! Small states -/

/-- The status and data a port is answering after a command. -/
def told (o : Host.Outcome State Fault Refusal) (p : Port) : Option (Status × List Field) :=
  match o with
  | .next t => (t.port p).answer.map fun a => (a.status, a.data)
  | _ => none

/-- The status alone. -/
def status (o : Host.Outcome State Fault Refusal) (p : Port) : Option Status := (told o p).map (·.1)

/-- Something read in the state a command leaves. -/
def after {α : Type} (o : Host.Outcome State Fault Refusal) (f : State → α) : Option α :=
  match o with
  | .next t => some (f t)
  | _ => none

def s0 : State := State.reset

def off : State := { s0 with powered := false }

/-- Channel C0 of the worked conversion of chapter 1, in a state, with M = 4. -/
def c0 (st : ChannelSt) : ChannelState :=
  { idleChannel { defaultChannelSettings with enabled := true, calibrated := true, zCal := 41250, G := 327680, d := 200, K := 800000, M := 4 } 41250 0
      with st := st, signalTimer := some ⟨200, 0⟩ }

def withC0 (c : ChannelState) : State := s0.setChan .c0 c

def withC2 (c : ChannelState) : State := s0.setChan .c2 c

/-- A full window and a stable channel. -/
def steadyC0 (st : ChannelSt) (raw : Int) : ChannelState := { c0 st with window := List.replicate 4 ⟨raw, 0⟩, stable := true }

def flight (p : Port) (ticket : Option TicketRef) (attempt : Nat) (samples : List Int) : Capture :=
  { port := p, serial := 7, ticket := ticket, grade := none, tare := 236, attempt := attempt, attemptTimer := ⟨2000, 0⟩,
    samples := samples, startedAt := resetStamp }

def heldOutcome : CaptureOutcome := ⟨.c2, 311, .captured, some 1874, 2, 0, resetStamp, some .applied, some 4217⟩

def line2 (grade : Option Nat) (net : Int) : TicketLine :=
  { grade := grade, gross := net + 236, tare := 236, source := .container, net := net, division := 2, mode := .grade,
    coarse := false, capture := none, figures := none }

def block (cash : Nat) : Settlement :=
  { version := 417, fee := 0, payable := cash, cash := cash, remainder := 0, rounding := 0, unit := 10, cashLimit := 500000,
    holdUntil := none }

/-- Ticket 4,217 of the worked cases. -/
def t4217 (st : TicketSt) : Ticket :=
  { place := 1, number := 4217, series := 1, opening := 5, kind := .counter, st := st, openedAt := resetStamp, closedAt := none,
    customer := none, plate := none, weighings := [], lines := [line2 (some 21) 1638], approved := false, needsApproval := false,
    claim := none, lapse := none, settlement := none, payout := none, owed := ⟨0, 0, 0, none⟩, reprints := 0,
    receiptCancelled := false, revision := 2 }

def bridgeTicket (st : TicketSt) (weights : List Int) : Ticket :=
  { t4217 st with
    kind := .bridge, lines := [], plate := some (txt "AB12")
    weighings := weights.map fun w => ⟨.c0, w, 200, 0, 1, resetStamp, false⟩ }

def claimedBy (p : Port) : Ticket :=
  { t4217 .claimed with claim := some ⟨p, resetStamp⟩, lapse := some ⟨60000, 0⟩, settlement := some (block 18230) }

def withTicket (t : Ticket) : State := { s0 with tkt := { s0.tkt with tickets := [t] } }

/-- The grade of worked case 2. -/
def cans : Grade := ⟨txt "ALUMINIUM CANS", 11350, 20, false, 0, true⟩

def withGrade (s : State) (code : Nat) (g : Grade) : State :=
  { s with grt := { s.grt with grades := s.grt.grades.set (code - 1) g, version := 417, limits := ⟨500000, 10, 200000, 1500, 60, 45, 90⟩ } }

def storeOf (kind : StoreKind) (denomination count low : Nat) : Store :=
  ⟨some kind, some denomination, count, 1000, low, if count = 0 then .empty else .enabled, count, 0, 0, 0, 0⟩

/-- The stores of the worked plans of chapter 7. -/
def dayStores : List Store :=
  [storeOf .note 10000 12 5, storeOf .note 5000 0 5, storeOf .note 2000 40 10, storeOf .note 1000 30 10, storeOf .coin 100 200 40,
    storeOf .coin 10 300 50]

def payoutOf (p : Port) (bundle : List Nat) (amount : Nat) (todo : List (Nat × Nat)) (shown : Bool) : Payout :=
  { ticket := 4217, port := p, planned := 18230, plannedPieces := [1, 0, 4, 0, 2, 3], todo := todo, picked := bundle,
    pickedAmount := amount, presented := shown, cancelled := false }

/-- A dispenser state with a payout of ticket 4,217 in flight. -/
def paying (d : DispenserSt) (cmd : Option DispenserCommand) (p : Payout) : State :=
  let s := withTicket { claimedBy .window with st := .paying, lapse := none }
  { s with
    pyu := { s.pyu with
      stores := dayStores, disp := d, command := cmd, payout := some p, recovery := none, takeTimer := some ⟨45000, 0⟩ } }

def atRest (d : DispenserSt) : State :=
  { s0 with pyu := { s0.pyu with stores := dayStores, disp := d, recovery := none, remembered := .idle } }

def recovering (cmd : DispenserCommand) (r : Option Recovery) : State :=
  { s0 with pyu := { s0.pyu with stores := dayStores, disp := .recovering, command := some cmd, recovery := r } }

def job (st : JobSt) (next : Nat) : Job :=
  { id := 1, ticket := ⟨4217, 5⟩, kind := .copy, label := some (.copy 1), source := .port .window, st := st, started := true,
    serial := some 1, orphaned := false, content := [txt "A", txt "B"], next := next, restart := false, marker := false }

def printing (j : Job) (cmd : Option PrinterCommand) : State := { s0 with rpu := { s0.rpu with queue := [j], command := cmd } }

def onLine (p : Port) (rx : Receiver) : State := s0.setPort p { idlePort with rx := rx }

def sending (p : Port) (kind : Nat) (st : Status) : State := s0.setPort p { idlePort with answer := some ⟨kind, st, 0, []⟩ }

def plateEntry (i : Nat) : TareEntry := ⟨[65, 48 + i / 10, 48 + i % 10], 200, .b0, 10, resetStamp, resetStamp, 0⟩

/-- A line in a debounce. -/
def bouncing (n : Nat) : State :=
  { s0 with dsu := { s0.dsu with lines := s0.dsu.lines.modify n fun l => { l with debounce := some ⟨20, 0⟩ } } }

def onDeck : State := s0.setBridge .b0 { idleBridge with pos := .onDeck }

/-! WellFormed: one ill-formed term for each check -/

theorem test_wellFormed_straps : WellFormed (.powerUp true true 32) = false := by decide
theorem test_wellFormed_raw : WellFormed (.digitizerSample .platform 8388608 true) = false := by decide
theorem test_wellFormed_line : WellFormed (.inputLevelChange 16 .low) = false := by decide
theorem test_wellFormed_debounced_line : WellFormed (.debouncedChange 16) = false := by decide
theorem test_wellFormed_lapse : WellFormed (.claimLapse 16777216) = false := by decide
theorem test_wellFormed_count : WellFormed (.retracted 65536) = false := by decide
theorem test_wellFormed_kind : WellFormed (.groupRequestDropped 256) = false ∧ WellFormed (.unknownRequest .office 256) = false := by
  decide
theorem test_wellFormed_channel :
    WellFormed (.channelState .office 256) = false ∧ WellFormed (.channelService .office 256 true) = false ∧
      WellFormed (.zero .office 256) = false ∧ WellFormed (.captureAbort .office 256) = false ∧
      WellFormed (.outcomeFetch .office 256) = false ∧ WellFormed (.calibrateZero .office 256) = false := by decide
theorem test_wellFormed_channelSet :
    WellFormed (.channelSet .office 256 ⟨true, 10, 10000, 4, 1, 20, 2, 4⟩) = false ∧
      WellFormed (.channelSet .office 0 ⟨true, 2147483648, 10000, 4, 1, 20, 2, 4⟩) = false ∧
      WellFormed (.channelSet .office 0 ⟨true, 10, -2147483649, 4, 1, 20, 2, 4⟩) = false ∧
      WellFormed (.channelSet .office 0 ⟨true, 10, 10000, 256, 1, 20, 2, 4⟩) = false ∧
      WellFormed (.channelSet .office 0 ⟨true, 10, 10000, 4, 256, 20, 2, 4⟩) = false ∧
      WellFormed (.channelSet .office 0 ⟨true, 10, 10000, 4, 1, 256, 2, 4⟩) = false ∧
      WellFormed (.channelSet .office 0 ⟨true, 10, 10000, 4, 1, 20, 256, 4⟩) = false ∧
      WellFormed (.channelSet .office 0 ⟨true, 10, 10000, 4, 1, 20, 2, 256⟩) = false := by decide
theorem test_wellFormed_capture :
    WellFormed (.capture .office 256 none none none) = false ∧ WellFormed (.capture .office 0 (some 0) none none) = false ∧
      WellFormed (.capture .office 0 none (some 256) none) = false ∧
      WellFormed (.capture .office 0 none none (some 2147483648)) = false := by decide
theorem test_wellFormed_span :
    WellFormed (.calibrateSpan .office 256 5000) = false ∧ WellFormed (.calibrateSpan .office 2 2147483648) = false := by decide
theorem test_wellFormed_pattern :
    WellFormed (.lampPatternSet .office 256 0 10 0) = false ∧ WellFormed (.lampPatternSet .office 2 0 256 0) = false ∧
      WellFormed (.lampPatternSet .office 2 0 10 256) = false := by decide
theorem test_wellFormed_aspects :
    WellFormed (.aspectSet .office [⟨0, 0, 0, 0⟩] 500) = false ∧
      WellFormed (.aspectSet .office (List.replicate 7 ⟨0, 0, 0, 256⟩) 500) = false ∧
      WellFormed (.aspectSet .office (List.replicate 7 ⟨0, 0, 0, 0⟩) 65536) = false := by decide
theorem test_wellFormed_override :
    WellFormed (.lampOverride .office 256 none) = false ∧ WellFormed (.lampOverride .office 0 (some (⟨256, 0, 0, 0⟩, 5))) = false ∧
      WellFormed (.lampOverride .office 0 (some (⟨0, 0, 0, 0⟩, 65536))) = false := by decide
theorem test_wellFormed_lineMap :
    WellFormed (.lineMapSet .office [] 20 60) = false ∧ WellFormed (.lineMapSet .office defaultLineMap 65536 60) = false ∧
      WellFormed (.lineMapSet .office defaultLineMap 20 65536) = false ∧ WellFormed (.lineWrite .office 256 true) = false := by
  decide
theorem test_wellFormed_grades :
    WellFormed (.gradeSet .office 256 (txt "A") 0 0 false 0 true) = false ∧
      WellFormed (.gradeSet .office 1 [256] 0 0 false 0 true) = false ∧
      WellFormed (.gradeSet .office 1 (txt "A") 4294967296 0 false 0 true) = false ∧
      WellFormed (.gradeSet .office 1 (txt "A") 0 65536 false 0 true) = false ∧
      WellFormed (.gradeSet .office 1 (txt "A") 0 0 false 256 true) = false ∧ WellFormed (.gradeRead .office 256 1) = false ∧
      WellFormed (.gradeRead .office 1 256) = false := by decide
theorem test_wellFormed_prices :
    WellFormed (.priceSet .office [(256, 0)]) = false ∧ WellFormed (.priceSet .office [(1, 4294967296)]) = false ∧
      WellFormed (.priceSet .office (List.replicate 256 (1, 1))) = false := by decide
theorem test_wellFormed_limits :
    WellFormed (.limitsSet .office ⟨4294967296, 1, 0, 0, 60, 45, 90⟩) = false ∧
      WellFormed (.limitsSet .office ⟨0, 4294967296, 0, 0, 60, 45, 90⟩) = false ∧
      WellFormed (.limitsSet .office ⟨0, 1, 4294967296, 0, 60, 45, 90⟩) = false ∧
      WellFormed (.limitsSet .office ⟨0, 1, 0, 4294967296, 60, 45, 90⟩) = false ∧
      WellFormed (.limitsSet .office ⟨0, 1, 0, 0, 65536, 45, 90⟩) = false ∧
      WellFormed (.limitsSet .office ⟨0, 1, 0, 0, 60, 65536, 90⟩) = false ∧
      WellFormed (.limitsSet .office ⟨0, 1, 0, 0, 60, 45, 65536⟩) = false := by decide
theorem test_wellFormed_tares :
    WellFormed (.tareStore .office [256] 0 200) = false ∧ WellFormed (.tareStore .office (txt "A") 256 200) = false ∧
      WellFormed (.tareStore .office (txt "A") 0 2147483648) = false ∧ WellFormed (.tareRead .office (.page 256)) = false ∧
      WellFormed (.tareRead .office (.plate [256])) = false ∧ WellFormed (.tareDelete .office (some [256])) = false := by decide
theorem test_wellFormed_tickets :
    WellFormed (.ticketOpen .office .bridge (some [256]) none) = false ∧
      WellFormed (.ticketOpen .office .bridge none (some (List.replicate 256 65))) = false ∧
      WellFormed (.ticketRead .office 16777216 0) = false ∧ WellFormed (.ticketRead .office 1 256) = false ∧
      WellFormed (.ticketList .office true 256) = false ∧ WellFormed (.ticketClaim .office 16777216) = false ∧
      WellFormed (.ticketRelease .office 16777216) = false ∧ WellFormed (.ticketSettle .office 16777216) = false ∧
      WellFormed (.ticketApprove .office 16777216) = false ∧ WellFormed (.ticketVoid .office 16777216) = false ∧
      WellFormed (.ticketReopen .office 16777216) = false ∧ WellFormed (.ticketResolve .office 16777216 0) = false ∧
      WellFormed (.ticketResolve .office 1 4294967296) = false := by decide
theorem test_wellFormed_lines :
    WellFormed (.lineGrade .office 16777216 1 1) = false ∧ WellFormed (.lineGrade .office 1 256 1) = false ∧
      WellFormed (.lineGrade .office 1 1 256) = false ∧ WellFormed (.lineDeduct .office 16777216 1 .grade) = false ∧
      WellFormed (.lineDeduct .office 1 256 .grade) = false ∧ WellFormed (.lineDeduct .office 1 1 (.percent 65536)) = false ∧
      WellFormed (.lineDeduct .office 1 1 (.weight 2147483648)) = false ∧ WellFormed (.lineStrike .office 16777216 1) = false ∧
      WellFormed (.lineStrike .office 1 256) = false ∧ WellFormed (.weighingStrike .office 16777216) = false ∧
      WellFormed (.ticketFinish .office 16777216 false false none none) = false ∧
      WellFormed (.ticketFinish .office 1 false false (some [256]) none) = false ∧
      WellFormed (.ticketFinish .office 1 false false none (some [256])) = false := by decide
theorem test_wellFormed_stores :
    WellFormed (.storeLoad .office 256 none) = false ∧ WellFormed (.storeLoad .office 0 (some ⟨256, 1, 1, 1, 1⟩)) = false ∧
      WellFormed (.storeLoad .office 0 (some ⟨0, 4294967296, 1, 1, 1⟩)) = false ∧
      WellFormed (.storeLoad .office 0 (some ⟨0, 1, 65536, 1, 1⟩)) = false ∧
      WellFormed (.storeLoad .office 0 (some ⟨0, 1, 1, 65536, 1⟩)) = false ∧
      WellFormed (.storeLoad .office 0 (some ⟨0, 1, 1, 1, 65536⟩)) = false ∧
      WellFormed (.storeEnable .office 256 true) = false ∧ WellFormed (.payoutStart .office 16777216 true) = false ∧
      WellFormed (.retractLogRead .office 256) = false := by decide
theorem test_wellFormed_printing :
    WellFormed (.receiptPrint .office 16777216 0) = false ∧ WellFormed (.receiptPrint .office 1 256) = false ∧
      WellFormed (.printCancel .office 256) = false ∧ WellFormed (.printerState .office 256) = false ∧
      WellFormed (.headerSet .office [256] [] [] true true) = false ∧ WellFormed (.headerSet .office [] [256] [] true true) = false ∧
      WellFormed (.headerSet .office [] [] [256] true true) = false := by decide
theorem test_wellFormed_clock :
    WellFormed (.clockSet .office 1999 1 1 0 0 0) = false ∧ WellFormed (.clockSet .office 2030 256 1 0 0 0) = false ∧
      WellFormed (.clockSet .office 2030 1 256 0 0 0) = false ∧ WellFormed (.clockSet .office 2030 1 1 256 0 0) = false ∧
      WellFormed (.clockSet .office 2030 1 1 0 256 0) = false ∧ WellFormed (.clockSet .office 2030 1 1 0 0 256) = false ∧
      WellFormed (.releaseHourSet .office 256) = false := by decide

/-! Single steps, with the spec's own figures -/

/-- Worked conversion of chapter 1: a raw count of 103,747 reads 312,400 t. -/
theorem test_sample_converts :
    after (exec (.digitizerSample (.bridge .b0) 103747 true) (withC0 (c0 .active))) (fun t => t.wch.c0.live) =
      some (.weight 312400) := by decide

/-- R7: the M-th good sample takes STARTING to ACTIVE. -/
theorem test_sample_starts :
    after (exec (.digitizerSample (.bridge .b0) 41250 true) (withC0 { c0 .starting with goodCount := 3 })) (fun t => t.wch.c0.st) =
      some .active := by decide

/-- R20, R24: a full window within the band completes the capture in flight for ticket 4,217 (NOT_BOUND without one). -/
theorem test_sample_captures :
    after (exec (.digitizerSample (.bridge .b0) 103747 true)
        (withC0 { c0 .active with occupied := true, capture := some (flight .office none 1 [103747, 103747, 103747]) }))
      (fun t => (t.wch.c0.slot.map fun x => (x.2.outcome, x.2.weight, x.2.application))) =
      some (some (.captured, some 312400, some .notBound)) := by decide

/-- R8: an OVERRANGE sample takes ACTIVE to FAULT; a signal timeout in SERVICE loses the signal. -/
theorem test_overrange :
    after (exec (.digitizerSample (.bridge .b0) 0 false) (withC0 (c0 .active))) (fun t => t.wch.c0.st) = some .fault := by decide
theorem test_signal_timeout :
    after (exec (.signalTimeout .c0) (withC0 (c0 .service))) (fun t => (t.wch.c0.st, t.wch.c0.signal)) = some (.service, .lost) := by
  decide

/-- R13: a full block at 10 counts above Z qualifies and moves Z to its mean. -/
theorem test_zero_tracking :
    after (exec (.digitizerSample (.bridge .b0) 41260 true)
        (withC0 { c0 .active with window := [⟨41260, 50⟩], block := ⟨List.replicate 3 ⟨41260, 50⟩, false⟩ }))
      (fun t => t.wch.c0.z) = some 41260 := by decide

/-- R13: beyond the bound of R12 the block sets ZERO_DRIFT instead. -/
theorem test_zero_drift :
    after (exec (.digitizerSample (.bridge .b0) 51250 true)
        (withC0 { c0 .active with z := 51245, block := ⟨List.replicate 3 ⟨51250, 25⟩, false⟩ }))
      (fun t => (t.wch.c0.z, t.wch.c0.drift)) = some (51245, true) := by decide

/-- R21: an attempt timer's expiry begins attempt 2; after attempt Rf + 2 the capture ends UNSTABLE. -/
theorem test_attempt_two :
    after (exec (.attemptTimeout .c0) (withC0 { c0 .active with capture := some (flight .office none 1 []) }))
      (fun t => t.wch.c0.capture.map (·.attempt)) = some (some 2) := by decide
theorem test_attempts_end :
    after (exec (.attemptTimeout .c0) (withC0 { c0 .active with capture := some (flight .office none 6 []) }))
      (fun t => t.wch.c0.slot.map fun x => (x.2.outcome, x.2.fineAttempts, x.2.coarseAttempts)) = some (some (.unstable, 4, 2)) := by
  decide

/-- R19: a CAPTURE taken answers STARTED with the serial. -/
theorem test_capture_started :
    told (exec (.capture .window 2 none none (some 236))
        (withC2 { c0 .active with set := { (c0 .active).set with d := 2, K := 15000 }, occupied := true, serial := 311 })) .window =
      some (.started, [.u8 2, .u16 311]) := by decide

/-- R18: the window port may not capture on a bridge. -/
theorem test_capture_wrong_port :
    status (exec (.capture .window 0 none none none) (withC0 (c0 .active))) .window = some .wrongPort := by decide
theorem test_abort : status (exec (.captureAbort .office 0) (withC0 { c0 .active with capture := some (flight .office none 1 []) }))
    .office = some .done := by decide

/-- R25: OUTCOME FETCH empties the slot. -/
theorem test_outcome_fetch :
    after (exec (.outcomeFetch .window 2) (withC2 { c0 .active with slot := some (.window, heldOutcome) }))
      (fun t => (t.window.answer.map (·.status), t.wch.c2.slot)) = some (some .done, none) := by decide

/-- R12: ZERO moves Z to the window mean. -/
theorem test_zero :
    after (exec (.zero .office 0) (withC0 (steadyC0 .active 41300))) (fun t => (t.office.answer.map (·.status), t.wch.c0.z)) =
      some (some .done, 41300) := by decide
theorem test_zero_range : status (exec (.zero .office 0) (withC0 (steadyC0 .active 44451))) .office = some .zeroRange := by decide

/-- Worked span calibration of chapter 1: a window sum of 929,923 at 5,000 t gives G = 6,554. -/
theorem test_span :
    told (exec (.calibrateSpan .office 2 5000)
        { withC2 { c0 .service with
            z := 8120, set := { (c0 .service).set with zCal := 8120, d := 2, K := 15000, M := 16, b := 1 }
            window := List.replicate 15 ⟨58120, 4999⟩ ++ [⟨58123, 4999⟩], stable := true } with
          dsu := { s0.dsu with lines := s0.dsu.lines.modify 12 fun l => { l with debounced := true } } }) .office =
      some (.done, [.u32 6554, .u8 1, .i32 5000]) := by decide
theorem test_cal_locked : status (exec (.calibrateZero .office 0) (withC0 (steadyC0 .service 41300))) .office = some .calLocked := by
  decide
theorem test_cal_zero :
    after (exec (.calibrateZero .office 0)
        { withC0 (steadyC0 .service 41300) with
          dsu := { s0.dsu with lines := s0.dsu.lines.modify 12 fun l => { l with debounced := true } } })
      (fun t => (t.wch.c0.z, t.wch.c0.set.zCal, t.wch.c0.set.calCounter)) = some (41300, 41300, 1) := by decide
theorem test_service_enters : after (exec (.channelService .office 0 true) (withC0 (c0 .active))) (fun t => t.wch.c0.st) =
    some .service := by decide
/-- R9, R195: leaving SERVICE with the calibration switch closed latches CAL_SWITCH with its stamp, and ALERT. -/
theorem test_service_leaves :
    after (exec (.channelService .office 0 false)
        { withC0 (c0 .service) with dsu := { s0.dsu with lines := s0.dsu.lines.modify 12 fun l => { l with debounced := true } } })
      (fun t => (t.wch.c0.st, t.evu.alerts.calSwitch.latch, t.evu.office.has .alert)) =
      some (.starting, some ⟨epoch, false⟩, true) := by decide
theorem test_channel_set :
    after (exec (.channelSet .office 0 ⟨true, 100, 800000, 4, 1, 20, 9, 4⟩) (withC0 (c0 .service)))
      (fun t => (t.wch.c0.set.d, t.wch.c0.set.A, t.wch.c0.set.calCounter)) = some (100, 5, 1) := by decide

/-- R35: a truck's first beam takes EMPTY to ENTERING; a beam clearing on an occupied deck takes it to ON_DECK. -/
theorem test_beam_blocks :
    after (exec (.debouncedChange 0) (bouncing 0)) (fun t => (t.dsu.bridge0.pos, t.dsu.bridge0.stretch)) =
      some (.entering, some ⟨500, 0⟩) := by decide
theorem test_beam_fault :
    after (exec (.beamFaultTimeout .b0 .entry) (s0.setBridge .b0 { idleBridge with entryFault := some ⟨60000, 0⟩ }))
      (fun t => t.dsu.bridge0.pos) = some .fault := by decide

/-- R40: a pattern with a pause of 0 begins again after step 8. -/
theorem test_lamp_wraps :
    after (exec (.lampTick .b0 .entry .red)
        (({ s0 with lamps := { s0.lamps with bridge0 := { s0.lamps.bridge0 with entryRed := ⟨2, 8, 0⟩ } } } : State).setBridge .b0
          { idleBridge with override := some ⟨⟨2, 0, 0, 0⟩, none⟩ })) (fun t => t.lamps.bridge0.entryRed) =
      some ⟨2, 1, 0⟩ := by decide
/-- R40: pattern 4 holds step 8 for a pause of 4 ticks, and begins again when they have passed. -/
theorem test_lamp_pause :
    [LampRun.mk 4 8 0, ⟨4, 8, 4⟩, ⟨4, 8, 3⟩, ⟨4, 8, 2⟩, ⟨4, 8, 1⟩].map (fun r => r.advance (s0.pattern 4).pause) =
      [⟨4, 8, 4⟩, ⟨4, 8, 3⟩, ⟨4, 8, 2⟩, ⟨4, 8, 1⟩, ⟨4, 1, 0⟩] := by decide
theorem test_pattern_set :
    status (exec (.lampPatternSet .office 2 0x0F 0 15) s0) .office = some .done ∧
      status (exec (.lampPatternSet .office 1 0x0F 10 0) s0) .office = some .badParam := by decide
theorem test_override_clamps :
    after (exec (.lampOverride .office 1 (some (⟨1, 0, 1, 0⟩, 601))) s0) (fun t => t.dsu.bridge1.override) =
      some (some ⟨⟨1, 0, 1, 0⟩, some ⟨600000, 0⟩⟩) := by decide
theorem test_override_clear : status (exec (.lampOverride .office 1 none) s0) .office = some .noOperation := by decide
theorem test_line_map :
    status (exec (.lineMapSet .office defaultLineMap 20 60) s0) .office = some .done ∧
      status (exec (.lineMapSet .office (defaultLineMap.set 15 ⟨.cashDoor, .activeLow, true⟩) 20 60) s0) .office =
        some .badParam := by decide
/-- R213: bridge, side and colour of a line function stand behind presence bytes; one that is needed must be there. -/
theorem test_line_function_body :
    Reader.lineFunction.whole [0, 1, 1, 1, 0, 0, 0] = some (.beam .b1 .entry) ∧
      Reader.lineFunction.whole [1, 1, 0, 1, 1, 1, 0] = some (.lamp .b0 .exit .red) ∧
      Reader.lineFunction.whole [3, 0, 9, 0, 9, 0, 9] = some .cashDoor ∧
      Reader.lineFunction.whole [0, 0, 0, 1, 0, 0, 0] = none := by decide

/-- R206 check 3, with the model's choice for an absent text (log 22): the absent plate of TARE DELETE must fit too. -/
theorem test_absent_text_body :
    (Reader.whole (Reader.presence Reader.text) [0, 1, 65] = some none) ∧ Reader.whole (Reader.presence Reader.text) [0, 1, 31] = none ∧
      Reader.whole (Reader.presence Reader.text) [1, 1, 65] = some (some [65]) ∧
      Reader.whole (Reader.presence Reader.text) [2, 1, 65] = none := by decide

/-- R48 to R50, R54: versions wrap from 65,535 to 0, a bad code is refused, and time limits clamp. -/
theorem test_price_version :
    told (exec (.priceSet .office [(3, 67900)]) { s0 with grt := { s0.grt with version := 65535 } }) .office =
      some (.done, [.u16 0]) := by decide
theorem test_group_price_dropped :
    after (exec (.priceSet .group [(3, 67900), (65, 1000)]) s0) (fun t => (t.office.counters.groupDropped, t.grt)) =
      some (1, s0.grt) := by decide
theorem test_limits_clamp :
    after (exec (.limitsSet .office ⟨500000, 10, 200000, 1500, 29, 121, 366⟩) s0) (fun t => t.grt.limits) =
      some ⟨500000, 10, 200000, 1500, 30, 120, 365⟩ := by decide
theorem test_grade_set : status (exec (.gradeSet .office 21 (txt "ALUMINIUM CANS") 11350 20 false 0 true) s0) .office =
    some .done := by decide

/-- R119: a 33rd plate evicts the least recently used. -/
theorem test_tare_evicts :
    after (exec (.tareStore .office (txt "ab 1") 0 400)
        { withC0 (c0 .off) with vtr := (List.range 32).map plateEntry }) (fun t => (t.vtr.length, t.vtr.getLast?.map (·.plate))) =
      some (32, some (txt "AB1")) := by decide
theorem test_tare_deleted : after (exec (.tareDelete .office (some (txt "a00"))) { s0 with vtr := [plateEntry 0, plateEntry 1] })
    (fun t => t.vtr.map (·.plate)) = some [(plateEntry 1).plate] := by decide

/-- R63, R65: the first ticket takes number 1 and place 1. -/
theorem test_ticket_open :
    told (exec (.ticketOpen .window .counter none none) s0) .window =
      some (.done, [.u24 1, .u8 1] ++ optText none) := by decide
theorem test_line_grade :
    after (exec (.lineGrade .window 4217 1 21) (withTicket { t4217 .complete with lines := [line2 none 1638] }))
      (fun t => t.tkt.tickets.map fun k => (k.revision, k.lines.map (·.grade))) = some [(3, [some 21])] := by decide
theorem test_line_deduct :
    status (exec (.lineDeduct .window 4217 1 (.weight 1639)) (withTicket (t4217 .complete))) .window = some .badParam ∧
      (told (exec (.lineDeduct .window 4217 1 (.weight 1638)) (withTicket (t4217 .complete))) .window).map
        (fun x => (x.1, x.2.drop (x.2.length - 2))) = some (.done, [.u8 0, .u8 3]) := by decide
theorem test_line_strike :
    after (exec (.lineStrike .window 4217 1) (withTicket (t4217 .weighing))) (fun t => t.tkt.tickets.map (·.lines)) = some [[]] := by
  decide
theorem test_weighing_strike :
    after (exec (.weighingStrike .office 4217) (withTicket (bridgeTicket .weighing [312400, 150600])))
      (fun t => t.tkt.tickets.map fun k => k.weighings.length) = some [1] := by decide
theorem test_finish :
    after (exec (.ticketFinish .window 4217 false false none none) (withTicket (t4217 .weighing)))
      (fun t => t.tkt.tickets.map (·.st)) = some [.complete] := by decide

/-- Worked case 2 of chapter 5: ded 32, P 1,606, amount and payable 18,228, C = 18,230, d_r = +2. -/
theorem test_settle :
    after (exec (.ticketSettle .window 4217) (withGrade (withTicket (t4217 .complete)) 21 cans))
      (fun t => t.tkt.tickets.map fun k => k.settlement.map fun b => (b.payable, b.cash)) =
      some [some (18228, 18230)] := by decide
theorem test_settle_line :
    (line2 (some 21) 1638).figuresUnder cans = ⟨some 20, 32, 1606, 11350, 18228, false⟩ ∧
      cashSplit ⟨500000, 10, 200000, 1500, 60, 45, 90⟩ 18228 = (18230, 0, 2) := by decide
theorem test_settle_ungraded :
    told (exec (.ticketSettle .window 4217) (withTicket { t4217 .complete with lines := [line2 none 1638] })) .window =
      some (.lineUngraded, [.u8 1]) := by decide
theorem test_claim :
    status (exec (.ticketClaim .window 4217) (withTicket { t4217 .settled with settlement := some (block 18230) })) .window =
      some .done ∧
      status (exec (.ticketClaim .office 4217) (withTicket (claimedBy .window))) .office = some .claimedElsewhere := by decide
theorem test_claim_lapses :
    after (exec (.claimLapse 4217) (withTicket (claimedBy .window)))
      (fun t => (t.tkt.tickets.map (·.st), t.evu.window.has .claimLapsed, t.evu.office.has .claimLapsed)) =
      some ([.settled], true, false) := by decide
theorem test_void : status (exec (.ticketVoid .window 4217) (withTicket (t4217 .weighing))) .window = some .done := by decide
theorem test_resolve :
    told (exec (.ticketResolve .office 4217 8400)
        (withTicket { t4217 .disputed with
          settlement := some (block 18230), payout := some ⟨18230, [], 10, 18230, 18230, 10, 0, 0, 1, none⟩ })) .office =
      some (.done, [.u32 8400, .u32 9830, .u8 3]) := by decide

/-- Worked plan of chapter 7: 18,230 is 1, 4, 0, 2, 3 pieces of S0, S2, S3, S4, S5. -/
theorem test_payout_start :
    told (exec (.payoutStart .window 4217 false)
        { atRest .idle with tkt := { s0.tkt with tickets := [claimedBy .window] } }) .window =
      some (.started, [.u24 4217, .u32 18230, .u16 1, .u16 0, .u16 4, .u16 0, .u16 2, .u16 3, .u32 0]) := by decide
theorem test_piece_ok :
    after (exec .pieceOk (paying .picking (some (.pick 0)) (payoutOf .window [0, 0, 0, 0, 0, 0] 0 [(0, 1), (2, 4)] false)))
      (fun t => (t.pyu.command, t.pyu.payout.map (·.pickedAmount), t.pyu.stores.map (·.count))) =
      some (some (.pick 2), some 10000, [11, 0, 40, 30, 200, 300]) := by decide
theorem test_pick_fail :
    after (exec .pickFail (paying .picking (some (.pick 2)) (payoutOf .window [1, 0, 0, 0, 0, 0] 10000 [(2, 4), (4, 2), (5, 3)] false)))
      (fun t => (t.pyu.stores.map (·.writtenOff), t.pyu.payout.map (·.todo))) =
      some ([0, 0, 40, 0, 0, 0], some [(3, 8), (4, 2), (5, 3)]) := by decide
theorem test_tray_empty :
    after (exec .trayEmpty (paying .waiting none (payoutOf .window [1, 0, 4, 0, 2, 3] 18230 [] true)))
      (fun t => (t.pyu.disp, t.tkt.tickets.map (·.st), t.pyu.slot.map fun x => (x.2.outcome, x.2.paid, x.2.shortfall))) =
      some (.idle, [.paid], some (.paid, 18230, 0)) := by decide
theorem test_jam :
    after (exec .jam (paying .waiting none (payoutOf .window [1, 0, 4, 0, 2, 3] 18230 [] true)))
      (fun t => (t.pyu.disp, t.tkt.tickets.map (·.st), t.evu.window.has .cashFault)) = some (.fault, [.disputed], true) := by decide
theorem test_retracted_recovery :
    after (exec (.retracted 0) (recovering .retract (some ⟨none⟩))) (fun t => (t.pyu.disp, t.pyu.log)) = some (.idle, []) := by decide

/-- R165: the last line's LINE_DONE gives the CUT, and its CUT_DONE ends the job. -/
theorem test_line_done :
    after (exec .lineDone (printing (job .printing 2) (some (.line (txt "B"))))) (fun t => t.rpu.command) = some (some .cut) := by
  decide
theorem test_cut_done :
    after (exec .cutDone (printing (job .printing 3) (some .cut)))
      (fun t => (t.rpu.queue, t.rpu.ended.map (·.ending), t.evu.window.has .printEnd, t.evu.office.has .printEnd)) =
      some ([], [.cut], true, false) := by decide
theorem test_paper_out :
    after (exec .paperOut (printing (job .printing 1) (some (.line (txt "A")))))
      (fun t => (t.rpu.command, t.rpu.queue.map (·.st), t.evu.office.has .printer)) = some (none, [.stalled], true) := by decide

/-- R179: 2031-12-31 23:59:59 is followed by 2032-01-01 00:00:00; R181: CLOCK SET makes the clock valid. -/
theorem test_year_turns :
    after (exec .clockTick { s0 with clu := ⟨⟨2031, 12, 31, 23, 59, 59⟩, true, 6⟩ }) (fun t => t.clu.now) =
      some ⟨2032, 1, 1, 0, 0, 0⟩ := by decide
theorem test_clock_set :
    after (exec (.clockSet .group 2031 4 2 8 0 0) s0) (fun t => (t.clu, t.office.answer, t.evu.window.has .clock)) =
      some (⟨⟨2031, 4, 2, 8, 0, 0⟩, true, 6⟩, none, true) := by decide
theorem test_clock_set_refused : status (exec (.clockSet .office 2031 2 29 8 0 0) s0) .office = some .badParam := by decide

/-- R197: a latched source whose condition persists stays. -/
theorem test_alert_clear :
    told (exec (.alertClear .office true ⟨false, false, false, false, false⟩) s0) .office =
      some (.done, [.u8 1, .u8 1, .u8 0, .u8 0, .u8 0]) := by decide

/-- R203: a length of 0 is a length error; R202, R208: straps of 31 put the office port offline. -/
theorem test_length_zero :
    after (exec (.characterArriving .window 0) (onLine .window (.length 0x0A5#9))) (fun t => (t.window.rx, t.window.counters.length)) =
      some (.hunting, 1) := by decide
theorem test_offline : after (exec (.ident .office) { s0 with straps := 31 }) (fun t => t.office) = some idlePort := by decide

/-- R211: after the answer to a RESTART the part restarts; IDENT then shows no loss of a warm restart's own. -/
theorem test_restart : after (exec (.answerSent .office) (sending .office 5 .done)) (fun t => (t.office, t.tkt.series)) =
    some (idlePort, 1) := by decide

/-! Witnesses: states and operands that meet the hypotheses of each statement, clause by clause -/

theorem witness_StepTakesFrontCommand :
    ({ s0 with pending := [.resetLine, .clockTick] } : State).pending = .resetLine :: [.clockTick] ∧ s0.pending = [] := by decide

/-- A ticket that owes its two payout copies. -/
def owing : State := withTicket { t4217 .paid with owed := ⟨0, 2, 0, some resetStamp⟩ }

/-- A ticket that owes a weigh slip, with the slip's job not started, in a queue behind a paused job. -/
def slipWaiting : State :=
  { withTicket { t4217 .settled with owed := ⟨1, 0, 0, some resetStamp⟩ } with
    rpu :=
      { s0.rpu with
        queue := [job .paused 1, { job .queued 1 with id := 2, kind := .weighSlip, source := .auto, started := false, serial := none }] } }

theorem witness_PowerUpStartsEveryBlock :
    ((31 : Nat) < 32 ∧ (0 : Nat) < 32) ∧ s0.dsu.lines[15]?.isSome = true ∧ defaultLineMap[15]? = some ⟨.gpIn, .activeLow, true⟩ ∧
      owing.tkt.placed ∧ (withTicket (t4217 .paid)).tkt.placed := by decide
theorem witness_WarmRestartKeepsStores : s0.powered = true ∧ s0.straps < 32 := by decide
/-- R92: a claim ends at a reset, and R161: the copies owed are queued again and the first starts. -/
theorem test_restart_ends_claim :
    after (exec .resetLine (withTicket (claimedBy .window))) (fun t => t.tkt.tickets.map fun k => (k.st, k.claim, k.revision)) =
      some [(.settled, none, 3)] := by decide
theorem test_restart_queues_owed :
    after (exec .resetLine owing) (fun t => (t.rpu.queue.map fun j => (j.label, j.st), t.rpu.serial)) =
      some ([(some .customer, .printing), (some .yard, .queued)], 2) := by decide
theorem witness_PowerOffAndUnpoweredPart : off.powered = false ∧ actsUnpowered .jam = false := by decide
theorem witness_RequestsAnsweredOrRefused :
    (requestOf (.ident .window) = some (.window, 0x01) ∧ Sender.window ≠ .group ∧ s0.ready Sender.window.port) ∧
      (s0.ready .window ∧ 0x06 ∉ knownKinds) ∧
      (requestOf (.restart .window) = some (.window, 0x05) ∧ 0x05 ∈ knownKinds ∧ 0x05 ∉ windowKinds) ∧
      (s0.ticket? 4217 = none ∧ printableOption none = true ∧
        requestOf (.ticketVoid (Port.sender .window) 4217) = some (Port.sender .window, 0x4D) ∧
        requestOf (.ticketReopen .office 4217) = some (.office, 0x48)) ∧
      ((3 : Nat) < 4 ∧ requestOf (.capture (Port.sender .window) 4 none none none) = some (Port.sender .window, 0x14) ∧
        requestOf (.zero .office 4) = some (.office, 0x13)) ∧ (1 : Nat) < 2 := by decide
theorem witness_DroppedFramesCounted :
    (requestOf (.ident .group) = some (.group, 0x01) ∧ s0.ready .office ∧ 0x01 ∉ [0x30, 0x32, 0x33, 0x63, 0x68]) ∧
      (requestOf (.ident .office) = some (.office, 0x01) ∧ (sending .office 1 .done).powered = true ∧
        (sending .office 1 .done).receives .office = true ∧ ((sending .office 1 .done).port .office).answer.isSome = true) ∧
      s0.powered = true ∧ (({ s0 with straps := 0 } : State).straps = 0 ∧ 30 < ({ s0 with straps := 31 } : State).straps) := by decide
theorem witness_ReadsChangeNothing :
    (s0.ready .office ∧ s0.ready .window) ∧ Channel.ofNat? 3 = some .c3 ∧
      ((withTicket (t4217 .complete)).ready .window ∧ (withTicket (t4217 .complete)).ticket? 4217 = some (t4217 .complete) ∧
        (3 : Nat) ≤ 3) ∧ s0.ticket? 4217 = none ∧ (3 : Nat) < 4 ∧
      (normalisePlate (txt "a 00") = some (txt "A00") ∧ ({ s0 with vtr := [plateEntry 0] } : State).tare? (txt "A00") = some (plateEntry 0)) ∧
      s0.tare? (txt "A00") = none ∧ normalisePlate (txt " ") = none ∧ normalisePlate (txt "ABCDEFGHIJK") = none := by decide
theorem witness_EventsCountersAndRestart :
    (s0.ready .window ∧ (0x7FFFFF#24).getLsbD 23 = false ∧ (0x800000#24).getLsbD 23 = true) ∧
      (((sending .window 1 .done).port .window).answer = some ⟨1, .done, 0, []⟩ ∧ (1 : Nat) ≠ 0x05) ∧
      ((sending .office 5 .done).port .office).answer = some ⟨5, .done, 0, []⟩ ∧ (sending .office 5 .done).powered = true := by decide
theorem witness_ReceiverTakesCharacters :
    ((onLine .office (.length 0x101#9)).powered = true ∧ (onLine .office (.length 0x101#9)).receives .office = true ∧
        ((onLine .office (.length 0x101#9)).port .office).rx ≠ .hunting) ∧
      ((onLine .window (.check 0x0A5#9 [1] (some 0))).port .window).rx = .check 0x0A5#9 [1] (some 0) ∧
      ((onLine .office (.length 0x101#9)).lengthErrorAt .office 0x11F#9 = true ∧
        (onLine .window (.length 0x0A5#9)).lengthErrorAt .window 0 = true ∧
        (onLine .window (.length 0x0A5#9)).lengthErrorAt .window 201 = true) ∧
      ((s0.port .office).rx = .hunting ∧ s0.lengthErrorAt .office 0x101#9 = false) ∧
      (onLine .window (.length 0x0A5#9)).lengthErrorAt .window 200 = false ∧
      (onLine .window (.body 0x0A5#9 2 [1])).lengthErrorAt .window 5 = false ∧
      (onLine .window (.check 0x0A5#9 [1] none)).lengthErrorAt .window 5 = false ∧
      (onLine .window (.check 0x0A5#9 [1] (some 0))).lengthErrorAt .window 5 = false ∧
      [0#8, byteOf 5#9] ≠ checkBytes (BitVec.ofNat 8 1 :: [1]) := by decide
theorem witness_FramesActAsRequests :
    s0.judged ∧ s0.powered = true ∧ s0.receives Sender.group.port = true ∧ (s0.port Sender.group.port).rx = .hunting ∧
      (List.replicate 199 (0#8)).length ≤ 199 := by decide
theorem witness_FramesActAsRequests_row :
    WellFormed (.priceSet .group [(64, 99999999), (1, 0)]) = true ∧
      requestForm (.priceSet .group [(64, 99999999), (1, 0)]) =
        some (.group, 0x32, [.u8 2, .u8 64, .u32 99999999, .u8 1, .u32 0]) ∧
      (([.u8 2, .u8 64, .u32 99999999, .u8 1, .u32 0] : List Field).flatMap Field.bytes).length = 11 ∧ s0.judged ∧
      s0.powered = true ∧ s0.receives Sender.group.port = true ∧ (s0.port Sender.group.port).rx = .hunting := by decide
/-- R213, R123 and R43: bodies written out by hand, high byte first. -/
theorem test_request_bodies :
    ((requestForm (.tareRead .window (.plate (txt "A1")))).map fun f => (f.2.1, f.2.2.flatMap Field.bytes)) =
        some (0x39, [0, 2, 0x41, 0x31]) ∧
      ((requestForm (.capture .office 2 (some 8051) none (some (-2)))).map fun f => (f.2.1, f.2.2.flatMap Field.bytes)) =
        some (0x14, [2, 0x00, 0x1F, 0x73, 0, 1, 0xFF, 0xFF, 0xFF, 0xFE]) ∧
      ((requestForm (.lampOverride .office 1 (some (⟨1, 0, 2, 7⟩, 600)))).map fun f => (f.2.1, f.2.2.flatMap Field.bytes)) =
        some (0x23, [1, 1, 1, 0, 2, 7, 0x02, 0x58]) := by decide

def goodParams : ChannelParams := ⟨true, 500, 50000, 32, 4, 100, 9, 7⟩

theorem witness_ChannelSetStoresSettings :
    ((withC0 (c0 .service)).ready .office ∧ Channel.ofNat? 0 = some .c0 ∧ ((withC0 (c0 .service)).chan .c0).st = .service) ∧
      ((withC0 (c0 .active)).chan .c0).st ≠ .service ∧
      (0 ≤ goodParams.d ∧ goodParams.d.toNat ∈ [1, 2, 5, 10, 20, 50, 100, 200, 500] ∧ goodParams.K % goodParams.d = 0 ∧
        100 * goodParams.d ≤ goodParams.K ∧ goodParams.K ≤ 10000 * goodParams.d ∧ goodParams.K ≤ 999990 ∧ 4 ≤ goodParams.M ∧
        goodParams.M ≤ 32 ∧ 1 ≤ goodParams.b ∧ goodParams.b ≤ 4 ∧ goodParams.T % 2 = 0 ∧ 10 ≤ goodParams.T ∧ goodParams.T ≤ 100 ∧
        1 ≤ goodParams.Rf ∧ goodParams.Rf ≤ 7) ∧ ¬(({ goodParams with M := 33 } : ChannelParams).M ≤ 32) := by decide
theorem witness_ChannelServiceEntersAndLeaves :
    ((withC0 (c0 .service)).ready .office ∧ Channel.ofNat? 0 = some .c0 ∧ ((withC0 (c0 .service)).chan .c0).st = .service ∧
        (c0 .service).set.enabled = true ∧ (c0 .service).set.calibrated = true) ∧
      ((c0 .active).st ≠ .service ∧ (c0 .active).capture = none ∧ (c0 .active).slot = none) ∧
      ({ c0 .active with slot := some (.window, heldOutcome) } : ChannelState).slot.isSome = true ∧
      (({ c0 .service with set := defaultChannelSettings } : ChannelState).set.enabled && defaultChannelSettings.calibrated) = false := by
  decide
theorem witness_ZeroAndCalibrationRequests :
    (withC0 (steadyC0 .active 41300)).ready .office ∧ Channel.ofNat? 0 = some .c0 ∧
      roundAway (rawSum (steadyC0 .active 41300).window) (steadyC0 .active 41300).window.length = 41300 ∧
      ((c0 .active).st ≠ .service ∨ s0.switchClosed = false) ∧ (c0 .active).stable = false ∧
      (steadyC0 .service 41300).stable = true ∧ (steadyC0 .service 41300).signal = .good := by decide
theorem witness_CaptureStartsOrIsRefused :
    (withC0 (c0 .active)).ready .window ∧ Channel.ofNat? 2 = some .c2 ∧ (some (4217 : Nat)).bind (withTicket (t4217 .opened)).ticket? =
      some (t4217 .opened) := by decide
theorem witness_CaptureEndLeavesOutcome :
    ((withC0 { c0 .active with capture := some (flight .office none 1 []) }).chan .c0).capture = some (flight .office none 1 []) := by
  decide
theorem witness_CaptureAbortAttemptsAndOutcomes :
    (s0.ready .office ∧ Channel.ofNat? 2 = some .c2 ∧ Channel.c2.bridge? = none) ∧ Channel.c0.bridge? = some .b0 ∧
      ((withC0 { c0 .active with capture := some (flight .office none 5 []) }).chan .c0).capture = some (flight .office none 5 []) ∧
      (flight .office none 5 []).attempt < (c0 .active).set.Rf + 2 ∧ (c0 .active).set.Rf + 2 ≤ (flight .office none 6 []).attempt ∧
      (((withC2 { c0 .active with slot := some (.window, heldOutcome) }).chan .c2).slot = some (.window, heldOutcome) ∧
        ((withC2 { c0 .active with slot := some (.window, heldOutcome) }).chan .c2).capture = none) ∧
      (s0.pyu.slot.map (·.1)) ≠ some .office ∧ s0.pyu.payout = none ∧ (4 : Nat) < 5 ∧ (1 : Nat) < 2 := by decide
/-- A FAULT channel without a capture, SERVICE, an ACTIVE platform, and a bridge's channel on deck. -/
theorem witness_GoodSampleConverts :
    ((withC0 (c0 .service)).deliversTo (.bridge .b0) = some .c0 ∧ ((withC0 (c0 .service)).chan .c0).st ≠ .active) ∧
    (withC0 (c0 .fault)).powered = true ∧ (withC0 (c0 .fault)).deliversTo (.bridge .b0) = some .c0 ∧ (c0 .fault).st ≠ .off ∧
      (c0 .fault).capture = none ∧ (withC2 (c0 .active)).deliversTo .platform = some .c2 ∧ Channel.c2.bridge? = none ∧
      Channel.c0.bridge? = some .b0 ∧ ((onDeck.setChan .c0 { c0 .active with occupied := true }).bridge .b0).pos = .onDeck := by decide
/-- R11, R35, R37: a sample that occupies the platform takes its deck from EMPTY to ON_DECK, one that leaves it vacant takes it back,
and DECK is latched. -/
theorem test_sample_moves_deck :
    (fun f => (after (exec (.digitizerSample (.bridge .b0) 103747 true) (withC0 (c0 .active))) f,
        after (exec (.digitizerSample (.bridge .b0) 41250 true) (onDeck.setChan .c0 { c0 .active with occupied := true })) f))
      (fun t => (t.dsu.bridge0.pos, t.dsu.bridge1.pos, t.evu.office.has (.deck .b0))) =
      (some (.onDeck, .empty, true), some (.empty, .empty, true)) := by decide
theorem witness_ZeroTrackingJudgesBlocks :
    (withC0 (c0 .active)).powered = true ∧ (withC0 (c0 .active)).deliversTo (.bridge .b0) = some .c0 ∧
      ((withC0 (c0 .active)).chan .c0).st = .active ∧ ([⟨41250, 0⟩] : List Sample).length < (c0 .active).set.M ∧
      (c0 .active).set.M ≤ (List.replicate 4 (⟨41250, 0⟩ : Sample)).length := by decide
/-- An ACTIVE channel without a capture and one with a capture in flight, and a channel in STARTING, SERVICE, FAULT and OFF. -/
theorem witness_SignalFaults :
    (withC0 (c0 .active)).powered = true ∧ ((withC0 (c0 .active)).chan .c0).signalTimer.isSome = true ∧
      (withC0 (c0 .active)).deliversTo (.bridge .b0) = some .c0 ∧ (c0 .starting).st = .starting ∧ (c0 .active).st = .active ∧
      (c0 .service).st = .service ∧ (c0 .active).capture = none ∧
      ((withC0 { c0 .active with capture := some (flight .office none 1 []) }).chan .c0).capture = some (flight .office none 1 []) ∧
      ((withC0 (c0 .fault)).deliversTo (.bridge .b0) = some .c0 ∧ ((withC0 (c0 .fault)).chan .c0).st = .fault) ∧
      (s0.chan Bridge.b0.channel).st = .off := by decide
theorem witness_ArbiterAlternatesPlatforms :
    ((s0.chan .c2).st = .off ∧ (s0.chan .c3).st = .off) ∧ (s0.chan Bridge.b0.channel).st = .off ∧
      (((withC2 (c0 .active)).chan Platform.c2.channel).st ≠ .off ∧ (withC2 (c0 .active)).wch.nextPlatform = .c2) := by decide
theorem witness_CaptureWindowCompletes :
    let c := { c0 .active with occupied := true, capture := some (flight .office none 5 [103747, 103747, 103747]) }
    (withC0 c).powered = true ∧ (withC0 c).deliversTo (.bridge .b0) = some .c0 ∧ ((withC0 c).chan .c0).st = .active ∧
      ((withC0 c).chan .c0).occupied = true ∧ roundAway ((103747 - 41250) * 327680) (65536 * 200) * 200 = 312400 ∧
      (((20 : Nat) / 2 * 200 : Nat) : Int) ≤ 312400 ∧ (312400 : Int) ≤ (800000 + 9 * 200 : Nat) ∧
      ((800000 + 9 * 200 : Nat) : Int) < roundAway ((210000 - 41250) * 327680) (65536 * 200) * 200 ∧
      roundAway ((40000 - 41250) * 327680) (65536 * 200) * 200 < -(20 * (200 : Int)) ∧
      roundAway ((41250 - 41250) * 327680) (65536 * 200) * 200 < (((20 : Nat) / 2 * 200 : Nat) : Int) ∧
      (onDeck.bridge .b0).pos = .onDeck := by decide
/-- R22: OVER ends a capture OVERLOAD, and a deck that becomes vacant ends it POSITION, without a hand-over. -/
theorem test_sample_ends_capture :
    [210000, 41250].map (fun raw =>
      after (exec (.digitizerSample (.bridge .b0) raw true)
          (onDeck.setChan .c0 { c0 .active with occupied := true, capture := some (flight .office none 1 []) }))
        (fun t => t.wch.c0.slot.map fun x => (x.2.outcome, x.2.weight, x.2.application))) =
      [some (some (.overload, none, none)), some (some (.position, none, none))] := by decide
theorem witness_RoundingsAreNearest : (0 : Nat) < 1 ∧ (0 : Nat) < 200 := by decide
/-- R6: truncation drops the fraction whatever the sign. -/
theorem test_truncate : truncate (-70001) 65536 = -1 ∧ truncate 131071 65536 = 1 ∧ truncate (-65535) 65536 = 0 := by decide
theorem witness_LinesDebounce :
    (s0.dsu.lines[15]?.isSome = true ∧ s0.powered = true ∧ off.powered = false ∧ off.dsu.lines[0]?.isSome = true) ∧
      (((bouncing 0).dsu.lines[0]?.bind (·.debounce)) = some ⟨20, 0⟩ ∧ (s0.dsu.lines[0]?.bind (·.debounce)) = none) ∧
      ((atRest .idle).pyu.disp = .idle ∧ (atRest .doorOpen).pyu.disp = .doorOpen ∧
        (paying .waiting none (payoutOf .window [1] 10000 [] true)).pyu.disp = .waiting ∧
        (paying .picking (some (.pick 0)) (payoutOf .window [1] 10000 [] false)).pyu.payout =
          some (payoutOf .window [1] 10000 [] false)) := by decide
/-- R151, R195: the cash door opening in PICKING ends the payout JAMMED in DOOR_OPEN and latches CASH_DOOR with ALERT. -/
theorem test_door_opens :
    after (exec (.debouncedChange 13)
        { paying .picking (some (.pick 0)) (payoutOf .window [1, 0, 0, 0, 0, 0] 10000 [(2, 4)] false) with
          dsu := { s0.dsu with lines := s0.dsu.lines.modify 13 fun l => { l with debounced := true, debounce := some ⟨20, 0⟩ } } })
      (fun t => (t.pyu.disp, t.pyu.remembered, t.pyu.slot.map (·.2.outcome), t.evu.alerts.cashDoor.latch, t.evu.window.has .alert)) =
      some (.doorOpen, .fault, some .jammed, some ⟨epoch, false⟩, true) := by decide
/-- R151: closed, the dispenser takes up the recovery it remembers. -/
theorem test_door_closes :
    (fun t : State => (t.pyu.disp, t.pyu.command))
        ({ atRest .doorOpen with
          pyu := { (atRest .doorOpen).pyu with remembered := .recovering, recovery := some ⟨none⟩ } } : State).doorCloses =
      (.recovering, some .retract) := by decide
theorem witness_DeckFollowsTable :
    (s0.bridge .b0).pos = .empty ∧ s0.beamBlocked .b0 .entry = false ∧ (onDeck.bridge .b0).pos = .onDeck ∧
      ({ s0 with dsu := { s0.dsu with lines := s0.dsu.lines.modify 0 fun l => { l with debounced := true } } } : State).beamBlocked .b0
        .entry = true ∧ true ≠ (s0.chan Bridge.b0.channel).occupied ∧
      ((onDeck.setChan .c0 { c0 .active with occupied := true, capture := some (flight .office none 1 []) }).chan .c0).capture =
        some (flight .office none 1 []) := by decide
theorem witness_DeckTimersExpire :
    (((s0.setBridge .b0 { idleBridge with entryFault := some ⟨60000, 0⟩ }).bridge .b0).faultTimer .entry).isSome = true ∧
      ((s0.setBridge .b0 { idleBridge with override := some ⟨⟨0, 0, 0, 0⟩, some ⟨1000, 0⟩⟩ }).bridge .b0).override =
        some ⟨⟨0, 0, 0, 0⟩, some ⟨1000, 0⟩⟩ ∧
      ((s0.setBridge .b0 { idleBridge with override := some ⟨⟨0, 0, 0, 0⟩, none⟩ }).bridge .b0).override =
        some ⟨⟨0, 0, 0, 0⟩, none⟩ ∧ (1 : Nat) < 2 ∧ (2 : Nat) ≤ 2 := by decide
theorem witness_LampRequests : s0.ready .office ∧ Bridge.ofNat? 1 = some .b1 := by decide
/-- The functions of a map that no two entries may hold (R33). -/
def singleRoles (entries : List LineEntry) : List LineFunction :=
  (entries.map (·.function)).filter fun x => decide (x ≠ .gpIn ∧ x ≠ .gpOut ∧ x ≠ .unmapped)

theorem witness_LineRequests :
    s0.ready .office ∧ defaultLineMap.length = 16 ∧ (singleRoles defaultLineMap).Nodup ∧ s0.dsu.bridge0.pos = .empty ∧
      s0.dsu.bridge1.pos = .empty ∧ onDeck.dsu.bridge0.pos ≠ .empty ∧
      ¬(singleRoles (defaultLineMap.set 15 ⟨.cashDoor, .activeLow, true⟩)).Nodup ∧
      (singleRoles ((defaultLineMap.set 14 ⟨.gpIn, .activeLow, true⟩).set 15 ⟨.gpIn, .activeLow, true⟩)).Nodup ∧
      (({ s0 with dsu := { s0.dsu with lines := s0.dsu.lines.modify 15 fun l => { l with entry := ⟨.gpOut, .activeHigh, false⟩ } } } :
        State).dsu.lines[15]?.map fun l => l.entry.function) = some .gpOut ∧
      (s0.dsu.lines[0]?.map fun l => l.entry.function) ≠ some .gpOut ∧ s0.dsu.lines[16]? = none := by decide
theorem witness_GradesLimitsAndHeader :
    s0.ready .office ∧ (1 ≤ [((64 : Nat), (99999999 : Nat))].length ∧ ([(64, 99999999)].map (·.1)).Nodup) ∧
      ¬([((1 : Nat), (5 : Nat)), (1, 6)].map (·.1)).Nodup := by decide
theorem witness_ClockRequestsAndSeconds :
    s0.ready .office ∧ s0.powered = true ∧ s0.clu.now ≠ lastSecond ∧ (⟨2099, 12, 31, 23, 59, 58⟩ : DateTime).next = lastSecond ∧
      s0.clu.now.legal = true ∧
      (({ s0 with clu := ⟨⟨2099, 12, 31, 23, 59, 59⟩, true, 23⟩ } : State).powered = true ∧
        ({ s0 with clu := ⟨⟨2099, 12, 31, 23, 59, 59⟩, true, 23⟩ } : State).clu.now = ⟨2099, 12, 31, 23, 59, 59⟩) := by decide
theorem witness_ReleaseCheckReleasesDue :
    (⟨2028, 2, 29⟩ : Date).legal = true ∧ (⟨2099, 12, 20⟩ : Date).legal = true ∧ (⟨2000, 1, 1⟩ : Date).legal = true := by decide
/-- R187: the table of its worked dates. -/
theorem test_add_days :
    [(⟨2031, 3, 29⟩, 3), (⟨2031, 2, 27⟩, 3), (⟨2028, 2, 27⟩, 3), (⟨2030, 12, 30⟩, 3), (⟨2099, 12, 20⟩, 30)].map
        (fun x : Date × Nat => x.1.addDays x.2) =
      [⟨2031, 4, 1⟩, ⟨2031, 3, 2⟩, ⟨2028, 3, 1⟩, ⟨2031, 1, 2⟩, ⟨2099, 12, 31⟩] := by decide
theorem witness_TaresStoredAndDeleted :
    s0.ready .office ∧ normalisePlate (txt "ab 12") = some (txt "AB12") ∧ Bridge.ofNat? 1 = some .b1 ∧ Bridge.ofNat? 2 = none ∧
      normalisePlate [] = none := by decide
theorem witness_RevisionCountsChanges :
    (withTicket (t4217 .complete)).tkt.placed ∧ (withTicket (t4217 .complete)).ticket? 4217 = some (t4217 .complete) ∧
      ({ t4217 .complete with approved := true } : Ticket).number = 4217 := by decide
/-- A table with every place held; numbers 48 and 3 spent, in that order, when the tickets are VOID. -/
def fullTable (st : TicketSt) : State :=
  { s0 with
    tkt :=
      { s0.tkt with
        spent := [48, 3], tickets := (List.range 48).map fun i => { t4217 st with place := i + 1, number := i + 1, lines := [] } } }

theorem witness_TicketOpenMakesRecord :
    (s0.ready .window ∧ s0.ready .office ∧ printableOption (some (txt "CUST 1")) = true ∧ printableOption (some (txt "ab 1")) = true ∧
        (printableOption none && printableOption (some [0x41, 0x1F])) = false) ∧
      (some (txt "CUST 1")).any (fun c => !customerOk c) = false ∧ (some (txt "ABCDEFGHIJKLM")).any (fun c => !customerOk c) = true ∧
      ((some (txt "ab 1")).bind normalisePlate).isSome = true ∧ (s0.openPlace?.map (·.1)) = some 1 ∧
      (fullTable .opened).openPlace? = none ∧ ((fullTable .void).openPlace?.map (·.1)) = some 48 ∧
      (1 ≤ s0.tkt.counter ∧ s0.tkt.counter ≤ 999999) ∧
      ((List.range 49).map fun i => (s0.tkt.counter - 1 + i) % 999999 + 1).find?
        (fun n => decide (∀ t ∈ s0.tkt.tickets, t.number ≠ n)) = some 1 := by decide
/-- R64 and R65: a full table gives the place of the record spent longest, and the number counter skips the numbers held. -/
theorem test_open_reuses :
    after (exec (.ticketOpen .office .counter none none) (fullTable .void))
      (fun t => (t.tkt.tickets.getLast?.map fun k => (k.place, k.number), t.tkt.tickets.length, t.tkt.spent)) =
      some (some (48, 48), 48, [3]) := by decide
theorem witness_HandOverDecidesResult :
    s0.ticket? 4217 = none ∧ (withTicket (t4217 .opened)).ticket? 4217 = some (t4217 .opened) := by decide
theorem witness_LineAndWeighingRequests :
    (withTicket (t4217 .complete)).ready .window ∧ (withTicket (t4217 .complete)).ticket? 4217 = some (t4217 .complete) ∧
      (t4217 .complete).lineAt? 1 = some (line2 (some 21) 1638) := by decide

def finishing : State :=
  { (withTicket (bridgeTicket .weighing [312400])).setChan .c0 (c0 .active) with
    vtr := [⟨txt "AB12", 150600, .b0, 200, resetStamp, resetStamp, 0⟩], clu := ⟨epoch, true, 6⟩ }

theorem witness_TicketFinishCompletes :
    finishing.ready .office ∧ finishing.ticket? 4217 = some (bridgeTicket .weighing [312400]) ∧
      printableOption none = true ∧ (printableOption (some [0x7F]) && printableOption none) = false ∧
      (bridgeTicket .weighing [312400]).plate = some (txt "AB12") ∧
      ((bridgeTicket .weighing [312400]).weighings.getLast?.map fun w => (w.division, w.calCounter)) = some (200, 0) := by decide
theorem test_finish_stored :
    after (exec (.ticketFinish .office 4217 true false none none) { finishing with vtr := finishing.vtr.map fun e => { e with storedAt := ⟨epoch, true⟩ } })
      (fun t => (t.tkt.tickets.map fun k => k.lines.map (·.net), t.vtr.map (·.uses))) = some ([[161800]], [1]) := by decide
/-- The register of `finishing` with its entry stored on 2031-01-02, late on a later day. -/
def agedAt (month day : Nat) : State :=
  { finishing with
    clu := ⟨⟨if month = 12 then 2030 else 2031, month, day, 23, 59, 59⟩, true, 6⟩
    vtr := finishing.vtr.map fun e => { e with storedAt := ⟨⟨2031, 1, 2, 0, 0, 0⟩, true⟩ } }
/-- R116: with a validity of 90 days a tare of 2031-01-02 is usable on 2031-04-02, at an age of 90 days, and not on 2031-04-03; before
the stored date its age is 0. -/
theorem test_tare_age :
    ([(4, 2), (4, 3), (12, 31)].map fun x => (told (exec (.tareRead .office (.plate (txt "AB12"))) (agedAt x.1 x.2)) .office).map
        fun a => a.2.drop 7) =
      [some [.u8 1, .u16 90, .u8 1, .u8 0], some [.u8 1, .u16 91, .u8 0, .u8 3], some [.u8 1, .u16 0, .u8 1, .u8 0]] ∧
      status (exec (.ticketFinish .office 4217 true false none none) (agedAt 4 2)) .office = some .done ∧
      status (exec (.ticketFinish .office 4217 true false none none) (agedAt 4 3)) .office = some .noTare := by decide
/-- R118, R119: a finish with STORE_TARE makes a new entry in a full register and tells the plate it evicts. -/
theorem test_finish_stores :
    (fun o => (after o fun t => (t.vtr.length, t.vtr.getLast?.map fun e => (e.tare, e.uses)), told o .office))
        (exec (.ticketFinish .office 4217 false true none none)
          { finishing with
            vtr := (List.range 32).map plateEntry
            tkt := { finishing.tkt with tickets := [bridgeTicket .weighing [312400, 150800]] } }) =
      (some (32, some (150800, 0)), some (.done, [.u8 0, .u8 3, .u8 3] ++ optText (some (txt "A00")))) := by decide
theorem witness_ReopenApproveVoidResolve :
    ((withTicket (t4217 .complete)).ready .office ∧ (withTicket (t4217 .complete)).ticket? 4217 = some (t4217 .complete) ∧
      (t4217 .complete).st = .complete) ∧ (t4217 .settled).st = .settled ∧ (t4217 .held).st = .held ∧
      ((t4217 .opened).st ≠ .complete ∧ (t4217 .opened).st ≠ .settled ∧ (t4217 .opened).st ≠ .held) ∧
      (withTicket (t4217 .complete)).ready .window := by decide
theorem witness_ClaimsGrantedAndEnded :
    (withTicket (claimedBy .window)).ready .window ∧ (withTicket (claimedBy .window)).ticket? 4217 = some (claimedBy .window) ∧
      (claimedBy .window).st = .claimed ∧ (claimedBy .window).claim = some ⟨.window, resetStamp⟩ ∧
      (claimedBy .window).lapse = some ⟨60000, 0⟩ := by decide
theorem witness_PaidWeightWithinNet :
    1 ≤ (line2 (some 21) 1).division ∧ 1 ≤ (line2 (some 21) 1).net ∧ (withGrade s0 21 cans).lineGrade? (line2 (some 21) 1) = some cans ∧
      cans.deduction ≤ 500 ∧ (500 : Nat) ≤ 500 ∧ (line2 (some 21) 2).net = (line2 (some 21) 2).division ∧
      (line2 (some 21) 1).net < (line2 (some 21) 1).division := by decide
theorem witness_CashSplitBalances :
    (100 : Nat) ∈ [1, 5, 10, 50, 100] ∧ (100003 : Nat) / 5 * 5 = 100000 ∧ (100000 : Nat) ≤ 100000 ∧ (100000 : Nat) < 100002 := by decide
theorem test_split_between :
    cashSplit ⟨100003, 5, 0, 0, 60, 45, 90⟩ 100002 = (100000, 2, 0) ∧ cashSplit ⟨100003, 5, 0, 0, 60, 45, 90⟩ 2 = (0, 0, -2) ∧
      cashSplit ⟨500000, 10, 0, 0, 60, 45, 90⟩ 18225 = (18230, 0, 5) := by decide
theorem witness_TicketSettleWritesFigures :
    (withGrade (withTicket (t4217 .complete)) 21 cans).ready .window ∧
      (withGrade (withTicket (t4217 .complete)) 21 cans).ticket? 4217 = some (t4217 .complete) ∧ (t4217 .complete).st = .complete ∧
      (t4217 .settled).st ≠ .complete := by decide
/-- R111 to R113: worked case 2 before its settlement (A 18,228, C 18,230, check none), and beside an ungraded line of 10 kg with 1.0 %. -/
theorem test_provisional :
    let s := withGrade s0 21 { cans with enabled := true }
    let u := { line2 none 200 with mode := .percent 10 }
    s.provisionalTotals (t4217 .complete) = ⟨18228, 0, some (18228, 18230, 0, 2), false, 0, none, false, false⟩ ∧
      s.provisionalTotals { t4217 .complete with lines := [line2 (some 21) 1638, u] } =
        ⟨18228, 0, some (18228, 18230, 0, 2), false, 0, some .lineUngraded, true, false⟩ ∧
      s.provisionalLine u = ⟨some 10, some 2, some 198, none, none, none, false, false⟩ ∧
      (withGrade s0 21 { cans with price := 99999999, enabled := false }).provisionalLine (line2 (some 21) 1638) =
        ⟨some 20, some 32, some 1606, some 99999999, none, some false, true, true⟩ := by decide
/-- R96: each check in its turn, with the place it tells. -/
theorem test_settle_checks :
    let s := withGrade s0 21 { cans with restricted := true }
    let t := { t4217 .complete with lines := [line2 (some 20) 10, line2 (some 21) 1638] }
    s.settleCheck t = some (.gradeDisabled, 1) ∧
      (withGrade s 20 cans).settleCheck t = some (.noCustomer, 2) ∧
      (withGrade s 20 cans).settleCheck { t with customer := some (txt "C") } = some (.clockInvalid, 2) ∧
      (withGrade s0 21 { cans with price := 99999999 }).settleCheck (t4217 .complete) = some (.amountLimit, 1) := by decide
theorem witness_CashStoreAndPayoutRequests :
    (atRest .idle).ready .office ∧ (atRest .idle).pyu.stores[5]?.isSome = true ∧ (atRest .idle).pyu.stores[6]? = none ∧ (atRest .idle).pyu.payout.map (·.port) ≠ some .office ∧
      ((paying .waiting none (payoutOf .window [1] 10000 [] true)).pyu.payout.map (·.port)) = some .window ∧
      (paying .waiting none (payoutOf .window [1] 10000 [] true)).pyu.disp ≠ .picking ∧
      (paying .picking (some (.pick 0)) (payoutOf .window [1] 10000 [] true)).pyu.disp = .picking ∧
      (paying .picking (some (.pick 0)) (payoutOf .window [1] 10000 [] true)).pyu.command.isSome = true := by decide
theorem test_clear : status (exec (.dispenserClear .office) (atRest .offline)) .office = some .done ∧
    status (exec (.retractBinEmpty .office) (atRest .idle)) .office = some .done ∧
    status (exec (.storeEnable .office 5 false) (atRest .idle)) .office = some .done := by decide
theorem witness_PlansStayWithinBounds :
    dayStores.length = 6 ∧ (makePlan dayStores 18230 50 100).rest = 0 ∧ dayStores[5]? = some (storeOf .coin 10 300 50) ∧
      (storeOf .coin 10 300 50).st = .enabled ∧ (0 : Nat) < 10 := by decide
theorem witness_PayoutStarts :
    let s : State := { atRest .idle with tkt := { s0.tkt with tickets := [claimedBy .window] } }
    s.ready .window ∧ s.ticket? 4217 = some (claimedBy .window) ∧ (claimedBy .window).st = .claimed ∧
      (claimedBy .window).claim.map (·.port) = some .window ∧ 0 < (claimedBy .window).cash ∧
      ({ claimedBy .window with settlement := some (block 0) } : Ticket).cash = 0 ∧
      ¬((t4217 .settled).st = .claimed ∧ (t4217 .settled).claim.map (·.port) = some Port.window) := by decide
theorem witness_PickReportsTaken :
    let s := paying .picking (some (.pick 0)) (payoutOf .window [0, 0, 0, 0, 0, 0] 0 [(0, 1), (2, 4)] false)
    s.powered = true ∧ s.pyu.disp = .picking ∧ s.pyu.command = some (.pick 0) ∧
      s.pyu.payout = some (payoutOf .window [0, 0, 0, 0, 0, 0] 0 [(0, 1), (2, 4)] false) ∧
      s.pyu.stores[0]? = some (storeOf .note 10000 12 5) ∧ 0 < (storeOf .note 10000 12 5).count ∧
      0 < ([1, 0, 0, 0, 0, 0] : List Nat).sum ∧ s.pyu.stores.length = 6 ∧ ([1, 0, 0, 0, 0, 0] : List Nat).length = 6 := by decide
/-- R130: with 10,000 picked of 18,230 the new plan is for the 8,230 left, and planned amount and pieces take in what is picked. -/
theorem test_replan :
    (fun p : Payout => (p.planned, p.plannedPieces.sum, p.todo.map (·.2)))
        ((payoutOf .window [1, 0, 0, 0, 0, 0] 10000 [(0, 1)] false).replan
          ([storeOf .note 10000 0 5, storeOf .note 5000 3 5, storeOf .coin 1000 9 5] ++ List.replicate 3 absentStore)) =
      (18000, 5, [1, 3]) := by decide
theorem test_piece_reject :
    after (exec .pieceReject (paying .picking (some (.pick 0)) (payoutOf .window [0, 0, 0, 0, 0, 0] 0 [(0, 1), (2, 4)] false)))
      (fun t => (t.pyu.command, t.pyu.stores.map (·.rejected))) = some (some (.pick 0), [1, 0, 0, 0, 0, 0]) := by decide
theorem witness_PayoutEndLeavesOutcome :
    (paying .waiting none (payoutOf .window [1] 10000 [] true)).ticket? 4217 =
      some { claimedBy .window with st := .paying, lapse := none } := by decide
theorem witness_BundlePresentedAndTaken :
    ((paying .presenting (some .present) (payoutOf .window [1] 10000 [] false)).pyu.disp = .presenting ∧
      (paying .presenting (some .present) (payoutOf .window [1] 10000 [] false)).pyu.command = some .present) ∧
      ((paying .waiting none (payoutOf .window [1] 10000 [] true)).pyu.disp = .waiting ∧
        (paying .waiting none (payoutOf .window [1] 10000 [] true)).pyu.takeTimer.isSome = true) ∧
      ((paying .retracting (some .retract) (payoutOf .window [1] 10000 [] true)).pyu.disp = .retracting ∧
        (paying .retracting (some .retract) (payoutOf .window [1] 10000 [] true)).pyu.command = some .retract) ∧
      ((recovering .retract (some ⟨none⟩)).pyu.disp = .recovering ∧ (recovering .retract (some ⟨none⟩)).pyu.command = some .retract) ∧
      s0.pyu.disp ≠ .waiting ∧ s0.powered = true := by decide
theorem test_presented :
    after (exec .presented (paying .presenting (some .present) (payoutOf .window [1, 0, 0, 0, 0, 0] 10000 [] false)))
      (fun t => (t.pyu.disp, t.pyu.takeTimer)) = some (.waiting, some ⟨45000, 0⟩) := by decide
theorem test_take_timeout :
    after (exec .takeTimeout (paying .waiting none (payoutOf .window [1] 10000 [] true))) (fun t => (t.pyu.disp, t.pyu.command)) =
      some (.retracting, some .retract) := by decide
theorem witness_JamsFailuresAndRecoveries :
    ((paying .picking (some (.pick 0)) (payoutOf .window [0] 0 [] false)).pyu.payout = some (payoutOf .window [0] 0 [] false) ∧
      (paying .picking (some (.pick 0)) (payoutOf .window [0] 0 [] false)).pyu.command.isSome = true ∧
      (paying .picking (some (.pick 0)) (payoutOf .window [0] 0 [] false)).powered = true) ∧
      (paying .waiting none (payoutOf .window [1] 10000 [] true)).pyu.disp = .waiting ∧
      (paying .retracting (some .retract) (payoutOf .window [1] 10000 [] true)).pyu.disp = .retracting ∧
      (atRest .idle).pyu.disp = .idle ∧ (atRest .idle).pyu.doorPending = false ∧ (atRest .fault).pyu.disp = .fault ∧
      ((recovering .reset none).pyu.disp = .recovering ∧ (recovering .reset none).pyu.command = some .reset) ∧
      (atRest .idle).pyu.command = none ∧ (recovering .retract (some ⟨none⟩)).pyu.recovery = some ⟨none⟩ ∧
      (recovering .retract (some ⟨none⟩)).pyu.log.length < 16 ∧
      (recovering .retract (some ⟨some ⟨4217, [1], 10000, true⟩⟩)).pyu.recovery = some ⟨some ⟨4217, [1], 10000, true⟩⟩ := by decide
theorem test_ready : after (exec .ready (recovering .reset none)) (fun t => t.pyu.disp) = some .idle := by decide
theorem test_no_answer : after (exec .dispenserAnswerTimeout (recovering .reset none)) (fun t => (t.pyu.disp, t.evu.office.has .cashFault)) =
    some (.offline, true) := by decide
theorem witness_PrintRequests :
    (withTicket (t4217 .paid)).ready .window ∧ (withTicket (t4217 .paid)).ticket? 4217 = some (t4217 .paid) ∧
      (printing (job .printing 1) none).rpu.queue.find? (fun j => j.id == 1) = some (job .printing 1) ∧
      (∀ j ∈ (printing (job .printing 1) none).rpu.queue, j.id ≠ 2) ∧
      (owing.rpu.queue.length < 8 ∧ owing.tkt.tickets[0]?.isSome = true ∧ owing.tkt.tickets.all owing.owesUnqueued = true ∧
        1 ≤ owing.rpu.nextId ∧ owing.rpu.nextId ≤ 255 ∧
        ((List.range 9).map fun n => (owing.rpu.nextId - 1 + n) % 255 + 1).find?
          (fun n => decide (∀ j ∈ owing.rpu.queue, j.id ≠ n)) = some 1) ∧
      (∀ t ∈ s0.tkt.tickets, s0.owesUnqueued t = false) := by decide
/-- R161: two copies owed give a CUSTOMER job and then a YARD job. -/
theorem test_fill : owing.fill.rpu.queue.map (fun j => (j.id, j.kind, j.label)) = [(1, .payout, some .customer), (2, .payout, some .yard)] := by
  decide
/-- R162: an unstarted slip leaves the queue WITHDRAWN at a reopening. -/
theorem test_withdraw :
    after (exec (.ticketReopen .office 4217) slipWaiting) (fun t => (t.rpu.queue.map (·.id), t.rpu.ended.map (·.ending))) =
      some ([1], [.withdrawn]) := by decide
theorem test_receipt_print :
    told (exec (.receiptPrint .window 4217 1) (withTicket (t4217 .paid))) .window = some (.done, [.u8 1, .u8 1]) := by decide
theorem test_print_cancel :
    after (exec (.printCancel .window 1) (printing (job .printing 1) (some (.line (txt "A")))))
      (fun t => (t.rpu.cancelCut, t.rpu.ended.map (·.ending))) = some (.afterLine, [.cancelled]) := by decide
theorem witness_PrinterAnswersTaken :
    let s := printing (job .printing 1) (some (.line (txt "A")))
    s.powered = true ∧ s.rpu.offline = false ∧ s.rpu.command = some (.line (txt "A")) ∧ s.rpu.cancelCut = .none ∧
      s.rpu.queue = [job .printing 1] ∧ (job .printing 1).st = .printing ∧ (job .paused 1).st = .paused ∧
      ({ s.rpu with cancelCut := .afterLine } : Rpu).cancelCut = .afterLine ∧
      (printing (job .printing 3) (some .cut)).rpu.command = some .cut ∧ s0.rpu.command = none ∧ s.rpu.command.isSome = true ∧
      s0.rpu.queue = [] ∧ (printing { job .queued 1 with restart := true } none).rpu.admitsStart ∧
      ((printing { job .queued 1 with started := false } none).tkt.placed ∧
        (printing { job .queued 1 with started := false } none).rpu.queueSound ∧
        ((printing { job .queued 1 with started := false } none).ticket? 4217).map (·.opening) ≠ some 5) ∧
      (owing.ticket? 4217).map (·.opening) = some 5 ∧ (t4217 .void).settlement = none ∧ (claimedBy .window).settlement.isSome = true := by
  decide
/-- R164: a job whose ticket is gone ends GONE. -/
theorem test_gone : (printing { job .queued 1 with started := false } none).startPrint.rpu.ended.map (·.ending) = [.gone] := by decide
theorem test_printer_timeout :
    after (exec .printerAnswerTimeout (printing (job .printing 1) (some (.line (txt "A")))))
      (fun t => (t.rpu.st, t.rpu.queue.map (·.st))) = some (.offline, [.queued]) := by decide
/-- For each clause a state it speaks of: an empty queue; a PRINTING head with a line outstanding; a PAUSED head; a STALLED head while
paper is out, and with paper in, the head hot or a cut to come, started or not; and the printer OFFLINE. -/
theorem witness_PrinterConditionsSet :
    let stalled := (printing (job .stalled 2) none).rpu
    let fresh := { job .queued 1 with started := false, serial := none }
    (s0.powered = true ∧ s0.rpu.queue = []) ∧
      ((printing (job .printing 1) (some (.line (txt "A")))).rpu.queue = [job .printing 1] ∧ (job .printing 1).st = .printing) ∧
      ((printing (job .paused 1) none).rpu.queue = [job .paused 1] ∧ (printing (job .paused 1) none).rpu.command = none ∧
        (printing (job .paused 1) none).rpu.paper ≠ .out ∧ (printing (job .paused 1) none).rpu.cover = .closed) ∧
      (stalled.queue = [job .stalled 2] ∧ ({ stalled with paper := .out } : Rpu).paper = .out ∧
        ({ stalled with cover := .opened } : Rpu).cover = .opened) ∧
      (stalled.paper ≠ .out ∧ stalled.cover = .closed ∧ ({ stalled with head := .hot } : Rpu).head = .hot ∧
        ({ stalled with cancelCut := .cutting } : Rpu).cancelCut ≠ .none) ∧
      (stalled.head = .cool ∧ stalled.cancelCut = .none ∧ (job .stalled 2).started = true) ∧
      ((printing fresh none).rpu.queue = [fresh] ∧ fresh.st = .queued ∧ fresh.started = false) ∧
      ({ printing (job .printing 1) none with rpu := { stalled with offline := true } } : State).rpu.offline = true := by decide
/-- R157, R159: LOW is a condition only; the job goes on printing and its line stays outstanding. -/
theorem test_paper_low :
    after (exec .paperLow (printing (job .printing 2) (some (.line (txt "B")))))
      (fun t => (t.rpu.paper, t.rpu.queue, t.rpu.command, t.evu.office.has .paperLow, t.evu.window.has .printer)) =
      some (.low, [job .printing 2], some (.line (txt "B")), true, false) := by decide
/-- R166: a job PAUSED while its line is outstanding returns to PRINTING with that line still outstanding. -/
theorem test_head_cools :
    after (exec .headCool { printing (job .paused 2) none with
        rpu := { (printing (job .paused 2) none).rpu with head := .hot, command := some (.line (txt "B")) } })
      (fun t => (t.rpu.head, t.rpu.queue, t.rpu.command)) =
      some (.cool, [job .printing 2], some (.line (txt "B"))) := by decide
/-- R167: the stall ends with the paper in, and the job restarts with the marker line. -/
theorem test_stall_ends :
    after (exec .paperIn { printing (job .stalled 2) none with rpu := { (printing (job .stalled 2) none).rpu with paper := .out } })
      (fun t => (t.rpu.queue.map fun j => (j.st, j.next, j.serial), t.rpu.command)) =
      some ([(.printing, 1, some 1)], some (.line (txt "REPRINT AFTER PRINTER FAULT"))) := by decide
theorem witness_AlertRequests :
    s0.ready .office ∧ (true || false || false || false || false || false) = true ∧
      (false || false || false || false || false || true) = true := by decide
theorem witness_invariants :
    s0.pyu.conserves ∧ s0.tkt.placed ∧ s0.tkt.claimsSound ∧ s0.rpu.queueSound ∧ registerSound s0.vtr ∧ s0.clu.sound ∧ s0.evu.sound ∧
      s0.judged ∧ s0.tkt.balances ∧ (withTicket (claimedBy .window)).tkt.claimsSound ∧ (withTicket (claimedBy .window)).tkt.balances := by
  decide
theorem witness_payoutSound : s0.payoutSound := by decide
/-- Two queued jobs behind a printing head. -/
theorem witness_headAlone :
    (printing (job .printing 2) none).rpu.headAlone ∧
      ({ s0.rpu with queue := [job .printing 2, { job .queued 1 with id := 2, started := false }] } : Rpu).headAlone := by decide
set_option synthInstance.maxSize 2000 in
set_option synthInstance.maxHeartbeats 200000 in
/-- A capture in flight on a deck in ON_DECK, and the state after reset. -/
theorem witness_weighingSound :
    s0.weighingSound ∧
      (onDeck.setChan .c0
          { steadyC0 .active 103750 with
            live := .weight 312600, occupied := true, capture := some (flight .office none 2 [103750, 103750]) }).weighingSound := by
  decide

end Sys2Proof.Tests
end

