-- ==== Sys2Proof/Proofs/HandOver.lean ====
section
/-! PROOFS. The weighing handed over (R67 to R69): what the ticket table returns, branch by branch, what an APPLIED weighing makes of a
ticket, and the hand-over built from the two. -/

namespace Sys2Proof.Machine

/-- Only the value at the record held under the number matters to a change of it. -/
theorem State.changeTicket_congr (s : State) {n : Nat} {t : Ticket} {f g : Ticket → Ticket} (ht : s.ticket? n = some t)
    (hfg : f t = g t) : s.changeTicket n f = s.changeTicket n g := by
  simp [State.changeTicket, ht, hfg]

/-! The first result that applies (R67) -/

theorem Ticket.application_of_gone {t : Ticket} {r : TicketRef} (w : Weighing) (tare : Int)
    (hgone : t.opening ≠ r.opening ∨ t.st = .void) : t.application r w tare = .ticketGone :=
  if_pos hgone

section Present

variable {t : Ticket} {r : TicketRef} (w : Weighing) (tare : Int) (hhere : ¬(t.opening ≠ r.opening ∨ t.st = .void))
include hhere

theorem Ticket.application_of_state (hst : t.st ≠ .opened ∧ t.st ≠ .weighing) : t.application r w tare = .ticketState :=
  (if_neg hhere).trans (if_pos hst)

variable (hst : ¬(t.st ≠ .opened ∧ t.st ≠ .weighing))
include hst

theorem Ticket.application_bridge_full (hk : t.kind = .bridge) (hfull : 9 ≤ t.weighings.length) :
    t.application r w tare = .listFull := by
  simp only [Ticket.application, if_neg hhere, if_neg hst, hk, if_pos hfull]

theorem Ticket.application_bridge_first (hk : t.kind = .bridge) (hroom : ¬9 ≤ t.weighings.length)
    (hlast : t.weighings.getLast? = none) : t.application r w tare = .applied := by
  simp only [Ticket.application, if_neg hhere, if_neg hst, hk, if_neg hroom, hlast]

theorem Ticket.application_bridge_noDrop (hk : t.kind = .bridge) (hroom : ¬9 ≤ t.weighings.length) {last : Weighing}
    (hlast : t.weighings.getLast? = some last) (hdrop : last.weight - w.weight < w.division) :
    t.application r w tare = .noDrop := by
  simp only [Ticket.application, if_neg hhere, if_neg hst, hk, if_neg hroom, hlast, if_pos hdrop]

theorem Ticket.application_bridge_drop (hk : t.kind = .bridge) (hroom : ¬9 ≤ t.weighings.length) {last : Weighing}
    (hlast : t.weighings.getLast? = some last) (hdrop : ¬last.weight - w.weight < w.division) :
    t.application r w tare = .applied := by
  simp only [Ticket.application, if_neg hhere, if_neg hst, hk, if_neg hroom, hlast, if_neg hdrop]

theorem Ticket.application_counter_full (hk : t.kind = .counter) (hfull : 8 ≤ t.lines.length) :
    t.application r w tare = .listFull := by
  simp only [Ticket.application, if_neg hhere, if_neg hst, hk, if_pos hfull]

theorem Ticket.application_counter_noDrop (hk : t.kind = .counter) (hroom : ¬8 ≤ t.lines.length) (hdrop : w.weight ≤ tare) :
    t.application r w tare = .noDrop := by
  simp only [Ticket.application, if_neg hhere, if_neg hst, hk, if_neg hroom, if_pos hdrop]

theorem Ticket.application_counter_drop (hk : t.kind = .counter) (hroom : ¬8 ≤ t.lines.length) (hdrop : ¬w.weight ≤ tare) :
    t.application r w tare = .applied := by
  simp only [Ticket.application, if_neg hhere, if_neg hst, hk, if_neg hroom, if_neg hdrop]

end Present

/-! What an APPLIED weighing makes of the ticket (R68, R69) -/

theorem Ticket.apply_bridge_first {t : Ticket} (w : Weighing) (grade : Option Nat) (tare : Int) (hk : t.kind = .bridge)
    (hlast : t.weighings.getLast? = none) :
    t.apply w grade tare = { t with st := .weighing, weighings := t.weighings ++ [w] } := by
  simp only [Ticket.apply, hk, hlast]

theorem Ticket.apply_bridge_drop {t : Ticket} (w : Weighing) (grade : Option Nat) (tare : Int) (hk : t.kind = .bridge)
    {last : Weighing} (hlast : t.weighings.getLast? = some last) :
    t.apply w grade tare =
      { t with st := .weighing, weighings := t.weighings ++ [w], lines := t.lines ++ [bridgeLine last w grade] } := by
  simp only [Ticket.apply, hk, hlast]

theorem Ticket.apply_counter {t : Ticket} (w : Weighing) (grade : Option Nat) (tare : Int) (hk : t.kind = .counter) :
    t.apply w grade tare = { t with st := .weighing, lines := t.lines ++ [counterLine w grade tare] } := by
  simp only [Ticket.apply, hk]

/-! The hand-over -/

theorem State.handOver_unbound (s : State) (w : Weighing) (grade : Option Nat) (tare : Int) :
    s.handOver none w grade tare = (s, .notBound) := rfl

theorem State.handOver_absent (s : State) {r : TicketRef} (w : Weighing) (grade : Option Nat) (tare : Int)
    (h : s.ticket? r.number = none) : s.handOver (some r) w grade tare = (s, .ticketGone) := by
  simp only [State.handOver, h]

section Found

variable {s : State} {r : TicketRef} {w : Weighing} {grade : Option Nat} {tare : Int} {t : Ticket} (ht : s.ticket? r.number = some t)
include ht

/-- A result other than APPLIED leaves the table as it was. -/
theorem State.handOver_of_refused {a : Application} (ha : t.application r w tare = a) (hne : a ≠ .applied) :
    s.handOver (some r) w grade tare = (s, a) := by
  cases a with
  | applied => exact absurd rfl hne
  | _ => simp only [State.handOver, ht, ha]

/-- An APPLIED weighing changes the ticket once, by any change that agrees with `Ticket.apply` on it. -/
theorem State.handOver_of_applied {f : Ticket → Ticket} (ha : t.application r w tare = .applied)
    (hf : t.apply w grade tare = f t) : s.handOver (some r) w grade tare = (s.changeTicket r.number f, .applied) := by
  simp only [State.handOver, ht, ha, s.changeTicket_congr (f := fun t => t.apply w grade tare) ht hf]

end Found

/-- Settles O35: R67's checks are taken one by one, and each result is that of the hand-over's rule for it. -/
theorem handOverDecidesResult : Obligations.HandOverDecidesResult := by
  intro s r w grade tare
  refine ⟨s.handOver_unbound w grade tare, s.handOver_absent w grade tare, fun t ht => ?_⟩
  split
  case isTrue hgone => exact State.handOver_of_refused ht (t.application_of_gone w tare hgone) (by decide)
  case isFalse hhere =>
  split
  case isTrue hst => exact State.handOver_of_refused ht (t.application_of_state w tare hhere hst) (by decide)
  case isFalse hst =>
  split
  next hk =>
    split
    case isTrue hfull => exact State.handOver_of_refused ht (t.application_bridge_full w tare hhere hst hk hfull) (by decide)
    case isFalse hroom =>
    split
    next last hlast =>
      split
      case isTrue hdrop =>
        exact State.handOver_of_refused ht (t.application_bridge_noDrop w tare hhere hst hk hroom hlast hdrop) (by decide)
      case isFalse hdrop =>
        exact State.handOver_of_applied ht (t.application_bridge_drop w tare hhere hst hk hroom hlast hdrop)
          (t.apply_bridge_drop w grade tare hk hlast)
    next hlast =>
      exact State.handOver_of_applied ht (t.application_bridge_first w tare hhere hst hk hroom hlast)
        (t.apply_bridge_first w grade tare hk hlast)
  next hk =>
    split
    case isTrue hfull => exact State.handOver_of_refused ht (t.application_counter_full w tare hhere hst hk hfull) (by decide)
    case isFalse hroom =>
    split
    case isTrue hdrop =>
      exact State.handOver_of_refused ht (t.application_counter_noDrop w tare hhere hst hk hroom hdrop) (by decide)
    case isFalse hdrop =>
      exact State.handOver_of_applied ht (t.application_counter_drop w tare hhere hst hk hroom hdrop)
        (t.apply_counter w grade tare hk)

end Sys2Proof.Machine
end

