-- ==== Sys2Proof/Proofs/SettlementArithmetic.lean ====
section
/-! PROOFS. The settlement arithmetic: bounds of the two roundings it uses, the deduction of a line between 0 and its net (R99 to
R101), and the cash split (R105 to R107). -/

namespace Sys2Proof.Machine

/-! The quotient rounded half up -/

theorem roundHalfUp_nonneg {n : Int} (d : Nat) (hn : 0 ≤ n) : 0 ≤ roundHalfUp n d :=
  Int.ediv_nonneg (by omega) (by omega)

theorem two_mul_roundHalfUp_mul_le (n : Int) {d : Nat} (hd : 0 < d) : 2 * (roundHalfUp n d * d) ≤ 2 * n + d := by
  have hquot : roundHalfUp n d * (2 * d) ≤ 2 * n + d := Int.ediv_mul_le _ (by omega)
  linarith

/-! The deduction of a percentage (R99, R101) -/

section Percent

variable {net : Int} {division p : Nat}

/-- A figure is at most fifty percent. -/
theorem two_mul_percent_le (hnet : 0 ≤ net) (hp : p ≤ 500) : 2 * (net * p) ≤ net * 1000 := by
  have hhalf : net * p ≤ net * 500 := mul_le_mul_of_nonneg_left (by exact_mod_cast hp) hnet
  linarith

theorem percentDeduction_nonneg (hnet : 0 ≤ net) : 0 ≤ percentDeduction net division p :=
  mul_nonneg (Int.natCast_nonneg _) (roundHalfUp_nonneg _ (mul_nonneg hnet (Int.natCast_nonneg _)))

/-- The rounding adds at most half a division to at most half the net: the idea of R101. -/
theorem two_mul_percentDeduction_le (hnet : 0 ≤ net) (hp : p ≤ 500) (hd : 1 ≤ division) :
    2 * percentDeduction net division p ≤ net + division := by
  have hround := two_mul_roundHalfUp_mul_le (net * p) (d := 1000 * division) (by omega)
  have hhalf := two_mul_percent_le hnet hp
  unfold percentDeduction
  push_cast at hround
  linarith

/-- A net below one division rounds the quotient to 0. -/
theorem percentQuotient_eq_zero (hnet : 0 ≤ net) (hp : p ≤ 500) (hlt : net < division) :
    roundHalfUp (net * p) (1000 * division) = 0 := by
  have hhalf := two_mul_percent_le hnet hp
  exact Int.ediv_eq_zero_of_lt (by positivity) (by push_cast; linarith)

/-- A net of one division rounds the quotient at most to 1. -/
theorem percentQuotient_le_one (hp : p ≤ 500) (hd : 1 ≤ division) (heq : net = division) :
    roundHalfUp (net * p) (1000 * division) ≤ 1 := by
  have hded := two_mul_percentDeduction_le (net := net) (by omega) hp hd
  refine le_of_mul_le_mul_left (a := (division : Int)) ?_ (by omega)
  unfold percentDeduction at hded
  linarith

theorem percentDeduction_le_net (hnet : 0 ≤ net) (hp : p ≤ 500) (hd : 1 ≤ division) :
    percentDeduction net division p ≤ net := by
  rcases lt_or_ge net division with hlt | hge
  · simpa [percentDeduction, percentQuotient_eq_zero hnet hp hlt] using hnet
  · have hded := two_mul_percentDeduction_le hnet hp hd
    linarith

end Percent

/-! The figures of a line -/

section Modes

variable {l : TicketLine} (default : Nat)

theorem TicketLine.deduction_grade (hm : l.mode = .grade) :
    l.deduction default = percentDeduction l.net l.division default := by
  simp only [TicketLine.deduction, hm]

theorem TicketLine.deduction_percent {p : Nat} (hm : l.mode = .percent p) :
    l.deduction default = percentDeduction l.net l.division p := by
  simp only [TicketLine.deduction, hm]

theorem TicketLine.deduction_weight {w : Int} (hm : l.mode = .weight w) : l.deduction default = w := by
  simp only [TicketLine.deduction, hm]

end Modes

@[simp] theorem TicketLine.figuresUnder_paid (l : TicketLine) (g : Grade) :
    (l.figuresUnder g).paid = l.net - l.deduction g.deduction := rfl

theorem State.settleLine_of_grade {s : State} {l : TicketLine} {g : Grade} (hg : s.lineGrade? l = some g) :
    s.settleLine l = { l with figures := some (l.figuresUnder g) } := by
  simp only [State.settleLine, hg]

/-- Settles O40: by the mode of the line its deduction is the rounded percentage, between 0 and the net, or a weight given so. -/
theorem paidWeightWithinNet : Obligations.PaidWeightWithinNet := by
  intro s l g hdiv hnet hgrade hdefault hmode
  have hpos : 0 ≤ l.net := by omega
  have hded : 0 ≤ l.deduction g.deduction ∧ l.deduction g.deduction ≤ l.net := by
    cases hm : l.mode with
    | grade =>
      rw [l.deduction_grade _ hm]
      exact ⟨percentDeduction_nonneg hpos, percentDeduction_le_net hpos hdefault hdiv⟩
    | percent p =>
      have hp : p ≤ 500 := by simpa [hm] using hmode
      rw [l.deduction_percent _ hm]
      exact ⟨percentDeduction_nonneg hpos, percentDeduction_le_net hpos hp hdiv⟩
    | weight w =>
      rw [l.deduction_weight _ hm]
      simpa [hm] using hmode
  refine ⟨fun p hp => ⟨two_mul_percent_le hpos hp, percentQuotient_eq_zero hpos hp, percentQuotient_le_one hp hdiv,
    percentDeduction_le_net hpos hp hdiv⟩, ?_, ?_, ?_, ?_⟩
  · rintro _ _ rfl rfl
    rfl
  · simpa using hded.2
  · simpa using hded.1
  · rw [State.settleLine_of_grade hgrade]
    rfl

/-! The nearest multiple of the rounding unit (R106) -/

theorem nearestMultiple_mod (n u : Nat) : nearestMultiple n u % u = 0 := Nat.mul_mod_left _ _

section Nearest

variable {n u : Nat}

theorem two_mul_nearestMultiple_le : 2 * nearestMultiple n u ≤ 2 * n + u := by
  have hquot : (2 * n + u) / (2 * u) * (2 * u) ≤ 2 * n + u := Nat.div_mul_le_self _ _
  unfold nearestMultiple
  linarith

theorem lt_two_mul_nearestMultiple (hu : 0 < u) : 2 * n < 2 * nearestMultiple n u + u := by
  have hquot : 2 * n + u < (2 * n + u) / (2 * u) * (2 * u) + 2 * u := Nat.lt_div_mul_add (by omega)
  unfold nearestMultiple
  linarith

/-- Rounding to the nearest multiple does not pass a multiple: the cash part stays within the usable limit. -/
theorem nearestMultiple_le_of_le_mul {k : Nat} (hu : 0 < u) (hle : n ≤ k * u) : nearestMultiple n u ≤ k * u := by
  refine Nat.mul_le_mul_right u (Nat.lt_succ_iff.mp ((Nat.div_lt_iff_lt_mul (by omega)).mpr ?_))
  rw [Nat.succ_mul]
  linarith

end Nearest

/-! The cash split -/

theorem cashSplit_of_le_usable {l : Limits} {payable : Nat} (h : payable ≤ usableLimit l) :
    cashSplit l payable =
      (nearestMultiple payable l.unit, 0, (nearestMultiple payable l.unit : Int) - payable) :=
  if_pos h

theorem cashSplit_of_usable_lt {l : Limits} {payable : Nat} (h : usableLimit l < payable) :
    cashSplit l payable = (usableLimit l, payable - usableLimit l, 0) :=
  if_neg (Nat.not_le.mpr h)

theorem cashSplit_balances (l : Limits) (payable : Nat) :
    ((cashSplit l payable).1 : Int) + (cashSplit l payable).2.1 = payable + (cashSplit l payable).2.2 := by
  rcases Nat.lt_or_ge (usableLimit l) payable with hlt | hle
  · simp only [cashSplit_of_usable_lt hlt]
    omega
  · simp only [cashSplit_of_le_usable hle]
    omega

/-- Settles O41: within the usable limit the cash part is the nearest multiple of the unit, above it the limit itself. -/
theorem cashSplitBalances : Obligations.CashSplitBalances := by
  rintro l payable _ hunit rfl
  have hu : 0 < l.unit := by
    simp only [List.mem_cons, List.not_mem_nil, or_false] at hunit
    omega
  refine ⟨fun hle => ?_, fun hlt => cashSplit_of_usable_lt hlt, cashSplit_balances l payable⟩
  rw [cashSplit_of_le_usable hle]
  have hupper := two_mul_nearestMultiple_le (n := payable) (u := l.unit)
  have hlower := lt_two_mul_nearestMultiple (n := payable) hu
  refine ⟨nearestMultiple_mod _ _, nearestMultiple_le_of_le_mul hu hle, rfl, rfl, ?_, ?_⟩
  · show -(((l.unit - 1) / 2 : Nat) : Int) ≤ (nearestMultiple payable l.unit : Int) - payable
    omega
  · show (nearestMultiple payable l.unit : Int) - payable ≤ (l.unit / 2 : Nat)
    omega

end Sys2Proof.Machine
end

