-- ==== Sys2Proof/Proofs/Reach.lean ====
section
/-! PROOFS. Which blocks an operation may write: every block not named is as it was. The operations of the model are composed of a few
updates, so what a compound one reaches follows from what its parts reach. -/

namespace Sys2Proof.Machine

/-- Bit 23 names no flag. -/
theorem EventFlag.bit_lt_top (f : EventFlag) : f.bit < 23 := by
  cases f with
  | captureEnd c => cases c <;> decide
  | channel c => cases c <;> decide
  | deck b => cases b <;> decide
  | _ => decide

theorem EventFlag.mark_top (f : EventFlag) : f.mark[23] = false := by
  have := f.bit_lt_top
  rw [← BitVec.getLsbD_eq_getElem]
  simp only [EventFlag.mark, BitVec.getLsbD_shiftLeft, BitVec.getLsbD_one]
  simp
  omega

/-- The blocks that invariants speak of. `masks` stands for the masks and for bit 23 of the latched sets, which latching a flag leaves
alone. -/
inductive Block where
  | power | evu | masks | clu | wch | dsu | grt | tkt | vtr | pyu | rpu
  deriving DecidableEq

/-- Of the blocks, `t` differs from `s` in those named alone. For an update that writes out the fields of one block, each clause is
the default. -/
structure Reaches (bs : List Block) (s t : State) : Prop where
  power : Block.power ∉ bs → t.powered = s.powered := by simp
  evu : Block.evu ∉ bs → t.evu = s.evu := by simp
  masks : Block.masks ∉ bs → ∀ p, (t.events p).mask = (s.events p).mask ∧
    (t.events p).latched.getLsbD 23 = (s.events p).latched.getLsbD 23 := by intro _ p; cases p <;> exact ⟨rfl, rfl⟩
  clu : Block.clu ∉ bs → t.clu = s.clu := by simp
  wch : Block.wch ∉ bs → t.wch = s.wch := by simp
  dsu : Block.dsu ∉ bs → t.dsu = s.dsu := by simp
  grt : Block.grt ∉ bs → t.grt = s.grt := by simp
  tkt : Block.tkt ∉ bs → t.tkt = s.tkt := by simp
  vtr : Block.vtr ∉ bs → t.vtr = s.vtr := by simp
  pyu : Block.pyu ∉ bs → t.pyu = s.pyu := by simp
  rpu : Block.rpu ∉ bs → t.rpu = s.rpu := by simp

namespace Reaches

variable {s t u : State} {bs cs : List Block}

theorem refl (bs : List Block) (s : State) : Reaches bs s s :=
  ⟨fun _ => rfl, fun _ => rfl, fun _ _ => ⟨rfl, rfl⟩, fun _ => rfl, fun _ => rfl, fun _ => rfl, fun _ => rfl, fun _ => rfl, fun _ => rfl,
    fun _ => rfl, fun _ => rfl⟩

theorem trans (h : Reaches bs s t) (g : Reaches bs t u) : Reaches bs s u where
  power n := (g.power n).trans (h.power n)
  evu n := (g.evu n).trans (h.evu n)
  masks n p := ⟨((g.masks n p).1).trans (h.masks n p).1, ((g.masks n p).2).trans (h.masks n p).2⟩
  clu n := (g.clu n).trans (h.clu n)
  wch n := (g.wch n).trans (h.wch n)
  dsu n := (g.dsu n).trans (h.dsu n)
  grt n := (g.grt n).trans (h.grt n)
  tkt n := (g.tkt n).trans (h.tkt n)
  vtr n := (g.vtr n).trans (h.vtr n)
  pyu n := (g.pyu n).trans (h.pyu n)
  rpu n := (g.rpu n).trans (h.rpu n)

theorem mono (h : Reaches bs s t) (hb : bs ⊆ cs) : Reaches cs s t where
  power n := h.power fun m => n (hb m)
  evu n := h.evu fun m => n (hb m)
  masks n := h.masks fun m => n (hb m)
  clu n := h.clu fun m => n (hb m)
  wch n := h.wch fun m => n (hb m)
  dsu n := h.dsu fun m => n (hb m)
  grt n := h.grt fun m => n (hb m)
  tkt n := h.tkt fun m => n (hb m)
  vtr n := h.vtr fun m => n (hb m)
  pyu n := h.pyu fun m => n (hb m)
  rpu n := h.rpu fun m => n (hb m)

/-! The updates -/

theorem setChan (s : State) (ch : Channel) (c : ChannelState) (hb : [.wch] ⊆ bs) : Reaches bs s (s.setChan ch c) := by
  obtain ⟨w, h⟩ := s.setChan_frame ch c
  rw [h]
  exact mono {} hb

theorem setBridge (s : State) (b : Bridge) (x : BridgeState) (hb : [.dsu] ⊆ bs) : Reaches bs s (s.setBridge b x) := by
  obtain ⟨d, h⟩ := s.setBridge_frame b x
  rw [h]
  exact mono {} hb

theorem setPort (bs : List Block) (s : State) (p : Port) (x : PortState) : Reaches bs s (s.setPort p x) := by
  refine mono (bs := []) ?_ (List.nil_subset _)
  constructor <;> simp

theorem latch (s : State) (p : Port) (f : EventFlag) (hb : [.evu] ⊆ bs) : Reaches bs s (s.latch p f) := by
  refine mono ?_ hb
  constructor
  case masks =>
    intro _ q
    cases p <;> cases q <;>
      simp [State.latch, State.setEvents, State.events, EventSet.latch, EventFlag.mark_top]
  all_goals simp

theorem latchBoth (s : State) (f : EventFlag) (hb : [.evu] ⊆ bs) : Reaches bs s (s.latchBoth f) :=
  (latch s .office f hb).trans (latch _ .window f hb)

theorem setAlert (s : State) (src : AlertSource) (x : AlertState) (hb : [.evu] ⊆ bs) : Reaches bs s (s.setAlert src x) := mono {} hb

theorem markAlert (s : State) (src : AlertSource) (hb : [.evu] ⊆ bs) : Reaches bs s (s.markAlert src) := by
  unfold State.markAlert
  dsimp only
  split
  · exact refl _ _
  · exact (setAlert _ _ _ hb).trans (latchBoth _ _ hb)

theorem beginAlert (s before : State) (src : AlertSource) (hb : [.evu] ⊆ bs) : Reaches bs s (s.beginAlert before src) := by
  unfold State.beginAlert
  split
  · exact markAlert _ _ hb
  · exact refl _ _

theorem beginAlerts (s before : State) (hb : [.evu] ⊆ bs) : Reaches bs s (s.beginAlerts before) :=
  ((beginAlert _ _ _ hb).trans (beginAlert _ _ _ hb)).trans (beginAlert _ _ _ hb)

theorem settle (bs : List Block) (s : State) : Reaches bs s s.settle := by
  refine mono (bs := []) ?_ (List.nil_subset _)
  constructor <;> simp

theorem conclude (s before : State) (hb : [.evu] ⊆ bs) : Reaches bs s (before.conclude s) :=
  (beginAlerts s before hb).trans (settle _ _)

/-! Writes of one block -/

theorem withTickets (s : State) (k : Tkt) (hb : [.tkt] ⊆ bs) : Reaches bs s { s with tkt := k } := mono {} hb

theorem withPrinter (s : State) (r : Rpu) (hb : [.rpu] ⊆ bs) : Reaches bs s { s with rpu := r } := mono {} hb

theorem withPayout (s : State) (u : Pyu) (hb : [.pyu] ⊆ bs) : Reaches bs s { s with pyu := u } := mono {} hb

theorem withDecks (s : State) (d : Dsu) (hb : [.dsu] ⊆ bs) : Reaches bs s { s with dsu := d } := mono {} hb

theorem setLine (s : State) (line : Nat) (l : YardLine) (hb : [.dsu] ⊆ bs) : Reaches bs s (s.setLine line l) := withDecks s _ hb

theorem withChannels (s : State) (w : Wch) (hb : [.wch] ⊆ bs) : Reaches bs s { s with wch := w } := mono {} hb

theorem withTares (s : State) (v : List TareEntry) (hb : [.vtr] ⊆ bs) : Reaches bs s { s with vtr := v } := mono {} hb

theorem withGrades (s : State) (g : Grt) (hb : [.grt] ⊆ bs) : Reaches bs s { s with grt := g } := mono {} hb

theorem withCalendar (s : State) (c : Clu) (hb : [.clu] ⊆ bs) : Reaches bs s { s with clu := c } := mono {} hb

theorem withAlerts (s : State) (a : Alerts) (hb : [.evu] ⊆ bs) : Reaches bs s { s with evu := { s.evu with alerts := a } } := mono {} hb

/-! Channels and decks -/

theorem endCapture (s : State) (ch : Channel) (o : CaptureEnd) (w : Option Int) (a : Option Application)
    (hb : [.wch, .dsu, .evu] ⊆ bs) : Reaches bs s (s.endCapture ch o w a) := by
  refine mono ?_ hb
  unfold State.endCapture
  dsimp only
  split
  · exact refl _ _
  · refine .trans ?_ (latch _ _ _ (by decide))
    have slot := fun c => setChan (bs := [.wch, .dsu, .evu]) s ch c (by decide)
    split
    · split
      · exact (slot _).trans (setBridge _ _ _ (by decide))
      · exact slot _
    · exact slot _

theorem setPosition (s : State) (b : Bridge) (p : Position) (hb : [.wch, .dsu, .evu] ⊆ bs) : Reaches bs s (s.setPosition b p) := by
  refine mono ?_ hb
  have left : Reaches [.wch, .dsu, .evu] s
      (if (s.bridge b).pos = .onDeck ∧ p ≠ .onDeck then
        (s.endCapture b.channel .position none none).setBridge b
          { (s.endCapture b.channel .position none none).bridge b with captured := false }
      else s) := by
    split
    · exact (endCapture _ _ _ _ _ (by decide)).trans (setBridge _ _ _ (by decide))
    · exact refl _ _
  have moved := fun x => left.trans (setBridge _ b x (by decide))
  unfold State.setPosition
  dsimp only
  split
  · exact (moved _).trans (latchBoth _ _ (by decide))
  · exact moved _

theorem beamChange (s : State) (b : Bridge) (side : Side) (blocked : Bool) (hb : [.wch, .dsu, .evu] ⊆ bs) :
    Reaches bs s (s.beamChange b side blocked) := by
  refine mono ?_ hb
  unfold State.beamChange
  dsimp only
  generalize h : s.setBridge b _ = s1
  have timer : Reaches [.wch, .dsu, .evu] s s1 := h ▸ setBridge _ _ _ (by decide)
  have moved : ∀ p, Reaches [.wch, .dsu, .evu] s (s1.setPosition b p) := fun p => timer.trans (setPosition _ _ _ (by decide))
  split
  · split
    · exact moved _
    · exact moved _
    · exact timer
  · split
    · exact timer
    · split
      · exact moved _
      · exact moved _
      · exact moved _
      · exact timer

theorem setOccupied (s : State) (ch : Channel) (o : Bool) (hb : [.wch, .dsu, .evu] ⊆ bs) : Reaches bs s (s.setOccupied ch o) := by
  refine mono ?_ hb
  have changed : ∀ u : State, Reaches [.wch, .dsu, .evu] u (u.occupancyChange ch) := by
    intro u
    unfold State.occupancyChange
    dsimp only
    split
    · exact refl _ _
    · split
      · split
        · exact setPosition _ _ _ (by decide)
        · exact refl _ _
      · split
        · exact refl _ _
        · exact setPosition _ _ _ (by decide)
      · exact refl _ _
  unfold State.setOccupied
  dsimp only
  split
  · exact refl _ _
  · exact (setChan _ _ _ (by decide)).trans (changed _)

theorem enter (s : State) (ch : Channel) (c : ChannelState) (st : ChannelSt) (hb : [.wch, .evu] ⊆ bs) :
    Reaches bs s (s.enter ch c st) :=
  mono ((setChan s ch _ (by decide)).trans (latchBoth _ _ (by decide))) hb

theorem enterFault (s : State) (ch : Channel) (hb : [.wch, .dsu, .evu] ⊆ bs) : Reaches bs s (s.enterFault ch) :=
  mono ((endCapture s ch _ _ _ (by decide)).trans (enter _ ch _ _ (by decide))) hb

theorem setDrift (s : State) (ch : Channel) (drift : Bool) (hb : [.wch, .evu] ⊆ bs) : Reaches bs s (s.setDrift ch drift) := by
  refine mono ?_ hb
  unfold State.setDrift
  dsimp only
  split
  · exact refl _ _
  · exact (setChan _ _ _ (by decide)).trans (latchBoth _ _ (by decide))

theorem enterOff (s : State) (ch : Channel) (hb : [.wch, .dsu, .evu] ⊆ bs) : Reaches bs s (s.enterOff ch) :=
  mono ((enter s ch _ _ (by decide)).trans (setOccupied _ ch _ (by decide))) hb

theorem wakePlatform (s : State) (ch : Channel) (hb : [.wch] ⊆ bs) : Reaches bs s (s.wakePlatform ch) := by
  refine mono ?_ hb
  unfold State.wakePlatform
  split
  · split
    · exact withChannels _ _ (by decide)
    · exact withChannels _ _ (by decide)
    · exact refl _ _
  · exact refl _ _

/-! The ticket table -/

theorem changeTicket (s : State) (n : Nat) (f : Ticket → Ticket) (hb : [.tkt] ⊆ bs) : Reaches bs s (s.changeTicket n f) := by
  obtain ⟨k, h⟩ := s.changeTicket_frame n f
  rw [h]
  exact withTickets s k hb

theorem handOver (s : State) (r : Option TicketRef) (w : Weighing) (g : Option Nat) (tare : Int) (hb : [.tkt] ⊆ bs) :
    Reaches bs s (s.handOver r w g tare).1 := by
  obtain ⟨k, h, -⟩ := s.handOver_frame r w g tare
  rw [h]
  exact withTickets s k hb

theorem releaseCheck (s : State) (d : Date) (hb : [.tkt, .evu] ⊆ bs) : Reaches bs s (s.releaseCheck d) := by
  refine mono ?_ hb
  unfold State.releaseCheck
  dsimp only
  split
  · exact withTickets s _ (by decide)
  · exact (withTickets s _ (by decide)).trans (latchBoth _ _ (by decide))

/-! A sample -/

theorem endOutOfRange (s : State) (ch : Channel) (hb : [.wch, .dsu, .evu] ⊆ bs) : Reaches bs s (s.endOutOfRange ch) := by
  unfold State.endOutOfRange
  split
  · exact endCapture _ _ _ _ _ hb
  · exact endCapture _ _ _ _ _ hb
  · exact refl _ _

theorem decideOccupancy (s : State) (ch : Channel) (hb : [.wch, .dsu, .evu] ⊆ bs) : Reaches bs s (s.decideOccupancy ch) := by
  unfold State.decideOccupancy
  dsimp only
  split
  · exact (setOccupied _ _ _ hb).trans (endCapture _ _ _ _ _ hb)
  · exact setOccupied _ _ _ hb

theorem track (s : State) (ch : Channel) (x : Sample) (capturing : Bool) (hb : [.wch, .evu] ⊆ bs) :
    Reaches bs s (s.track ch x capturing) := by
  refine mono ?_ hb
  have judged : ∀ (u : State) (k : ZeroBlock), Reaches [.wch, .evu] u (u.judgeBlock ch k) := by
    intro u k
    unfold State.judgeBlock
    dsimp only
    repeat' split
    · exact refl _ _
    · exact refl _ _
    · exact setChan _ _ _ (by decide)
    · exact setDrift _ _ _ (by decide)
  unfold State.track
  dsimp only
  split
  · exact setChan _ _ _ (by decide)
  · exact (setChan _ _ _ (by decide)).trans (judged _ _)

theorem testCapture (s : State) (ch : Channel) (raw : Int) (hb : [.wch, .dsu, .tkt, .evu] ⊆ bs) :
    Reaches bs s (s.testCapture ch raw) := by
  refine mono ?_ hb
  have completed : ∀ (u : State) (k : Capture), Reaches [.wch, .dsu, .tkt, .evu] u (u.completeCapture ch k) := by
    intro u k
    unfold State.completeCapture
    dsimp only
    split
    · exact endCapture _ _ _ _ _ (by decide)
    · exact endCapture _ _ _ _ _ (by decide)
    · exact (handOver _ _ _ _ _ (by decide)).trans (endCapture _ _ _ _ _ (by decide))
  unfold State.testCapture
  dsimp only
  split
  · exact refl _ _
  · split
    · exact (setChan _ _ _ (by decide)).trans (completed _ _)
    · exact setChan _ _ _ (by decide)

theorem goodSample (s : State) (ch : Channel) (raw : Int) (hb : [.wch, .dsu, .tkt, .evu] ⊆ bs) :
    Reaches bs s (s.goodSample ch raw) := by
  refine mono ?_ hb
  have counted : ∀ u : State, Reaches [.wch, .dsu, .tkt, .evu] u (u.countStarting ch) := by
    intro u
    unfold State.countStarting
    dsimp only
    split
    · exact setChan _ _ _ (by decide)
    · exact enter _ _ _ _ (by decide)
  have judged : Reaches [.wch, .dsu, .tkt, .evu] s
      (((s.setChan ch ((s.chan ch).convert raw)).endOutOfRange ch).decideOccupancy ch) :=
    ((setChan _ _ _ (by decide)).trans (endOutOfRange _ _ (by decide))).trans (decideOccupancy _ _ (by decide))
  unfold State.goodSample
  dsimp only
  refine .trans ?_ (testCapture _ _ _ (by decide))
  split
  · exact judged.trans (counted _)
  · exact judged.trans (track _ _ _ _ (by decide))
  · exact judged

theorem sample (s : State) (ch : Channel) (raw : Int) (ok : Bool) (hb : [.wch, .dsu, .tkt, .evu] ⊆ bs) :
    Reaches bs s (s.sample ch raw ok) := by
  refine mono ?_ hb
  unfold State.sample
  dsimp only
  split
  · exact refl _ _
  · split
    · exact (enter _ _ _ _ (by decide)).trans (goodSample _ _ _ (by decide))
    · exact refl _ _
  · split
    · exact (setChan _ _ _ (by decide)).trans (goodSample _ _ _ (by decide))
    · exact setChan _ _ _ (by decide)
  · split
    · exact (setChan _ _ _ (by decide)).trans (goodSample _ _ _ (by decide))
    · exact enterFault _ _ (by decide)

/-! The print queue -/

theorem fill (s : State) (hb : [.rpu] ⊆ bs) : Reaches bs s s.fill := by
  obtain ⟨r, h⟩ := s.fill_frame
  rw [h]
  exact withPrinter s r hb

theorem recordEnd (s : State) (j : Job) (x : JobEnd) (hb : [.rpu, .evu] ⊆ bs) : Reaches bs s (s.recordEnd j x) := by
  refine mono ?_ hb
  unfold State.recordEnd
  dsimp only
  split
  · exact (withPrinter s _ (by decide)).trans (latchBoth _ _ (by decide))
  · exact (withPrinter s _ (by decide)).trans (latch _ _ _ (by decide))

theorem dischargeJob (s : State) (j : Job) (c : Bool) (hb : [.tkt] ⊆ bs) : Reaches bs s (s.dischargeJob j c) := by
  unfold State.dischargeJob
  split
  · exact changeTicket _ _ _ hb
  · exact refl _ _

theorem firstStart (s : State) (j : Job) (rest : List Job) (t : Ticket) (hb : [.rpu, .tkt] ⊆ bs) :
    Reaches bs s (s.firstStart j rest t) := by
  refine mono ?_ hb
  unfold State.firstStart
  dsimp only
  split
  · exact (changeTicket _ _ _ (by decide)).trans (withPrinter _ _ (by decide))
  · exact withPrinter _ _ (by decide)

theorem startHead (n : Nat) (s : State) : Reaches [.rpu, .tkt, .evu] s (startHead n s) := by
  induction n generalizing s with
  | zero => exact refl _ _
  | succ n ih =>
    unfold Machine.startHead
    split
    · exact refl _ _
    · split
      · split
        · exact withPrinter _ _ (by decide)
        · split
          · exact firstStart _ _ _ _ (by decide)
          · exact (((withPrinter _ _ (by decide)).trans (recordEnd _ _ _ (by decide))).trans (fill _ (by decide))).trans (ih _)
      · exact refl _ _

theorem startPrint (s : State) (hb : [.rpu, .tkt, .evu] ⊆ bs) : Reaches bs s s.startPrint := mono (startHead 16 s) hb

theorem pump (s : State) (hb : [.rpu, .tkt, .evu] ⊆ bs) : Reaches bs s s.pump :=
  mono ((fill s (by decide)).trans (startPrint _ (by decide))) hb

theorem withdrawSlips (s : State) (ref : TicketRef) (hb : [.rpu, .tkt, .evu] ⊆ bs) : Reaches bs s (s.withdrawSlips ref) := by
  refine mono ?_ hb
  have ended : ∀ (l : List Job) (u : State),
      Reaches [.rpu, .tkt, .evu] u (l.foldl (fun (t : State) (j : Job) => t.recordEnd j .withdrawn) u) := by
    intro l
    induction l with
    | nil => exact fun u => refl _ u
    | cons j rest ih => exact fun u => (recordEnd u j .withdrawn (by decide)).trans (ih _)
  unfold State.withdrawSlips
  exact ((withPrinter _ _ (by decide)).trans (ended _ _)).trans (pump _ (by decide))

theorem resume (s : State) (hb : [.rpu, .tkt, .evu] ⊆ bs) : Reaches bs s s.resume := by
  refine mono ?_ hb
  unfold State.resume
  refine .trans ?_ (startPrint _ (by decide))
  split
  · exact refl _ _
  · exact withPrinter _ _ (by decide)

theorem notePrinter (s before : State) (hb : [.evu] ⊆ bs) : Reaches bs s (s.notePrinter before) := by
  unfold State.notePrinter
  split
  · exact latchBoth _ _ hb
  · exact refl _ _

/-! The payout unit -/

theorem changeStore (s : State) (i : Nat) (f : Store → Store) (hb : [.pyu, .evu] ⊆ bs) : Reaches bs s (s.changeStore i f) := by
  refine mono ?_ hb
  unfold State.changeStore
  split
  · exact refl _ _
  · dsimp only
    split
    · exact (withPayout s _ (by decide)).trans (latchBoth _ _ (by decide))
    · exact withPayout s _ (by decide)

theorem operationEnds (s : State) (d : DispenserSt) (hb : [.pyu, .evu] ⊆ bs) : Reaches bs s (s.operationEnds d) := by
  refine mono ?_ hb
  have ended : Reaches [.pyu, .evu] s
      (if s.pyu.doorPending then
        { s with pyu := { s.pyu with command := none, takeTimer := none, disp := .doorOpen, remembered := d, doorPending := false } }
      else { s with pyu := { s.pyu with command := none, takeTimer := none, disp := d } }) := by
    split <;> exact withPayout s _ (by decide)
  unfold State.operationEnds
  dsimp only
  split
  · exact ended.trans (latchBoth _ _ (by decide))
  · exact ended

theorem payoutEnd (s : State) (p : Payout) (x : PayoutResult) (c : PayoutEnd) (w : Option Drawn) (d : DispenserSt)
    (hb : [.pyu, .tkt, .rpu, .evu] ⊆ bs) : Reaches bs s (s.payoutEnd p x c w d) := by
  refine mono ?_ hb
  have told := (((operationEnds (bs := [.pyu, .tkt, .rpu, .evu]) s d (by decide)).trans
    (changeTicket _ p.ticket (fun t => t.payoutEnds p x c s.stamp) (by decide))).trans (pump _ (by decide)))
  have left := fun u => (told.trans (withPayout _ u (by decide))).trans (latch _ p.port .payoutEnd (by decide))
  unfold State.payoutEnd
  dsimp only
  split
  · exact (left _).trans (markAlert _ _ (by decide))
  · split
    · exact (left _).trans (markAlert _ _ (by decide))
    · exact left _
  · exact left _

theorem payoutStops (s : State) (p : Payout) (c : PayoutEnd) (hb : [.pyu, .tkt, .rpu, .evu] ⊆ bs) :
    Reaches bs s (s.payoutStops p c) := by
  unfold State.payoutStops
  split
  · exact payoutEnd _ _ _ _ _ _ hb
  · split <;> exact payoutEnd _ _ _ _ _ _ hb
  · exact payoutEnd _ _ _ _ _ _ hb

theorem recoveryEnds (s : State) (k : Nat) (d : DispenserSt) (hb : [.pyu, .evu] ⊆ bs) : Reaches bs s (s.recoveryEnds k d) := by
  refine mono ?_ hb
  have ended := operationEnds (bs := [.pyu, .evu]) s d (by decide)
  unfold State.recoveryEnds
  dsimp only
  split
  · exact ended
  · split
    · exact (ended.trans (withPayout _ _ (by decide))).trans (markAlert _ _ (by decide))
    · exact ended.trans (withPayout _ _ (by decide))

theorem writePayout (s : State) (p : Payout) (hb : [.pyu, .tkt] ⊆ bs) : Reaches bs s (s.writePayout p) :=
  mono ((withPayout s _ (by decide)).trans (changeTicket _ _ _ (by decide))) hb

theorem goOn (s : State) (p : Payout) (hb : [.pyu, .tkt, .rpu, .evu] ⊆ bs) : Reaches bs s (s.goOn p) := by
  refine mono ?_ hb
  have given := fun u => withPayout (bs := [.pyu, .tkt, .rpu, .evu]) s u (by decide)
  unfold State.goOn
  dsimp only
  split
  · split
    · exact (given _).trans (payoutEnd _ _ _ _ _ _ (by decide))
    · exact given _
  · split
    · exact given _
    · split
      · exact (given _).trans (payoutEnd _ _ _ _ _ _ (by decide))
      · exact given _

theorem doorEvent (s : State) (opens : Bool) (hb : [.pyu, .tkt, .rpu, .evu] ⊆ bs) : Reaches bs s (s.doorEvent opens) := by
  refine mono ?_ hb
  have given := fun u => withPayout (bs := [.pyu, .tkt, .rpu, .evu]) s u (by decide)
  unfold State.doorEvent
  split
  · unfold State.doorOpens
    dsimp only
    split
    · exact (given _).trans (payoutStops _ _ _ (by decide))
    · exact refl _ _
    all_goals exact given _
  · unfold State.doorCloses
    dsimp only
    split
    · split
      · exact (given _).trans (latchBoth _ _ (by decide))
      · exact given _
    · exact given _

end Reaches

end Sys2Proof.Machine
end

