-- ==== Sys2Proof/Proofs/Effects.lean ====
section
/-! PROOFS. What a step can do, said once: the rules of the requests and the events that are no requests, each with the blocks it may
write, and the principle by which an invariant of some blocks is kept by every step: only the rules and events that reach them need a
look. -/

namespace Sys2Proof.Machine

/-- The rules of the requests, each with the blocks it may write. -/
inductive Rule : Handler → List Block → Prop where
  | badBody : Rule badBody []
  | ident : Rule General.ident []
  | eventsFetch : Rule General.eventsFetch [.evu, .masks]
  | eventsMask (m : BitVec 24) : Rule (General.eventsMask m) [.evu, .masks]
  | linkCounters : Rule General.linkCounters []
  | restart : Rule General.restart []
  | channelState (n : Nat) : Rule (withChannel n Weigh.channelState) []
  | channelSet (n : Nat) (x : ChannelParams) : Rule (withChannel n (Weigh.channelSet x)) [.wch, .vtr]
  | channelService (n : Nat) (enter : Bool) : Rule (withChannel n (Weigh.service enter)) [.wch, .dsu, .evu]
  | zero (n : Nat) : Rule (withChannel n Weigh.zero) [.wch, .evu]
  | capture (n : Nat) (ticket grade : Option Nat) (tare : Option Int) :
    Rule (withChannel n (Weigh.capture ticket grade tare)) [.wch, .dsu]
  | captureAbort (n : Nat) : Rule (withChannel n Weigh.abort) [.wch, .dsu, .evu]
  | outcomeFetch (n : Nat) : Rule (Weigh.fetch n) [.wch, .pyu]
  | calibrateZero (n : Nat) : Rule (withChannel n Weigh.calibrateZero) [.wch, .evu]
  | calibrateSpan (n : Nat) (w : Int) : Rule (withChannel n (Weigh.calibrateSpan w)) [.wch]
  | deckState : Rule Deck.state []
  | lampPatternSet (n : Nat) (steps : BitVec 8) (tick pause : Nat) : Rule (Deck.lampPatternSet n steps tick pause) [.dsu]
  | aspectSet (rows : List AspectRow) (stretch : Nat) : Rule (Deck.aspectSet rows stretch) [.dsu]
  | lampOverride (b : Nat) (x : Option (AspectRow × Nat)) : Rule (Deck.lampOverride b x) [.dsu]
  | lineMapSet (l : List LineEntry) (d f : Nat) : Rule (Lines.mapSet l d f) [.dsu, .wch, .pyu, .tkt, .rpu, .evu]
  | linesRead : Rule Lines.read []
  | lineWrite (n : Nat) (on : Bool) : Rule (Lines.write n on) [.dsu]
  | gradeSet (code : Nat) (name : Text) (price deduction : Nat) (restricted : Bool) (hold : Nat) (enabled : Bool) :
    Rule (Grades.set code name price deduction restricted hold enabled) [.grt]
  | gradeRead (first count : Nat) : Rule (Grades.read first count) []
  | priceSet (pairs : List (Nat × Nat)) : Rule (Grades.priceSet pairs) [.grt]
  | limitsSet (l : Limits) : Rule (Grades.limitsSet l) [.grt]
  | tareStore (plate : Text) (ch : Nat) (tare : Int) : Rule (Tares.store plate ch tare) [.vtr]
  | tareRead (x : TareSelect) : Rule (Tares.read x) []
  | tareDelete (plate : Option Text) : Rule (Tares.delete plate) [.vtr]
  | ticketOpen (k : TicketKind) (c p : Option Text) : Rule (Tickets.open_ k c p) [.tkt]
  | ticketRead (n part : Nat) : Rule (Tickets.read n part) []
  | ticketList (all : Bool) (start : Nat) : Rule (Tickets.list all start) []
  | lineGrade (n place code : Nat) : Rule (Tickets.lineGrade n place code) [.tkt]
  | lineDeduct (n place : Nat) (m : DeductMode) : Rule (Tickets.lineDeduct n place m) [.tkt]
  | lineStrike (n place : Nat) : Rule (Tickets.lineStrike n place) [.tkt]
  | weighingStrike (n : Nat) : Rule (Tickets.weighingStrike n) [.tkt]
  | ticketFinish (n : Nat) (used stored : Bool) (c p : Option Text) : Rule (Tickets.finish n used stored c p) [.tkt, .vtr]
  | ticketReopen (n : Nat) : Rule (Tickets.reopen n) [.tkt, .rpu, .evu]
  | ticketSettle (n : Nat) : Rule (Tickets.settle n) [.tkt, .rpu, .evu]
  | ticketApprove (n : Nat) : Rule (Tickets.approve n) [.tkt]
  | ticketClaim (n : Nat) : Rule (Tickets.claim n) [.tkt]
  | ticketRelease (n : Nat) : Rule (Tickets.release n) [.tkt]
  | ticketVoid (n : Nat) : Rule (Tickets.void n) [.tkt, .rpu, .evu]
  | ticketResolve (n h : Nat) : Rule (Tickets.resolve n h) [.tkt, .rpu, .evu]
  | storeLoad (i : Nat) (x : Option StoreContents) : Rule (Cash.storeLoad i x) [.pyu]
  | storeEnable (i : Nat) (on : Bool) : Rule (Cash.storeEnable i on) [.pyu]
  | storeRead : Rule Cash.storeRead []
  | payoutStart (n : Nat) (part : Bool) : Rule (Cash.payoutStart n part) [.pyu, .tkt, .rpu, .evu]
  | payoutCancel : Rule Cash.payoutCancel [.pyu, .tkt, .rpu, .evu]
  | logRead (start : Nat) : Rule (Cash.logRead start) []
  | binEmpty : Rule Cash.binEmpty [.pyu]
  | dispenserClear : Rule Cash.dispenserClear [.pyu]
  | receiptPrint (n form : Nat) : Rule (Print.receiptPrint n form) [.rpu, .tkt, .evu]
  | printCancel (id : Nat) : Rule (Print.cancel id) [.rpu, .tkt, .evu]
  | printerState (part : Nat) : Rule (Print.state part) []
  | headerSet (h1 h2 h3 : Text) (b c : Bool) : Rule (Print.headerSet h1 h2 h3 b c) [.rpu]
  | clockSet (t : DateTime) : Rule (Calendar.set t) [.clu, .tkt, .evu]
  | clockRead : Rule Calendar.read []
  | releaseHourSet (h : Nat) : Rule (Calendar.releaseHourSet h) [.clu]
  | alertRead : Rule Alert.read []
  | alertSet (on : Bool) (m : AlertMarks) : Rule (Alert.set on m) [.evu]
  | alertClear (all : Bool) (m : AlertMarks) : Rule (Alert.clear all m) [.evu]

/-- The events that are no requests and no starts, each with the blocks it may write. -/
inductive Event : (State → State) → List Block → Prop where
  | digitizerSample (dig : Digitizer) (raw : Int) (ok : Bool) : Event (Weigh.digitizerSample dig raw ok) [.wch, .dsu, .tkt, .evu]
  | signalTimeout (ch : Channel) : Event (Weigh.signalTimeout ch) [.wch, .dsu, .evu]
  | attemptTimeout (ch : Channel) : Event (Weigh.attemptTimeout ch) [.wch, .dsu, .evu]
  | levelChange (line : Nat) (drive : LineDrive) : Event (Lines.levelChange line drive) [.dsu]
  | driveOnly (line : Nat) (drive : LineDrive) : Event (Lines.driveOnly line drive) [.dsu]
  | debounced (line : Nat) : Event (Lines.debounced line) [.dsu, .wch, .pyu, .tkt, .rpu, .evu]
  | beamFaultTimeout (b : Bridge) (side : Side) : Event (Deck.beamFaultExpiry b side) [.wch, .dsu, .evu]
  | stretchTimeout (b : Bridge) : Event (Deck.stretchExpiry b) [.dsu]
  | overrideTimeout (b : Bridge) : Event (Deck.overrideExpiry b) [.dsu]
  | lampTick (b : Bridge) (side : Side) (colour : Colour) : Event (Deck.tick b side colour) []
  | claimLapse (n : Nat) : Event (Tickets.lapse n) [.tkt, .evu]
  | advance : Event State.advance [.clu, .tkt, .evu]
  | second : Event State.second [.clu]
  | pieceOk : Event Cash.pieceOk [.pyu, .tkt, .rpu, .evu]
  | pieceReject : Event Cash.pieceReject [.pyu, .tkt, .rpu, .evu]
  | pickFail : Event Cash.pickFail [.pyu, .tkt, .rpu, .evu]
  | presented : Event Cash.presented [.pyu, .tkt]
  | trayEmpty : Event Cash.trayEmpty [.pyu, .tkt, .rpu, .evu]
  | takeTimeout : Event Cash.takeTimeout [.pyu]
  | retracted (k : Nat) : Event (Cash.retracted k) [.pyu, .tkt, .rpu, .evu]
  | jam : Event Cash.jam [.pyu, .tkt, .rpu, .evu]
  | ready : Event Cash.ready [.pyu, .evu]
  | dispenserAnswerTimeout : Event Cash.answerTimeout [.pyu, .tkt, .rpu, .evu]
  | lineDone : Event Print.lineDone [.rpu, .tkt, .evu]
  | cutDone : Event Print.cutDone [.rpu, .tkt, .evu]
  | paperLow : Event Print.paperLow [.rpu, .tkt, .evu]
  | paperOut : Event Print.paperOut [.rpu, .evu]
  | paperIn : Event Print.paperIn [.rpu, .tkt, .evu]
  | coverOpen : Event Print.coverOpen [.rpu, .evu]
  | coverClosed : Event Print.coverClosed [.rpu, .tkt, .evu]
  | headHot : Event Print.headHot [.rpu, .tkt, .evu]
  | headCool : Event Print.headCool [.rpu, .tkt, .evu]
  | printerAnswerTimeout : Event Print.answerTimeout [.rpu, .evu]

/-! The reader of a body makes the rule of a request -/

/-- Whatever the reader reads meets the predicate. -/
def Reader.Yields {α : Type} (r : Reader α) (P : α → Prop) : Prop := ∀ l x rest, r l = some (x, rest) → P x

theorem Reader.Yields.pure {α : Type} {P : α → Prop} {x : α} (h : P x) : Reader.Yields (Pure.pure x) P := by
  rintro l y rest hy
  cases hy
  exact h

theorem Reader.Yields.bind {α β : Type} {r : Reader α} {k : α → Reader β} {P : β → Prop} (h : ∀ x, Reader.Yields (k x) P) :
    Reader.Yields (r >>= k) P := by
  intro l y rest hy
  change StateT.bind r k l = _ at hy
  unfold StateT.bind at hy
  cases hr : r l with
  | none => simp [hr] at hy
  | some x => exact h x.1 x.2 y rest (by simpa [hr] using hy)

theorem bodyReader_yields (kind : Nat) : (bodyReader kind).Yields fun h => ∃ bs, Rule h bs := by
  unfold bodyReader
  split
  all_goals first
    | (intro l x rest h; cases h; done)
    | (repeat refine .bind fun _ => ?_
       exact .pure ⟨_, by constructor⟩)

/-- The request that a kind and a body make is carried out by one of the rules. -/
theorem handlerOf_rule (kind : Nat) (body : List Byte) : ∃ bs, Rule (handlerOf kind body) bs := by
  unfold handlerOf Reader.whole
  split
  · rename_i h e
    exact bodyReader_yields kind _ _ _ e
  · exact ⟨_, .badBody⟩

/-! What a rule reaches -/

theorem Reaches.done {bs : List Block} {s t : State} {data : List Field} (h : Reaches bs s t) : Reaches bs s (Machine.done t data).1 := h

theorem withChannel_reaches {bs : List Block} {k : Channel → Handler} (n : Nat) (p : Port) (s : State)
    (h : ∀ ch, Reaches bs s (k ch p s).1) : Reaches bs s (withChannel n k p s).1 := by
  unfold withChannel
  split
  · exact .refl _ _
  · exact h _

theorem withTicket_reaches {bs : List Block} {k : Ticket → State × Reply} (n : Nat) (s : State)
    (h : ∀ t, Reaches bs s (k t).1) : Reaches bs s (withTicket s n k).1 := by
  unfold withTicket
  split
  · exact .refl _ _
  · exact h _

theorem State.dropTares_reaches {bs : List Block} (s : State) (ch : Channel) (hb : [.vtr] ⊆ bs) :
    Reaches bs s (s.dropTares ch) := by
  unfold State.dropTares
  split
  · exact .withTares _ _ hb
  · exact .refl _ _

theorem State.takeMap_reaches (s : State) (l : List LineEntry) (d f : Nat) :
    Reaches [.dsu, .wch, .pyu, .tkt, .rpu, .evu] s (s.takeMap l d f) := by
  have beam (u : State) (b : Bridge) (side : Side) : Reaches [.dsu, .wch, .pyu, .tkt, .rpu, .evu] u (u.rebeam s b side) := by
    unfold State.rebeam
    split
    · exact .refl _ _
    · exact .beamChange _ _ _ _ (by decide)
  have timers (u : State) (b : Bridge) : Reaches [.dsu, .wch, .pyu, .tkt, .rpu, .evu] u (u.restartFaultTimers b) :=
    .setBridge _ _ _ (by decide)
  unfold State.takeMap
  dsimp only
  refine .trans (.trans ?_ (timers _ _)) (timers _ _)
  have beams := fun u => (((beam u .b0 .entry).trans (beam _ .b0 .exit)).trans (beam _ .b1 .entry)).trans (beam _ .b1 .exit)
  split
  · exact (Reaches.withDecks s _ (by decide)).trans (beams _)
  · exact ((Reaches.withDecks s _ (by decide)).trans (beams _)).trans (.doorEvent _ _ (by decide))

theorem State.storeFromFinish_reaches (s : State) (plate : Text) (w : Weighing) : Reaches [.vtr] s (s.storeFromFinish plate w).1 := by
  unfold State.storeFromFinish
  dsimp only
  split
  · exact .refl _ _
  · exact .withTares _ _ (by decide)

theorem finishStored_reaches (s : State) (n : Nat) (t : Ticket) (c p : Option Text) :
    Reaches [.tkt, .vtr] s (Tickets.finishStored s n t c p).1 := by
  unfold Tickets.finishStored
  split
  · split
    · exact .refl _ _
    · split
      · exact .refl _ _
      · exact (Reaches.changeTicket _ _ _ (by decide)).trans (.withTares _ _ (by decide))
  · exact .refl _ _

theorem finishPlain_reaches (s : State) (n : Nat) (t : Ticket) (q c p : Option Text) :
    Reaches [.tkt, .vtr] s (Tickets.finishPlain s n t q c p).1 := by
  unfold Tickets.finishPlain
  dsimp only
  split
  · exact (Reaches.changeTicket _ _ _ (by decide)).trans ((State.storeFromFinish_reaches _ _ _).mono (by decide))
  · exact .changeTicket _ _ _ (by decide)

theorem Rule.reaches {r : Handler} {bs : List Block} (h : Rule r bs) (p : Port) (s : State) : Reaches bs s (r p s).1 := by
  have port (u : State) (x : PortState) : Reaches bs u (u.setPort p x) := .setPort _ _ _ _
  cases h with
  | badBody => exact .refl _ _
  | ident => exact .refl _ _
  | eventsFetch => cases p <;> constructor <;> simp [General.eventsFetch, done]
  | eventsMask m =>
    unfold General.eventsMask
    split
    · exact .refl _ _
    · cases p <;> constructor <;> simp [done]
  | linkCounters => exact port _ _
  | restart => exact .refl _ _
  | channelState n => exact withChannel_reaches n p s fun _ => .refl _ _
  | channelSet n x =>
    refine withChannel_reaches n p s fun ch => ?_
    unfold Weigh.channelSet
    dsimp only
    split
    · exact .refl _ _
    · split
      · exact .refl _ _
      · dsimp only [done]
        split
        · exact (Reaches.setChan _ _ _ (by decide)).trans (State.dropTares_reaches _ _ (by decide))
        · exact .setChan _ _ _ (by decide)
  | channelService n enter =>
    refine withChannel_reaches n p s fun ch => ?_
    unfold Weigh.service
    dsimp only
    split
    · split
      · exact .refl _ _
      · split
        · exact .refl _ _
        · exact (Reaches.wakePlatform _ _ (by decide)).trans (.enter _ _ _ _ (by decide))
    · split
      · exact .refl _ _
      · dsimp only [done]
        split
        · exact .enter _ _ _ _ (by decide)
        · exact .enterOff _ _ (by decide)
  | zero n =>
    refine withChannel_reaches n p s fun ch => ?_
    unfold Weigh.zero
    dsimp only
    repeat' split
    all_goals first
      | exact .refl _ _
      | exact (Reaches.setChan _ _ _ (by decide)).trans (.setDrift _ _ _ (by decide))
  | capture n t g w =>
    refine withChannel_reaches n p s fun ch => ?_
    unfold Weigh.capture
    split
    · exact .refl _ _
    · unfold State.startCapture
      dsimp only
      split
      · exact (Reaches.setChan _ _ _ (by decide)).trans (.setBridge _ _ _ (by decide))
      · exact .setChan _ _ _ (by decide)
  | captureAbort n =>
    refine withChannel_reaches n p s fun ch => ?_
    unfold Weigh.abort
    repeat' split
    all_goals first
      | exact .refl _ _
      | exact .endCapture _ _ _ _ _ (by decide)
  | outcomeFetch n =>
    unfold Weigh.fetch
    split
    · unfold Cash.outcomeFetch
      repeat' split
      all_goals first
        | exact .refl _ _
        | exact .withPayout _ _ (by decide)
    · refine withChannel_reaches n p s fun ch => ?_
      unfold Weigh.outcomeFetch
      dsimp only
      repeat' split
      all_goals first
        | exact .refl _ _
        | exact .setChan _ _ _ (by decide)
  | calibrateZero n =>
    refine withChannel_reaches n p s fun ch => ?_
    unfold Weigh.calibrateZero
    dsimp only
    repeat' split
    all_goals first
      | exact .refl _ _
      | exact (Reaches.setChan _ _ _ (by decide)).trans (.setDrift _ _ _ (by decide))
  | calibrateSpan n w =>
    refine withChannel_reaches n p s fun ch => ?_
    unfold Weigh.calibrateSpan
    dsimp only
    repeat' split
    all_goals first
      | exact .refl _ _
      | exact .setChan _ _ _ (by decide)
  | deckState => exact .refl _ _
  | lampPatternSet n steps tick pause =>
    unfold Deck.lampPatternSet
    split
    · exact .refl _ _
    · rw [done]
      exact {}
  | aspectSet rows stretch =>
    unfold Deck.aspectSet
    repeat' split
    all_goals first
      | exact .refl _ _
      | exact .withDecks _ _ (by decide)
  | lampOverride b x =>
    unfold Deck.lampOverride
    dsimp only
    repeat' split
    all_goals first
      | exact .refl _ _
      | exact .setBridge _ _ _ (by decide)
  | lineMapSet l d f =>
    unfold Lines.mapSet
    repeat' split
    · exact .refl _ _
    · exact .refl _ _
    · exact s.takeMap_reaches l d f
  | linesRead => exact .refl _ _
  | lineWrite n on =>
    unfold Lines.write
    repeat' split
    all_goals first
      | exact .refl _ _
      | exact .withDecks _ _ (by decide)
  | gradeSet =>
    unfold Grades.set
    split
    · exact .refl _ _
    · exact .withGrades _ _ (by decide)
  | gradeRead =>
    unfold Grades.read
    split <;> exact .refl _ _
  | priceSet =>
    unfold Grades.priceSet
    split
    · exact .refl _ _
    · exact .withGrades _ _ (by decide)
  | limitsSet =>
    unfold Grades.limitsSet
    split
    · exact .refl _ _
    · exact .withGrades _ _ (by decide)
  | tareStore =>
    unfold Tares.store
    dsimp only
    repeat' split
    all_goals first
      | exact .refl _ _
      | exact .withTares _ _ (by decide)
  | tareRead =>
    unfold Tares.read
    repeat' split
    all_goals exact .refl _ _
  | tareDelete =>
    unfold Tares.delete
    repeat' split
    all_goals first
      | exact .refl _ _
      | exact .withTares _ _ (by decide)
  | ticketOpen =>
    unfold Tickets.open_
    repeat' split
    all_goals first
      | exact .refl _ _
      | exact .withTickets _ _ (by decide)
  | ticketRead =>
    unfold Tickets.read
    repeat' split
    all_goals exact .refl _ _
  | ticketList => exact .refl _ _
  | lineGrade n =>
    refine withTicket_reaches n s fun t => ?_
    dsimp only
    repeat' split
    all_goals first
      | exact .refl _ _
      | exact .changeTicket _ _ _ (by decide)
  | lineDeduct n =>
    refine withTicket_reaches n s fun t => ?_
    dsimp only
    repeat' split
    all_goals first
      | exact .refl _ _
      | exact .changeTicket _ _ _ (by decide)
  | lineStrike n =>
    refine withTicket_reaches n s fun t => ?_
    dsimp only
    repeat' split
    all_goals first
      | exact .refl _ _
      | exact .changeTicket _ _ _ (by decide)
  | weighingStrike n =>
    refine withTicket_reaches n s fun t => ?_
    dsimp only
    repeat' split
    all_goals first
      | exact .refl _ _
      | exact .changeTicket _ _ _ (by decide)
  | ticketFinish n =>
    unfold Tickets.finish
    split
    · exact .refl _ _
    · refine withTicket_reaches n s fun t => ?_
      dsimp only
      repeat' split
      all_goals first
        | exact .refl _ _
        | exact finishStored_reaches _ _ _ _ _
        | exact finishPlain_reaches _ _ _ _ _ _
  | ticketReopen n =>
    refine withTicket_reaches n s fun t => ?_
    split
    · exact .changeTicket _ _ _ (by decide)
    · exact (Reaches.changeTicket _ _ _ (by decide)).trans (.withdrawSlips _ _ (by decide))
    · exact (Reaches.changeTicket _ _ _ (by decide)).trans (.withdrawSlips _ _ (by decide))
    · exact .refl _ _
  | ticketSettle n =>
    refine withTicket_reaches n s fun t => ?_
    dsimp only
    repeat' split
    all_goals first
      | exact .refl _ _
      | exact (Reaches.changeTicket _ _ _ (by decide)).trans (.pump _ (by decide))
  | ticketApprove n =>
    refine withTicket_reaches n s fun t => ?_
    dsimp only
    repeat' split
    all_goals first
      | exact .refl _ _
      | exact .changeTicket _ _ _ (by decide)
  | ticketClaim n =>
    refine withTicket_reaches n s fun t => ?_
    dsimp only
    repeat' split
    all_goals first
      | exact .refl _ _
      | exact .changeTicket _ _ _ (by decide)
  | ticketRelease n =>
    refine withTicket_reaches n s fun t => ?_
    dsimp only
    repeat' split
    all_goals first
      | exact .refl _ _
      | exact .changeTicket _ _ _ (by decide)
  | ticketVoid n =>
    refine withTicket_reaches n s fun t => ?_
    dsimp only
    repeat' split
    all_goals first
      | exact .refl _ _
      | exact (Reaches.changeTicket _ _ _ (by decide)).trans (.withdrawSlips _ _ (by decide))
  | ticketResolve n =>
    refine withTicket_reaches n s fun t => ?_
    dsimp only
    repeat' split
    all_goals first
      | exact .refl _ _
      | exact (Reaches.changeTicket _ _ _ (by decide)).trans (.pump _ (by decide))
  | storeLoad =>
    unfold Cash.storeLoad
    repeat' split
    all_goals first
      | exact .refl _ _
      | exact .withPayout _ _ (by decide)
  | storeEnable =>
    unfold Cash.storeEnable
    repeat' split
    all_goals first
      | exact .refl _ _
      | exact .withPayout _ _ (by decide)
  | storeRead => exact .refl _ _
  | payoutStart n =>
    refine withTicket_reaches n s fun t => ?_
    dsimp only
    split
    · exact .refl _ _
    · split
      · exact (Reaches.changeTicket _ _ _ (by decide)).trans (.pump _ (by decide))
      · split
        · exact .refl _ _
        · exact .refl _ _
        · exact (Reaches.changeTicket _ _ _ (by decide)).trans (.withPayout _ _ (by decide))
  | payoutCancel =>
    unfold Cash.payoutCancel
    dsimp only
    split
    · exact .refl _ _
    · split
      · exact .refl _ _
      · split
        · exact .refl _ _
        · split
          · exact .withPayout _ _ (by decide)
          · exact .done (.goOn _ _ (by decide))
  | logRead => exact .refl _ _
  | binEmpty =>
    unfold Cash.binEmpty
    split
    · exact .refl _ _
    · exact .withPayout _ _ (by decide)
  | dispenserClear =>
    unfold Cash.dispenserClear
    repeat' split
    all_goals first
      | exact .refl _ _
      | exact .withPayout _ _ (by decide)
  | receiptPrint =>
    unfold Print.receiptPrint
    dsimp only
    repeat' split
    all_goals first
      | exact .refl _ _
      | exact (Reaches.withPrinter _ _ (by decide)).trans (.startPrint _ (by decide))
  | printCancel =>
    unfold Print.cancel
    dsimp only
    split
    · exact .refl _ _
    · split
      · exact .refl _ _
      · exact (((Reaches.withPrinter s _ (by decide)).trans (.dischargeJob _ _ _ (by decide))).trans
          (.recordEnd _ _ _ (by decide))).trans (.pump _ (by decide))
  | printerState =>
    unfold Print.state
    dsimp only
    split <;> exact .refl _ _
  | headerSet =>
    unfold Print.headerSet
    split
    · exact .refl _ _
    · exact .withPrinter _ _ (by decide)
  | clockSet =>
    unfold Calendar.set
    split
    · exact .refl _ _
    · exact ((Reaches.withCalendar s _ (by decide)).trans (.latchBoth _ _ (by decide))).trans (.releaseCheck _ _ (by decide))
  | clockRead => exact .refl _ _
  | releaseHourSet =>
    unfold Calendar.releaseHourSet
    split
    · exact .refl _ _
    · exact .withCalendar _ _ (by decide)
  | alertRead => exact .refl _ _
  | alertSet => exact .withAlerts _ _ (by decide)
  | alertClear =>
    unfold Alert.clear
    dsimp only
    split
    · exact .refl _ _
    · exact .withAlerts _ _ (by decide)

end Sys2Proof.Machine
end

