-- ==== Sys2Proof/Proofs/Steps.lean ====
section
/-! PROOFS. What an event reaches, and the principle by which an invariant is kept by every step. -/

namespace Sys2Proof.Machine

theorem Event.reaches {f : State → State} {bs : List Block} (h : Event f bs) (s : State) : Reaches bs s (f s) := by
  cases h with
  | digitizerSample dig raw ok =>
    unfold Weigh.digitizerSample
    split
    · exact .sample _ _ _ _ (by decide)
    · split
      · exact .refl _ _
      · exact (Reaches.sample _ _ raw ok (by decide)).trans (.withChannels _ _ (by decide))
  | signalTimeout ch =>
    unfold Weigh.signalTimeout
    dsimp only
    split
    · exact .refl _ _
    · split
      · exact .enterFault _ _ (by decide)
      · exact .enterFault _ _ (by decide)
      · exact .setChan _ _ _ (by decide)
      · exact .refl _ _
  | attemptTimeout ch =>
    unfold Weigh.attemptTimeout
    dsimp only
    split
    · exact .refl _ _
    · split
      · exact .setChan _ _ _ (by decide)
      · exact .endCapture _ _ _ _ _ (by decide)
  | levelChange line drive =>
    unfold Lines.levelChange
    split
    · exact .refl _ _
    · exact .withDecks _ _ (by decide)
  | driveOnly line drive =>
    unfold Lines.driveOnly
    split
    · exact .refl _ _
    · exact .withDecks _ _ (by decide)
  | debounced line =>
    have role (u : State) (f : LineFunction) (active : Bool) :
        Reaches [.dsu, .wch, .pyu, .tkt, .rpu, .evu] u (u.roleChange f active) := by
      unfold State.roleChange
      split
      · exact .beamChange _ _ _ _ (by decide)
      · exact .doorEvent _ _ (by decide)
      · exact .latchBoth _ _ (by decide)
      · exact .refl _ _
    unfold Lines.debounced
    dsimp only
    split
    · exact .refl _ _
    · split
      · exact .refl _ _
      · exact (Reaches.withDecks _ _ (by decide)).trans (role _ _ _)
  | beamFaultTimeout b side =>
    unfold Deck.beamFaultExpiry
    dsimp only
    split
    · exact .refl _ _
    · split
      · exact .setBridge _ _ _ (by decide)
      · exact ((Reaches.setBridge _ _ _ (by decide)).trans (.setPosition _ _ _ (by decide))).trans
          (.endCapture _ _ _ _ _ (by decide))
  | stretchTimeout b => exact .setBridge _ _ _ (by decide)
  | overrideTimeout b =>
    unfold Deck.overrideExpiry
    dsimp only
    split
    · exact .setBridge _ _ _ (by decide)
    · exact .refl _ _
  | lampTick b side colour =>
    unfold Deck.tick
    dsimp only
    split
    · exact .refl _ _
    · cases b <;> exact {}
  | claimLapse n =>
    unfold Tickets.lapse
    split
    · exact .refl _ _
    · split
      · exact (Reaches.changeTicket _ _ _ (by decide)).trans (.latch _ _ _ (by decide))
      · exact .refl _ _
  | advance =>
    have second : Reaches [.clu, .tkt, .evu] s s.second := {}
    unfold State.advance
    dsimp only
    split
    · exact second
    · generalize h : (if s.second.clockStopped then s.second.latchBoth .clock else s.second) = s2
      have stopped : Reaches [.clu, .tkt, .evu] s s2 := by
        subst h
        split
        · exact second.trans (.latchBoth _ _ (by decide))
        · exact second
      split
      · exact stopped.trans (.releaseCheck _ _ (by decide))
      · exact stopped
  | second => exact {}
  | pieceOk =>
    unfold Cash.pieceOk
    dsimp only
    split
    · exact .refl _ _
    · exact (((Reaches.changeStore _ _ _ (by decide)).trans (.writePayout _ _ (by decide))).trans
        (.writePayout _ _ (by decide))).trans (.goOn _ _ (by decide))
  | pieceReject =>
    unfold Cash.pieceReject
    dsimp only
    split
    · exact .refl _ _
    · exact ((Reaches.changeStore _ _ _ (by decide)).trans (.writePayout _ _ (by decide))).trans (.goOn _ _ (by decide))
  | pickFail =>
    unfold Cash.pickFail
    dsimp only
    split
    · exact .refl _ _
    · exact ((Reaches.changeStore _ _ _ (by decide)).trans (.writePayout _ _ (by decide))).trans (.goOn _ _ (by decide))
  | presented =>
    unfold Cash.presented
    dsimp only
    split
    · exact (Reaches.withPayout s _ (by decide)).trans (.changeTicket _ _ _ (by decide))
    · exact .refl _ _
  | trayEmpty =>
    unfold Cash.trayEmpty
    split
    · exact .payoutEnd _ _ _ _ _ _ (by decide)
    · exact .refl _ _
  | takeTimeout =>
    unfold Cash.takeTimeout
    split
    · exact .withPayout _ _ (by decide)
    · exact .refl _ _
  | retracted k =>
    unfold Cash.retracted
    split
    · unfold State.retractEnds
      repeat' split
      all_goals exact .payoutEnd _ _ _ _ _ _ (by decide)
    · exact .recoveryEnds _ _ _ (by decide)
    · exact .refl _ _
  | jam =>
    unfold Cash.jam
    split
    · exact .payoutStops _ _ _ (by decide)
    · exact .payoutStops _ _ _ (by decide)
    · exact .payoutStops _ _ _ (by decide)
    · exact .payoutStops _ _ _ (by decide)
    · exact .operationEnds _ _ (by decide)
    · exact .recoveryEnds _ _ _ (by decide)
    · exact .refl _ _
  | ready =>
    unfold Cash.ready
    split
    · exact .recoveryEnds _ _ _ (by decide)
    · exact .refl _ _
  | dispenserAnswerTimeout =>
    unfold Cash.answerTimeout
    split
    · exact .refl _ _
    · exact .recoveryEnds _ _ _ (by decide)
    · exact .payoutStops _ _ _ (by decide)
    · exact .refl _ _
  | lineDone =>
    unfold Print.lineDone
    split
    · exact ((Reaches.withPrinter s _ (by decide)).trans (.resume _ (by decide))).trans (.notePrinter _ _ (by decide))
    · split
      · exact .withPrinter _ _ (by decide)
      · exact .refl _ _
  | cutDone =>
    have answered : Reaches [.rpu, .tkt, .evu] s s.cutAnswered := by
      unfold State.cutAnswered
      dsimp only
      split
      · exact (Reaches.withPrinter s _ (by decide)).trans (.startPrint _ (by decide))
      · split
        · exact .withPrinter s _ (by decide)
        · exact (((Reaches.withPrinter s _ (by decide)).trans (.dischargeJob _ _ _ (by decide))).trans
            (.recordEnd _ _ _ (by decide))).trans (.pump _ (by decide))
    unfold Print.cutDone
    split
    · exact ((Reaches.withPrinter s _ (by decide)).trans (.resume _ (by decide))).trans (.notePrinter _ _ (by decide))
    · split
      · exact answered
      · exact .refl _ _
  | paperLow =>
    exact (((Reaches.withPrinter s _ (by decide)).trans (.latchBoth _ _ (by decide))).trans (.resume _ (by decide))).trans
      (.notePrinter _ _ (by decide))
  | paperOut => exact (Reaches.withPrinter s _ (by decide)).trans (.notePrinter _ _ (by decide))
  | paperIn => exact ((Reaches.withPrinter s _ (by decide)).trans (.resume _ (by decide))).trans (.notePrinter _ _ (by decide))
  | coverOpen => exact (Reaches.withPrinter s _ (by decide)).trans (.notePrinter _ _ (by decide))
  | coverClosed => exact ((Reaches.withPrinter s _ (by decide)).trans (.resume _ (by decide))).trans (.notePrinter _ _ (by decide))
  | headHot => exact ((Reaches.withPrinter s _ (by decide)).trans (.resume _ (by decide))).trans (.notePrinter _ _ (by decide))
  | headCool => exact ((Reaches.withPrinter s _ (by decide)).trans (.resume _ (by decide))).trans (.notePrinter _ _ (by decide))
  | printerAnswerTimeout =>
    unfold Print.answerTimeout
    split
    · exact .refl _ _
    · exact (Reaches.withPrinter s _ (by decide)).trans (.notePrinter _ _ (by decide))

/-! What a step can do -/

/-- What a command may make of the part by the rules and the events, by port and alert, and by starts. -/
inductive Moves (s : State) : State → Prop where
  | refl : Moves s s
  | port {t : State} (h : Moves s t) (p : Port) (x : PortState) : Moves s (t.setPort p x)
  | rule {t : State} (h : Moves s t) {r : Handler} {bs : List Block} (hr : Rule r bs) (p : Port) : Moves s (r p t).1
  | event {t : State} (h : Moves s t) {f : State → State} {bs : List Block} (hf : Event f bs) : Moves s (f t)
  | alerts {t : State} (h : Moves s t) (before : State) : Moves s (t.beginAlerts before)
  | start {t : State} (h : Moves s t) (w : Start) : Moves s (t.startUp w)

namespace Moves

variable {s t : State}

theorem takeFrame (h : Moves s t) {r : Handler} {bs : List Block} (hr : Rule r bs) (src : Sender) (kind : Nat) :
    Moves s (t.takeFrame src kind r) := by
  have asked {u : State} (p : Port) (hu : Moves s u) : Moves s (u.dispatch p kind r) := by
    unfold State.dispatch
    dsimp only
    split
    · exact hu.port _ _
    · split
      · exact hu.port _ _
      · exact ((hu.rule hr p).alerts _).port _ _
  have group {u : State} (hu : Moves s u) : Moves s (u.dispatchGroup kind r) := by
    unfold State.dispatchGroup
    dsimp only
    split
    · exact hu.port _ _
    · split
      · exact hu.port _ _
      · exact (hu.rule hr .office).alerts _
  unfold State.takeFrame
  dsimp only
  have taken := h.port src.port { t.port src.port with rx := .hunting }
  split
  · exact h
  · split
    · exact taken.port _ _
    · split
      · exact group taken
      · exact asked _ taken
      · exact asked _ taken

theorem discard (h : Moves s t) (p : Port) (f : Counters → Counters) : Moves s (t.discard p f) := h.port _ _

theorem lengthError (h : Moves s t) (p : Port) (c : LineChar) : Moves s (t.lengthError p c) := by
  unfold State.lengthError
  dsimp only
  split
  · exact (h.discard p _).port _ _
  · exact h.discard p _

theorem receive (h : Moves s t) (p : Port) (c : LineChar) : Moves s (t.receive p c) := by
  unfold State.receive
  dsimp only
  split
  · exact h.lengthError p c
  · split
    · exact h.port _ _
    · exact h.port _ _
    · exact h.port _ _
    · exact h.port _ _
    · unfold State.complete
      split
      · exact h.discard p _
      · split
        · obtain ⟨bs, hr⟩ := handlerOf_rule _ _
          exact h.takeFrame hr _ _
        · exact h.discard p _

theorem answerSent (h : Moves s t) (p : Port) : Moves s (Links.answerSent p t) := by
  unfold Links.answerSent
  dsimp only
  split
  · exact h
  · split
    · exact (h.port _ _).start _
    · exact h.port _ _

/-- An event of a line, taken by a port that receives. -/
theorem onLine {p : Port} {f : State → State} (hf : Moves s (f s)) : Moves s (Links.onLine p f s) := by
  unfold Links.onLine
  split
  · exact hf
  · exact .refl

/-- A discarded frame, where one is to be discarded. -/
theorem discards (p : Port) (f : Counters → Counters) (b : Bool) : Moves s (if b then s.discard p f else s) := by
  split
  · exact Moves.refl.discard p f
  · exact .refl

end Moves

/-- What a command leaves of a state. -/
inductive Outcome (s : State) : State → Prop where
  | same : Outcome s s
  | concluded {u : State} (powered : s.powered = true) (h : Moves s u) : Outcome s (s.conclude u)
  | warmStart (powered : s.powered = true) : Outcome s (s.startUp warm)
  | coldStart (rv sv : Bool) (straps : Nat) : Outcome s (s.powerUp rv sv straps)
  | drive (unpowered : s.powered = false) (line : Nat) (drive : LineDrive) : Outcome s (Lines.driveOnly line drive s)
  | second (unpowered : s.powered = false) : Outcome s s.second
  | powerLoss : Outcome s { s with powered := false, outs := ⟨false, false⟩ }

theorem run_outcome {s t : State} {f : State → State} (hf : Moves s (f s)) (h : run f s = .next t) : Outcome s t := by
  cases h
  split
  · exact .concluded ‹_› hf
  · exact .same

theorem event_outcome {s t : State} {f : State → State} {bs : List Block} (hf : Event f bs) (h : run f s = .next t) : Outcome s t :=
  run_outcome (Moves.refl.event hf) h

theorem request_outcome {s t : State} {r : Handler} {bs : List Block} {src : Sender} {kind : Nat} (hr : Rule r bs)
    (h : request src kind r s = .next t) : Outcome s t :=
  run_outcome (f := fun s => s.takeFrame src kind r) (Moves.refl.takeFrame hr src kind) h

theorem State.tick_outcome (s : State) : Outcome s s.tick := by
  unfold State.tick
  split
  · exact .concluded ‹_› (Moves.refl.event .advance)
  · exact .second (eq_false_of_ne_true ‹_›)

/-- Every command leaves one of these. -/
theorem exec_outcome {c : Instr} {s t : State} (h : exec c s = .next t) : Outcome s t := by
  cases c
  case powerUp => cases h; exact .coldStart _ _ _
  case resetLine =>
    cases h
    split
    · exact .warmStart ‹_›
    · exact .same
  case mainPowerLoss => cases h; exact .powerLoss
  case inputLevelChange =>
    cases h
    split
    · exact .concluded ‹_› (Moves.refl.event (.levelChange _ _))
    · exact .drive (eq_false_of_ne_true ‹_›) _ _
  case clockTick => cases h; exact s.tick_outcome
  case clockStop =>
    cases h
    split
    · exact s.tick_outcome
    · exact .same
  case dailyRelease =>
    cases h
    split
    · exact s.tick_outcome
    · exact .same
  case frameCheckFailed p => exact run_outcome (.onLine (.discards p _ _)) h
  case characterError p => exact run_outcome (.onLine (.discards p _ _)) h
  case receiverOverrun p => exact run_outcome (.onLine (.discards p _ _)) h
  case frameGap p => exact run_outcome (.onLine (.discards p _ _)) h
  case frameWhileAnswering p => exact run_outcome (.onLine (.discards p _ _)) h
  case lineBreak p => exact run_outcome (.onLine (Moves.refl.discard p _)) h
  case lengthError p c =>
    refine run_outcome (.onLine ?_) h
    split
    · exact Moves.refl.lengthError p c
    · exact .refl
  case characterArriving p c => exact run_outcome (.onLine (Moves.refl.receive p c)) h
  case groupRequestDropped kind =>
    refine run_outcome (f := Links.groupDropped kind) ?_ h
    unfold Links.groupDropped
    split
    · exact .refl
    · exact Moves.refl.takeFrame .badBody _ _
  case unknownRequest src kind =>
    refine run_outcome (f := Links.unknown src kind) ?_ h
    unfold Links.unknown
    split
    · exact .refl
    · exact Moves.refl.takeFrame .badBody _ _
  case answerSent p => exact run_outcome (Moves.refl.answerSent p) h
  case digitizerSample | signalTimeout | attemptTimeout | debouncedChange | beamFaultTimeout | stretchTimeout | overrideTimeout
      | lampTick | claimLapse | pieceOk | pieceReject | pickFail | presented | trayEmpty | takeTimeout | retracted | jam | ready
      | dispenserAnswerTimeout | lineDone | cutDone | paperLow | paperOut | paperIn | coverOpen | coverClosed | headHot | headCool
      | printerAnswerTimeout =>
    exact event_outcome (by constructor) h
  all_goals exact request_outcome (by constructor) h

/-- A step leaves one of these of the state without the command at the front, or the part idles. -/
theorem step_outcome {s t : State} (h : step s = .next t) : ∃ q, Outcome (s.withPending q) t := by
  unfold step at h
  split at h
  · cases h
    exact ⟨s.pending, .same⟩
  · exact ⟨_, exec_outcome h⟩

/-! Invariants -/

/-- The blocks an operation may write and those an invariant reads have one in common. -/
def meets (bs B : List Block) : Bool := bs.any (B.contains ·)

theorem not_mem_of_meets {b : Block} {bs B : List Block} (h : meets bs B = false) (hb : b ∈ B) : b ∉ bs := fun hm => by
  simp only [meets, List.any_eq_false, List.contains_iff_mem] at h
  exact h b hm hb

/-- An invariant of the blocks `B` that the rules and the events which reach one of them keep, and every start of the part. -/
structure Kept (B : List Block) (I : State → Prop) : Prop where
  reads : ∀ {s t : State} {bs : List Block}, meets bs B = false → Reaches bs s t → I s → I t
  rule : ∀ {r bs}, Rule r bs → meets bs B = true → ∀ p s, I s → I (r p s).1
  event : ∀ {f bs}, Event f bs → meets bs B = true → ∀ s, I s → I (f s)
  start : ∀ s w, I s → I (s.startUp w)

namespace Kept

variable {B : List Block} {I : State → Prop} {s t : State}

theorem after_rule (k : Kept B I) {r : Handler} {bs : List Block} (h : Rule r bs) (p : Port) (hs : I s) : I (r p s).1 := by
  cases hm : meets bs B with
  | true => exact k.rule h hm p s hs
  | false => exact k.reads hm (h.reaches p s) hs

theorem after_event (k : Kept B I) {f : State → State} {bs : List Block} (h : Event f bs) (hs : I s) : I (f s) := by
  cases hm : meets bs B with
  | true => exact k.event h hm s hs
  | false => exact k.reads hm (h.reaches s) hs

/-- What reaches no block of the invariant keeps it. -/
theorem quiet (k : Kept B I) (h : Reaches [] s t) (hs : I s) : I t := k.reads (by rfl) h hs

theorem moves (k : Kept B I) (hB : meets [.evu] B = false) (h : Moves s t) (hs : I s) : I t := by
  induction h with
  | refl => exact hs
  | port _ p x ih => exact k.quiet (.setPort _ _ _ _) ih
  | rule _ hr p ih => exact k.after_rule hr p ih
  | event _ hf ih => exact k.after_event hf ih
  | alerts _ before ih => exact k.reads hB (.beginAlerts _ _ (by simp)) ih
  | start _ w ih => exact k.start _ w ih

/-- Every command keeps the invariant. -/
theorem outcome (k : Kept B I) (hB : meets [.evu, .power] B = false) (h : Outcome s t) (hs : I s) : I t := by
  have hE : meets [.evu] B = false := by simp_all [meets]
  have hP : meets [.power] B = false := by simp_all [meets]
  cases h with
  | same => exact hs
  | concluded _ h => exact k.reads hE (.conclude _ _ (by simp)) (k.moves hE h hs)
  | warmStart _ => exact k.start _ _ hs
  | coldStart rv sv n =>
    refine k.start _ _ (k.reads hP (s := s) ?_ hs)
    exact {}
  | drive _ line d => exact k.after_event (.driveOnly line d) hs
  | second _ => exact k.after_event .second hs
  | powerLoss =>
    refine k.reads hP (s := s) ?_ hs
    exact {}

/-- Every step keeps the invariant. -/
theorem step (k : Kept B I) (hB : meets [.evu, .power] B = false) (hs : I s) (h : Machine.step s = .next t) : I t := by
  obtain ⟨q, h⟩ := step_outcome h
  refine k.outcome hB h (k.quiet (t := s.withPending q) ?_ hs)
  exact {}

end Kept

end Sys2Proof.Machine
end

