-- ==== Sys2Proof/Proofs/PayoutUnit.lean ====
section
/-! PROOFS. What the operations of the payout unit leave of its record, said once, and the conservation of pieces (R125). -/

namespace Sys2Proof.Machine

/-! The end of an operation and of a payout -/

/-- The payout unit after the end of an operation in a state (R132, R151). -/
def Pyu.ended (u : Pyu) (d : DispenserSt) : Pyu :=
  if u.doorPending then { u with command := none, takeTimer := none, disp := .doorOpen, remembered := d, doorPending := false }
  else { u with command := none, takeTimer := none, disp := d }

/-- The retract log and the bin after the bundle of a payout has been drawn back, or not (R144). -/
def Pyu.drawing (u : Pyu) (p : Payout) (w : Option Drawn) (now : Stamp) : Pyu :=
  match w with
  | some x => if p.pieces = 0 then u.bank x.counted else (u.note (p.record x now)).bank x.counted
  | none => u

/-- The payout unit after the end of a recovery (R148 to R150, R154). -/
def Pyu.recovered (u : Pyu) (k : Nat) (d : DispenserSt) (now : Stamp) : Pyu :=
  match u.recovery with
  | none => u.ended d
  | some r =>
    { (if r.interrupted.isSome ∨ 0 < k then ((u.ended d).bank k).note (r.record k now) else (u.ended d).bank k) with recovery := none }

theorem State.operationEnds_pyu (s : State) (d : DispenserSt) : (s.operationEnds d).pyu = s.pyu.ended d := by
  unfold State.operationEnds Pyu.ended
  dsimp only
  split <;> split <;> simp

theorem State.markAlert_pyu (s : State) (src : AlertSource) : (s.markAlert src).pyu = s.pyu := by
  obtain ⟨e, h⟩ := s.markAlert_frame src
  rw [h]

theorem State.pump_pyu (s : State) : s.pump.pyu = s.pyu := by
  obtain ⟨r, k, e, h⟩ := s.pump_frame
  rw [h]

theorem State.changeTicket_pyu (s : State) (n : Nat) (f : Ticket → Ticket) : (s.changeTicket n f).pyu = s.pyu := by
  obtain ⟨k, h⟩ := s.changeTicket_frame n f
  rw [h]

theorem State.payoutEnd_pyu (s : State) (p : Payout) (x : PayoutResult) (c : PayoutEnd) (w : Option Drawn) (d : DispenserSt) :
    (s.payoutEnd p x c w d).pyu =
      { (s.pyu.ended d).drawing p w s.stamp with
        slot := some (p.port, p.outcome x c (s.cashOf p.ticket) s.stamp)
        payout := none } := by
  have ended : (((s.operationEnds d).changeTicket p.ticket fun t => t.payoutEnds p x c s.stamp).pump).pyu = s.pyu.ended d := by
    rw [State.pump_pyu, State.changeTicket_pyu, State.operationEnds_pyu]
  have told (u : State) : (match x with
      | .disputed => (u.latch p.port .payoutEnd).markAlert .dispute
      | .notPaid => if c = PayoutEnd.retracted then (u.latch p.port .payoutEnd).markAlert .retract else u.latch p.port .payoutEnd
      | .paid => u.latch p.port .payoutEnd).pyu = u.pyu := by
    cases x with
    | paid => exact State.latch_pyu _ _ _
    | disputed => exact (State.markAlert_pyu _ _).trans (State.latch_pyu _ _ _)
    | notPaid =>
      dsimp only
      split
      · exact (State.markAlert_pyu _ _).trans (State.latch_pyu _ _ _)
      · exact State.latch_pyu _ _ _
  refine (told _).trans ?_
  dsimp only
  rw [ended]
  cases w <;> rfl

theorem State.recoveryEnds_pyu (s : State) (k : Nat) (d : DispenserSt) :
    (s.recoveryEnds k d).pyu = s.pyu.recovered k d s.stamp := by
  unfold State.recoveryEnds Pyu.recovered
  dsimp only
  cases s.pyu.recovery with
  | none => exact s.operationEnds_pyu d
  | some r =>
    dsimp only
    split <;> simp only [State.markAlert_pyu, State.operationEnds_pyu]

/-! The ways of a payout, an operation and a door on -/

/-- How a payout stopped by a jam or by a missing answer ends, by the state it is in (R147). -/
theorem State.payoutStops_ends (s : State) (p : Payout) (c : PayoutEnd) :
    ∃ x w, x ≠ .paid ∧ s.payoutStops p c = s.payoutEnd p x c w .fault := by
  unfold State.payoutStops
  split
  · exact ⟨_, _, by decide, rfl⟩
  · split <;> exact ⟨_, _, by decide, rfl⟩
  · exact ⟨_, _, by decide, rfl⟩

/-- A payout goes on with a command in a state in which payouts are in flight, or it ends with an empty bundle (R136, R140, R146). -/
theorem State.goOn_cases (s : State) (p : Payout) :
    (∃ d c, d.paysOut = true ∧ s.goOn p = { s with pyu := { s.pyu with payout := some p, disp := d, command := some c } }) ∨
    (∃ c, s.goOn p = { s with pyu := { s.pyu with payout := some p, command := some c } }) ∨
    s.goOn p =
      State.payoutEnd { s with pyu := { s.pyu with payout := some p, command := none } } p .notPaid .cancelled none .idle := by
  unfold State.goOn
  dsimp only
  split
  · split
    · exact .inr (.inr rfl)
    · exact .inl ⟨.retracting, _, rfl, rfl⟩
  · split
    · exact .inr (.inl ⟨_, rfl⟩)
    · split
      · exact .inr (.inr rfl)
      · exact .inl ⟨.presenting, _, rfl, rfl⟩

/-! Conservation of a store (R125) -/

theorem Pyu.ended_stores (u : Pyu) (d : DispenserSt) : (u.ended d).stores = u.stores := by
  unfold Pyu.ended
  split <;> rfl

theorem Pyu.note_stores (u : Pyu) (r : RetractRecord) : (u.note r).stores = u.stores := by
  unfold Pyu.note
  split <;> rfl

theorem Pyu.drawing_stores (u : Pyu) (p : Payout) (w : Option Drawn) (now : Stamp) : (u.drawing p w now).stores = u.stores := by
  unfold Pyu.drawing Pyu.bank
  split
  · split
    · rfl
    · exact u.note_stores _
  · rfl

theorem State.payoutEnd_stores (s : State) (p : Payout) (x : PayoutResult) (c : PayoutEnd) (w : Option Drawn) (d : DispenserSt) :
    (s.payoutEnd p x c w d).pyu.stores = s.pyu.stores := by
  rw [State.payoutEnd_pyu]
  exact (Pyu.drawing_stores _ _ _ _).trans (Pyu.ended_stores _ _)

theorem State.payoutStops_stores (s : State) (p : Payout) (c : PayoutEnd) : (s.payoutStops p c).pyu.stores = s.pyu.stores := by
  obtain ⟨x, w, -, h⟩ := s.payoutStops_ends p c
  rw [h, State.payoutEnd_stores]

theorem State.operationEnds_stores (s : State) (d : DispenserSt) : (s.operationEnds d).pyu.stores = s.pyu.stores := by
  rw [State.operationEnds_pyu, Pyu.ended_stores]

theorem State.recoveryEnds_stores (s : State) (k : Nat) (d : DispenserSt) : (s.recoveryEnds k d).pyu.stores = s.pyu.stores := by
  rw [State.recoveryEnds_pyu]
  unfold Pyu.recovered
  split
  · exact Pyu.ended_stores _ _
  · dsimp only
    split
    · exact (Pyu.note_stores _ _).trans (Pyu.ended_stores _ _)
    · exact Pyu.ended_stores _ _

theorem State.goOn_stores (s : State) (p : Payout) : (s.goOn p).pyu.stores = s.pyu.stores := by
  rcases s.goOn_cases p with ⟨_, _, -, h⟩ | ⟨_, h⟩ | h
  · rw [h]
  · rw [h]
  · rw [h, State.payoutEnd_stores]

theorem State.writePayout_stores (s : State) (p : Payout) : (s.writePayout p).pyu.stores = s.pyu.stores := by
  rw [State.writePayout, State.changeTicket_pyu]

theorem State.doorEvent_stores (s : State) (opens : Bool) : (s.doorEvent opens).pyu.stores = s.pyu.stores := by
  unfold State.doorEvent
  split
  · unfold State.doorOpens
    dsimp only
    split
    · rw [State.payoutStops_stores]
    all_goals rfl
  · unfold State.doorCloses
    dsimp only
    split
    · split
      · rw [State.latchBoth_pyu]
      · rfl
    · rfl

/-- The new map of the lines reaches the payout unit by the cash door alone. -/
theorem State.takeMap_pyu (s : State) (l : List LineEntry) (d f : Nat) :
    ∃ u : State, u.pyu = s.pyu ∧ u.tkt = s.tkt ∧ u.rpu = s.rpu ∧ u.powered = s.powered ∧
      ((s.takeMap l d f).pyu = u.pyu ∧ (s.takeMap l d f).tkt = u.tkt ∧ (s.takeMap l d f).rpu = u.rpu ∨
        ∃ o, (s.takeMap l d f).pyu = (u.doorEvent o).pyu ∧ (s.takeMap l d f).tkt = (u.doorEvent o).tkt ∧
          (s.takeMap l d f).rpu = (u.doorEvent o).rpu) := by
  have beam (u : State) (b : Bridge) (side : Side) : Reaches [.dsu, .wch, .evu] u (u.rebeam s b side) := by
    unfold State.rebeam
    split
    · exact .refl _ _
    · exact .beamChange _ _ _ _ (by decide)
  have timer (u : State) (b : Bridge) : Reaches [.dsu, .wch, .evu] u (u.restartFaultTimers b) := .setBridge _ _ _ (by decide)
  have timers (u : State) := (timer u .b0).trans (timer _ .b1)
  unfold State.takeMap
  dsimp only
  generalize hu : State.rebeam _ s .b1 .exit = u
  have mapped : Reaches [.dsu, .wch, .evu] s u := by
    subst hu
    exact ((((Reaches.withDecks s _ (by decide)).trans (beam _ _ _)).trans (beam _ _ _)).trans (beam _ _ _)).trans (beam _ _ _)
  refine ⟨u, mapped.pyu (by decide), mapped.tkt (by decide), mapped.rpu (by decide), mapped.power (by decide), ?_⟩
  split
  · exact .inl ⟨(timers u).pyu (by decide), (timers u).tkt (by decide), (timers u).rpu (by decide)⟩
  · exact .inr ⟨_, (timers _).pyu (by decide), (timers _).tkt (by decide), (timers _).rpu (by decide)⟩

/-- A debounced change reaches the payout unit by the cash door alone. -/
theorem Lines.debounced_pyu (s : State) (line : Nat) :
    ∃ u : State, u.pyu = s.pyu ∧ u.tkt = s.tkt ∧ u.rpu = s.rpu ∧ u.powered = s.powered ∧
      ((Lines.debounced line s).pyu = u.pyu ∧ (Lines.debounced line s).tkt = u.tkt ∧ (Lines.debounced line s).rpu = u.rpu ∨
        ∃ o, (Lines.debounced line s).pyu = (u.doorEvent o).pyu ∧ (Lines.debounced line s).tkt = (u.doorEvent o).tkt ∧
          (Lines.debounced line s).rpu = (u.doorEvent o).rpu) := by
  have same : ∃ u : State, u.pyu = s.pyu ∧ u.tkt = s.tkt ∧ u.rpu = s.rpu ∧ u.powered = s.powered ∧
      (s.pyu = u.pyu ∧ s.tkt = u.tkt ∧ s.rpu = u.rpu ∨
        ∃ o, s.pyu = (u.doorEvent o).pyu ∧ s.tkt = (u.doorEvent o).tkt ∧ s.rpu = (u.doorEvent o).rpu) :=
    ⟨s, rfl, rfl, rfl, rfl, .inl ⟨rfl, rfl, rfl⟩⟩
  unfold Lines.debounced
  dsimp only
  split
  · exact same
  · split
    · exact same
    · generalize hu : s.setLine line _ = u
      have lined : Reaches [.dsu] s u := by
        subst hu
        exact .setLine _ _ _ (by decide)
      refine ⟨u, lined.pyu (by decide), lined.tkt (by decide), lined.rpu (by decide), lined.power (by decide), ?_⟩
      unfold State.roleChange
      split
      · have moved := fun b side blocked => Reaches.beamChange (bs := [.wch, .dsu, .evu]) u b side blocked (by decide)
        exact .inl ⟨(moved _ _ _).pyu (by decide), (moved _ _ _).tkt (by decide), (moved _ _ _).rpu (by decide)⟩
      · exact .inr ⟨_, rfl, rfl, rfl⟩
      · exact .inl ⟨by simp, by simp, by simp⟩
      · exact .inl ⟨rfl, rfl, rfl⟩

theorem Store.pieceOk_conserves {x : Store} (h : x.conserves) : x.pieceOk.conserves := by
  unfold Store.pieceOk Store.atCount
  split
  · exact h
  · simp only [Store.conserves] at h ⊢
    omega

theorem Store.pieceReject_conserves {x : Store} (h : x.conserves) : x.pieceReject.conserves := by
  unfold Store.pieceReject Store.atCount
  simp only [Store.conserves] at h ⊢
  split
  · exact h
  · split <;> (dsimp only; omega)

theorem Store.pickFail_conserves {x : Store} (h : x.conserves) : x.pickFail.conserves := by
  unfold Store.pickFail
  simp only [Store.conserves] at h ⊢
  omega

theorem storeOf?_conserves {load : Option StoreContents} {x : Store} (h : storeOf? load = some x) : x.conserves := by
  unfold storeOf? at h
  split at h
  · cases h
    rfl
  · split at h
    · cases h
    · split at h <;> cases h <;> simp [Store.conserves, loadedStore]

theorem Pyu.conserves_set {u : Pyu} {i : Nat} {y : Store} (h : u.conserves) (hy : y.conserves) :
    ({ u with stores := u.stores.set i y } : Pyu).conserves := fun x hx =>
  (List.mem_or_eq_of_mem_set hx).elim (h x) fun e => e ▸ hy

theorem State.changeStore_conserves {s : State} {i : Nat} {f : Store → Store} (h : s.pyu.conserves)
    (hf : ∀ x, x.conserves → (f x).conserves) : (s.changeStore i f).pyu.conserves := by
  unfold State.changeStore
  split
  · exact h
  · rename_i x hx
    have kept := Pyu.conserves_set (i := i) h (hf x (h x (List.mem_of_getElem? hx)))
    dsimp only
    split
    · rw [State.latchBoth_pyu]
      exact kept
    · exact kept

theorem Pyu.conserves_congr {u v : Pyu} (h : v.stores = u.stores) (hu : u.conserves) : v.conserves := by
  rw [Pyu.conserves, h]
  exact hu

/-! The starts of the part -/

theorem State.cleared_reaches_events (s : State) (w : Start) : Reaches [.evu, .wch, .dsu, .tkt, .rpu] (s.cleared w) (s.startUp w) := by
  have lossed (u : State) : Reaches [.evu, .wch, .dsu, .tkt, .rpu] u (u.latchLosses w) := by
    have kept : Reaches [.evu, .wch, .dsu, .tkt, .rpu] u
        (if w.retained then u else (u.latchBoth .retainLost).latchBoth .clock) := by
      split
      · exact .refl _ _
      · exact (Reaches.latchBoth _ _ (by decide)).trans (.latchBoth _ _ (by decide))
    unfold State.latchLosses
    dsimp only
    generalize (if w.retained then u else (u.latchBoth .retainLost).latchBoth .clock) = v at kept ⊢
    split
    · exact kept
    · exact kept.trans (.latchBoth _ _ (by decide))
  have channel (u : State) (ch : Channel) : Reaches [.evu, .wch, .dsu, .tkt, .rpu] u (u.startChannel ch) := by
    unfold State.startChannel
    dsimp only
    split
    · exact .enter _ _ _ _ (by decide)
    · exact .enterOff _ _ (by decide)
  have beam (u : State) (b : Bridge) (side : Side) : Reaches [.evu, .wch, .dsu, .tkt, .rpu] u (u.startBeam b side) := by
    unfold State.startBeam
    split
    · exact .beamChange _ _ _ _ (by decide)
    · exact .refl _ _
  have alert (u : State) (src : AlertSource) : Reaches [.evu, .wch, .dsu, .tkt, .rpu] u (u.startAlert src) := by
    unfold State.startAlert
    split
    · exact .markAlert _ _ (by decide)
    · exact .refl _ _
  have lamps (u : State) : Reaches [.evu, .wch, .dsu, .tkt, .rpu] u u.startLamps := by
    unfold State.startLamps
    exact {}
  unfold State.startUp
  dsimp only
  refine .trans (.trans (.trans ?_ (.pump _ (by decide))) (lamps _)) (.settle _ _)
  have channels := fun u => (((channel u .c0).trans (channel _ .c1)).trans (channel _ .c2)).trans (channel _ .c3)
  have beams := fun u => (((beam u .b0 .entry).trans (beam _ .b0 .exit)).trans (beam _ .b1 .entry)).trans (beam _ .b1 .exit)
  have alerts := fun u => ((alert u .cashDoor).trans (alert _ .cabinet)).trans (alert _ .calSwitch)
  have begun := (((lossed (s.cleared w)).trans (channels _)).trans (beams _)).trans (alerts _)
  split
  · refine .trans ?_ (.releaseCheck _ _ (by decide))
    split
    · exact begun.trans (.markAlert _ _ (by decide))
    · exact begun
  · split
    · exact begun.trans (.markAlert _ _ (by decide))
    · exact begun

theorem uncountedStores_conserve : ∀ x ∈ List.replicate 6 uncountedStore, x.conserves := by decide

theorem State.startUp_conserves {s : State} (w : Start) (h : s.pyu.conserves) : (s.startUp w).pyu.conserves := by
  rw [(s.cleared_reaches_events w).pyu (by decide)]
  unfold State.cleared Pyu.afterReset Start.ret
  dsimp only
  split
  · exact h
  · exact uncountedStores_conserve

/-- A fetched outcome empties its slot, and no other request of that kind has an effect (R209). -/
theorem Weigh.fetch_cases (n : Nat) (p : Port) (s : State) :
    (Weigh.fetch n p s).1 = s ∨ (Weigh.fetch n p s).1 = { s with pyu := { s.pyu with slot := none } } ∨
      ∃ ch, (s.chan ch).capture = none ∧ (Weigh.fetch n p s).1 = s.setChan ch { s.chan ch with slot := none } := by
  unfold Weigh.fetch
  split
  · unfold Cash.outcomeFetch
    dsimp only
    split
    · split
      · exact .inl rfl
      · exact .inr (.inl rfl)
    · exact .inl rfl
  · unfold withChannel
    split
    · exact .inl rfl
    · rename_i ch _
      unfold Weigh.outcomeFetch
      dsimp only
      split
      · exact .inl rfl
      · split
        · split
          · exact .inl rfl
          · rename_i hc
            exact .inr (.inr ⟨ch, by simpa using (not_or.mp hc).2, rfl⟩)
        · exact .inl rfl

/-- Settles O54: only the reports of a PICK and the requests on stores change a store, and each keeps the account of its pieces. -/
theorem stepsConserveStores : Obligations.StepsConserveStores := by
  have kept : Kept [.pyu] fun s => s.pyu.conserves :=
    { reads := fun hm hr h => by
        rw [hr.pyu (not_mem_of_meets hm (by simp))]
        exact h
      rule := fun {r bs} hr hm p s h => by
        cases hr <;> try exact absurd hm (by decide)
        case outcomeFetch n =>
          rcases Weigh.fetch_cases n p s with e | e | ⟨ch, -, e⟩
          · rw [e]
            exact h
          · rw [e]
            exact h
          · rw [e, State.setChan_pyu]
            exact h
        case lineMapSet l d f =>
          unfold Lines.mapSet
          repeat' split
          · exact h
          · exact h
          · obtain ⟨u, hu, -, -, -, ⟨e, -⟩ | ⟨o, e, -⟩⟩ := s.takeMap_pyu l d f
            · exact Pyu.conserves_congr (congrArg Pyu.stores (e.trans hu)) h
            · refine Pyu.conserves_congr ?_ h
              exact (congrArg Pyu.stores e).trans ((State.doorEvent_stores u o).trans (congrArg Pyu.stores hu))
        case storeLoad i x =>
          unfold Cash.storeLoad
          repeat' split
          · exact h
          · exact h
          · exact h
          · rename_i hx
            exact Pyu.conserves_set h (storeOf?_conserves hx)
        case storeEnable i on =>
          unfold Cash.storeEnable
          split
          · exact h
          · rename_i x hx
            split
            · exact h
            · split
              · exact h
              · exact Pyu.conserves_set h (y := { x with st := _ }) (h x (List.mem_of_getElem? hx))
        case payoutStart n part =>
          unfold Cash.payoutStart withTicket
          dsimp only
          repeat' split
          all_goals try exact h
          · dsimp only [done]
            rw [State.pump_pyu, State.changeTicket_pyu]
            exact h
          · dsimp only
            rw [State.changeTicket_pyu]
            exact h
        case payoutCancel =>
          unfold Cash.payoutCancel
          dsimp only
          repeat' split
          all_goals try exact h
          exact Pyu.conserves_congr (State.goOn_stores _ _) h
        case binEmpty =>
          unfold Cash.binEmpty
          split <;> exact h
        case dispenserClear =>
          unfold Cash.dispenserClear
          repeat' split
          all_goals exact h
      event := fun {f bs} hf hm s h => by
        cases hf <;> try exact absurd hm (by decide)
        case debounced line =>
          obtain ⟨u, hu, -, -, -, ⟨e, -⟩ | ⟨o, e, -⟩⟩ := Lines.debounced_pyu s line
          · exact Pyu.conserves_congr (congrArg Pyu.stores (e.trans hu)) h
          · refine Pyu.conserves_congr ?_ h
            exact (congrArg Pyu.stores e).trans ((State.doorEvent_stores u o).trans (congrArg Pyu.stores hu))
        case pieceOk =>
          unfold Cash.pieceOk
          dsimp only
          split
          · exact h
          · rename_i i _ _
            refine Pyu.conserves_congr ?_ (State.changeStore_conserves (i := i) h fun x => Store.pieceOk_conserves)
            rw [State.goOn_stores, State.writePayout_stores, State.writePayout_stores]
        case pieceReject =>
          unfold Cash.pieceReject
          dsimp only
          split
          · exact h
          · rename_i i _ _
            refine Pyu.conserves_congr ?_ (State.changeStore_conserves (i := i) h fun x => Store.pieceReject_conserves)
            rw [State.goOn_stores, State.writePayout_stores]
        case pickFail =>
          unfold Cash.pickFail
          dsimp only
          split
          · exact h
          · rename_i i _ _
            refine Pyu.conserves_congr ?_ (State.changeStore_conserves (i := i) h fun x => Store.pickFail_conserves)
            rw [State.goOn_stores, State.writePayout_stores]
        case presented =>
          unfold Cash.presented
          dsimp only
          split
          · rw [State.changeTicket_pyu]
            exact h
          · exact h
        case trayEmpty =>
          unfold Cash.trayEmpty
          split
          · exact Pyu.conserves_congr (State.payoutEnd_stores _ _ _ _ _ _) h
          · exact h
        case takeTimeout =>
          unfold Cash.takeTimeout
          split <;> exact h
        case retracted k =>
          unfold Cash.retracted State.retractEnds
          repeat' split
          all_goals first
            | exact h
            | exact Pyu.conserves_congr (State.payoutEnd_stores _ _ _ _ _ _) h
            | exact Pyu.conserves_congr (State.recoveryEnds_stores _ _ _) h
        case jam =>
          unfold Cash.jam
          split
          all_goals first
            | exact h
            | exact Pyu.conserves_congr (State.payoutStops_stores _ _ _) h
            | exact Pyu.conserves_congr (State.operationEnds_stores _ _) h
            | exact Pyu.conserves_congr (State.recoveryEnds_stores _ _ _) h
        case ready =>
          unfold Cash.ready
          split
          · exact Pyu.conserves_congr (State.recoveryEnds_stores _ _ _) h
          · exact h
        case dispenserAnswerTimeout =>
          unfold Cash.answerTimeout
          split
          all_goals first
            | exact h
            | exact Pyu.conserves_congr (State.payoutStops_stores _ _ _) h
            | exact Pyu.conserves_congr (State.recoveryEnds_stores _ _ _) h
      start := fun s w h => State.startUp_conserves w h }
  exact fun s t h ht => kept.step (by decide) h ht

end Sys2Proof.Machine
end

