-- ==== Sys2Proof/Proofs/Judged.lean ====
section
/-! PROOFS. Lamps and outputs are judged after every command (R38, R40, R43, R193, R194, R196). -/

namespace Sys2Proof.Machine

theorem Rule.keeps_power {r : Handler} {bs : List Block} (h : Rule r bs) : Block.power ∉ bs := by
  cases h <;> decide

theorem Event.keeps_power {f : State → State} {bs : List Block} (h : Event f bs) : Block.power ∉ bs := by
  cases h <;> decide

theorem State.startUp_powered (s : State) (w : Start) : (s.startUp w).powered = s.powered :=
  (s.cleared_reaches_events w).power (by decide)

theorem Moves.powered {s t : State} (h : Moves s t) : t.powered = s.powered := by
  induction h with
  | refl => rfl
  | port _ p x ih => rw [State.setPort_powered, ih]
  | rule _ hr p ih => rw [(hr.reaches p _).power hr.keeps_power, ih]
  | event _ hf ih => rw [(hf.reaches _).power hf.keeps_power, ih]
  | alerts _ before ih => rw [(Reaches.beginAlerts (bs := [.evu]) _ before (by decide)).power (by decide), ih]
  | start _ w ih => rw [State.startUp_powered, ih]

theorem State.settle_judged {s : State} (h : s.powered = true) : s.settle.judged :=
  (s.settle.judged_iff_settle h).mpr s.settle_settle

theorem State.judged_of_unpowered {s : State} (h : s.powered = false) : s.judged ↔ s.outs = ⟨false, false⟩ := by
  simp [State.judged, h]

theorem State.startUp_judged {s : State} (w : Start) (h : s.powered = true) : (s.startUp w).judged := by
  have hp : (s.startUp w).powered = true := (s.startUp_powered w).trans h
  unfold State.startUp at hp ⊢
  exact State.settle_judged hp

theorem Lines.driveOnly_judged {s : State} (h : s.powered = false) (line : Nat) (d : LineDrive) (hj : s.judged) :
    (Lines.driveOnly line d s).judged := by
  unfold Lines.driveOnly
  split
  · exact hj
  · exact (State.judged_of_unpowered h).mpr ((State.judged_of_unpowered h).mp hj)

theorem Outcome.judged {s t : State} (h : Outcome s t) (hs : s.judged) : t.judged := by
  cases h with
  | same => exact hs
  | @concluded u powered h =>
    exact State.settle_judged ((Reaches.beginAlerts (bs := [.evu]) u s (by decide)).power (by decide) |>.trans (h.powered.trans powered))
  | warmStart powered => exact State.startUp_judged _ powered
  | coldStart rv sv n => exact State.startUp_judged _ rfl
  | drive unpowered line d => exact Lines.driveOnly_judged unpowered line d hs
  | second unpowered => exact (State.judged_of_unpowered unpowered).mpr ((State.judged_of_unpowered unpowered).mp hs)
  | powerLoss => exact (State.judged_of_unpowered rfl).mpr rfl

/-- Settles O59: a part with power ends every command by judging lamps and outputs, and one without keeps both released. -/
theorem stepsKeepLampsAndOutputsJudged : Obligations.StepsKeepLampsAndOutputsJudged := by
  intro s t hs h
  obtain ⟨q, h⟩ := step_outcome h
  exact h.judged hs

end Sys2Proof.Machine
end

