-- ==== Sys2Proof/Proofs/FreeNumbers.lean ====
section
/-! PROOFS. A counter that wraps finds a number no record holds, and an id no job holds (R65, R160). -/

namespace Sys2Proof.Machine

/-- The number a counter from 1 to a top shows after some steps. -/
def walk (top n : Nat) : Nat → Nat
  | 0 => n
  | i + 1 => wrapping (walk top n i) 1 top

theorem walk_succ_left (top n i : Nat) : walk top (wrapping n 1 top) i = walk top n (i + 1) := by
  induction i with
  | zero => rfl
  | succ i ih => rw [walk, ih, walk, walk, walk]

theorem walk_eq {top n i : Nat} (hi : i ≤ top) : walk top n i = if i = 0 ∨ n + i ≤ top then n + i else i - (top - n) := by
  induction i with
  | zero => rfl
  | succ i ih =>
    rw [walk, ih (by omega), wrapping]
    split <;> split <;> split <;> omega

/-- Within one round no number comes twice. -/
theorem walk_injective {top n i j : Nat} (hij : i < j) (hj : j < top) : walk top n i ≠ walk top n j := by
  rw [walk_eq (by omega), walk_eq (by omega)]
  split <;> split <;> omega

/-- Fewer numbers held than steps taken leave one of the steps free. -/
theorem exists_walk_not_mem {top n k : Nat} {l : List Nat} (hl : l.length < k) (hk : k ≤ top) : ∃ i, i < k ∧ walk top n i ∉ l := by
  by_contra h
  have sub : (List.range k).map (walk top n) ⊆ l := fun x hx => by
    obtain ⟨i, hi, rfl⟩ := List.mem_map.mp hx
    by_contra hn
    exact h ⟨i, List.mem_range.mp hi, hn⟩
  have nodup : ((List.range k).map (walk top n)).Nodup := by
    refine List.Nodup.map_on (fun i hi j hj e => ?_) List.nodup_range
    have hi := List.mem_range.mp hi
    have hj := List.mem_range.mp hj
    rcases Nat.lt_trichotomy i j with h | h | h
    · exact absurd e (walk_injective h (by omega))
    · exact h
    · exact absurd e.symm (walk_injective h (by omega))
  have := (nodup.subperm sub).length_le
  simp at this
  omega

theorem freeNumber_eq_walk (l : List Ticket) (fuel n : Nat) :
    ∃ i, i ≤ fuel ∧ freeNumber l fuel n = walk 999999 n i ∧ (∀ j, j < i → walk 999999 n j ∈ l.map (·.number)) ∧
      (i = fuel ∨ walk 999999 n i ∉ l.map (·.number)) := by
  induction fuel generalizing n with
  | zero => exact ⟨0, le_rfl, rfl, by simp, .inl rfl⟩
  | succ fuel ih =>
    unfold freeNumber
    split
    · rename_i held
      obtain ⟨i, hi, e, before, last⟩ := ih (wrapping n 1 999999)
      simp only [walk_succ_left] at e before last
      refine ⟨i + 1, by omega, e, fun j hj => ?_, last.imp (by omega) id⟩
      cases j with
      | zero => simpa [walk] using held
      | succ j => exact before j (by omega)
    · rename_i free
      exact ⟨0, by omega, rfl, by simp, .inr (by simpa [walk] using free)⟩

/-- A table of at most 48 records leaves one of 49 numbers free, and the first of them is taken (R65). -/
theorem freeNumber_first {l : List Ticket} (hl : l.length ≤ 48) (n : Nat) :
    ∃ i, freeNumber l 49 n = walk 999999 n i ∧ (∀ j, j < i → walk 999999 n j ∈ l.map (·.number)) ∧
      freeNumber l 49 n ∉ l.map (·.number) := by
  obtain ⟨i, hi, e, before, last⟩ := freeNumber_eq_walk l 49 n
  refine ⟨i, e, before, ?_⟩
  rw [e]
  rcases last with rfl | h
  · obtain ⟨j, hj, free⟩ := exists_walk_not_mem (top := 999999) (n := n) (k := 49) (l := l.map (·.number)) (by simp; omega) (by omega)
    exact absurd (before j hj) free
  · exact h

theorem freeId_eq_walk (q : List Job) (fuel n : Nat) :
    ∃ i, i ≤ fuel ∧ freeId q fuel n = walk 255 n i ∧ (∀ j, j < i → walk 255 n j ∈ q.map (·.id)) ∧
      (i = fuel ∨ walk 255 n i ∉ q.map (·.id)) := by
  induction fuel generalizing n with
  | zero => exact ⟨0, le_rfl, rfl, by simp, .inl rfl⟩
  | succ fuel ih =>
    unfold freeId
    split
    · rename_i held
      obtain ⟨i, hi, e, before, last⟩ := ih (wrapping n 1 255)
      simp only [walk_succ_left] at e before last
      refine ⟨i + 1, by omega, e, fun j hj => ?_, last.imp (by omega) id⟩
      cases j with
      | zero => simpa [walk] using held
      | succ j => exact before j (by omega)
    · rename_i free
      exact ⟨0, by omega, rfl, by simp, .inr (by simpa [walk] using free)⟩

/-- A queue with room leaves one of 8 ids free, and the first of them is taken (R160). -/
theorem freeId_first {q : List Job} (hq : q.length < 8) (n : Nat) :
    ∃ i, freeId q 8 n = walk 255 n i ∧ (∀ j, j < i → walk 255 n j ∈ q.map (·.id)) ∧ freeId q 8 n ∉ q.map (·.id) := by
  obtain ⟨i, hi, e, before, last⟩ := freeId_eq_walk q 8 n
  refine ⟨i, e, before, ?_⟩
  rw [e]
  rcases last with rfl | h
  · obtain ⟨j, hj, free⟩ := exists_walk_not_mem (top := 255) (n := n) (k := 8) (l := q.map (·.id)) (by simp; omega) (by omega)
    exact absurd (before j hj) free
  · exact h

end Sys2Proof.Machine
end

