-- ==== Sys2Proof/Proofs/TableMoves.lean ====
section
/-! PROOFS. What an operation may do to the ticket table and to the print queue, said once for every rule and event: the few kinds of
change that the invariants of the table and of the queue are then checked against. -/

namespace Sys2Proof.Machine

/-! Changes of a record -/

/-- What a change may do to a record's state and claim. Only where `pays` holds may it enter or leave PAYING. -/
inductive Ticket.Turn (pays : Bool) (k : Tkt) (t u : Ticket) : Prop where
  | keeps (st : u.st = t.st ∨ t.underClaim = false ∧ u.underClaim = false) (claim : u.claim = t.claim) (lapse : u.lapse = t.lapse)
  | ends (paying : pays = true ∨ t.st ≠ .paying) (st : u.underClaim = false) (claim : u.claim = none) (lapse : u.lapse = none)
  | grants (c : Claim) (free : (k.tickets.any fun x => x.claimant == some c.port) = false) (settled : t.st = .settled)
    (st : u.st = .claimed) (claim : u.claim = some c)
  | starts (paying : pays = true) (claimed : t.st = .claimed) (st : u.st = .paying) (claim : u.claim = t.claim) (lapse : u.lapse = none)

/-- A change of a record: its place and number stay, and a settlement block stays, goes, or is a balanced one. -/
structure Ticket.Edit (pays : Bool) (k : Tkt) (t u : Ticket) : Prop where
  place : u.place = t.place
  number : u.number = t.number
  settlement : u.settlement = t.settlement ∨ u.settlement = none ∨ ∃ b, u.settlement = some b ∧ b.balances
  turn : t.Turn pays k u

/-- What one operation after the other may make of the ticket table. -/
inductive TableMove (pays : Bool) : Tkt → Tkt → Prop where
  | refl (k : Tkt) : TableMove pays k k
  | trans {a b c : Tkt} (h : TableMove pays a b) (g : TableMove pays b c) : TableMove pays a c
  | change {k : Tkt} {n : Nat} {t u : Ticket} (spent : List Nat) (found : k.tickets.find? (fun x => x.number == n) = some t)
    (e : t.Edit pays k u) : TableMove pays k { k with tickets := k.tickets.map fun x => if x.number = n then u else x, spent := spent }
  | release (k : Tkt) (d : Date) : TableMove pays k { k with tickets := k.tickets.map fun t => t.release d }
  | opens {s : State} {place : Nat} {k : Tkt} (h : s.openPlace? = some (place, k)) (kind : TicketKind) (c p : Option Text)
    (now : Stamp) : TableMove pays s.tkt (k.openIn place kind c p now)

namespace Ticket.Edit

variable {pays : Bool} {k : Tkt} {t u : Ticket}

theorem revised (h : t.Edit pays k u) : t.Edit pays k (t.revised u) := by
  unfold Ticket.revised
  split
  · rename_i e
    exact e ▸ h
  · obtain ⟨place, number, settlement, turn⟩ := h
    refine ⟨place, number, settlement, ?_⟩
    cases turn with
    | keeps st claim lapse => exact .keeps st claim lapse
    | ends paying st claim lapse => exact .ends paying st claim lapse
    | grants c free settled st claim => exact .grants c free settled st claim
    | starts paying claimed st claim lapse => exact .starts paying claimed st claim lapse

end Ticket.Edit

theorem State.changeTicket_move {pays : Bool} (s : State) (n : Nat) (f : Ticket → Ticket)
    (h : ∀ t, s.ticket? n = some t → t.Edit pays s.tkt (f t)) : TableMove pays s.tkt (s.changeTicket n f).tkt := by
  unfold State.changeTicket
  split
  · exact .refl _
  · rename_i t found
    exact .change _ found (h t found).revised

theorem TableMove.mono {k l : Tkt} {pays : Bool} (h : TableMove false k l) : TableMove pays k l := by
  induction h with
  | refl k => exact .refl k
  | trans _ _ ih1 ih2 => exact ih1.trans ih2
  | change spent found e =>
    obtain ⟨place, number, settlement, turn⟩ := e
    refine .change spent found ⟨place, number, settlement, ?_⟩
    cases turn with
    | keeps st claim lapse => exact .keeps st claim lapse
    | ends paying st claim lapse => exact .ends (.inr (paying.resolve_left Bool.false_ne_true)) st claim lapse
    | grants c free settled st claim => exact .grants c free settled st claim
    | starts paying => exact absurd paying Bool.false_ne_true
  | release k d => exact .release k d
  | opens h kind c p now => exact .opens h kind c p now

/-- A change that touches none of the fields the table's invariants speak of. -/
theorem Ticket.Edit.same {pays : Bool} {k : Tkt} {t u : Ticket} (place : u.place = t.place) (number : u.number = t.number)
    (settlement : u.settlement = t.settlement) (st : u.st = t.st) (claim : u.claim = t.claim) (lapse : u.lapse = t.lapse) :
    t.Edit pays k u := ⟨place, number, .inl settlement, .keeps (.inl st) claim lapse⟩

/-- A change between two states neither of which is CLAIMED or PAYING. -/
theorem Ticket.Edit.unclaimed {pays : Bool} {k : Tkt} {t u : Ticket} (place : u.place = t.place) (number : u.number = t.number)
    (settlement : u.settlement = t.settlement ∨ u.settlement = none ∨ ∃ b, u.settlement = some b ∧ b.balances)
    (before : t.underClaim = false) (after : u.underClaim = false) (claim : u.claim = t.claim) (lapse : u.lapse = t.lapse) :
    t.Edit pays k u := ⟨place, number, settlement, .keeps (.inr ⟨before, after⟩) claim lapse⟩

theorem Ticket.underClaim_of_st {t : Ticket} {st : TicketSt} (h : t.st = st) (hc : st ≠ .claimed := by decide)
    (hp : st ≠ .paying := by decide) : t.underClaim = false := by
  simp [Ticket.underClaim, h, hc, hp]

/-! Changes of the print queue -/

/-- What one operation after the other may make of the print unit. -/
inductive PrintMove : Rpu → Rpu → Prop where
  | trans {a b c : Rpu} (h : PrintMove a b) (g : PrintMove b c) : PrintMove a c
  | kept {r r' : Rpu} (queue : r'.queue = r.queue) (ended : r'.ended = r.ended) : PrintMove r r'
  | logs {r r' : Rpu} (queue : r'.queue = r.queue) (ended : ∃ e, r'.ended = keepLast 8 (r.ended ++ [e])) : PrintMove r r'
  | leaves {r r' : Rpu} (queue : r'.queue.Sublist r.queue) (ended : r'.ended = r.ended) : PrintMove r r'
  | joinsAuto (r : Rpu) (ref : TicketRef) (kind : JobKind) (label : Option CopyLabel) (room : r.queue.length < 8) :
    PrintMove r (r.join ref kind label .auto)
  | joinsPort (r : Rpu) (ref : TicketRef) (kind : JobKind) (label : Option CopyLabel) (p : Port) (room : r.queue.length < 8)
    (share : r.portJobs < 6) : PrintMove r (r.join ref kind label (.port p))
  | head {r r' : Rpu} {j j' : Job} {rest : List Job} (queue : r.queue = j :: rest) (queue' : r'.queue = j' :: rest) (id : j'.id = j.id)
    (source : j'.source = j.source) (ended : r'.ended = r.ended) : PrintMove r r'
  | marks {r r' : Rpu} (f : Job → Job) (queue : r'.queue = r.queue.map f) (id : ∀ j, (f j).id = j.id)
    (source : ∀ j, (f j).source = j.source) (st : ∀ j, (f j).st = j.st) (started : ∀ j, (f j).started = j.started)
    (ended : r'.ended = r.ended) : PrintMove r r'

theorem PrintMove.refl (r : Rpu) : PrintMove r r := .kept rfl rfl

theorem Rpu.mapHead_move (r : Rpu) {f : Job → Job} (id : ∀ j, (f j).id = j.id) (source : ∀ j, (f j).source = j.source) :
    PrintMove r (r.mapHead f) := by
  unfold Rpu.mapHead
  split
  · rename_i h
    exact .head h rfl (id _) (source _) rfl
  · exact .refl r

/-- What an operation may do to the ticket table and the print unit. -/
structure Works (pays : Bool) (s t : State) : Prop where
  table : TableMove pays s.tkt t.tkt
  printer : PrintMove s.rpu t.rpu

namespace Works

variable {pays : Bool} {s t u : State}

theorem refl (s : State) : Works pays s s := ⟨.refl _, .refl _⟩

theorem trans (h : Works pays s t) (g : Works pays t u) : Works pays s u := ⟨h.table.trans g.table, h.printer.trans g.printer⟩

theorem mono (h : Works false s t) : Works pays s t := ⟨h.table.mono, h.printer⟩

/-- An operation that writes neither block. -/
theorem aside (bs : List Block) (h : Reaches bs s t) (hb : Block.tkt ∉ bs ∧ Block.rpu ∉ bs := by decide) : Works pays s t :=
  ⟨h.tkt hb.1 ▸ .refl _, h.rpu hb.2 ▸ .refl _⟩

theorem changeTicket (s : State) (n : Nat) (f : Ticket → Ticket) (h : ∀ t, s.ticket? n = some t → t.Edit pays s.tkt (f t)) :
    Works pays s (s.changeTicket n f) :=
  ⟨s.changeTicket_move n f h, (Reaches.changeTicket (bs := [.tkt]) s n f (by decide)).rpu (by decide) ▸ .refl _⟩

theorem withPrinter (s : State) (r : Rpu) (h : PrintMove s.rpu r) : Works pays s { s with rpu := r } := ⟨.refl _, h⟩

/-! The print queue -/

theorem fillOne (h : s.fillOne = some t) : Works pays s t := by
  unfold State.fillOne at h
  split at h
  · cases h
  · split at h
    · cases h
    · split at h
      · cases h
      · cases h
        exact .withPrinter _ _ (.joinsAuto _ _ _ _ (by omega))

theorem fill (s : State) : Works pays s s.fill := by
  unfold State.fill
  generalize 8 = n
  induction n generalizing s with
  | zero => exact .refl s
  | succ n ih =>
    unfold fillUpTo
    split
    · exact (fillOne ‹_›).trans (ih _)
    · exact .refl s

theorem latch (s : State) (p : Port) (f : EventFlag) : Works pays s (s.latch p f) := .aside [.evu] (.latch _ _ _ (by decide))

theorem latchBoth (s : State) (f : EventFlag) : Works pays s (s.latchBoth f) := .aside [.evu] (.latchBoth _ _ (by decide))

theorem recordEnd (s : State) (j : Job) (x : JobEnd) : Works pays s (s.recordEnd j x) := by
  unfold State.recordEnd
  dsimp only
  split
  · refine (Works.withPrinter s _ (.logs ?_ ?_)).trans (.latchBoth _ _)
    exacts [rfl, ⟨_, rfl⟩]
  · refine (Works.withPrinter s _ (.logs ?_ ?_)).trans (.latch _ _ _)
    exacts [rfl, ⟨_, rfl⟩]

theorem dischargeJob (s : State) (j : Job) (c : Bool) : Works pays s (s.dischargeJob j c) := by
  unfold State.dischargeJob
  split
  · refine .changeTicket _ _ _ fun t _ => ?_
    by_cases closes : t.st = .paid ∧ j.kind = .payout ∧ (t.owed.lower j.kind s.stamp).copies = 0
    · refine .unclaimed rfl rfl (.inl rfl) (Ticket.underClaim_of_st closes.1) (Ticket.underClaim_of_st (st := .closed) ?_) rfl rfl
      simp [Ticket.discharge, closes.1, closes.2.1, closes.2.1 ▸ closes.2.2]
    · refine .same rfl rfl rfl ?_ rfl rfl
      simp [Ticket.discharge, closes]
  · exact .refl s

theorem firstStart (s : State) {j : Job} {rest : List Job} (t : Ticket) (h : s.rpu.queue = j :: rest) :
    Works pays s (s.firstStart j rest t) := by
  unfold State.firstStart
  dsimp only
  split
  · refine (Works.changeTicket s t.number (fun t => { t with reprints := saturating t.reprints 255 })
      fun u _ => .same rfl rfl rfl rfl rfl rfl).trans ?_
    have printer := (Reaches.changeTicket (bs := [.tkt]) s t.number (fun t => { t with reprints := saturating t.reprints 255 })
      (by decide)).rpu (by decide)
    refine .withPrinter _ _ (.head (j := j) (rest := rest) ?_ rfl rfl rfl rfl)
    rw [printer, h]
  · exact .withPrinter _ _ (.head h rfl rfl rfl rfl)

theorem startHead (n : Nat) (s : State) : Works pays s (startHead n s) := by
  induction n generalizing s with
  | zero => exact .refl s
  | succ n ih =>
    unfold Machine.startHead
    split
    · exact .refl s
    · rename_i j rest h
      split
      · split
        · exact .withPrinter _ _ (.head h rfl rfl rfl rfl)
        · split
          · exact .firstStart s _ h
          · have gone : Works pays s { s with rpu := { s.rpu with queue := rest } } :=
              .withPrinter s _ (.leaves (h ▸ List.sublist_cons_self _ _) rfl)
            exact ((gone.trans (recordEnd _ j .gone)).trans (fill _)).trans (ih _)
      · exact .refl s

theorem startPrint (s : State) : Works pays s s.startPrint := startHead 16 s

theorem pump (s : State) : Works pays s s.pump := (fill s).trans (startPrint _)

theorem withdrawSlips (s : State) (ref : TicketRef) : Works pays s (s.withdrawSlips ref) := by
  have ended (l : List Job) (u : State) : Works pays u (l.foldl (fun (t : State) (j : Job) => t.recordEnd j .withdrawn) u) := by
    induction l generalizing u with
    | nil => exact .refl u
    | cons j rest ih => exact (recordEnd u j .withdrawn).trans (ih _)
  unfold State.withdrawSlips
  refine ((Works.withPrinter s _ ?_).trans (ended _ _)).trans (pump _)
  refine .trans (b := { s.rpu with queue := s.rpu.queue.filter fun j => !(j.isSlipOf ref && !j.started) })
    (.leaves List.filter_sublist rfl)
    (.marks (fun j => if j.isSlipOf ref then { j with orphaned := true } else j) rfl ?_ ?_ ?_ ?_ rfl) <;>
  · intro j
    split <;> rfl

theorem resume (s : State) : Works pays s s.resume := by
  unfold State.resume
  refine .trans ?_ (startPrint _)
  split
  · exact .refl s
  · refine .withPrinter s _ (s.rpu.mapHead_move ?_ ?_) <;>
    · intro j
      unfold Job.unstall
      split <;> rfl

theorem notePrinter (s before : State) : Works pays s (s.notePrinter before) :=
  .aside [.evu] (.notePrinter _ _ (by decide))

/-! Samples, releases and payouts -/

theorem releaseCheck (s : State) (d : Date) : Works pays s (s.releaseCheck d) := by
  have released : Works pays s { s with tkt := { s.tkt with tickets := s.tkt.tickets.map fun t => t.release d } } :=
    ⟨.release _ d, .refl _⟩
  unfold State.releaseCheck
  dsimp only
  split
  · exact released
  · exact released.trans (.latchBoth _ _)

theorem handOver (s : State) (ref : Option TicketRef) (w : Weighing) (g : Option Nat) (tare : Int) :
    Works pays s (s.handOver ref w g tare).1 := by
  unfold State.handOver
  split
  · exact .refl s
  · rename_i r
    split
    · exact .refl s
    · rename_i t found
      split
      · rename_i applied
        refine .changeTicket s _ _ fun u hu => ?_
        obtain rfl : t = u := Option.some.inj (found.symm.trans hu)
        have open_ : t.st = .opened ∨ t.st = .weighing := by
          by_contra h
          simp_all [Ticket.application]
          split at applied <;> cases applied
        have before : t.underClaim = false := open_.elim (Ticket.underClaim_of_st ·) (Ticket.underClaim_of_st ·)
        unfold Ticket.apply
        split <;> exact .unclaimed rfl rfl (.inl rfl) before rfl rfl rfl
      · exact .refl s

theorem completeCapture (s : State) (ch : Channel) (k : Capture) : Works pays s (s.completeCapture ch k) := by
  have ends (u : State) (o : CaptureEnd) (w : Option Int) (a : Option Application) : Works pays u (u.endCapture ch o w a) :=
    .aside [.wch, .dsu, .evu] (.endCapture _ _ _ _ _ (by decide))
  unfold State.completeCapture
  dsimp only
  split
  · exact ends _ _ _ _
  · exact ends _ _ _ _
  · exact (handOver _ _ _ _ _).trans (ends _ _ _ _)

theorem testCapture (s : State) (ch : Channel) (raw : Int) : Works pays s (s.testCapture ch raw) := by
  have joined (c : ChannelState) : Works pays s (s.setChan ch c) := .aside [.wch] (.setChan _ _ _ (by decide))
  unfold State.testCapture
  dsimp only
  split
  · exact .refl s
  · split
    · exact (joined _).trans (completeCapture _ _ _)
    · exact joined _

theorem goodSample (s : State) (ch : Channel) (raw : Int) : Works pays s (s.goodSample ch raw) := by
  have counted (u : State) : Works pays u (u.countStarting ch) := by
    unfold State.countStarting
    dsimp only
    split
    · exact .aside [.wch] (.setChan _ _ _ (by decide))
    · exact .aside [.wch, .evu] (.enter _ _ _ _ (by decide))
  have judged : Works pays s (((s.setChan ch ((s.chan ch).convert raw)).endOutOfRange ch).decideOccupancy ch) :=
    .aside [.wch, .dsu, .evu]
      (((Reaches.setChan _ _ _ (by decide)).trans (.endOutOfRange _ _ (by decide))).trans (.decideOccupancy _ _ (by decide)))
  unfold State.goodSample
  dsimp only
  refine .trans ?_ (testCapture _ _ _)
  split
  · exact judged.trans (counted _)
  · exact judged.trans (.aside [.wch, .evu] (.track _ _ _ _ (by decide)))
  · exact judged

theorem sample (s : State) (ch : Channel) (raw : Int) (ok : Bool) : Works pays s (s.sample ch raw ok) := by
  have set (c : ChannelState) : Works pays s (s.setChan ch c) := .aside [.wch] (.setChan _ _ _ (by decide))
  unfold State.sample
  dsimp only
  split
  · exact .refl s
  · split
    · exact (Works.aside [.wch, .evu] (.enter _ _ _ _ (by decide))).trans (goodSample _ _ _)
    · exact .refl s
  · split
    · exact (set _).trans (goodSample _ _ _)
    · exact set _
  · split
    · exact (set _).trans (goodSample _ _ _)
    · exact .aside [.wch, .dsu, .evu] (.enterFault _ _ (by decide))

theorem payoutEnd (s : State) (p : Payout) (x : PayoutResult) (c : PayoutEnd) (w : Option Drawn) (d : DispenserSt) :
    Works true s (s.payoutEnd p x c w d) := by
  have ended : Works true s (((s.operationEnds d).changeTicket p.ticket fun t => t.payoutEnds p x c s.stamp).pump) := by
    refine .trans (.trans (.aside [.pyu, .evu] (.operationEnds _ _ (by decide))) (.changeTicket _ _ _ fun t _ => ?_)) (pump _)
    cases x <;> exact ⟨rfl, rfl, .inl rfl, .ends (.inl rfl) rfl rfl rfl⟩
  have left (u : Pyu) := ended.trans (.aside [.pyu, .evu]
    ((Reaches.withPayout _ u (by decide)).trans (.latch _ p.port .payoutEnd (by decide))))
  have told (u : Pyu) (src : AlertSource) := (left u).trans (.aside [.evu] (.markAlert _ src (by decide)))
  unfold State.payoutEnd
  dsimp only
  split
  · exact told _ _
  · split
    · exact told _ _
    · exact left _
  · exact left _

theorem payoutStops (s : State) (p : Payout) (c : PayoutEnd) : Works true s (s.payoutStops p c) := by
  obtain ⟨x, w, -, h⟩ := s.payoutStops_ends p c
  rw [h]
  exact payoutEnd _ _ _ _ _ _

theorem withPayout (s : State) (u : Pyu) : Works pays s { s with pyu := u } := ⟨.refl _, .refl _⟩

theorem goOn (s : State) (p : Payout) : Works true s (s.goOn p) := by
  rcases s.goOn_cases p with ⟨_, _, -, h⟩ | ⟨_, h⟩ | h
  · rw [h]
    exact .withPayout _ _
  · rw [h]
    exact .withPayout _ _
  · rw [h]
    exact (Works.withPayout s _).trans (payoutEnd _ _ _ _ _ _)

theorem sync (s : State) (p : Payout) : Works pays s (s.changeTicket p.ticket p.sync) :=
  .changeTicket _ _ _ fun _ _ => .same rfl rfl rfl rfl rfl rfl

theorem writePayout (s : State) (p : Payout) : Works pays s (s.writePayout p) := (Works.withPayout s _).trans (sync _ p)

theorem doorEvent (s : State) (opens : Bool) : Works true s (s.doorEvent opens) := by
  unfold State.doorEvent
  split
  · unfold State.doorOpens
    dsimp only
    split
    · exact (Works.withPayout s _).trans (payoutStops _ _ _)
    · exact .refl s
    all_goals exact .withPayout s _
  · unfold State.doorCloses
    dsimp only
    split
    · split
      · exact (Works.withPayout s _).trans (.latchBoth _ _)
      · exact .withPayout s _
    · exact .withPayout s _

/-- The door alone, of a state with the same table, queue and payout unit. -/
theorem of_door {u : State} (ht : u.tkt = s.tkt) (hr : u.rpu = s.rpu)
    (h : t.pyu = u.pyu ∧ t.tkt = u.tkt ∧ t.rpu = u.rpu ∨
      ∃ o, t.pyu = (u.doorEvent o).pyu ∧ t.tkt = (u.doorEvent o).tkt ∧ t.rpu = (u.doorEvent o).rpu) : Works true s t := by
  rcases h with ⟨-, kt, kr⟩ | ⟨o, -, kt, kr⟩
  · exact ⟨by rw [kt, ht]; exact .refl _, by rw [kr, hr]; exact .refl _⟩
  · have w := Works.doorEvent u o
    exact ⟨by rw [kt, ← ht]; exact w.table, by rw [kr, ← hr]; exact w.printer⟩

end Works

end Sys2Proof.Machine
end

