-- ==== Sys2Proof/Proofs/TableWork.lean ====
section
/-! PROOFS. Which of those changes every rule and every event makes, and what a reset does to the two blocks. -/

namespace Sys2Proof.Machine

theorem Works.done {pays : Bool} {s t : State} {data : List Field} (h : Works pays s t) : Works pays s (Machine.done t data).1 := h

theorem withTicket_works {pays : Bool} {k : Ticket → State × Reply} (n : Nat) (s : State)
    (h : ∀ t, s.ticket? n = some t → Works pays s (k t).1) : Works pays s (withTicket s n k).1 := by
  unfold withTicket
  split
  · exact .refl s
  · exact h _ ‹_›

/-- The change of a record a request has found. -/
theorem Works.changeFound {pays : Bool} {s : State} {n : Nat} {t : Ticket} {f : Ticket → Ticket} (found : s.ticket? n = some t)
    (h : t.Edit pays s.tkt (f t)) : Works pays s (s.changeTicket n f) :=
  .changeTicket s n f fun u hu => by
    obtain rfl := Option.some.inj (found.symm.trans hu)
    exact h

theorem State.settlementOf_balances (s : State) (t : Ticket) : (s.settlementOf t).balances := by
  refine ⟨cashSplit_balances _ _, ?_⟩
  unfold State.settlementOf
  dsimp only
  generalize s.amountSum t.lines - feeFor t.kind s.grt.limits.fee = a
  rcases Nat.lt_or_ge (usableLimit s.grt.limits) a with h | h
  · rw [cashSplit_of_usable_lt h]
    simp
  · rw [cashSplit_of_le_usable h]
    rcases Nat.eq_zero_or_pos s.grt.limits.unit with hu | hu
    · simp only [usableLimit, floorMultiple, hu, Nat.mul_zero] at h
      simp [nearestMultiple, hu, Nat.le_zero.mp h]
    · have upper := two_mul_nearestMultiple_le (n := a) (u := s.grt.limits.unit)
      have lower := lt_two_mul_nearestMultiple (n := a) hu
      dsimp only
      omega

/-- Neither CLAIMED nor PAYING. -/
theorem Ticket.underClaim_of_ne {t : Ticket} (hc : t.st ≠ .claimed) (hp : t.st ≠ .paying) : t.underClaim = false := by
  simp [Ticket.underClaim, hc, hp]

theorem finishStored_works {s : State} {n : Nat} {t : Ticket} (c p : Option Text) (found : s.ticket? n = some t)
    (st : t.st = .weighing) : Works false s (Tickets.finishStored s n t c p).1 := by
  unfold Tickets.finishStored
  split
  · split
    · exact .refl s
    · split
      · exact .refl s
      · exact (Works.changeFound found (.unclaimed rfl rfl (.inl rfl) (Ticket.underClaim_of_st st) rfl rfl rfl)).trans
          (.aside [.vtr] (.withTares _ _ (by decide)))
  · exact .refl s

theorem finishPlain_works {s : State} {n : Nat} {t : Ticket} (q c p : Option Text) (found : s.ticket? n = some t)
    (st : t.st = .weighing) : Works false s (Tickets.finishPlain s n t q c p).1 := by
  have finished : Works false s (s.changeTicket n fun t => t.finished c p []) :=
    .changeFound found (.unclaimed rfl rfl (.inl rfl) (Ticket.underClaim_of_st st) rfl rfl rfl)
  unfold Tickets.finishPlain
  dsimp only
  split
  · exact finished.trans (.aside [.vtr] (State.storeFromFinish_reaches _ _ _))
  · exact finished

theorem Rule.works {r : Handler} {bs : List Block} (h : Rule r bs) (p : Port) (s : State) :
    Works (bs.contains .pyu) s (r p s).1 := by
  have reach := h.reaches p s
  cases h <;> try exact .aside _ reach (by decide)
  case lineMapSet l d f =>
    unfold Lines.mapSet
    repeat' split
    · exact .refl s
    · exact .refl s
    · obtain ⟨u, -, ht, hr, -, h⟩ := s.takeMap_pyu l d f
      exact .of_door ht hr h
  case ticketOpen kind c pl =>
    unfold Tickets.open_
    repeat' split
    all_goals try exact .refl s
    rename_i h
    exact ⟨.opens h _ _ _ _, .refl _⟩
  case lineGrade n place code =>
    refine withTicket_works n s fun t found => ?_
    dsimp only
    repeat' split
    all_goals try exact .refl s
    exact .changeFound found (.same rfl rfl rfl rfl rfl rfl)
  case lineDeduct n place m =>
    refine withTicket_works n s fun t found => ?_
    dsimp only
    repeat' split
    all_goals try exact .refl s
    exact .changeFound found (.same rfl rfl rfl rfl rfl rfl)
  case lineStrike n place =>
    refine withTicket_works n s fun t found => ?_
    dsimp only
    repeat' split
    all_goals try exact .refl s
    exact .changeFound found (.same rfl rfl rfl rfl rfl rfl)
  case weighingStrike n =>
    refine withTicket_works n s fun t found => ?_
    dsimp only
    repeat' split
    all_goals try exact .refl s
    exact .changeFound found (.same rfl rfl rfl rfl rfl rfl)
  case ticketFinish n used stored c pl =>
    unfold Tickets.finish
    split
    · exact .refl s
    · refine withTicket_works n s fun t found => ?_
      dsimp only
      split
      · exact .refl s
      · split
        · exact .refl s
        · rename_i st
          repeat' split
          all_goals try exact .refl s
          · exact finishStored_works c _ found (not_not.mp st)
          all_goals exact finishPlain_works _ c _ found (not_not.mp st)
  case ticketReopen n =>
    refine withTicket_works n s fun t found => ?_
    split
    · rename_i st
      exact .changeFound found (.unclaimed rfl rfl (.inl rfl) (Ticket.underClaim_of_st st) rfl rfl rfl)
    · rename_i st
      exact (Works.changeFound found
        (.unclaimed rfl rfl (.inr (.inl rfl)) (Ticket.underClaim_of_st st) rfl rfl rfl)).trans (.withdrawSlips _ _)
    · rename_i st
      exact (Works.changeFound found
        (.unclaimed rfl rfl (.inr (.inl rfl)) (Ticket.underClaim_of_st st) rfl rfl rfl)).trans (.withdrawSlips _ _)
    · exact .refl s
  case ticketSettle n =>
    refine withTicket_works n s fun t found => ?_
    split
    · exact .refl s
    · rename_i st
      split
      · exact .refl s
      · refine (Works.changeFound found (.unclaimed rfl rfl (.inr (.inr ⟨_, rfl, s.settlementOf_balances t⟩))
          (Ticket.underClaim_of_st (not_not.mp st)) ?_ rfl rfl)).trans (.pump _)
        cases h : (s.settlementOf t).holdUntil <;> simp [State.settled, Ticket.underClaim, h]
  case ticketApprove n =>
    refine withTicket_works n s fun t found => ?_
    dsimp only
    split
    · exact .refl s
    · exact .changeFound found (.same rfl rfl rfl rfl rfl rfl)
  case ticketClaim n =>
    refine withTicket_works n s fun t found => ?_
    dsimp only
    split
    · exact .refl s
    · split
      · exact .refl s
      · rename_i free
        split
        · exact .refl s
        · split
          · exact .refl s
          · rename_i st
            split
            · exact .refl s
            · exact .changeFound found ⟨rfl, rfl, .inl rfl, .grants _ (by simpa [State.holdsClaim] using free) (not_not.mp st) rfl rfl⟩
  case ticketRelease n =>
    refine withTicket_works n s fun t found => ?_
    dsimp only
    split
    · exact .refl s
    · split
      · exact .refl s
      · exact .changeFound found ⟨rfl, rfl, .inl rfl, .ends (.inr ‹_›) rfl rfl rfl⟩
  case ticketVoid n =>
    refine withTicket_works n s fun t found => ?_
    dsimp only
    split
    · exact .refl s
    · split
      · exact .refl s
      · rename_i st
        refine (Works.changeFound found (.unclaimed rfl rfl (.inl rfl) (Ticket.underClaim_of_ne ?_ ?_) rfl rfl rfl)).trans
          (.withdrawSlips _ _) <;>
        · intro e
          cases p <;> simp [voidable, e] at st
  case ticketResolve n h =>
    refine withTicket_works n s fun t found => ?_
    dsimp only
    split
    · exact .refl s
    · rename_i st
      split
      · exact .refl s
      · refine (Works.changeFound found ⟨rfl, rfl, .inl rfl, .ends (.inr ?_) rfl rfl rfl⟩).trans (.pump _)
        rw [not_not.mp st]
        decide
  case payoutStart n part =>
    refine withTicket_works n s fun t found => ?_
    dsimp only
    split
    · exact .refl s
    · rename_i st
      split
      · exact (Works.changeFound found ⟨rfl, rfl, .inl rfl, .ends (.inl rfl) rfl rfl rfl⟩).trans (.pump _)
      · split
        · exact .refl s
        · exact .refl s
        · exact (Works.changeFound found
            ⟨rfl, rfl, .inl rfl, .starts rfl (not_not.mp (not_or.mp st).1) rfl rfl rfl⟩).trans (.withPayout _ _)
  case payoutCancel =>
    unfold Cash.payoutCancel
    dsimp only
    repeat' split
    all_goals try exact .refl s
    · exact .withPayout s _
    · exact .done (.goOn s _)
  case receiptPrint n form =>
    unfold Print.receiptPrint
    dsimp only
    split
    · exact .refl s
    · split
      · exact .refl s
      · split
        · exact .refl s
        · split
          · exact .refl s
          · rename_i room
            obtain ⟨h8, h6⟩ := not_or.mp room
            refine .done (.trans (.withPrinter s _ ?_) (.startPrint _))
            split <;> exact .joinsPort _ _ _ _ p (by omega) (by omega)
  case printCancel id =>
    have mechanism (r : Rpu) (j : Job) : PrintMove r (r.cancelMechanism j) := by
      unfold Rpu.cancelMechanism
      repeat' split
      all_goals exact .kept rfl rfl
    unfold Print.cancel
    dsimp only
    split
    · exact .refl s
    · split
      · exact .refl s
      · rename_i j _ _
        have left : Works false s
            { s with rpu := ({ s.rpu with queue := s.rpu.queue.filter fun x => x.id != id } : Rpu).cancelMechanism j } :=
          .withPrinter s _ (.trans (.leaves List.filter_sublist (by rfl)) (mechanism _ j))
        exact .done (((left.trans (.dischargeJob _ _ _)).trans (.recordEnd _ _ _)).trans (.pump _))
  case headerSet h1 h2 h3 b c =>
    unfold Print.headerSet
    split
    · exact .refl s
    · exact .withPrinter s _ (.kept rfl rfl)
  case clockSet t =>
    unfold Calendar.set
    split
    · exact .refl s
    · exact (Works.aside [.clu, .evu] ((Reaches.withCalendar s _ (by decide)).trans (.latchBoth _ _ (by decide)))).trans
        (.releaseCheck _ _)

theorem Event.works {f : State → State} {bs : List Block} (h : Event f bs) (s : State) : Works (bs.contains .pyu) s (f s) := by
  have reach := h.reaches s
  have heard (x : Rpu) (queue : x.queue = s.rpu.queue) (ended : x.ended = s.rpu.ended) : Works false s { s with rpu := x } :=
    .withPrinter s x (.kept queue ended)
  have report (x : Rpu) (h : PrintMove s.rpu x) : Works false s (({ s with rpu := x } : State).resume.notePrinter s) :=
    ((Works.withPrinter s x h).trans (.resume _)).trans (.notePrinter _ _)
  have head (r : Rpu) (hq : r.queue = s.rpu.queue) (he : r.ended = s.rpu.ended) {f : Job → Job} (hid : ∀ j, (f j).id = j.id)
      (hs : ∀ j, (f j).source = j.source) : PrintMove s.rpu (r.mapHead f) := .trans (.kept hq he) (r.mapHead_move hid hs)
  have stall (r : Rpu) (hq : r.queue = s.rpu.queue) (he : r.ended = s.rpu.ended) :
      Works false s (({ s with rpu := r.stall } : State).notePrinter s) := by
    refine (Works.withPrinter s _ (.trans (head r hq he (f := Job.stall) ?_ ?_) (.kept (by rfl) (by rfl)))).trans (.notePrinter _ _) <;>
    · intro j
      unfold Job.stall
      split <;> rfl
  cases h <;> try exact .aside _ reach (by decide)
  case digitizerSample dig raw ok =>
    unfold Weigh.digitizerSample
    split
    · exact .sample _ _ _ _
    · split
      · exact .refl s
      · exact (Works.sample s _ raw ok).trans (.aside [.wch] (.withChannels _ _ (by decide)))
  case debounced line =>
    obtain ⟨u, -, ht, hr, -, h⟩ := Lines.debounced_pyu s line
    exact .of_door ht hr h
  case claimLapse n =>
    unfold Tickets.lapse
    split
    · exact .refl s
    · rename_i t found
      split
      · rename_i st _ _
        refine (Works.changeFound found ⟨rfl, rfl, .inl rfl, .ends (.inr ?_) rfl rfl rfl⟩).trans (.latch _ _ _)
        rw [st]
        decide
      · exact .refl s
  case advance =>
    have second : Works false s s.second := .aside [.clu] (Event.second.reaches s)
    unfold State.advance
    dsimp only
    split
    · exact second
    · generalize h : (if s.second.clockStopped then s.second.latchBoth .clock else s.second) = s2
      have stopped : Works false s s2 := by
        subst h
        split
        · exact second.trans (.latchBoth _ _)
        · exact second
      split
      · exact stopped.trans (.releaseCheck _ _)
      · exact stopped
  case pieceOk =>
    unfold Cash.pieceOk
    dsimp only
    split
    · exact .refl s
    · exact (((Works.aside [.pyu, .evu] (.changeStore _ _ _ (by decide))).trans (.writePayout _ _)).trans (.writePayout _ _)).trans
        (.goOn _ _)
  case pieceReject =>
    unfold Cash.pieceReject
    dsimp only
    split
    · exact .refl s
    · exact ((Works.aside [.pyu, .evu] (.changeStore _ _ _ (by decide))).trans (.writePayout _ _)).trans (.goOn _ _)
  case pickFail =>
    unfold Cash.pickFail
    dsimp only
    split
    · exact .refl s
    · exact ((Works.aside [.pyu, .evu] (.changeStore _ _ _ (by decide))).trans (.writePayout _ _)).trans (.goOn _ _)
  case presented =>
    unfold Cash.presented
    dsimp only
    split
    · exact (Works.withPayout s _).trans (.changeTicket _ _ _ fun _ _ => .same rfl rfl rfl rfl rfl rfl)
    · exact .refl s
  case trayEmpty =>
    unfold Cash.trayEmpty
    split
    · exact .payoutEnd _ _ _ _ _ _
    · exact .refl s
  case retracted k =>
    unfold Cash.retracted
    split
    · unfold State.retractEnds
      repeat' split
      all_goals exact .payoutEnd _ _ _ _ _ _
    · exact .aside [.pyu, .evu] (.recoveryEnds _ _ _ (by decide))
    · exact .refl s
  case jam =>
    unfold Cash.jam
    split
    · exact .payoutStops _ _ _
    · exact .payoutStops _ _ _
    · exact .payoutStops _ _ _
    · exact .payoutStops _ _ _
    · exact .aside [.pyu, .evu] (.operationEnds _ _ (by decide))
    · exact .aside [.pyu, .evu] (.recoveryEnds _ _ _ (by decide))
    · exact .refl s
  case dispenserAnswerTimeout =>
    unfold Cash.answerTimeout
    split
    · exact .refl s
    · exact .aside [.pyu, .evu] (.recoveryEnds _ _ _ (by decide))
    · exact .payoutStops _ _ _
    · exact .refl s
  case lineDone =>
    unfold Print.lineDone
    split
    · exact report _ (.kept rfl rfl)
    · split
      · refine .withPrinter s _ ?_
        unfold Rpu.lineDone
        dsimp only
        split
        · exact .kept rfl rfl
        · split
          · exact .kept rfl rfl
          · rename_i j rest h
            have id : j.lineDone.id = j.id := by
              unfold Job.lineDone
              split <;> rfl
            have source : j.lineDone.source = j.source := by
              unfold Job.lineDone
              split <;> rfl
            repeat' split
            · exact .head h rfl id source rfl
            · exact .head h rfl id source rfl
            · exact .kept rfl rfl
      · exact .refl s
  case cutDone =>
    have answered : Works false s s.cutAnswered := by
      unfold State.cutAnswered
      dsimp only
      split
      · exact (heard _ (by rfl) (by rfl)).trans (.startPrint _)
      · split
        · exact heard _ rfl rfl
        · rename_i j rest h
          have left : Works false s { s with rpu := { s.rpu with command := none, cancelCut := .none, queue := rest } } :=
            .withPrinter s _ (.leaves (h ▸ List.sublist_cons_self _ _) rfl)
          exact ((left.trans (.dischargeJob _ _ _)).trans (.recordEnd _ _ _)).trans (.pump _)
    unfold Print.cutDone
    split
    · exact report _ (.kept rfl rfl)
    · split
      · exact answered
      · exact .refl s
  case paperLow => exact (((heard _ (by rfl) (by rfl)).trans (.latchBoth _ _)).trans (.resume _)).trans (.notePrinter _ _)
  case paperOut => exact stall _ rfl rfl
  case paperIn => exact report _ (.kept rfl rfl)
  case coverOpen => exact stall _ rfl rfl
  case coverClosed => exact report _ (.kept rfl rfl)
  case headHot =>
    refine report _ (head { s.rpu.heard with head := .hot } rfl rfl (f := Job.pause) ?_ ?_) <;>
    · intro j
      unfold Job.pause
      split <;> rfl
  case headCool =>
    refine report _ ?_
    split
    · exact .kept rfl rfl
    · unfold Rpu.cooled
      split
      · exact .kept rfl rfl
      · rename_i j rest h
        repeat' split
        · exact .head h rfl rfl rfl rfl
        · exact .head h rfl rfl rfl rfl
        · exact .kept rfl rfl
  case printerAnswerTimeout =>
    unfold Print.answerTimeout
    split
    · exact .refl s
    · refine (Works.withPrinter s _ (.trans (head s.rpu rfl rfl (f := Job.requeue) ?_ ?_) (.kept (by rfl) (by rfl)))).trans
        (.notePrinter _ _) <;>
      · intro j
        unfold Job.requeue
        split <;> rfl

end Sys2Proof.Machine
end

