-- ==== Sys2Proof/Proofs/TableKept.lean ====
section
/-! PROOFS. The invariants of the ticket table and of the print queue: places, numbers and claims (R61 to R65, R81, R82), settlement
blocks (R107), and the bounds of the queue (R160, R165). -/

namespace Sys2Proof.Machine

/-! A change of the one record that holds a number -/

/-- The record of a number stands alone, and a change replaces it in its place. -/
theorem replaced_split {l : List Ticket} {n : Nat} {t : Ticket} (u : Ticket) (nodup : (l.map (·.number)).Nodup)
    (found : l.find? (fun x => x.number == n) = some t) :
    ∃ l1 l2, l = l1 ++ t :: l2 ∧ t.number = n ∧ (l.map fun x => if x.number = n then u else x) = l1 ++ u :: l2 := by
  obtain ⟨hn, l1, l2, rfl, before⟩ := List.find?_eq_some_iff_append.mp found
  have hn : t.number = n := by simpa using hn
  have after : ∀ x ∈ l2, x.number ≠ n := by
    intro x hx e
    rw [List.map_append, List.map_cons, List.nodup_append] at nodup
    have := (List.nodup_cons.mp nodup.2.1).1
    exact this (List.mem_map.mpr ⟨x, hx, e.trans hn.symm⟩)
  refine ⟨l1, l2, rfl, hn, ?_⟩
  rw [List.map_append, List.map_cons, if_pos hn]
  congr 1
  · refine (List.map_congr_left fun x hx => if_neg ?_).trans (List.map_id _)
    simpa using before x hx
  · congr 1
    exact (List.map_congr_left fun x hx => if_neg (after x hx)).trans (List.map_id _)

/-! Places and numbers -/

theorem Tkt.placed_length {k : Tkt} (h : k.placed) : k.tickets.length ≤ 48 := by
  obtain ⟨range, places, -⟩ := h
  have sub : k.tickets.map (·.place) ⊆ (List.range 48).map (· + 1) := by
    intro x hx
    obtain ⟨t, ht, rfl⟩ := List.mem_map.mp hx
    obtain ⟨low, high⟩ := range t ht
    exact List.mem_map.mpr ⟨t.place - 1, List.mem_range.mpr (by omega), by omega⟩
  simpa using (places.subperm sub).length_le

theorem State.freePlace?_spec {s : State} {k : Nat} (h : s.freePlace? = some k) :
    (1 ≤ k ∧ k ≤ 48) ∧ ∀ t ∈ s.tkt.tickets, t.place ≠ k := by
  have inRange := List.mem_of_find?_eq_some h
  have free := List.find?_some h
  simp only [List.all_eq_true, bne_iff_ne] at free
  simp only [List.mem_map, List.mem_range] at inRange
  obtain ⟨i, hi, rfl⟩ := inRange
  exact ⟨⟨by omega, by omega⟩, free⟩

theorem State.oldestSpent?_spec {s : State} {t : Ticket} (h : s.oldestSpent? = some t) :
    t.isSpent = true ∧ s.ticket? t.number = some t := by
  obtain ⟨n, -, hn⟩ := List.exists_of_findSome?_eq_some h
  split at hn
  · rename_i u found
    split at hn
    · cases hn
      exact ⟨‹_›, by rw [s.ticket?_number n t found]; exact found⟩
    · cases hn
  · cases hn

theorem State.openPlace?_sublist {s : State} {place : Nat} {k : Tkt} (h : s.openPlace? = some (place, k)) :
    k.tickets.Sublist s.tkt.tickets := by
  unfold State.openPlace? at h
  split at h
  · cases h
    exact List.Sublist.refl _
  · split at h
    · cases h
      exact List.filter_sublist
    · cases h

/-- The place a TICKET OPEN takes is free of the records left, and only a spent record goes for it (R64). -/
theorem State.openPlace?_spec {s : State} {place : Nat} {k : Tkt} (h : s.openPlace? = some (place, k)) (hp : s.tkt.placed) :
    k.tickets.Sublist s.tkt.tickets ∧ (1 ≤ place ∧ place ≤ 48) ∧ (∀ t ∈ k.tickets, t.place ≠ place) ∧
      ∀ t ∈ s.tkt.tickets, t ∈ k.tickets ∨ t.isSpent = true := by
  unfold State.openPlace? at h
  split at h
  · rename_i n free
    cases h
    obtain ⟨range, free⟩ := State.freePlace?_spec free
    exact ⟨List.Sublist.refl _, range, free, fun t ht => .inl ht⟩
  · split at h
    · rename_i t oldest
      cases h
      obtain ⟨spent, found⟩ := State.oldestSpent?_spec oldest
      have ht := List.mem_of_find?_eq_some found
      refine ⟨List.filter_sublist, hp.1 t ht, fun x hx e => ?_, fun x hx => ?_⟩
      · obtain ⟨hx, hne⟩ := List.mem_filter.mp hx
        obtain rfl := List.inj_on_of_nodup_map hp.2.1 hx ht e
        simp at hne
      · by_cases e : x.number = t.number
        · obtain rfl := List.inj_on_of_nodup_map hp.2.2 hx ht e
          exact .inr spent
        · exact .inl (List.mem_filter.mpr ⟨hx, by simpa using e⟩)
    · cases h

theorem Tkt.openIn_placed {k : Tkt} {place : Nat} (hp : k.placed) (range : 1 ≤ place ∧ place ≤ 48)
    (free : ∀ t ∈ k.tickets, t.place ≠ place) (kind : TicketKind) (c p : Option Text) (now : Stamp) :
    (k.openIn place kind c p now).placed := by
  obtain ⟨-, -, -, fresh⟩ := freeNumber_first (Tkt.placed_length hp) k.counter
  obtain ⟨ranges, places, numbers⟩ := hp
  refine ⟨fun t ht => ?_, ?_, ?_⟩
  · rcases List.mem_append.mp ht with ht | ht
    · exact ranges t ht
    · rw [List.mem_singleton.mp ht]
      exact range
  · rw [Tkt.openIn, List.map_append, List.nodup_append]
    refine ⟨places, by simp, fun x hx y hy => ?_⟩
    obtain ⟨t, ht, rfl⟩ := List.mem_map.mp hx
    rw [List.mem_singleton.mp hy]
    exact free t ht
  · rw [Tkt.openIn, List.map_append, List.nodup_append]
    refine ⟨numbers, by simp, fun x hx y hy e => ?_⟩
    rw [List.mem_singleton.mp hy] at e
    refine fresh ?_
    rw [e] at hx
    exact hx

theorem Tkt.placed_of_sublist {k l : Tkt} (h : k.tickets.Sublist l.tickets) (hp : l.placed) : k.placed :=
  ⟨fun t ht => hp.1 t (h.subset ht), hp.2.1.sublist (h.map _), hp.2.2.sublist (h.map _)⟩

/-- A table whose records keep their places and numbers. -/
theorem Tkt.placed_map {k l : Tkt} {f : Ticket → Ticket} (h : l.tickets = k.tickets.map f) (place : ∀ t, (f t).place = t.place)
    (number : ∀ t, (f t).number = t.number) (hp : k.placed) : l.placed := by
  obtain ⟨ranges, places, numbers⟩ := hp
  have hplace : l.tickets.map (·.place) = k.tickets.map (·.place) := by simp [h, place]
  have hnumber : l.tickets.map (·.number) = k.tickets.map (·.number) := by simp [h, number]
  refine ⟨fun t ht => ?_, hplace ▸ places, hnumber ▸ numbers⟩
  rw [h] at ht
  obtain ⟨u, hu, rfl⟩ := List.mem_map.mp ht
  rw [place]
  exact ranges u hu

theorem Ticket.revised_eq (t u : Ticket) : ∃ r, t.revised u = { u with revision := r } := by
  unfold Ticket.revised
  split
  · rename_i e
    exact ⟨t.revision, by rw [e]⟩
  · exact ⟨_, rfl⟩

theorem Ticket.release_cases (t : Ticket) (d : Date) :
    t.release d = t ∨ t.st = .held ∧ ∃ r, t.release d = { t with st := .settled, revision := r } := by
  unfold Ticket.release
  split
  · rename_i due
    have held : t.st = .held := by
      unfold Ticket.due at due
      simp only [Bool.and_eq_true, beq_iff_eq] at due
      exact due.1
    obtain ⟨r, e⟩ := t.revised_eq { t with st := .settled }
    exact .inr ⟨held, r, e⟩
  · exact .inl rfl

theorem TableMove.placed {pays : Bool} {k l : Tkt} (h : TableMove pays k l) (hp : k.placed) : l.placed := by
  induction h with
  | refl => exact hp
  | trans _ _ ih1 ih2 => exact ih2 (ih1 hp)
  | @change k n t u spent found e =>
    obtain ⟨l1, l2, split, -, replaced⟩ := replaced_split u hp.2.2 found
    have places : (l1 ++ u :: l2).map (·.place) = k.tickets.map (·.place) := by simp [split, e.place]
    have numbers : (l1 ++ u :: l2).map (·.number) = k.tickets.map (·.number) := by simp [split, e.number]
    unfold Tkt.placed
    rw [replaced, places, numbers]
    refine ⟨fun x hx => ?_, hp.2⟩
    obtain ⟨y, hy, hxy⟩ := List.mem_map.mp (places ▸ List.mem_map_of_mem (f := fun t : Ticket => t.place) hx)
    rw [← hxy]
    exact hp.1 y hy
  | release k d =>
    refine Tkt.placed_map (f := fun t => t.release d) rfl ?_ ?_ hp <;>
    · intro t
      rcases t.release_cases d with e | ⟨-, r, e⟩ <;> rw [e]
  | opens h kind c p now =>
    obtain ⟨sub, range, free, -⟩ := State.openPlace?_spec h hp
    exact Tkt.openIn_placed (Tkt.placed_of_sublist sub hp) range free kind c p now

/-! Claims -/

/-- A record's claim agrees with its state (R81, R82). -/
abbrev Ticket.claimFits (t : Ticket) : Prop := t.claim.isSome = t.underClaim ∧ (t.lapse.isSome = true → t.st = .claimed)

/-- How many claims a port holds. -/
def claimsOf (p : Port) (l : List Ticket) : Nat := (l.filter fun t => t.claimant == some p).length

theorem Tkt.claimsSound_iff {k : Tkt} : k.claimsSound ↔ (∀ t ∈ k.tickets, t.claimFits) ∧ ∀ p, claimsOf p k.tickets ≤ 1 :=
  ⟨fun ⟨fits, office, window⟩ => ⟨fits, fun p => by cases p <;> assumption⟩,
    fun ⟨fits, ports⟩ => ⟨fits, ports .office, ports .window⟩⟩

theorem claimsOf_split (p : Port) (l1 l2 : List Ticket) (t : Ticket) :
    claimsOf p (l1 ++ t :: l2) = claimsOf p l1 + (if t.claimant = some p then 1 else 0) + claimsOf p l2 := by
  simp only [claimsOf, List.filter_append, List.length_append, List.filter_cons, beq_iff_eq]
  split
  · simp only [List.length_cons]
    omega
  · omega

theorem claimsOf_zero {p : Port} {l : List Ticket} (h : (l.any fun t => t.claimant == some p) = false) : claimsOf p l = 0 := by
  simpa [claimsOf] using h

theorem Ticket.Turn.claimFits {pays : Bool} {k : Tkt} {t u : Ticket} (h : t.Turn pays k u) (ht : t.claimFits) : u.claimFits := by
  obtain ⟨claim, timer⟩ := ht
  cases h with
  | keeps st hc hl =>
    rcases st with st | ⟨before, after⟩
    · exact ⟨by rw [hc, claim, Ticket.underClaim, Ticket.underClaim, st], fun h => st ▸ timer (hl ▸ h)⟩
    · refine ⟨by rw [hc, claim, before, after], fun h => ?_⟩
      rw [hl] at h
      simp [Ticket.underClaim, timer h] at before
  | ends _ st hc hl => exact ⟨by rw [hc, st]; rfl, fun h => by simp [hl] at h⟩
  | grants c _ _ st hc => exact ⟨by simp [hc, st, Ticket.underClaim], fun _ => st⟩
  | starts _ claimed st hc hl =>
    refine ⟨?_, fun h => by simp [hl] at h⟩
    rw [hc, claim]
    simp [Ticket.underClaim, claimed, st]

theorem TableMove.claimsSound {pays : Bool} {k l : Tkt} (h : TableMove pays k l) (hp : k.placed) (hc : k.claimsSound) :
    l.claimsSound := by
  induction h with
  | refl => exact hc
  | trans h1 _ ih1 ih2 => exact ih2 (h1.placed hp) (ih1 hp hc)
  | @change k n t u spent found e =>
    obtain ⟨l1, l2, split, -, replaced⟩ := replaced_split u hp.2.2 found
    obtain ⟨fits, ports⟩ := Tkt.claimsSound_iff.mp hc
    rw [split] at fits
    refine Tkt.claimsSound_iff.mpr ?_
    rw [replaced]
    refine ⟨fun x hx => ?_, fun p => ?_⟩
    · simp only [List.mem_append, List.mem_cons] at hx
      rcases hx with hx | rfl | hx
      · exact fits x (by simp [hx])
      · exact e.turn.claimFits (fits t (by simp))
      · exact fits x (by simp [hx])
    · have before := ports p
      rw [split, claimsOf_split] at before
      rw [claimsOf_split]
      cases e.turn with
      | keeps st hc hl => simpa [Ticket.claimant, hc] using before
      | ends _ st hc hl =>
        simp only [Ticket.claimant, hc, Option.map_none]
        simp
        omega
      | grants c free _ st hcl =>
        rw [Ticket.claimant, hcl, Option.map_some]
        by_cases e : c.port = p
        · have none := claimsOf_zero (e ▸ free)
          rw [split, claimsOf_split] at none
          split <;> omega
        · rw [if_neg (fun h => e (Option.some.inj h))]
          omega
      | starts _ _ st hc hl => simpa [Ticket.claimant, hc] using before
  | release k d =>
    obtain ⟨fits, ports⟩ := Tkt.claimsSound_iff.mp hc
    refine Tkt.claimsSound_iff.mpr ⟨fun x hx => ?_, fun p => ?_⟩
    · obtain ⟨t, ht, rfl⟩ := List.mem_map.mp hx
      have fit := fits t ht
      rcases t.release_cases d with e | ⟨held, r, e⟩
      · rw [e]
        exact fit
      · rw [e]
        obtain ⟨claim, timer⟩ := fit
        rw [Ticket.underClaim_of_st held] at claim
        exact ⟨claim, fun h => by simp [timer h] at held⟩
    · have same : ((fun t : Ticket => t.claimant == some p) ∘ fun t : Ticket => t.release d) = fun t => t.claimant == some p := by
        funext t
        rcases t.release_cases d with e | ⟨-, r, e⟩
        <;> simp [Ticket.claimant, e]
      have := ports p
      rw [claimsOf] at this
      rw [claimsOf, List.filter_map, List.length_map, same]
      exact this
  | @opens s place k h kind c p now =>
    obtain ⟨sub, -, -, -⟩ := State.openPlace?_spec h hp
    obtain ⟨fits, ports⟩ := Tkt.claimsSound_iff.mp hc
    refine Tkt.claimsSound_iff.mpr ⟨fun x hx => ?_, fun q => ?_⟩
    · rcases List.mem_append.mp hx with hx | hx
      · exact fits x (sub.subset hx)
      · rw [List.mem_singleton.mp hx]
        exact ⟨rfl, by simp [newTicket]⟩
    · have := (sub.filter fun t => t.claimant == some q).length_le
      have bound := ports q
      have none : (newTicket place (freeNumber k.tickets 49 k.counter) k.series k.opening kind c p now).claimant ≠ some q := by
        simp [newTicket, Ticket.claimant]
      rw [Tkt.openIn, claimsOf_split, if_neg none]
      exact this.trans bound

/-! Starts -/

theorem Works.start (s : State) (w : Start) : Works false (s.cleared w) (s.startUp w) := by
  have lossed (u : State) : Works false u (u.latchLosses w) := by
    have kept : Works false u (if w.retained then u else (u.latchBoth .retainLost).latchBoth .clock) := by
      split
      · exact .refl u
      · exact (Works.latchBoth _ _).trans (.latchBoth _ _)
    unfold State.latchLosses
    dsimp only
    generalize (if w.retained then u else (u.latchBoth .retainLost).latchBoth .clock) = v at kept ⊢
    split
    · exact kept
    · exact kept.trans (.latchBoth _ _)
  have channel (u : State) (ch : Channel) : Works false u (u.startChannel ch) := by
    unfold State.startChannel
    dsimp only
    split
    · exact .aside [.wch, .evu] (.enter _ _ _ _ (by decide))
    · exact .aside [.wch, .dsu, .evu] (.enterOff _ _ (by decide))
  have beam (u : State) (b : Bridge) (side : Side) : Works false u (u.startBeam b side) := by
    unfold State.startBeam
    split
    · exact .aside [.wch, .dsu, .evu] (.beamChange _ _ _ _ (by decide))
    · exact .refl u
  have mark (u : State) (src : AlertSource) : Works false u (u.markAlert src) := .aside [.evu] (.markAlert _ _ (by decide))
  have alert (u : State) (src : AlertSource) : Works false u (u.startAlert src) := by
    unfold State.startAlert
    split
    · exact mark _ _
    · exact .refl u
  have channels := fun u => (((channel u .c0).trans (channel _ .c1)).trans (channel _ .c2)).trans (channel _ .c3)
  have beams := fun u => (((beam u .b0 .entry).trans (beam _ .b0 .exit)).trans (beam _ .b1 .entry)).trans (beam _ .b1 .exit)
  have alerts := fun u => ((alert u .cashDoor).trans (alert _ .cabinet)).trans (alert _ .calSwitch)
  have begun := (((lossed (s.cleared w)).trans (channels _)).trans (beams _)).trans (alerts _)
  have lamps (u : State) : Works false u u.startLamps.settle := ⟨.refl _, .refl _⟩
  unfold State.startUp
  dsimp only
  refine .trans (.trans ?_ (.pump _)) (lamps _)
  split
  · refine .trans ?_ (.releaseCheck _ _)
    split
    · exact begun.trans (mark _ _)
    · exact begun
  · split
    · exact begun.trans (mark _ _)
    · exact begun

theorem State.cleared_tkt (s : State) (w : Start) : (s.cleared w).tkt = s.tkt.afterReset w s.pyu.reachedTray := rfl

/-- A record a reset keeps is in neither CLAIMED nor PAYING, and the rest of it stays (R92). -/
theorem Ticket.afterReset_cases (t : Ticket) (reached : Bool) :
    (t.underClaim = false ∧ t.afterReset reached = t) ∨
      (t.afterReset reached).underClaim = false ∧ (t.afterReset reached).claim = none ∧ (t.afterReset reached).lapse = none ∧
        (t.afterReset reached).place = t.place ∧ (t.afterReset reached).number = t.number ∧
          (t.afterReset reached).settlement = t.settlement := by
  unfold Ticket.afterReset
  split
  · obtain ⟨r, e⟩ := t.revised_eq t.unclaim
    rw [e]
    exact .inr ⟨rfl, rfl, rfl, rfl, rfl, rfl⟩
  · generalize h : ({ t with st := _, claim := none, lapse := none, payout := _ } : Ticket) = u
    obtain ⟨r, e⟩ := t.revised_eq u
    rw [e, ← h]
    cases reached <;> exact .inr ⟨rfl, rfl, rfl, rfl, rfl, rfl⟩
  · rename_i hc hp
    rw [t.revised_self]
    exact .inl ⟨Ticket.underClaim_of_ne hc hp, rfl⟩

theorem Ticket.afterReset_place (t : Ticket) (reached : Bool) : (t.afterReset reached).place = t.place := by
  rcases t.afterReset_cases reached with ⟨-, e⟩ | ⟨-, -, -, place, -, -⟩
  · rw [e]
  · exact place

theorem Ticket.afterReset_number (t : Ticket) (reached : Bool) : (t.afterReset reached).number = t.number := by
  rcases t.afterReset_cases reached with ⟨-, e⟩ | ⟨-, -, -, -, number, -⟩
  · rw [e]
  · exact number

theorem Tkt.afterReset_tickets (k : Tkt) (w : Start) (reached : Bool) :
    (k.afterReset w reached).tickets = [] ∨ (k.afterReset w reached).tickets = k.tickets.map fun t => t.afterReset reached := by
  unfold Tkt.afterReset Start.ret
  dsimp only
  split
  · exact .inr rfl
  · exact .inl rfl

theorem Tkt.afterReset_placed {k : Tkt} (w : Start) (reached : Bool) (hp : k.placed) : (k.afterReset w reached).placed := by
  rcases k.afterReset_tickets w reached with e | e
  · simp [Tkt.placed, e]
  · exact Tkt.placed_map e (fun t => t.afterReset_place reached) (fun t => t.afterReset_number reached) hp

theorem Tkt.afterReset_claimsSound {k : Tkt} (w : Start) (reached : Bool) (hc : k.claimsSound) :
    (k.afterReset w reached).claimsSound := by
  rcases k.afterReset_tickets w reached with e | e
  · simp [Tkt.claimsSound, e]
  · obtain ⟨fits, -⟩ := hc
    have free : ∀ x ∈ (k.afterReset w reached).tickets, x.claimFits ∧ x.claim = none := by
      intro x hx
      rw [e] at hx
      obtain ⟨t, ht, rfl⟩ := List.mem_map.mp hx
      have fit := fits t ht
      rcases t.afterReset_cases reached with ⟨idle, same⟩ | ⟨idle, claim, lapse, -, -, -⟩
      · rw [same]
        have none := fit.1.trans idle
        exact ⟨fit, by simpa using none⟩
      · exact ⟨⟨by rw [claim, idle]; rfl, fun h => by simp [lapse] at h⟩, claim⟩
    refine Tkt.claimsSound_iff.mpr ⟨fun x hx => (free x hx).1, fun p => ?_⟩
    have := claimsOf_zero (p := p) (l := (k.afterReset w reached).tickets) (by
      simp only [List.any_eq_false]
      intro x hx
      simp [Ticket.claimant, (free x hx).2])
    omega

/-- Settles O55: every change of the table keeps its places, numbers and claims, and a reset ends the claims. -/
theorem stepsKeepTicketTable : Obligations.StepsKeepTicketTable := by
  have kept : Kept [.tkt] fun s => s.tkt.placed ∧ s.tkt.claimsSound :=
    { reads := fun hm hr h => by
        rw [hr.tkt (not_mem_of_meets hm (by simp))]
        exact h
      rule := fun hr _ p s h => ⟨(hr.works p s).table.placed h.1, (hr.works p s).table.claimsSound h.1 h.2⟩
      event := fun hf _ s h => ⟨(hf.works s).table.placed h.1, (hf.works s).table.claimsSound h.1 h.2⟩
      start := fun s w h => by
        have move := (Works.start s w).table
        rw [State.cleared_tkt] at move
        have placed := Tkt.afterReset_placed w s.pyu.reachedTray h.1
        exact ⟨move.placed placed, move.claimsSound placed (Tkt.afterReset_claimsSound w _ h.2)⟩ }
  exact fun s t placed claims h => kept.step (by decide) ⟨placed, claims⟩ h

/-! Settlement blocks -/

theorem TableMove.balances {pays : Bool} {k l : Tkt} (h : TableMove pays k l) (hb : k.balances) : l.balances := by
  induction h with
  | refl => exact hb
  | trans _ _ ih1 ih2 => exact ih2 (ih1 hb)
  | @change k n t u spent found e =>
    intro x hx b hxb
    obtain ⟨y, hy, rfl⟩ := List.mem_map.mp hx
    by_cases hn : y.number = n
    · rw [if_pos hn] at hxb
      rcases e.settlement with same | none | ⟨c, some, balanced⟩
      · exact hb t (List.mem_of_find?_eq_some found) b (same ▸ hxb)
      · rw [none] at hxb
        cases hxb
      · rw [some] at hxb
        cases hxb
        exact balanced
    · rw [if_neg hn] at hxb
      exact hb y hy b hxb
  | release k d =>
    intro x hx b hxb
    obtain ⟨t, ht, rfl⟩ := List.mem_map.mp hx
    rcases t.release_cases d with e | ⟨-, r, e⟩ <;>
    · rw [e] at hxb
      exact hb t ht b hxb
  | @opens s place k h kind c p now =>
    intro x hx b hxb
    rcases List.mem_append.mp hx with hx | hx
    · exact hb x ((State.openPlace?_sublist h).subset hx) b hxb
    · rw [List.mem_singleton.mp hx] at hxb
      cases hxb

theorem Tkt.afterReset_balances {k : Tkt} (w : Start) (reached : Bool) (hb : k.balances) : (k.afterReset w reached).balances := by
  intro x hx b hxb
  rcases k.afterReset_tickets w reached with e | e
  · rw [e] at hx
    cases hx
  · rw [e] at hx
    obtain ⟨t, ht, rfl⟩ := List.mem_map.mp hx
    rcases t.afterReset_cases reached with ⟨-, same⟩ | ⟨-, -, -, -, -, settlement⟩
    · exact hb t ht b (same ▸ hxb)
    · exact hb t ht b (settlement ▸ hxb)

/-- Settles O60: a settlement is written by TICKET SETTLE alone, whose cash split balances. -/
theorem stepsKeepSettlementsBalanced : Obligations.StepsKeepSettlementsBalanced := by
  have kept : Kept [.tkt] fun s => s.tkt.balances :=
    { reads := fun hm hr h => by
        rw [hr.tkt (not_mem_of_meets hm (by simp))]
        exact h
      rule := fun hr _ p s h => (hr.works p s).table.balances h
      event := fun hf _ s h => (hf.works s).table.balances h
      start := fun s w h => (Works.start s w).table.balances (Tkt.afterReset_balances w _ h) }
  exact fun s t hb h => kept.step (by decide) hb h

/-! The print queue -/

theorem keepLast_length {α : Type} (n : Nat) (l : List α) : (keepLast n l).length ≤ n := by
  simp only [keepLast, List.length_drop]
  omega

theorem Rpu.queueSound_congr {r r' : Rpu} (ids : r'.queue.map (·.id) = r.queue.map (·.id))
    (sources : r'.queue.map (·.source) = r.queue.map (·.source)) (ended : r'.ended = r.ended) (h : r.queueSound) : r'.queueSound := by
  have length : r'.queue.length = r.queue.length := by simpa using congrArg List.length ids
  have ports : r'.portJobs = r.portJobs := by
    have count (x : Rpu) : x.portJobs = ((x.queue.map (·.source)).filter (· != .auto)).length := by
      simp only [Rpu.portJobs, List.filter_map, List.length_map]
      rfl
    rw [count, count, sources]
  unfold Rpu.queueSound
  rw [length, ports, ids, ended]
  exact h

/-- A job joins under an id no job holds (R160). -/
theorem Rpu.join_ids {r : Rpu} (room : r.queue.length < 8) (ids : (r.queue.map (·.id)).Nodup) (ref : TicketRef) (kind : JobKind)
    (label : Option CopyLabel) (src : JobSource) : ((r.join ref kind label src).queue.map (·.id)).Nodup := by
  obtain ⟨-, -, -, free⟩ := freeId_first room r.nextId
  simp only [Rpu.join, List.map_append, List.nodup_append]
  refine ⟨ids, by simp, fun x hx y hy e => free ?_⟩
  have hy : y = freeId r.queue 8 r.nextId := by simpa using hy
  rw [← hy, ← e]
  exact hx

theorem PrintMove.queueSound {r r' : Rpu} (h : PrintMove r r') (hs : r.queueSound) : r'.queueSound := by
  induction h with
  | trans _ _ ih1 ih2 => exact ih2 (ih1 hs)
  | kept queue ended => exact Rpu.queueSound_congr (by rw [queue]) (by rw [queue]) ended hs
  | logs queue ended =>
    obtain ⟨e, ended⟩ := ended
    obtain ⟨length, ports, ids, -⟩ := hs
    unfold Rpu.queueSound Rpu.portJobs
    rw [queue, ended]
    exact ⟨length, ports, ids, keepLast_length _ _⟩
  | leaves queue ended =>
    obtain ⟨length, ports, ids, logged⟩ := hs
    exact ⟨queue.length_le.trans length, ((queue.filter _).length_le).trans ports, ids.sublist (queue.map _), ended ▸ logged⟩
  | joinsAuto r ref kind label room =>
    obtain ⟨length, ports, ids, logged⟩ := hs
    refine ⟨by simpa [Rpu.join] using room, ?_, ?_, logged⟩
    · simpa [Rpu.portJobs, Rpu.join, List.filter_append] using ports
    · exact Rpu.join_ids room ids ref kind label _
  | joinsPort r ref kind label p room share =>
    obtain ⟨length, ports, ids, logged⟩ := hs
    refine ⟨by simpa [Rpu.join] using room, ?_, ?_, logged⟩
    · simpa [Rpu.portJobs, Rpu.join, List.filter_append] using share
    · exact Rpu.join_ids room ids ref kind label _
  | head queue queue' id source ended =>
    exact Rpu.queueSound_congr (by rw [queue, queue']; simp [id]) (by rw [queue, queue']; simp [source]) ended hs
  | marks f queue id source st started ended =>
    exact Rpu.queueSound_congr (by rw [queue]; simp [id]) (by rw [queue]; simp [source]) ended hs

theorem PrintMove.headAlone {r r' : Rpu} (h : PrintMove r r') (hs : r.headAlone) : r'.headAlone := by
  have joined (r : Rpu) (ref : TicketRef) (kind : JobKind) (label : Option CopyLabel) (src : JobSource) (hs : r.headAlone) :
      (r.join ref kind label src).headAlone := by
    unfold Rpu.headAlone Rpu.join
    intro j hj
    dsimp only at hj
    rw [List.drop_append] at hj
    rcases List.mem_append.mp hj with hj | hj
    · exact hs j hj
    · rw [List.mem_singleton.mp (List.mem_of_mem_drop hj)]
      exact ⟨rfl, rfl⟩
  induction h with
  | trans _ _ ih1 ih2 => exact ih2 (ih1 hs)
  | kept queue _ => exact fun j hj => hs j (queue ▸ hj)
  | logs queue _ => exact fun j hj => hs j (queue ▸ hj)
  | leaves queue _ =>
    intro j hj
    have := queue.tail
    rw [← List.drop_one, ← List.drop_one] at this
    exact hs j (this.subset hj)
  | joinsAuto r ref kind label _ => exact joined r ref kind label .auto hs
  | joinsPort r ref kind label p _ _ => exact joined r ref kind label (.port p) hs
  | head queue queue' _ _ _ =>
    rw [Rpu.headAlone_cons queue] at hs
    exact (Rpu.headAlone_cons queue').mpr hs
  | marks f queue _ _ st started _ =>
    intro j hj
    rw [queue, ← List.map_drop] at hj
    obtain ⟨x, hx, rfl⟩ := List.mem_map.mp hj
    rw [st, started]
    exact hs x hx

/-- Settles O57: jobs join at the tail while there is room, and only the head changes. -/
theorem stepsKeepQueueSound : Obligations.StepsKeepQueueSound := by
  have kept (I : Rpu → Prop) (moved : ∀ {r r'}, PrintMove r r' → I r → I r') (idle : ∀ (r : Rpu) w, I (r.afterReset w)) :
      Kept [.rpu] fun s => I s.rpu :=
    { reads := fun hm hr h => by
        rw [hr.rpu (not_mem_of_meets hm (by simp))]
        exact h
      rule := fun hr _ p s h => moved (hr.works p s).printer h
      event := fun hf _ s h => moved (hf.works s).printer h
      start := fun s w _ => moved (Works.start s w).printer (idle s.rpu w) }
  refine ⟨fun s t hs h => ?_, fun s t hs h => ?_⟩
  · have idle (r : Rpu) (w : Start) : (r.afterReset w).queueSound :=
      ⟨Nat.zero_le _, Nat.zero_le _, List.nodup_nil, Nat.zero_le _⟩
    exact (kept Rpu.queueSound PrintMove.queueSound idle).step (by decide) hs h
  · refine (kept Rpu.headAlone PrintMove.headAlone fun r w j hj => ?_).step (by decide) hs h
    cases hj

end Sys2Proof.Machine
end

