-- ==== Sys2Proof/Proofs/PayoutKept.lean ====
section
/-! PROOFS. Dispenser, payout in flight, PAYING ticket and retract log stay in agreement (R84, R132, R135, R144, R154). -/

namespace Sys2Proof.Machine

/-! The PAYING ticket -/

/-- A ticket is PAYING exactly where it is the one named, and the one named stands in the table. -/
structure Tkt.PaysFor (k : Tkt) (o : Option Nat) : Prop where
  stands : ∀ n, o = some n → ∃ t ∈ k.tickets, t.number = n
  paying : ∀ t ∈ k.tickets, (t.st = .paying ↔ o = some t.number)

theorem Ticket.Turn.paying_iff {k : Tkt} {t u : Ticket} (h : t.Turn false k u) : u.st = .paying ↔ t.st = .paying := by
  cases h with
  | keeps st _ _ =>
    rcases st with st | ⟨before, after⟩
    · rw [st]
    · simp only [Ticket.underClaim, Bool.or_eq_false_iff, beq_eq_false_iff_ne] at before after
      exact iff_of_false after.2 before.2
  | ends from_ st _ _ =>
    simp only [Ticket.underClaim, Bool.or_eq_false_iff, beq_eq_false_iff_ne] at st
    exact iff_of_false st.2 (from_.resolve_left Bool.false_ne_true)
  | grants c _ settled st _ =>
    rw [st, settled]
    decide
  | starts paying => exact absurd paying Bool.false_ne_true

theorem TableMove.paysFor {k l : Tkt} {o : Option Nat} (h : TableMove false k l) (hp : k.placed) (hk : k.PaysFor o) : l.PaysFor o := by
  induction h with
  | refl => exact hk
  | trans h1 _ ih1 ih2 => exact ih2 (h1.placed hp) (ih1 hp hk)
  | @change k n t u spent found e =>
    obtain ⟨l1, l2, split, hn, replaced⟩ := replaced_split u hp.2.2 found
    obtain ⟨stands, paying⟩ := hk
    rw [split] at stands paying
    constructor
    · rw [replaced]
      intro m hm
      obtain ⟨x, hx, rfl⟩ := stands m hm
      simp only [List.mem_append, List.mem_cons] at hx ⊢
      rcases hx with hx | rfl | hx
      · exact ⟨x, .inl hx, rfl⟩
      · exact ⟨u, .inr (.inl rfl), e.number⟩
      · exact ⟨x, .inr (.inr hx), rfl⟩
    · rw [replaced]
      intro x hx
      simp only [List.mem_append, List.mem_cons] at hx
      rcases hx with hx | rfl | hx
      · exact paying x (by simp [hx])
      · rw [e.turn.paying_iff, e.number]
        exact paying t (by simp)
      · exact paying x (by simp [hx])
  | release k d =>
    have released (t : Ticket) : (t.release d).number = t.number ∧ ((t.release d).st = .paying ↔ t.st = .paying) := by
      rcases t.release_cases d with e | ⟨held, r, e⟩ <;> simp_all
    obtain ⟨stands, paying⟩ := hk
    constructor
    · intro n hn
      obtain ⟨t, ht, rfl⟩ := stands n hn
      exact ⟨t.release d, List.mem_map_of_mem ht, (released t).1⟩
    · intro x hx
      obtain ⟨t, ht, rfl⟩ := List.mem_map.mp hx
      rw [(released t).1, (released t).2]
      exact paying t ht
  | @opens s place k h kind c p now =>
    obtain ⟨sub, -, -, left⟩ := State.openPlace?_spec h hp
    obtain ⟨-, -, -, fresh⟩ := freeNumber_first (Tkt.placed_length (Tkt.placed_of_sublist sub hp)) _
    obtain ⟨stands, paying⟩ := hk
    have stays : ∀ n, o = some n → ∃ t : Ticket, t ∈ k.tickets ∧ t.number = n := fun n hn => by
      obtain ⟨t, ht, rfl⟩ := stands n hn
      rcases left t ht with hk | spent
      · exact ⟨t, hk, rfl⟩
      · have st := (paying t ht).mpr hn
        simp [Ticket.isSpent, st] at spent
    constructor
    · intro n hn
      obtain ⟨t, ht, hn⟩ := stays n hn
      exact ⟨t, List.mem_append.mpr (.inl ht), hn⟩
    · intro x hx
      rcases List.mem_append.mp hx with hx | hx
      · exact paying x (sub.subset hx)
      · rw [List.mem_singleton.mp hx]
        refine iff_of_false (by simp [newTicket]) fun h => ?_
        obtain ⟨t, ht, hn⟩ := stays _ h
        exact fresh (List.mem_map.mpr ⟨t, ht, hn⟩)

theorem Tkt.PaysFor.ends {s : State} {n : Nat} {f : Ticket → Ticket} (hp : s.tkt.placed) (h : s.tkt.PaysFor (some n))
    (st : ∀ t, (f t).st ≠ .paying) : (s.changeTicket n f).tkt.PaysFor none := by
  refine ⟨fun _ hm => absurd hm (by simp), ?_⟩
  unfold State.changeTicket
  split
  · rename_i missing
    obtain ⟨t, ht, hn⟩ := h.stands n rfl
    have := List.find?_eq_none.mp missing t ht
    simp [hn] at this
  · rename_i t found
    obtain ⟨l1, l2, split, hn, replaced⟩ := replaced_split (t.revised (f t)) hp.2.2 found
    dsimp only
    rw [replaced]
    intro x hx
    refine iff_of_false ?_ (by simp)
    simp only [List.mem_append, List.mem_cons] at hx
    have other : ∀ y ∈ l1 ++ l2, y.st ≠ .paying := by
      intro y hy e
      have mem : y ∈ s.tkt.tickets := by
        rw [split]
        simp only [List.mem_append, List.mem_cons] at hy ⊢
        tauto
      have same := Option.some.inj ((h.paying y mem).mp e)
      have nodup := hp.2.2
      rw [split, List.map_append, List.map_cons, List.nodup_middle, List.nodup_cons, ← List.map_append] at nodup
      exact nodup.1 (List.mem_map.mpr ⟨y, hy, by rw [← same, hn]⟩)
    rcases hx with hx | rfl | hx
    · exact other x (by simp [hx])
    · obtain ⟨r, e⟩ := t.revised_eq (f t)
      rw [e]
      exact st t
    · exact other x (by simp [hx])

theorem Tkt.PaysFor.starts {s : State} {n : Nat} {t : Ticket} {f : Ticket → Ticket} (hp : s.tkt.placed) (h : s.tkt.PaysFor none)
    (found : s.ticket? n = some t) (number : (f t).number = t.number) (st : (f t).st = .paying) :
    (s.changeTicket n f).tkt.PaysFor (some n) := by
  obtain ⟨l1, l2, split, hn, replaced⟩ := replaced_split (t.revised (f t)) hp.2.2 found
  obtain ⟨r, e⟩ := t.revised_eq (f t)
  unfold State.changeTicket
  rw [found]
  dsimp only
  constructor <;> dsimp only <;> rw [replaced, e]
  · rintro m ⟨⟩
    exact ⟨_, List.mem_append.mpr (.inr (List.mem_cons_self ..)), number.trans hn⟩
  · intro x hx
    simp only [List.mem_append, List.mem_cons] at hx
    have other : ∀ y ∈ l1 ++ l2, (y.st = .paying ↔ some n = some y.number) := by
      intro y hy
      have mem : y ∈ s.tkt.tickets := by
        rw [split]
        simp only [List.mem_append, List.mem_cons] at hy ⊢
        tauto
      refine iff_of_false (fun h' => by simpa using (h.paying y mem).mp h') fun same => ?_
      have same := Option.some.inj same
      have nodup := hp.2.2
      rw [split, List.map_append, List.map_cons, List.nodup_middle, List.nodup_cons, ← List.map_append] at nodup
      exact nodup.1 (List.mem_map.mpr ⟨y, hy, by rw [← same, hn]⟩)
    rcases hx with hx | rfl | hx
    · exact other x (by simp [hx])
    · exact iff_of_true st (by rw [number, hn])
    · exact other x (by simp [hx])

/-! The two cases of the invariant -/

/-- With a payout in flight. -/
theorem State.payoutSound_some {s : State} {p : Payout} (h : s.pyu.payout = some p) :
    s.payoutSound ↔ s.pyu.disp.paysOut = true ∧ s.pyu.remembered.paysOut = false ∧ s.tkt.PaysFor (some p.ticket) ∧
      s.pyu.recovery = none ∧ s.pyu.log.length ≤ 15 := by
  unfold State.payoutSound
  rw [h]
  constructor
  · rintro ⟨disp, remembered, stands, paying, recovery, -, room⟩
    refine ⟨disp.symm, remembered, ⟨fun n hn => ?_, paying⟩, ?_, room rfl⟩
    · obtain rfl := Option.some.inj hn
      exact stands p rfl
    · by_contra hr
      rcases recovery (Option.isSome_iff_ne_none.mpr hr) with e | ⟨e, -⟩ <;> simp [e, DispenserSt.paysOut] at disp
  · rintro ⟨disp, remembered, ⟨stands, paying⟩, recovery, room⟩
    refine ⟨disp.symm, remembered, fun q hq => ?_, paying, by simp [recovery], by omega, fun _ => room⟩
    obtain rfl := Option.some.inj hq
    exact stands p.ticket rfl

/-- With no payout in flight. -/
theorem State.payoutSound_none {s : State} (h : s.pyu.payout = none) :
    s.payoutSound ↔ s.pyu.disp.paysOut = false ∧ s.pyu.remembered.paysOut = false ∧ s.tkt.PaysFor none ∧
      (s.pyu.recovery.isSome = true → s.pyu.disp = .recovering ∨ (s.pyu.disp = .doorOpen ∧ s.pyu.remembered = .recovering)) ∧
      s.pyu.log.length ≤ 16 ∧ ((s.pyu.recovery.bind (·.interrupted)).isSome = true → s.pyu.log.length ≤ 15) := by
  unfold State.payoutSound
  rw [h]
  constructor
  · rintro ⟨disp, remembered, -, paying, recovery, log, room⟩
    exact ⟨disp.symm, remembered, ⟨fun n hn => (by cases hn), paying⟩, recovery, log, fun hr => room (by simp [hr])⟩
  · rintro ⟨disp, remembered, ⟨-, paying⟩, recovery, log, room⟩
    exact ⟨disp.symm, remembered, fun p hp => (by cases hp), paying, recovery, log, fun hr => room (by simpa using hr)⟩

/-- A dispenser out of the paying states has no payout in flight. -/
theorem State.payoutSound.idle {s : State} (h : s.payoutSound) (hd : s.pyu.disp.paysOut = false) : s.pyu.payout = none := by
  have := h.1
  rw [hd] at this
  simpa using this

/-- Of the payout unit the invariant reads these. -/
theorem State.payoutSound_congr {s t : State} (tkt : t.tkt = s.tkt) (payout : t.pyu.payout = s.pyu.payout)
    (disp : t.pyu.disp = s.pyu.disp) (remembered : t.pyu.remembered = s.pyu.remembered) (recovery : t.pyu.recovery = s.pyu.recovery)
    (log : t.pyu.log = s.pyu.log) (h : s.payoutSound) : t.payoutSound := by
  unfold State.payoutSound
  rw [tkt, payout, disp, remembered, recovery, log]
  exact h

/-! The operations -/

/-- The end of an operation that was no payout's, in a state that is none. -/
theorem Pyu.ended_rest (u : Pyu) (d : DispenserSt) :
    (u.ended d).payout = u.payout ∧ (u.ended d).recovery = u.recovery ∧ (u.ended d).log = u.log ∧ (u.ended d).bin = u.bin := by
  unfold Pyu.ended
  split <;> exact ⟨rfl, rfl, rfl, rfl⟩

theorem Pyu.ended_idle {u : Pyu} {d : DispenserSt} (hd : d.paysOut = false) (hr : u.remembered.paysOut = false) :
    (u.ended d).disp.paysOut = false ∧ (u.ended d).remembered.paysOut = false := by
  unfold Pyu.ended
  split
  · exact ⟨rfl, hd⟩
  · exact ⟨hd, hr⟩

theorem Pyu.note_log_length (u : Pyu) (r : RetractRecord) (h : u.log.length ≤ 16) : (u.note r).log.length ≤ 16 := by
  unfold Pyu.note
  split
  · simp
    omega
  · exact h

theorem Pyu.drawing_rest (u : Pyu) (p : Payout) (w : Option Drawn) (now : Stamp) :
    (u.drawing p w now).disp = u.disp ∧ (u.drawing p w now).remembered = u.remembered ∧
      (u.drawing p w now).recovery = u.recovery ∧ (u.log.length ≤ 16 → (u.drawing p w now).log.length ≤ 16) := by
  unfold Pyu.drawing
  split
  · split
    · exact ⟨rfl, rfl, rfl, fun h => h⟩
    · refine ⟨?_, ?_, ?_, u.note_log_length _⟩ <;>
      · unfold Pyu.bank Pyu.note
        split <;> rfl
  · exact ⟨rfl, rfl, rfl, fun h => h⟩

theorem State.payoutEnd_tkt (s : State) (p : Payout) (x : PayoutResult) (c : PayoutEnd) (w : Option Drawn) (d : DispenserSt) :
    (s.payoutEnd p x c w d).tkt = (((s.operationEnds d).changeTicket p.ticket fun t => t.payoutEnds p x c s.stamp).pump).tkt := by
  have mark (u : State) (src : AlertSource) : (u.markAlert src).tkt = u.tkt :=
    (Reaches.markAlert (bs := [.evu]) u src (by decide)).tkt (by decide)
  unfold State.payoutEnd
  dsimp only
  split
  · rw [mark, State.latch_tkt]
  · split
    · rw [mark, State.latch_tkt]
    · rw [State.latch_tkt]
  · rw [State.latch_tkt]

theorem State.payoutEnd_sound {s : State} {p : Payout} {x : PayoutResult} {c : PayoutEnd} {w : Option Drawn} {d : DispenserSt}
    (hp : s.tkt.placed) (hs : s.payoutSound) (hpay : s.pyu.payout = some p) (hd : d.paysOut = false) :
    (s.payoutEnd p x c w d).payoutSound := by
  obtain ⟨-, remembered, table, recovery, log⟩ := (State.payoutSound_some hpay).mp hs
  have unit := s.payoutEnd_pyu p x c w d
  refine (State.payoutSound_none (by rw [unit])).mpr ?_
  have begun : (s.operationEnds d).tkt = s.tkt := (Reaches.operationEnds (bs := [.pyu, .evu]) s d (by decide)).tkt (by decide)
  have changed : ((s.operationEnds d).changeTicket p.ticket fun t => t.payoutEnds p x c s.stamp).tkt.PaysFor none :=
    Tkt.PaysFor.ends (begun ▸ hp) (begun ▸ table) (fun t => by cases x <;> exact TicketSt.noConfusion)
  have placed : ((s.operationEnds d).changeTicket p.ticket fun t => t.payoutEnds p x c s.stamp).tkt.placed :=
    (State.changeTicket_move (pays := true) _ _ _ fun t _ => by
      cases x <;> exact ⟨rfl, rfl, .inl rfl, .ends (.inl rfl) rfl rfl rfl⟩).placed (begun ▸ hp)
  have tkt := (Works.pump (pays := false) _).table.paysFor placed changed
  rw [← State.payoutEnd_tkt] at tkt
  obtain ⟨-, hrecovery, hlog, -⟩ := s.pyu.ended_rest d
  obtain ⟨idle, still⟩ := Pyu.ended_idle (u := s.pyu) hd remembered
  obtain ⟨disp', remembered', recovery', log'⟩ := (s.pyu.ended d).drawing_rest p w s.stamp
  rw [unit]
  dsimp only
  rw [disp', remembered', recovery', hrecovery, recovery]
  exact ⟨idle, still, tkt, by simp, log' (by rw [hlog]; omega), by simp⟩

theorem State.payoutStops_sound {s : State} {p : Payout} {c : PayoutEnd} (hp : s.tkt.placed) (hs : s.payoutSound)
    (hpay : s.pyu.payout = some p) : (s.payoutStops p c).payoutSound := by
  obtain ⟨x, w, -, e⟩ := s.payoutStops_ends p c
  rw [e]
  exact State.payoutEnd_sound hp hs hpay rfl

/-- The payout in flight changes, its ticket staying, and with it the state among those in which payouts are in flight. -/
theorem State.payoutSound_swap {s t : State} {p q : Payout} (hs : s.payoutSound) (hpay : s.pyu.payout = some p)
    (ticket : q.ticket = p.ticket) (tkt : t.tkt = s.tkt) (payout : t.pyu.payout = some q) (disp : t.pyu.disp.paysOut = true)
    (remembered : t.pyu.remembered = s.pyu.remembered) (recovery : t.pyu.recovery = s.pyu.recovery) (log : t.pyu.log = s.pyu.log) :
    t.payoutSound := by
  obtain ⟨-, hremembered, table, hrecovery, hlog⟩ := (State.payoutSound_some hpay).mp hs
  refine (State.payoutSound_some payout).mpr ⟨disp, remembered ▸ hremembered, ?_, recovery.trans hrecovery, log ▸ hlog⟩
  rw [tkt, ticket]
  exact table

theorem State.payoutSound.pays {s : State} {p : Payout} (h : s.payoutSound) (hpay : s.pyu.payout = some p) :
    s.pyu.disp.paysOut = true := ((State.payoutSound_some hpay).mp h).1

theorem State.goOn_sound {s : State} {p q : Payout} (hp : s.tkt.placed) (hs : s.payoutSound) (hpay : s.pyu.payout = some p)
    (ticket : q.ticket = p.ticket) : (s.goOn q).payoutSound := by
  rcases s.goOn_cases q with ⟨d, c, hd, e⟩ | ⟨c, e⟩ | e
  · rw [e]
    exact State.payoutSound_swap hs hpay ticket rfl rfl hd rfl rfl rfl
  · rw [e]
    exact State.payoutSound_swap hs hpay ticket rfl rfl (hs.pays hpay) rfl rfl rfl
  · rw [e]
    refine State.payoutEnd_sound hp (State.payoutSound_swap hs hpay ticket rfl rfl ?_ rfl rfl rfl) rfl rfl
    exact hs.pays hpay

theorem State.sync_sound {s : State} {p : Payout} (hp : s.tkt.placed) (hs : s.payoutSound) (hpay : s.pyu.payout = some p)
    (q : Payout) : (s.changeTicket p.ticket q.sync).payoutSound := by
  obtain ⟨disp, remembered, table, recovery, log⟩ := (State.payoutSound_some hpay).mp hs
  have pyu := State.changeTicket_pyu s p.ticket q.sync
  have moved := (State.changeTicket_move (pays := false) s p.ticket q.sync fun _ _ => .same rfl rfl rfl rfl rfl rfl).paysFor hp table
  refine (State.payoutSound_some (p := p) (pyu ▸ hpay)).mpr ?_
  rw [pyu]
  exact ⟨disp, remembered, moved, recovery, log⟩

theorem State.writePayout_placed {s : State} (q : Payout) (hp : s.tkt.placed) : (s.writePayout q).tkt.placed :=
  (Works.writePayout (pays := false) s q).table.placed hp

theorem State.writePayout_sound {s : State} {p q : Payout} (hp : s.tkt.placed) (hs : s.payoutSound) (hpay : s.pyu.payout = some p)
    (ticket : q.ticket = p.ticket) : (s.writePayout q).payoutSound ∧ (s.writePayout q).pyu.payout = some q := by
  have swapped : State.payoutSound { s with pyu := { s.pyu with payout := some q } } :=
    State.payoutSound_swap hs hpay ticket rfl rfl (hs.pays hpay) rfl rfl rfl
  refine ⟨State.sync_sound (s := { s with pyu := { s.pyu with payout := some q } }) hp swapped rfl q, ?_⟩
  rw [State.writePayout, State.changeTicket_pyu]

theorem State.operationEnds_sound {s : State} {d : DispenserSt} (hs : s.payoutSound) (hpay : s.pyu.payout = none)
    (hr : s.pyu.recovery = none) (hd : d.paysOut = false) : (s.operationEnds d).payoutSound := by
  obtain ⟨-, remembered, table, -, log, -⟩ := (State.payoutSound_none hpay).mp hs
  obtain ⟨payout', recovery', log', -⟩ := s.pyu.ended_rest d
  obtain ⟨idle, still⟩ := Pyu.ended_idle (u := s.pyu) hd remembered
  have pyu := s.operationEnds_pyu d
  have tkt := (Reaches.operationEnds (bs := [.pyu, .evu]) s d (by decide)).tkt (by decide)
  refine (State.payoutSound_none (by rw [pyu, payout', hpay])).mpr ?_
  rw [pyu, tkt, recovery', hr, log']
  exact ⟨idle, still, table, by simp, log, by simp⟩

theorem State.recoveryEnds_sound {s : State} {k : Nat} {d : DispenserSt} (hs : s.payoutSound) (hpay : s.pyu.payout = none)
    (hd : d.paysOut = false) : (s.recoveryEnds k d).payoutSound := by
  obtain ⟨-, remembered, table, -, log, -⟩ := (State.payoutSound_none hpay).mp hs
  obtain ⟨payout', recovery', log', -⟩ := s.pyu.ended_rest d
  obtain ⟨idle, still⟩ := Pyu.ended_idle (u := s.pyu) hd remembered
  have pyu := s.recoveryEnds_pyu k d
  have tkt := (Reaches.recoveryEnds (bs := [.pyu, .evu]) s k d (by decide)).tkt (by decide)
  have unit : (s.recoveryEnds k d).pyu.payout = none ∧ (s.recoveryEnds k d).pyu.disp = (s.pyu.ended d).disp ∧
      (s.recoveryEnds k d).pyu.remembered = (s.pyu.ended d).remembered ∧ (s.recoveryEnds k d).pyu.recovery = none ∧
        (s.recoveryEnds k d).pyu.log.length ≤ 16 := by
    rw [pyu]
    unfold Pyu.recovered
    split
    · rename_i hr
      exact ⟨payout'.trans hpay, rfl, rfl, recovery'.trans hr, log' ▸ log⟩
    · have noted (r : RetractRecord) := Pyu.note_log_length ((s.pyu.ended d).bank k) r (by
        show (s.pyu.ended d).log.length ≤ 16
        rw [log']
        exact log)
      dsimp only
      split
      · refine ⟨?_, ?_, ?_, rfl, noted _⟩ <;>
        · unfold Pyu.note
          split <;> first | rfl | exact payout'.trans hpay
      · exact ⟨payout'.trans hpay, rfl, rfl, rfl, log' ▸ log⟩
  obtain ⟨hpayout, hdisp, hremembered, hrecovery, hlog⟩ := unit
  refine (State.payoutSound_none hpayout).mpr ?_
  rw [hdisp, hremembered, hrecovery, tkt]
  exact ⟨idle, still, table, by simp, hlog, by simp⟩

/-- In a state that is neither RECOVERING nor DOOR_OPEN no recovery is still to run. -/
theorem State.payoutSound.recovered {s : State} (h : s.payoutSound) (hr : s.pyu.disp ≠ .recovering) (hd : s.pyu.disp ≠ .doorOpen) :
    s.pyu.recovery = none := by
  obtain ⟨-, -, -, -, recovery, -⟩ := h
  by_contra hne
  rcases recovery (Option.isSome_iff_ne_none.mpr hne) with e | ⟨e, -⟩
  · exact hr e
  · exact hd e

theorem State.doorEvent_sound {s : State} (o : Bool) (hp : s.tkt.placed) (hs : s.payoutSound) : (s.doorEvent o).payoutSound := by
  have rest {d : DispenserSt} (hd : s.pyu.disp = d) (idle : d.paysOut = false) (hr : d ≠ .recovering) (ho : d ≠ .doorOpen) :
      State.payoutSound { s with pyu := { s.pyu with disp := .doorOpen, remembered := d } } := by
    have none := hs.idle (hd ▸ idle)
    obtain ⟨-, -, table, -, log, -⟩ := (State.payoutSound_none none).mp hs
    have recovered := hs.recovered (hd ▸ hr) (hd ▸ ho)
    refine (State.payoutSound_none ?_).mpr ⟨rfl, idle, table, by simp [recovered], log, by simp [recovered]⟩
    exact none
  unfold State.doorEvent
  split
  · unfold State.doorOpens
    dsimp only
    split
    · rename_i p _ hpay
      exact State.payoutStops_sound hp (State.payoutSound_congr rfl rfl rfl rfl rfl rfl hs) hpay
    · exact hs
    · exact rest ‹_› rfl (by decide) (by decide)
    · exact rest ‹_› rfl (by decide) (by decide)
    · exact rest ‹_› rfl (by decide) (by decide)
    · exact State.payoutSound_congr rfl rfl rfl rfl rfl rfl hs
  · unfold State.doorCloses
    dsimp only
    split
    · rename_i door
      have none := hs.idle (by rw [door]; rfl)
      obtain ⟨-, remembered, table, recovery, log, room⟩ := (State.payoutSound_none none).mp hs
      have closed (c : Option DispenserCommand) :
          State.payoutSound { s with pyu := { s.pyu with disp := s.pyu.remembered, command := c } } := by
        refine (State.payoutSound_none ?_).mpr ⟨remembered, remembered, table, fun hr => .inl ?_, log, room⟩
        · exact none
        rcases recovery hr with e | ⟨-, e⟩
        · rw [door] at e
          cases e
        · exact e
      split
      · exact State.payoutSound_congr (by simp) (by simp) (by simp) (by simp) (by simp) (by simp) (closed Option.none)
      · exact closed _
    · exact State.payoutSound_congr rfl rfl rfl rfl rfl rfl hs

/-- A state with the table and the payout unit of a sound one, or of one whose door has moved. -/
theorem State.payoutSound_of_door {s u t : State} (hp : s.tkt.placed) (hs : s.payoutSound) (hu : u.pyu = s.pyu) (ht : u.tkt = s.tkt)
    (h : t.pyu = u.pyu ∧ t.tkt = u.tkt ∧ t.rpu = u.rpu ∨
      ∃ o, t.pyu = (u.doorEvent o).pyu ∧ t.tkt = (u.doorEvent o).tkt ∧ t.rpu = (u.doorEvent o).rpu) : t.payoutSound := by
  have sound {a b : State} (pyu : b.pyu = a.pyu) (tkt : b.tkt = a.tkt) (ha : a.payoutSound) : b.payoutSound :=
    State.payoutSound_congr tkt (by rw [pyu]) (by rw [pyu]) (by rw [pyu]) (by rw [pyu]) (by rw [pyu]) ha
  have hu' := sound hu ht hs
  rcases h with ⟨pyu, tkt, -⟩ | ⟨o, pyu, tkt, -⟩
  · exact sound pyu tkt hu'
  · exact sound pyu tkt (State.doorEvent_sound o (ht ▸ hp) hu')

theorem State.changeStore_sound {s : State} (i : Nat) (f : Store → Store) (hs : s.payoutSound) :
    (s.changeStore i f).payoutSound ∧ (s.changeStore i f).tkt = s.tkt ∧ (s.changeStore i f).pyu.payout = s.pyu.payout := by
  unfold State.changeStore
  split
  · exact ⟨hs, rfl, rfl⟩
  · dsimp only
    split
    · exact ⟨State.payoutSound_congr (by simp) (by simp) (by simp) (by simp) (by simp) (by simp) hs, by simp, by simp⟩
    · exact ⟨State.payoutSound_congr rfl rfl rfl rfl rfl rfl hs, rfl, rfl⟩

theorem State.picking?_payout {s : State} {i : Nat} {p : Payout} (h : s.picking? = some (i, p)) : s.pyu.payout = some p := by
  unfold State.picking? at h
  split at h
  · rename_i hp
    cases h
    exact hp
  · cases h

theorem Payout.after_ticket (p : Payout) (dropped : Bool) (l : List Store) : (p.after dropped l).ticket = p.ticket := by
  unfold Payout.after
  split <;> rfl

/-- A store's report, the figures it leaves and the way on, as one. -/
theorem State.picked_sound {s : State} {i : Nat} {f : Store → Store} {p q : Payout} (hp : s.tkt.placed) (hs : s.payoutSound)
    (hpay : s.pyu.payout = some p) (ticket : q.ticket = p.ticket) :
    let t := (s.changeStore i f).writePayout q
    t.payoutSound ∧ t.tkt.placed ∧ t.pyu.payout = some q := by
  obtain ⟨sound, tkt, payout⟩ := State.changeStore_sound i f hs
  have placed : (s.changeStore i f).tkt.placed := tkt ▸ hp
  obtain ⟨sound', payout'⟩ := State.writePayout_sound placed sound (payout.trans hpay) ticket
  exact ⟨sound', State.writePayout_placed q placed, payout'⟩

/-! Starts -/

theorem Tkt.afterReset_paysFor (k : Tkt) (w : Start) (reached : Bool) : (k.afterReset w reached).PaysFor none := by
  refine ⟨fun _ hn => absurd hn (by simp), fun x hx => iff_of_false (fun st => ?_) (by simp)⟩
  rcases k.afterReset_tickets w reached with e | e
  · rw [e] at hx
    cases hx
  · rw [e] at hx
    obtain ⟨t, -, rfl⟩ := List.mem_map.mp hx
    have idle : (t.afterReset reached).underClaim = false := by
      rcases t.afterReset_cases reached with ⟨idle, e⟩ | ⟨idle, -⟩
      · rw [e]
        exact idle
      · exact idle
    simp [Ticket.underClaim, st] at idle

theorem State.startUp_sound {s : State} (w : Start) (hp : s.tkt.placed) (hs : s.payoutSound) : (s.startUp w).payoutSound := by
  have pyu : (s.startUp w).pyu = s.pyu.afterReset w _ := (s.cleared_reaches_events w).pyu (by decide)
  have table := (Works.start s w).table.paysFor (s.cleared_tkt w ▸ Tkt.afterReset_placed w _ hp)
    (s.cleared_tkt w ▸ Tkt.afterReset_paysFor _ w _)
  obtain ⟨-, -, -, -, -, log, room⟩ := hs
  refine (State.payoutSound_none (by rw [pyu]; rfl)).mpr ?_
  rw [pyu]
  generalize State.cashDoorOpen _ = door
  refine ⟨by cases door <;> rfl, by cases door <;> rfl, table, fun _ => ?_, ?_, ?_⟩
  · cases door
    · exact .inl rfl
    · exact .inr ⟨rfl, rfl⟩
  · unfold Pyu.afterReset Start.ret
    dsimp only
    split
    · exact log
    · exact Nat.zero_le _
  · unfold Pyu.afterReset Start.ret
    dsimp only
    split
    · intro h
      refine room ?_
      unfold Pyu.interrupted at h
      split at h <;> simp_all
    · exact fun _ => Nat.zero_le _

/-- Settles O56: payouts start and end with their ticket's state and the dispenser's in one step. -/
theorem stepsKeepPayoutSound : Obligations.StepsKeepPayoutSound := by
  have same {s t : State} {pays : Bool} (hw : Works pays s t) (hpays : pays = false) (pyu : t.pyu = s.pyu) (hp : s.tkt.placed)
      (hs : s.payoutSound) : t.payoutSound := by
    subst hpays
    obtain ⟨disp, remembered, stands, paying, recovery, log, room⟩ := hs
    have table : s.tkt.PaysFor (s.pyu.payout.map (·.ticket)) :=
      ⟨fun n hn => by
        obtain ⟨p, hpay, rfl⟩ := Option.map_eq_some_iff.mp hn
        exact stands p hpay, paying⟩
    have moved := hw.table.paysFor hp table
    refine ⟨pyu ▸ disp, pyu ▸ remembered, fun p hpay => moved.stands _ ?_, pyu ▸ moved.paying, pyu ▸ recovery, pyu ▸ log,
      pyu ▸ room⟩
    rw [pyu] at hpay
    rw [hpay, Option.map_some]
  have kept : Kept [.tkt, .pyu] fun s => s.tkt.placed ∧ s.payoutSound :=
    { reads := fun hm hr h => by
        have tkt := hr.tkt (not_mem_of_meets hm (by simp))
        have pyu := hr.pyu (not_mem_of_meets hm (by simp))
        exact ⟨tkt ▸ h.1, State.payoutSound_congr tkt (by rw [pyu]) (by rw [pyu]) (by rw [pyu]) (by rw [pyu]) (by rw [pyu]) h.2⟩
      rule := fun {r bs} hr hm p s h => by
        obtain ⟨hp, hs⟩ := h
        have work := hr.works p s
        have reach := hr.reaches p s
        refine ⟨work.table.placed hp, ?_⟩
        cases hr <;> try exact absurd hm (by decide)
        case lineMapSet l d f =>
          unfold Lines.mapSet
          repeat' split
          · exact hs
          · exact hs
          · obtain ⟨u, hu, ht, -, -, h⟩ := s.takeMap_pyu l d f
            exact State.payoutSound_of_door hp hs hu ht h
        case outcomeFetch n =>
          rcases Weigh.fetch_cases n p s with e | e | ⟨ch, -, e⟩ <;> rw [e]
          · exact hs
          · exact State.payoutSound_congr rfl rfl rfl rfl rfl rfl hs
          · exact State.payoutSound_congr (by simp) (by simp) (by simp) (by simp) (by simp) (by simp) hs
        case storeLoad i x =>
          unfold Cash.storeLoad
          repeat' split
          all_goals exact hs
        case storeEnable i on =>
          unfold Cash.storeEnable
          repeat' split
          all_goals exact hs
        case payoutStart n part =>
          unfold Cash.payoutStart withTicket
          split
          · exact hs
          · rename_i t found
            dsimp only
            split
            · exact hs
            · rename_i st
              have claimed : t.st = .claimed := not_not.mp (not_or.mp st).1
              split
              · refine same (pays := false) ((Works.changeFound found ⟨rfl, rfl, .inl rfl, .ends (.inr ?_) rfl rfl rfl⟩).trans
                  (.pump _)) rfl ?_ hp hs
                · rw [claimed]
                  decide
                · exact (State.pump_pyu _).trans (State.changeTicket_pyu _ _ _)
              · split
                · exact hs
                · exact hs
                · rename_i taken
                  have rest : s.pyu.disp = .idle ∧ s.pyu.log.length ≤ 15 := by
                    unfold State.startRefusal at taken
                    split at taken
                    · cases taken
                    · split at taken
                      · cases taken
                      · rename_i busy
                        split at taken
                        · cases taken
                        · split at taken
                          · cases taken
                          · exact ⟨not_not.mp (not_or.mp busy).1, by omega⟩
                  have none := hs.idle (by rw [rest.1]; rfl)
                  obtain ⟨-, remembered, table, -, -, -⟩ := (State.payoutSound_none none).mp hs
                  have recovered := hs.recovered (by rw [rest.1]; decide) (by rw [rest.1]; decide)
                  have paying := Tkt.PaysFor.starts (f := fun u => u.startPaying (t.cash - (makePlan s.pyu.stores t.cash 50 100).rest)
                    (piecesOf (makePlan s.pyu.stores t.cash 50 100).steps)) hp table found rfl rfl
                  refine (State.payoutSound_some (p := newPayout n p t.cash (makePlan s.pyu.stores t.cash 50 100)) ?_).mpr
                    ⟨?_, ?_, paying, ?_, ?_⟩
                  · rfl
                  · rfl
                  · exact (congrArg (fun u => u.remembered.paysOut) (State.changeTicket_pyu s n _)).trans remembered
                  · exact (congrArg (fun u => u.recovery) (State.changeTicket_pyu s n _)).trans recovered
                  · exact (congrArg (fun u => u.log.length) (State.changeTicket_pyu s n _)).trans_le rest.2
        case payoutCancel =>
          unfold Cash.payoutCancel
          split
          · exact hs
          · rename_i x hpay
            split
            · exact hs
            · split
              · exact hs
              · dsimp only
                split
                · exact State.payoutSound_swap hs hpay (q := { x with cancelled := true, todo := [] }) rfl rfl rfl (hs.pays hpay)
                    rfl rfl rfl
                · exact State.goOn_sound hp hs hpay rfl
        case binEmpty =>
          unfold Cash.binEmpty
          split
          · exact hs
          · obtain ⟨disp, remembered, stands, paying, recovery, -, -⟩ := hs
            exact ⟨disp, remembered, stands, paying, recovery, Nat.zero_le _, fun _ => Nat.zero_le _⟩
        case dispenserClear =>
          unfold Cash.dispenserClear
          split
          · exact hs
          · split
            · exact hs
            · rename_i st
              have idle : s.pyu.disp.paysOut = false := by
                rcases Classical.not_and_iff_not_or_not.mp st with h | h <;>
                · rw [not_not.mp h]
                  rfl
              have none := hs.idle idle
              obtain ⟨-, remembered, table, -, log, -⟩ := (State.payoutSound_none none).mp hs
              refine (State.payoutSound_none ?_).mpr ⟨rfl, remembered, table, fun h => ?_, log, fun h => ?_⟩
              · exact none
              · cases h
              · cases h
        all_goals exact same work rfl (reach.pyu (by decide)) hp hs
      event := fun {f bs} hf hm s h => by
        obtain ⟨hp, hs⟩ := h
        have work := hf.works s
        have reach := hf.reaches s
        refine ⟨work.table.placed hp, ?_⟩
        cases hf <;> try exact absurd hm (by decide)
        case debounced line =>
          obtain ⟨u, hu, ht, -, -, h⟩ := Lines.debounced_pyu s line
          exact State.payoutSound_of_door hp hs hu ht h
        case pieceOk =>
          unfold Cash.pieceOk
          split
          · exact hs
          · rename_i i p picking
            have hpay := State.picking?_payout picking
            obtain ⟨sound, placed, payout⟩ := State.picked_sound (i := i) (f := Store.pieceOk) (q := p.take i (s.denomination i)) hp hs
              hpay rfl
            dsimp only
            have ticket := Payout.after_ticket (p.take i (s.denomination i))
            obtain ⟨sound', payout'⟩ := State.writePayout_sound placed sound payout (ticket _ _)
            exact State.goOn_sound (State.writePayout_placed _ placed) sound' payout' rfl
        case pieceReject =>
          unfold Cash.pieceReject
          split
          · exact hs
          · rename_i i p picking
            obtain ⟨sound, placed, payout⟩ := State.picked_sound (i := i) (f := Store.pieceReject) hp hs
              (State.picking?_payout picking) (p.after_ticket _ _)
            exact State.goOn_sound placed sound payout rfl
        case pickFail =>
          unfold Cash.pickFail
          split
          · exact hs
          · rename_i i p picking
            obtain ⟨sound, placed, payout⟩ := State.picked_sound (i := i) (f := Store.pickFail) hp hs
              (State.picking?_payout picking) (p.after_ticket _ _)
            exact State.goOn_sound placed sound payout rfl
        case presented =>
          unfold Cash.presented
          split
          · rename_i p _ _ hpay
            refine State.sync_sound (p := { p with presented := true })
              (s :=
                { s with
                  pyu :=
                    { s.pyu with
                      disp := .waiting, command := none, payout := some { p with presented := true }
                      takeTimer := some (s.timer (s.grt.limits.takeTimeout * 1000)) } })
              hp (State.payoutSound_swap hs hpay (q := { p with presented := true }) rfl rfl rfl rfl rfl rfl rfl) rfl _
          · exact hs
        case trayEmpty =>
          unfold Cash.trayEmpty
          split
          · exact State.payoutEnd_sound hp hs ‹_› rfl
          · exact hs
        case takeTimeout =>
          unfold Cash.takeTimeout
          split
          · rename_i waiting _
            cases hpay : s.pyu.payout with
            | none =>
              have := hs.1
              rw [hpay, waiting] at this
              cases this
            | some p => exact State.payoutSound_swap hs hpay rfl rfl hpay rfl rfl rfl rfl
          · exact hs
        case retracted k =>
          unfold Cash.retracted
          split
          · unfold State.retractEnds
            repeat' split
            all_goals exact State.payoutEnd_sound hp hs ‹_› rfl
          · rename_i st
            exact State.recoveryEnds_sound hs (hs.idle (by rw [st]; rfl)) rfl
          · exact hs
        case jam =>
          unfold Cash.jam
          split
          · exact State.payoutStops_sound hp hs ‹_›
          · exact State.payoutStops_sound hp hs ‹_›
          · exact State.payoutStops_sound hp hs ‹_›
          · exact State.payoutStops_sound hp hs ‹_›
          · rename_i st
            exact State.operationEnds_sound hs (hs.idle (by rw [st]; rfl)) (hs.recovered (by rw [st]; decide) (by rw [st]; decide)) rfl
          · rename_i st
            exact State.recoveryEnds_sound hs (hs.idle (by rw [st]; rfl)) rfl
          · exact hs
        case ready =>
          unfold Cash.ready
          split
          · rename_i st
            exact State.recoveryEnds_sound hs (hs.idle (by rw [st]; rfl)) rfl
          · exact hs
        case dispenserAnswerTimeout =>
          unfold Cash.answerTimeout
          split
          · exact hs
          · rename_i st
            exact State.recoveryEnds_sound hs (hs.idle (by rw [st]; rfl)) rfl
          · exact State.payoutStops_sound hp hs ‹_›
          · exact hs
        all_goals exact same work rfl (reach.pyu (by decide)) hp hs
      start := fun s w h =>
        ⟨(Works.start s w).table.placed (s.cleared_tkt w ▸ Tkt.afterReset_placed w _ h.1), State.startUp_sound w h.1 h.2⟩ }
  exact fun s t hp hs h => (kept.step (by decide) ⟨hp, hs⟩ h).2

end Sys2Proof.Machine
end

