-- ==== Sys2Proof/Proofs/Dates.lean ====
section
/-! PROOFS. The calendar counts on by one day and by one second, within its range (R179, R187). -/

namespace Sys2Proof.Machine

theorem monthLength_range (y m : Nat) : 28 ≤ monthLength y m ∧ monthLength y m ≤ 31 := by
  unfold monthLength
  repeat' split
  all_goals omega

theorem daysBefore_succ (y : Nat) {m : Nat} (h : 1 ≤ m) : daysBefore y (m + 1) = daysBefore y m + monthLength y m := by
  obtain ⟨k, rfl⟩ := Nat.exists_eq_add_of_le' h
  rfl

theorem daysBefore_december (y : Nat) : daysBefore y 12 = 334 + if y % 4 = 0 then 1 else 0 := by
  by_cases h : y % 4 = 0 <;> simp [daysBefore, monthLength, isLeap, h]

theorem Date.legal_iff (d : Date) :
    d.legal = true ↔ 2000 ≤ d.year ∧ d.year ≤ 2099 ∧ 1 ≤ d.month ∧ d.month ≤ 12 ∧ 1 ≤ d.day ∧ d.day ≤ monthLength d.year d.month := by
  simp [Date.legal]

/-- The last date of the calendar. -/
def lastDate : Date := ⟨2099, 12, 31⟩

theorem Date.next_lastDate : lastDate.next = lastDate := by decide

theorem Date.next_legal {d : Date} (h : d.legal = true) : d.next.legal = true := by
  have := monthLength_range d.year (d.month + 1)
  obtain ⟨y1, y2, m1, m2, d1, d2⟩ := (Date.legal_iff d).mp h
  unfold Date.next
  split
  · exact h
  · rename_i last
    split
    · exact (Date.legal_iff _).mpr ⟨y1, y2, m1, m2, by dsimp only; omega, by dsimp only; omega⟩
    · rename_i dayEnd
      split
      · exact (Date.legal_iff _).mpr ⟨y1, y2, by dsimp only; omega, by dsimp only; omega, le_rfl, by dsimp only; omega⟩
      · rename_i yearEnd
        have december : d.month = 12 := by omega
        have length : monthLength d.year 12 = 31 := by simp [monthLength]
        rw [december, length] at dayEnd d2
        have notLast : d.year ≠ 2099 := fun hy => last (by
          obtain ⟨y, m, dd⟩ := d
          dsimp only at hy december dayEnd d2
          simp only [Date.mk.injEq]
          omega)
        exact (Date.legal_iff _).mpr
          ⟨by dsimp only; omega, by dsimp only; omega, le_rfl, Nat.le_add_left _ _, le_rfl, by simp [monthLength]⟩

/-- The date after a date lies one day on (R187). -/
theorem Date.next_number {d : Date} (h : d.legal = true) (last : d ≠ lastDate) : d.next.number = d.number + 1 := by
  obtain ⟨y1, y2, m1, m2, d1, d2⟩ := (Date.legal_iff d).mp h
  unfold Date.next
  rw [if_neg (show d ≠ ⟨2099, 12, 31⟩ from last)]
  split
  · simp only [Date.number]
    omega
  · rename_i dayEnd
    have day : d.day = monthLength d.year d.month := by omega
    split
    · simp only [Date.number, daysBefore_succ d.year m1]
      omega
    · have december : d.month = 12 := by omega
      rw [december] at day
      have length : monthLength d.year 12 = 31 := by simp [monthLength]
      simp only [Date.number, december, daysBefore_december, day, length]
      have january : daysBefore (d.year + 1) 1 = 0 := rfl
      rw [january]
      split <;> omega

theorem Date.number_lastDate : lastDate.number = 36524 := by decide

/-- No date of the calendar lies after the last. -/
theorem Date.number_le_last {d : Date} (h : d.legal = true) : d.number ≤ lastDate.number := by
  obtain ⟨y1, y2, m1, m2, d1, d2⟩ := (Date.legal_iff d).mp h
  have mono : daysBefore d.year d.month + monthLength d.year d.month ≤ 365 + if d.year % 4 = 0 then 1 else 0 := by
    have : ∀ m, 1 ≤ m → m ≤ 12 → daysBefore d.year m + monthLength d.year m ≤ 365 + if d.year % 4 = 0 then 1 else 0 := by
      intro m h1 h2
      by_cases leap : d.year % 4 = 0 <;> interval_cases m <;> simp [daysBefore, monthLength, isLeap, leap]
    exact this d.month m1 m2
  rw [Date.number_lastDate]
  unfold Date.number
  split at mono <;> omega

theorem Date.addDays_legal {d : Date} (h : d.legal = true) (n : Nat) : (d.addDays n).legal = true := by
  induction n with
  | zero => exact h
  | succ n ih => exact Date.next_legal ih

theorem Date.addDays_number {d : Date} (h : d.legal = true) (n : Nat) :
    (d.addDays n).number = min (d.number + n) lastDate.number := by
  induction n with
  | zero => rw [Date.addDays, Nat.add_zero, min_eq_left (Date.number_le_last h)]
  | succ n ih =>
    have legal := Date.addDays_legal h n
    rw [Date.addDays]
    by_cases last : d.addDays n = lastDate
    · rw [last] at ih ⊢
      rw [Date.next_lastDate]
      omega
    · rw [Date.next_number legal last]
      have := Date.number_le_last (Date.next_legal legal)
      rw [Date.next_number legal last] at this
      omega

theorem DateTime.legal_iff (t : DateTime) :
    t.legal = true ↔ t.date.legal = true ∧ t.hour ≤ 23 ∧ t.minute ≤ 59 ∧ t.second ≤ 59 := by
  simp [DateTime.legal]

theorem DateTime.next_legal {t : DateTime} (h : t.legal = true) : t.next.legal = true := by
  obtain ⟨date, hour, minute, second⟩ := (DateTime.legal_iff t).mp h
  unfold DateTime.next
  split
  · exact h
  · split
    · exact (DateTime.legal_iff _).mpr ⟨date, hour, minute, by dsimp only; omega⟩
    · split
      · exact (DateTime.legal_iff _).mpr ⟨date, hour, by dsimp only; omega, Nat.zero_le _⟩
      · split
        · exact (DateTime.legal_iff _).mpr ⟨date, by dsimp only; omega, Nat.zero_le _, Nat.zero_le _⟩
        · exact (DateTime.legal_iff _).mpr ⟨Date.next_legal date, Nat.zero_le _, Nat.zero_le _, Nat.zero_le _⟩

/-- One second on (R179). -/
theorem DateTime.next_number {t : DateTime} (h : t.legal = true) (last : t ≠ lastSecond) : t.next.number = t.number + 1 := by
  obtain ⟨date, hour, minute, second⟩ := (DateTime.legal_iff t).mp h
  unfold DateTime.next
  rw [if_neg last]
  split
  · simp only [DateTime.number, DateTime.date]
    omega
  · split
    · simp only [DateTime.number, DateTime.date]
      omega
    · split
      · simp only [DateTime.number, DateTime.date]
        omega
      · have notLast : t.date ≠ lastDate := fun e => last (by
          obtain ⟨y, m, d, hh, mm, ss⟩ := t
          simp only [DateTime.date, lastDate, Date.mk.injEq] at e
          simp only [lastSecond, DateTime.mk.injEq]
          dsimp only at *
          omega)
        have day := Date.next_number date notLast
        have midnight (d : Date) : d.atMidnight.number = d.number * 86400 := by
          simp [DateTime.number, Date.atMidnight, DateTime.date]
        rw [midnight, day]
        simp only [DateTime.number]
        omega

end Sys2Proof.Machine
end

