-- ==== Sys2Proof/Proofs/WeighingEffects.lean ====
section
/-! PROOFS. What the operations of a channel and of its deck leave, said once: the channel's record, the bridge's record, and the flags. -/

namespace Sys2Proof.Machine

/-! The end of a capture (R24) -/

/-- A channel after the end of the capture in flight, if there is one. -/
def ChannelState.afterEnd (c : ChannelState) (ch : Channel) (e : CaptureEnd) (w : Option Int) (a : Option Application) (now : Stamp) :
    ChannelState :=
  match c.capture with
  | none => c
  | some k =>
    { c with
      capture := none
      slot := some (k.port,
        { channel := ch, serial := k.serial, outcome := e, weight := w, fineAttempts := fineAttempts c.set.Rf k.attempt,
          coarseAttempts := coarseAttempts c.set.Rf k.attempt, time := now, application := a, ticket := k.ticket.map (·.number) }) }

/-- Whether the outcome is a weighing, which sets the captured mark (R38). -/
def CaptureEnd.weighs (e : CaptureEnd) : Bool := e == .captured || e == .capturedCoarse

/-- Whether the end of the capture in flight tells a port. -/
def ChannelState.tells (c : ChannelState) (p : Port) : Bool := c.capture.map (·.port) == some p

theorem State.endCapture_none {s : State} {ch : Channel} (h : (s.chan ch).capture = none) (e : CaptureEnd) (w : Option Int)
    (a : Option Application) : s.endCapture ch e w a = s := by
  simp only [State.endCapture, h]

theorem ChannelState.afterEnd_none {c : ChannelState} (h : c.capture = none) (ch : Channel) (e : CaptureEnd) (w : Option Int)
    (a : Option Application) (now : Stamp) : c.afterEnd ch e w a now = c := by
  simp only [ChannelState.afterEnd, h]

theorem State.chan_endCapture (s : State) (ch : Channel) (e : CaptureEnd) (w : Option Int) (a : Option Application) :
    (s.endCapture ch e w a).chan ch = (s.chan ch).afterEnd ch e w a s.stamp := by
  cases h : (s.chan ch).capture with
  | none => rw [State.endCapture_none h, ChannelState.afterEnd_none h]
  | some k => simp only [State.endCapture_chan h, ChannelState.afterEnd, h]

theorem State.bridge_endCapture (s : State) (b : Bridge) (e : CaptureEnd) (w : Option Int) (a : Option Application) :
    (s.endCapture b.channel e w a).bridge b =
      if (s.chan b.channel).capture.isSome && e.weighs then { s.bridge b with captured := true } else s.bridge b := by
  cases h : (s.chan b.channel).capture with
  | none => simp [State.endCapture_none h]
  | some k =>
    simp only [State.endCapture, h, Bridge.bridge?_channel, Option.isSome_some, Bool.true_and]
    by_cases weighs : e = .captured ∨ e = .capturedCoarse
    · simp [weighs, CaptureEnd.weighs]
    · simp [CaptureEnd.weighs, not_or.mp weighs]

theorem State.has_endCapture (s : State) (ch : Channel) (e : CaptureEnd) (w : Option Int) (a : Option Application) (p : Port)
    (f : EventFlag) :
    ((s.endCapture ch e w a).events p).has f = ((s.events p).has f || (decide (f = .captureEnd ch) && (s.chan ch).tells p)) := by
  have events (t : State) (evu : t.evu = s.evu) (q : Port) : (t.events q).has f = (s.events q).has f := by
    cases q <;> simp [State.events, evu]
  cases h : (s.chan ch).capture with
  | none => simp [ChannelState.tells, h, State.endCapture]
  | some k =>
    simp only [State.endCapture, h, State.has_latch, ChannelState.tells]
    congr 1
    refine events _ ?_ p
    split
    · split <;> simp
    · simp

/-- Ending a capture changes the capture and the slot of the record, and nothing else of it. -/
theorem ChannelState.afterEnd_eq (c : ChannelState) (ch : Channel) (e : CaptureEnd) (w : Option Int) (a : Option Application)
    (now : Stamp) : c.afterEnd ch e w a now = { c with capture := none, slot := (c.afterEnd ch e w a now).slot } := by
  cases h : c.capture with
  | none => rw [ChannelState.afterEnd_none h, ← h]
  | some k => simp only [ChannelState.afterEnd, h]

/-- The slot after the end of a capture, as the statements read it. -/
theorem ChannelState.afterEnd_slot {c : ChannelState} {k : Capture} (h : c.capture = some k) (ch : Channel) (e : CaptureEnd)
    (w : Option Int) (a : Option Application) (now : Stamp) :
    (c.afterEnd ch e w a now).slot.map (fun x => (x.1, x.2.outcome, x.2.serial, x.2.weight, x.2.application)) =
      some (k.port, e, k.serial, w, a) := by
  simp only [ChannelState.afterEnd, h, Option.map_some]

/-! The position of a deck (R35, R37) -/

theorem State.stamp_congr {s t : State} (h : t.clu = s.clu) : t.stamp = s.stamp := by rw [State.stamp, State.stamp, h]

theorem State.bridge_endCapture_position (s : State) (b b' : Bridge) (w : Option Int) (a : Option Application) (e : CaptureEnd)
    (h : e.weighs = false) : (s.endCapture b.channel e w a).bridge b' = s.bridge b' := by
  by_cases hb : b' = b
  · subst hb
    simp [State.bridge_endCapture, h]
  · exact (WeighingKeeps.endCapture s b.channel e w a).bridges b' (by simpa using Ne.symm hb)

/-- The positions whose entry latches DECK (R37). -/
def Position.told (p : Position) : Bool := decide (p = .onDeck ∨ p = .empty ∨ p = .fault)

/-- What a change of position leaves of the channel, of the bridge, and of the flags. -/
theorem State.setPosition_effect (s : State) (b : Bridge) (p : Position) (leaves : Bool)
    (hl : leaves = decide ((s.bridge b).pos = .onDeck ∧ p ≠ .onDeck)) :
    (s.setPosition b p).chan b.channel =
        (if leaves then (s.chan b.channel).afterEnd b.channel .position none none s.stamp else s.chan b.channel) ∧
      (s.setPosition b p).bridge b =
        { s.bridge b with
          pos := p
          stretch := if p = .entering then some (s.timer s.dsu.stretchTime) else (s.bridge b).stretch
          captured := if leaves then false else (s.bridge b).captured } ∧
      ∀ q f, ((s.setPosition b p).events q).has f =
        ((s.events q).has f || (decide (f = .captureEnd b.channel) && (leaves && (s.chan b.channel).tells q))
          || (decide (f = .deck b) && p.told)) := by
  have hb := s.bridge_endCapture_position b b none none .position rfl
  have ended := WeighingKeeps.endCapture s b.channel .position none none
  have timer : (s.endCapture b.channel .position none none).timer (s.endCapture b.channel .position none none).dsu.stretchTime =
      s.timer s.dsu.stretchTime := by
    rw [State.timer, State.timer, ended.dsu, ended.blocks]
  have has := s.has_endCapture b.channel .position none none
  have chan := s.chan_endCapture b.channel .position none none
  have events (t : State) (x : BridgeState) (q : Port) : (t.setBridge b x).events q = t.events q := by cases q <;> simp [State.events]
  have timer_setBridge (t : State) (x : BridgeState) :
      (t.setBridge b x).timer (t.setBridge b x).dsu.stretchTime = t.timer t.dsu.stretchTime := by cases b <;> rfl
  subst hl
  unfold State.setPosition
  dsimp only
  by_cases leaves : (s.bridge b).pos = .onDeck ∧ p ≠ .onDeck
  · rw [if_pos leaves]
    obtain ⟨here, gone⟩ := leaves
    split
    · rename_i tells
      have told : p.told = true := decide_eq_true tells
      simp [hb, timer, chan, has, here, gone, told, State.has_latchBoth, events, timer_setBridge]
    · rename_i tells
      have told : p.told = false := decide_eq_false tells
      simp [hb, timer, chan, has, here, gone, told, events, timer_setBridge]
  · rw [if_neg leaves]
    simp only [leaves, decide_false, Bool.false_eq_true, if_false]
    split
    · rename_i tells
      have told : p.told = true := decide_eq_true tells
      simp [told, State.has_latchBoth, events]
    · rename_i tells
      have told : p.told = false := decide_eq_false tells
      simp [told, events]

/-! Occupancy (R11, R35) -/

/-- Both beams of a bridge are clear. -/
def State.beamsClear (s : State) (b : Bridge) : Bool := !s.beamBlocked b .entry && !s.beamBlocked b .exit

/-- The position a change of occupancy leads to (R35). -/
def Position.onOccupancy (p : Position) (clear occupied : Bool) : Position :=
  match p with
  | .empty => if occupied && clear then .onDeck else .empty
  | .onDeck => if occupied then .onDeck else .empty
  | held => held

/-- The position of a bridge once its channel's occupancy has been decided (R11, R35). -/
def State.positionAt (s : State) (b : Bridge) (occupied : Bool) : Position :=
  if (s.chan b.channel).occupied = occupied then (s.bridge b).pos else (s.bridge b).pos.onOccupancy (s.beamsClear b) occupied

/-- Whether the deck leaves ON_DECK as its channel's occupancy is decided. -/
def State.vacatesDeck (s : State) (b : Bridge) (occupied : Bool) : Bool :=
  (s.chan b.channel).occupied && !occupied && decide ((s.bridge b).pos = .onDeck)

theorem State.vacatesDeck_eq (s : State) (b : Bridge) (occupied : Bool) :
    s.vacatesDeck b occupied = decide ((s.bridge b).pos = .onDeck ∧ s.positionAt b occupied ≠ .onDeck) := by
  unfold State.vacatesDeck State.positionAt Position.onOccupancy
  cases (s.chan b.channel).occupied <;> cases occupied <;> cases (s.bridge b).pos <;> simp

/-- The end of a capture and the occupancy of its channel are apart. -/
theorem ChannelState.afterEnd_occupied (c : ChannelState) (occupied : Bool) (ch : Channel) (e : CaptureEnd) (w : Option Int)
    (a : Option Application) (now : Stamp) :
    ({ c with occupied := occupied } : ChannelState).afterEnd ch e w a now = { c.afterEnd ch e w a now with occupied := occupied } := by
  cases h : c.capture <;> simp only [ChannelState.afterEnd, h]

@[simp] theorem State.beamBlocked_setChan (s : State) (ch : Channel) (c : ChannelState) (b : Bridge) (side : Side) :
    (s.setChan ch c).beamBlocked b side = s.beamBlocked b side := by
  simp [State.beamBlocked, State.served]

theorem State.events_setChan (s : State) (ch : Channel) (c : ChannelState) (p : Port) : (s.setChan ch c).events p = s.events p := by
  cases p <;> simp [State.events]

theorem State.stamp_setChan (s : State) (ch : Channel) (c : ChannelState) : (s.setChan ch c).stamp = s.stamp :=
  State.stamp_congr (by simp)

/-- What a decided occupancy leaves of a bridge's channel, of the bridge, and of the flags. -/
theorem State.setOccupied_effect (s : State) (b : Bridge) (occupied : Bool) :
    (s.setOccupied b.channel occupied).chan b.channel =
        { (if s.vacatesDeck b occupied then (s.chan b.channel).afterEnd b.channel .position none none s.stamp
          else s.chan b.channel) with occupied := occupied } ∧
      (s.setOccupied b.channel occupied).bridge b =
        { s.bridge b with
          pos := s.positionAt b occupied
          captured := if s.vacatesDeck b occupied then false else (s.bridge b).captured } ∧
      ∀ q f, ((s.setOccupied b.channel occupied).events q).has f =
        ((s.events q).has f || (decide (f = .captureEnd b.channel) && (s.vacatesDeck b occupied && (s.chan b.channel).tells q))
          || (decide (f = .deck b) && decide (s.positionAt b occupied ≠ (s.bridge b).pos))) := by
  by_cases same : (s.chan b.channel).occupied = occupied
  · have stays : s.vacatesDeck b occupied = false := by rw [State.vacatesDeck_eq]; simp [State.positionAt, same]
    subst same
    simp [State.setOccupied, State.positionAt, stays]
  · let s1 := s.setChan b.channel { s.chan b.channel with occupied := occupied }
    have changed : s.setOccupied b.channel occupied = s1.occupancyChange b.channel := by
      rw [State.setOccupied]; exact if_neg same
    have bridge1 : s1.bridge b = s.bridge b := by simp [s1]
    have chan1 : s1.chan b.channel = { s.chan b.channel with occupied := occupied } := by simp [s1]
    have clear1 : s1.beamsClear b = s.beamsClear b := by simp [s1, State.beamsClear]
    have events1 (q : Port) : s1.events q = s.events q := State.events_setChan ..
    have stamp1 : s1.stamp = s.stamp := State.stamp_setChan ..
    have at_ : s.positionAt b occupied = (s.bridge b).pos.onOccupancy (s.beamsClear b) occupied := if_neg same
    have move (p : Position) := s1.setPosition_effect b p _ rfl
    have tells1 (q : Port) : ({ s.chan b.channel with occupied := occupied } : ChannelState).tells q = (s.chan b.channel).tells q := rfl
    rw [changed, State.vacatesDeck_eq, at_]
    simp only [State.occupancyChange, Bridge.bridge?_channel, bridge1, chan1, Position.onOccupancy]
    simp only [bridge1, chan1, events1, stamp1, ChannelState.afterEnd_occupied, tells1] at move
    have clear1' : (occupied && !s1.beamBlocked b .entry && !s1.beamBlocked b .exit) = (occupied && s.beamsClear b) := by
      rw [← clear1, State.beamsClear, Bool.and_assoc]
    rw [clear1']
    cases hp : (s.bridge b).pos with
    | empty =>
      by_cases h : (occupied && s.beamsClear b) = true
      · simp [h, move, hp, Position.told]
      · simp [h, bridge1, chan1, events1, ← hp]
    | onDeck =>
      cases occupied
      · simp [move, hp, Position.told]
      · simp [bridge1, chan1, events1, ← hp]
    | entering => simp [bridge1, chan1, events1, ← hp]
    | leaving => simp [bridge1, chan1, events1, ← hp]
    | fault => simp [bridge1, chan1, events1, ← hp]

/-- Whether a decided occupancy ends the capture of a channel POSITION: the platform, or the deck in ON_DECK, becomes vacant (R22). -/
def State.vacates (s : State) (ch : Channel) (occupied : Bool) : Bool :=
  match ch.bridge? with
  | some b => s.vacatesDeck b occupied
  | none => (s.chan ch).occupied && !occupied

/-- Whether a decided occupancy moves the deck a flag tells of. -/
def State.movesDeck (s : State) (ch : Channel) (occupied : Bool) (f : EventFlag) : Bool :=
  ch.bridge?.any fun b => decide (f = .deck b) && decide (s.positionAt b occupied ≠ (s.bridge b).pos)

theorem State.setOccupied_platform {s : State} {ch : Channel} (h : ch.bridge? = none) (occupied : Bool) :
    s.setOccupied ch occupied = s.setChan ch { s.chan ch with occupied := occupied } := by
  unfold State.setOccupied State.occupancyChange
  dsimp only
  by_cases same : (s.chan ch).occupied = occupied
  · rw [if_pos same, ← same, State.setChan_chan]
  · rw [if_neg same, h]

/-- What the occupancy step of a good sample leaves of its channel, of its bridge, and of the flags. -/
theorem State.decideOccupancy_effect (s : State) (ch : Channel) (occupied : Bool) (ho : occupied = (s.chan ch).occupancy) :
    (s.decideOccupancy ch).chan ch =
        { (if s.vacates ch occupied then (s.chan ch).afterEnd ch .position none none s.stamp else s.chan ch) with
          occupied := occupied } ∧
      (∀ b, ch.bridge? = some b → (s.decideOccupancy ch).bridge b =
        { s.bridge b with
          pos := s.positionAt b occupied
          captured := if s.vacatesDeck b occupied then false else (s.bridge b).captured }) ∧
      ∀ q f, ((s.decideOccupancy ch).events q).has f =
        ((s.events q).has f || (decide (f = .captureEnd ch) && (s.vacates ch occupied && (s.chan ch).tells q))
          || s.movesDeck ch occupied f) := by
  unfold State.decideOccupancy State.vacates State.movesDeck
  dsimp only
  rw [← ho]
  cases hb : ch.bridge? with
  | some b =>
    obtain rfl := Channel.eq_of_bridge? hb
    obtain ⟨chan, bridge, has⟩ := s.setOccupied_effect b occupied
    simp only [Option.isNone_some, Bool.false_eq_true, false_and, if_false, Option.any_some]
    refine ⟨chan, ?_, has⟩
    rintro b' ⟨⟩
    trivial
  | none =>
    simp only [State.setOccupied_platform hb, Option.isNone_none, true_and, Option.any_none, Bool.or_false]
    refine ⟨?_, nofun, ?_⟩
    · by_cases vacates : (s.chan ch).occupied ∧ (!occupied) = true
      · simp [vacates, State.chan_endCapture, ChannelState.afterEnd_occupied, State.stamp_setChan]
      · rw [if_neg vacates]
        simp only [Bool.and_eq_true, vacates, if_false, State.chan_setChan]
    · intro q f
      by_cases vacates : (s.chan ch).occupied ∧ (!occupied) = true
      · have tells : ({ s.chan ch with occupied := occupied } : ChannelState).tells q = (s.chan ch).tells q := rfl
        rw [if_pos vacates, State.has_endCapture, State.chan_setChan, State.events_setChan, tells, Bool.and_eq_true_iff.mpr vacates,
          Bool.true_and]
      · rw [if_neg vacates, Bool.eq_false_iff.mpr (fun h => vacates (Bool.and_eq_true_iff.mp h)), State.events_setChan]
        simp

/-! What a good sample ends (R22) -/

/-- A channel whose capture in flight, if there is one, ends with an outcome where the sample gives one. -/
def ChannelState.endsBy (c : ChannelState) (ch : Channel) (e : Option CaptureEnd) (now : Stamp) : ChannelState :=
  match e with
  | some e => c.afterEnd ch e none none now
  | none => c

/-- The outcome a good sample ends a capture with: by its live report first, and then by the occupancy it decides (R22, log 30). -/
def State.sampleEnds (s : State) (ch : Channel) : Option CaptureEnd :=
  match (s.chan ch).live with
  | .over => some .overload
  | .under => some .underload
  | _ => if s.vacates ch (s.chan ch).occupancy then some .position else none

/-- What stays as it is when a capture ends: the occupancy of the channel, and the positions. -/
theorem State.endCapture_keeps (s : State) (ch : Channel) (e : CaptureEnd) (he : e.weighs = false) :
    ((s.endCapture ch e none none).chan ch).occupied = (s.chan ch).occupied ∧
      (∀ b, (s.endCapture ch e none none).bridge b = s.bridge b) ∧
      ∀ b, (s.endCapture ch e none none).beamsClear b = s.beamsClear b := by
  have keeps := WeighingKeeps.endCapture s ch e none none
  refine ⟨by rw [State.chan_endCapture, ChannelState.afterEnd_eq], fun b => ?_, fun b => ?_⟩
  · by_cases hb : ch.bridge? = some b
    · obtain rfl := Channel.eq_of_bridge? hb
      exact s.bridge_endCapture_position b b none none e he
    · exact keeps.bridges b hb
  · rw [State.beamsClear, State.beamsClear, State.beamBlocked, State.beamBlocked, State.served, State.served, keeps.dsu]
    rfl

/-- A channel whose capture has ended has none to end. -/
theorem ChannelState.afterEnd_capture (c : ChannelState) (ch : Channel) (e : CaptureEnd) (w : Option Int) (a : Option Application)
    (now : Stamp) : (c.afterEnd ch e w a now).capture = none := by
  rw [ChannelState.afterEnd_eq]

/-- What the live report and the occupancy of a good sample leave of its channel, of its bridge, and of the flags. -/
structure State.SampleJudged (s : State) (ch : Channel) (occupied : Bool) (ends : Option CaptureEnd) (t : State) : Prop where
  chan : t.chan ch = { (s.chan ch).endsBy ch ends s.stamp with occupied := occupied }
  bridge : ∀ b, ch.bridge? = some b → t.bridge b =
    { s.bridge b with
      pos := s.positionAt b occupied, captured := if s.vacatesDeck b occupied then false else (s.bridge b).captured }
  has : ∀ q f, (t.events q).has f =
    ((s.events q).has f || (decide (f = .captureEnd ch) && (ends.isSome && (s.chan ch).tells q)) || s.movesDeck ch occupied f)

/-- The occupancy of a sample that has ended the capture already. -/
theorem State.decideOccupancy_ended (s : State) (ch : Channel) (occupied : Bool) (ho : occupied = (s.chan ch).occupancy)
    (e : CaptureEnd) (he : e.weighs = false) :
    s.SampleJudged ch occupied (some e) ((s.endCapture ch e none none).decideOccupancy ch) := by
  have chan := s.chan_endCapture ch e none none
  obtain ⟨occ, bridges, clear⟩ := s.endCapture_keeps ch e he
  have ho' : occupied = ((s.endCapture ch e none none).chan ch).occupancy := by
    rw [ho, chan, ChannelState.afterEnd_eq]; rfl
  have noCapture : ((s.endCapture ch e none none).chan ch).capture = none := by rw [chan, ChannelState.afterEnd_capture]
  have tells (q : Port) : ((s.endCapture ch e none none).chan ch).tells q = false := by rw [ChannelState.tells, noCapture]; rfl
  have deck (b : Bridge) (hb : ch.bridge? = some b) :
      (s.endCapture ch e none none).positionAt b occupied = s.positionAt b occupied ∧
        (s.endCapture ch e none none).vacatesDeck b occupied = s.vacatesDeck b occupied := by
    obtain rfl := Channel.eq_of_bridge? hb
    simp only [State.positionAt, State.vacatesDeck, occ, bridges, clear, and_self]
  have moves (f : EventFlag) : (s.endCapture ch e none none).movesDeck ch occupied f = s.movesDeck ch occupied f := by
    unfold State.movesDeck
    cases hb : ch.bridge? with
    | none => rfl
    | some b => simp only [Option.any_some, (deck b hb).1, bridges]
  obtain ⟨chan', bridge', has'⟩ := (s.endCapture ch e none none).decideOccupancy_effect ch occupied ho'
  refine ⟨?_, fun b hb => ?_, fun q f => ?_⟩
  · rw [chan', ChannelState.afterEnd_none noCapture, ite_self, chan]; rfl
  · rw [bridge' b hb, (deck b hb).1, (deck b hb).2, bridges]
  · rw [has', tells, moves, State.has_endCapture]; simp
theorem State.judgeSample_effect (s : State) (ch : Channel) (occupied : Bool) (ho : occupied = (s.chan ch).occupancy) :
    s.SampleJudged ch occupied (s.sampleEnds ch) ((s.endOutOfRange ch).decideOccupancy ch) := by
  have within (out : s.endOutOfRange ch = s) (ends : s.sampleEnds ch = if s.vacates ch occupied then some .position else none) :
      s.SampleJudged ch occupied (s.sampleEnds ch) ((s.endOutOfRange ch).decideOccupancy ch) := by
    obtain ⟨chan, bridge, has⟩ := s.decideOccupancy_effect ch occupied ho
    rw [out, ends]
    refine ⟨?_, bridge, fun q f => ?_⟩
    · rw [chan]; cases s.vacates ch occupied <;> rfl
    · rw [has]; cases s.vacates ch occupied <;> rfl
  have ended (e : CaptureEnd) (he : e.weighs = false) (out : s.endOutOfRange ch = s.endCapture ch e none none)
      (ends : s.sampleEnds ch = some e) : s.SampleJudged ch occupied (s.sampleEnds ch) ((s.endOutOfRange ch).decideOccupancy ch) := by
    rw [out, ends]
    exact s.decideOccupancy_ended ch occupied ho e he
  match live : (s.chan ch).live with
  | .over => exact ended .overload rfl (by simp only [State.endOutOfRange, live]) (by simp only [State.sampleEnds, live])
  | .under => exact ended .underload rfl (by simp only [State.endOutOfRange, live]) (by simp only [State.sampleEnds, live])
  | .absent => exact within (by simp only [State.endOutOfRange, live]) (by simp only [State.sampleEnds, live, ho])
  | .weight w => exact within (by simp only [State.endOutOfRange, live]) (by simp only [State.sampleEnds, live, ho])

end Sys2Proof.Machine
end

