-- ==== Sys2Proof/Proofs/SampleEffects.lean ====
section
/-! PROOFS. What a sample leaves (R1): its steps one by one, and the sample as a command. -/

namespace Sys2Proof.Machine

/-! Past the capture (R20) -/

/-- Two states that differ, of a channel, in its capture and its slot, of a bridge in its captured mark, and of the flags in CAPTURE_END
of the channel. -/
structure State.CaptureAside (s : State) (ch : Channel) (t : State) : Prop where
  chan : t.chan ch = { s.chan ch with capture := (t.chan ch).capture, slot := (t.chan ch).slot }
  bridge : ∀ b, t.bridge b = { s.bridge b with captured := (t.bridge b).captured }
  has : ∀ p f, f ≠ .captureEnd ch → (t.events p).has f = (s.events p).has f

theorem State.CaptureAside.refl (s : State) (ch : Channel) : s.CaptureAside ch s := ⟨rfl, fun _ => rfl, fun _ _ _ => rfl⟩

theorem State.CaptureAside.trans {s t u : State} {ch : Channel} (h : s.CaptureAside ch t) (g : t.CaptureAside ch u) :
    s.CaptureAside ch u where
  chan := by rw [g.chan, h.chan]
  bridge b := by rw [g.bridge, h.bridge]
  has p f hf := (g.has p f hf).trans (h.has p f hf)

theorem State.endCapture_aside (s : State) (ch : Channel) (e : CaptureEnd) (w : Option Int) (a : Option Application) :
    s.CaptureAside ch (s.endCapture ch e w a) where
  chan := by rw [State.chan_endCapture, ChannelState.afterEnd_eq]
  bridge b := by
    by_cases hb : ch.bridge? = some b
    · obtain rfl := Channel.eq_of_bridge? hb
      rw [State.bridge_endCapture]
      split <;> rfl
    · rw [(WeighingKeeps.endCapture s ch e w a).bridges b hb]
  has p f hf := by rw [State.has_endCapture, decide_eq_false hf]; simp

theorem State.setChan_aside (s : State) (ch : Channel) (k : Option Capture) :
    s.CaptureAside ch (s.setChan ch { s.chan ch with capture := k }) where
  chan := by rw [State.chan_setChan]
  bridge b := by rw [State.bridge_setChan]
  has p f _ := by rw [State.events_setChan]

theorem State.withTickets_aside (s : State) (ch : Channel) (k : Tkt) : s.CaptureAside ch { s with tkt := k } where
  chan := by cases ch <;> rfl
  bridge b := by cases b <;> rfl
  has p f _ := by cases p <;> rfl

/-- The weighing a completed capture hands over (R24). -/
def State.weighingOf (s : State) (ch : Channel) (k : Capture) : Weighing :=
  { channel := ch, weight := weighed (s.chan ch).set (s.chan ch).z (sumInt k.samples) (s.chan ch).set.M
    division := (s.chan ch).set.d, calCounter := (s.chan ch).set.calCounter, serial := k.serial, time := s.stamp
    coarse := k.coarse (s.chan ch).set }

/-- What a completed capture leaves: a capture ended with no weight where its weight is out of range, and else a weighing handed over. -/
theorem State.completeCapture_cases (s : State) (ch : Channel) (k : Capture) :
    (reported (s.chan ch).set (s.weighingOf ch k).weight = .over ∧ s.completeCapture ch k = s.endCapture ch .overload none none) ∨
    (reported (s.chan ch).set (s.weighingOf ch k).weight = .under ∧ s.completeCapture ch k = s.endCapture ch .underload none none) ∨
    (reported (s.chan ch).set (s.weighingOf ch k).weight = .weight (s.weighingOf ch k).weight ∧
      s.completeCapture ch k =
        (s.handOver k.ticket (s.weighingOf ch k) k.grade k.tare).1.endCapture ch
          (if k.coarse (s.chan ch).set then .capturedCoarse else .captured) (some (s.weighingOf ch k).weight)
          (some (s.handOver k.ticket (s.weighingOf ch k) k.grade k.tare).2)) := by
  unfold State.completeCapture
  dsimp only
  have cases_ : reported (s.chan ch).set (s.weighingOf ch k).weight = .over ∨
      reported (s.chan ch).set (s.weighingOf ch k).weight = .under ∨
      reported (s.chan ch).set (s.weighingOf ch k).weight = .weight (s.weighingOf ch k).weight := by
    unfold reported
    split
    · exact .inl rfl
    · split
      · exact .inr (.inl rfl)
      · exact .inr (.inr rfl)
  rcases cases_ with h | h | h
  · exact .inl ⟨h, by rw [State.weighingOf] at h; rw [h]⟩
  · exact .inr (.inl ⟨h, by rw [State.weighingOf] at h; rw [h]⟩)
  · exact .inr (.inr ⟨h, by rw [State.weighingOf] at h; rw [h]; rfl⟩)

theorem State.completeCapture_aside (s : State) (ch : Channel) (k : Capture) : s.CaptureAside ch (s.completeCapture ch k) := by
  rcases s.completeCapture_cases ch k with ⟨-, h⟩ | ⟨-, h⟩ | ⟨-, h⟩
  · rw [h]; exact s.endCapture_aside ..
  · rw [h]; exact s.endCapture_aside ..
  · obtain ⟨tkt, handed, -⟩ := s.handOver_frame k.ticket (s.weighingOf ch k) k.grade k.tare
    rw [h, handed]
    exact (s.withTickets_aside ch tkt).trans (State.endCapture_aside ..)

theorem State.testCapture_none {s : State} {ch : Channel} (h : (s.chan ch).capture = none) (raw : Int) : s.testCapture ch raw = s := by
  simp only [State.testCapture, h]

theorem State.testCapture_aside (s : State) (ch : Channel) (raw : Int) : s.CaptureAside ch (s.testCapture ch raw) := by
  unfold State.testCapture
  dsimp only
  split
  · exact .refl s ch
  · split
    · exact (s.setChan_aside ch _).trans (State.completeCapture_aside ..)
    · exact s.setChan_aside ch _

/-! The zero-tracking block (R13) -/

/-- The working zero a full block leaves. -/
def ChannelState.blockZero (c : ChannelState) (k : ZeroBlock) : Int :=
  if k.qualifies c.set c.z && zeroBound c.set (rawMean k.samples) then rawMean k.samples else c.z

/-- The ZERO_DRIFT mark a full block leaves. -/
def ChannelState.blockDrift (c : ChannelState) (k : ZeroBlock) : Bool :=
  c.drift || (k.qualifies c.set c.z && decide (rawMean k.samples ≠ c.z) && !zeroBound c.set (rawMean k.samples))

/-- States alike but for one channel and its CHANNEL flag. -/
structure State.ChannelAlone (s : State) (ch : Channel) (c : ChannelState) (told : Bool) (t : State) : Prop where
  chan : t.chan ch = c
  bridge : ∀ b, t.bridge b = s.bridge b
  has : ∀ p f, (t.events p).has f = ((s.events p).has f || (decide (f = .channel ch) && told))
  tkt : t.tkt = s.tkt
  clu : t.clu = s.clu

theorem State.setChan_alone (s : State) (ch : Channel) (c : ChannelState) : s.ChannelAlone ch c false (s.setChan ch c) where
  chan := s.chan_setChan ch c
  bridge b := by simp
  has p f := by rw [State.events_setChan]; simp
  tkt := by simp
  clu := by simp

theorem State.enter_alone (s : State) (ch : Channel) (c : ChannelState) (st : ChannelSt) :
    s.ChannelAlone ch { c with st := st } true (s.enter ch c st) where
  chan := by simp [State.enter]
  bridge b := by simp [State.enter]
  has p f := by rw [State.enter, State.has_latchBoth, State.events_setChan, Bool.and_true]
  tkt := by simp [State.enter]
  clu := by simp [State.enter]

theorem State.setDrift_alone (s : State) (ch : Channel) (drift : Bool) :
    s.ChannelAlone ch { s.chan ch with drift := drift } (decide (drift ≠ (s.chan ch).drift)) (s.setDrift ch drift) := by
  unfold State.setDrift
  dsimp only
  by_cases same : (s.chan ch).drift = drift
  · subst same
    simpa using (⟨rfl, fun _ => rfl, fun _ _ => by simp, rfl, rfl⟩ : s.ChannelAlone ch (s.chan ch) false s)
  · rw [if_neg same, decide_eq_true (Ne.symm same)]
    have set := s.setChan_alone ch { s.chan ch with drift := drift }
    exact ⟨by simp, by simp, fun p f => by rw [State.has_latchBoth, State.events_setChan, Bool.and_true], by simp, by simp⟩

theorem State.judgeBlock_alone (s : State) (ch : Channel) (k : ZeroBlock) (c : ChannelState) (hc : c = s.chan ch) :
    s.ChannelAlone ch { c with z := c.blockZero k, drift := c.blockDrift k } (decide (c.blockDrift k ≠ c.drift))
      (s.judgeBlock ch k) := by
  subst hc
  unfold State.judgeBlock ChannelState.blockZero ChannelState.blockDrift
  dsimp only
  have same : s.ChannelAlone ch (s.chan ch) false s := ⟨rfl, fun _ => rfl, fun _ _ => by simp, rfl, rfl⟩
  cases fits : k.qualifies (s.chan ch).set (s.chan ch).z with
  | false => simpa using same
  | true =>
    by_cases still : rawMean k.samples = (s.chan ch).z
    · simpa [still] using same
    · cases bound : zeroBound (s.chan ch).set (rawMean k.samples) with
      | true => simpa [still] using s.setChan_alone ch { s.chan ch with z := rawMean k.samples }
      | false => simpa [still] using s.setDrift_alone ch true

/-- A channel after a good sample in ACTIVE has joined its zero-tracking block. -/
def ChannelState.tracked (c : ChannelState) (k : ZeroBlock) : ChannelState :=
  if k.samples.length < c.set.M then { c with block := k }
  else { c with block := emptyBlock, z := c.blockZero k, drift := c.blockDrift k }

theorem State.track_alone (s : State) (ch : Channel) (x : Sample) (capturing : Bool) (k : ZeroBlock)
    (hk : k = ⟨(s.chan ch).block.samples ++ [x], (s.chan ch).block.disqualified || capturing || s.awayFromZero ch⟩) :
    s.ChannelAlone ch ((s.chan ch).tracked k) (decide (((s.chan ch).tracked k).drift ≠ (s.chan ch).drift))
      (s.track ch x capturing) := by
  have tracks : s.track ch x capturing =
      if k.samples.length < (s.chan ch).set.M then s.setChan ch { s.chan ch with block := k }
      else (s.setChan ch { s.chan ch with block := emptyBlock }).judgeBlock ch k := by subst hk; rfl
  rw [tracks]
  unfold ChannelState.tracked
  split
  · simpa using s.setChan_alone ch { s.chan ch with block := k }
  · have judged := (s.setChan ch { s.chan ch with block := emptyBlock }).judgeBlock_alone ch k _ rfl
    rw [State.chan_setChan] at judged
    have set := s.setChan_alone ch { s.chan ch with block := emptyBlock }
    exact ⟨judged.chan, fun b => (judged.bridge b).trans (set.bridge b), fun p f => by rw [judged.has, State.events_setChan]; rfl,
      judged.tkt.trans set.tkt, judged.clu.trans set.clu⟩

/-! The count of STARTING (R7) -/

/-- A channel in STARTING after one more good sample. -/
def ChannelState.counted (c : ChannelState) : ChannelState :=
  if c.goodCount + 1 < c.set.M then { c with goodCount := c.goodCount + 1 }
  else { c with goodCount := c.goodCount + 1, block := emptyBlock, stable := c.steady, st := .active }

theorem State.countStarting_alone (s : State) (ch : Channel) :
    s.ChannelAlone ch (s.chan ch).counted (decide ((s.chan ch).set.M ≤ (s.chan ch).goodCount + 1)) (s.countStarting ch) := by
  unfold State.countStarting ChannelState.counted
  dsimp only
  split
  · rename_i few
    rw [decide_eq_false (by omega)]
    exact s.setChan_alone ch _
  · rename_i enough
    rw [decide_eq_true (by omega)]
    exact s.enter_alone ch
      { s.chan ch with goodCount := (s.chan ch).goodCount + 1, block := emptyBlock, stable := (s.chan ch).steady } .active

/-! The steps of a good sample together (R1) -/

/-- The count and the zero-tracking block of a good sample, by the state of its channel. -/
def ChannelState.staged (c : ChannelState) (k : ZeroBlock) : ChannelState :=
  match c.st with
  | .starting => c.counted
  | .active => c.tracked k
  | _ => c

theorem ChannelState.counted_aside (c : ChannelState) (capture : Option Capture) (slot : Option (Port × CaptureOutcome)) :
    ({ c with capture := capture, slot := slot } : ChannelState).counted = { c.counted with capture := capture, slot := slot } := by
  unfold ChannelState.counted
  dsimp only
  split <;> rfl

theorem ChannelState.tracked_aside (c : ChannelState) (k : ZeroBlock) (capture : Option Capture) (slot : Option (Port × CaptureOutcome)) :
    ({ c with capture := capture, slot := slot } : ChannelState).tracked k = { c.tracked k with capture := capture, slot := slot } := by
  unfold ChannelState.tracked
  dsimp only
  split <;> rfl

theorem ChannelState.staged_aside (c : ChannelState) (k : ZeroBlock) (capture : Option Capture) (slot : Option (Port × CaptureOutcome)) :
    ({ c with capture := capture, slot := slot } : ChannelState).staged k = { c.staged k with capture := capture, slot := slot } := by
  unfold ChannelState.staged
  dsimp only
  split
  · exact c.counted_aside ..
  · exact c.tracked_aside ..
  · rfl

/-- The block a good sample leaves its channel to judge. -/
def State.blockWith (s : State) (ch : Channel) (x : Sample) (capturing : Bool) : ZeroBlock :=
  ⟨(s.chan ch).block.samples ++ [x], (s.chan ch).block.disqualified || capturing || s.awayFromZero ch⟩

/-- Whether a stage changes what CHANNEL tells of (R10). -/
def ChannelState.differs (c d : ChannelState) : Bool := decide (d.st ≠ c.st ∨ d.drift ≠ c.drift)

theorem State.stage_alone (s : State) (ch : Channel) (x : Sample) (capturing : Bool) :
    s.ChannelAlone ch ((s.chan ch).staged (s.blockWith ch x capturing))
      ((s.chan ch).differs ((s.chan ch).staged (s.blockWith ch x capturing)))
      (match (s.chan ch).st with
        | .starting => s.countStarting ch
        | .active => s.track ch x capturing
        | _ => s) := by
  have same : s.ChannelAlone ch (s.chan ch) ((s.chan ch).differs (s.chan ch)) s :=
    ⟨rfl, fun _ => rfl, fun _ _ => by simp [ChannelState.differs], rfl, rfl⟩
  unfold ChannelState.staged
  cases st : (s.chan ch).st with
  | starting =>
    dsimp only
    convert s.countStarting_alone ch using 1
    unfold ChannelState.differs ChannelState.counted
    split
    · simp; omega
    · simp [st]; omega
  | active =>
    dsimp only
    have tracked := s.track_alone ch x capturing _ rfl
    have told : (s.chan ch).differs ((s.chan ch).tracked (s.blockWith ch x capturing)) =
        decide (((s.chan ch).tracked (s.blockWith ch x capturing)).drift ≠ (s.chan ch).drift) := by
      unfold ChannelState.differs ChannelState.tracked
      split <;> simp
    rw [told]
    exact tracked
  | off => exact same
  | service => exact same
  | fault => exact same

/-- What a good sample at a channel leaves: the converted record, with the occupancy it decides, staged; the deck by that occupancy; and
the flags. -/
structure State.SampleTaken (s : State) (ch : Channel) (raw : Int) (t : State) (x : ChannelState) (occupied : Bool) (k : ZeroBlock) :
    Prop where
  chan : t.chan ch =
    { ({ x with occupied := occupied } : ChannelState).staged k with capture := (t.chan ch).capture, slot := (t.chan ch).slot }
  deck : ∀ b, ch.bridge? = some b →
    t.bridge b = { s.bridge b with pos := s.positionAt b occupied, captured := (t.bridge b).captured }
  channelFlag : ∀ p, (t.events p).has (.channel ch) =
    ((s.events p).has (.channel ch) || x.differs (({ x with occupied := occupied } : ChannelState).staged k))
  deckFlag : ∀ b p, ch.bridge? = some b → (t.events p).has (.deck b) =
    ((s.events p).has (.deck b) || decide (s.positionAt b occupied ≠ (s.bridge b).pos))
  block : k =
    ⟨x.block.samples ++ [⟨raw, fineWeight x.set x.z raw⟩], x.block.disqualified || x.capture.isSome ||
      (match ch.bridge? with
        | some b => decide (s.positionAt b occupied ≠ .empty)
        | none => occupied)⟩
  idle : x.capture = none → t.tkt = s.tkt ∧ (t.chan ch).capture = none ∧ (t.chan ch).slot = x.slot ∧
    (∀ p, (t.events p).has (.captureEnd ch) = (s.events p).has (.captureEnd ch)) ∧
    ∀ b, ch.bridge? = some b → (t.bridge b).captured = if s.vacatesDeck b occupied then false else (s.bridge b).captured

theorem State.positionAt_setChan (s : State) (ch : Channel) (x : ChannelState) (hx : x.occupied = (s.chan ch).occupied) (b : Bridge)
    (occupied : Bool) : (s.setChan ch x).positionAt b occupied = s.positionAt b occupied := by
  have occ : ((s.setChan ch x).chan b.channel).occupied = (s.chan b.channel).occupied := by
    by_cases same : b.channel = ch
    · subst same; rw [State.chan_setChan, hx]
    · rw [State.chan_setChan_of_ne _ _ same]
  simp [State.positionAt, State.beamsClear, occ]

theorem State.vacatesDeck_setChan (s : State) (ch : Channel) (x : ChannelState) (hx : x.occupied = (s.chan ch).occupied) (b : Bridge)
    (occupied : Bool) : (s.setChan ch x).vacatesDeck b occupied = s.vacatesDeck b occupied := by
  rw [State.vacatesDeck_eq, State.vacatesDeck_eq, s.positionAt_setChan ch x hx, State.bridge_setChan]

theorem ChannelState.endsBy_eq (c : ChannelState) (ch : Channel) (e : Option CaptureEnd) (now : Stamp) :
    c.endsBy ch e now = { c with capture := (c.endsBy ch e now).capture, slot := (c.endsBy ch e now).slot } := by
  cases e with
  | none => rfl
  | some e => rw [ChannelState.endsBy, ChannelState.afterEnd_eq]

theorem ChannelState.endsBy_none {c : ChannelState} (h : c.capture = none) (ch : Channel) (e : Option CaptureEnd) (now : Stamp) :
    c.endsBy ch e now = c := by
  cases e with
  | none => rfl
  | some e => exact ChannelState.afterEnd_none h ..

/-- What the steps of a good sample before the capture test leave: the converted record, with the occupancy it decides and the capture it
may end, staged; the deck by that occupancy; and the flags. -/
structure State.SampleStaged (s : State) (ch : Channel) (raw : Int) (t : State) (x : ChannelState) (occupied : Bool)
    (ends : Option CaptureEnd) (k : ZeroBlock) : Prop where
  chan : t.chan ch =
    { ({ x with occupied := occupied } : ChannelState).staged k with
      capture := (x.endsBy ch ends s.stamp).capture, slot := (x.endsBy ch ends s.stamp).slot }
  deck : ∀ b, ch.bridge? = some b →
    t.bridge b =
      { s.bridge b with
        pos := s.positionAt b occupied, captured := if s.vacatesDeck b occupied then false else (s.bridge b).captured }
  has : ∀ p f, (t.events p).has f =
    ((s.events p).has f || (decide (f = .captureEnd ch) && (ends.isSome && x.tells p)) || s.movesDeck ch occupied f ||
      (decide (f = .channel ch) && x.differs (({ x with occupied := occupied } : ChannelState).staged k)))
  tkt : t.tkt = s.tkt
  clu : t.clu = s.clu
  block : k =
    ⟨x.block.samples ++ [⟨raw, fineWeight x.set x.z raw⟩], x.block.disqualified || x.capture.isSome ||
      (match ch.bridge? with
        | some b => decide (s.positionAt b occupied ≠ .empty)
        | none => occupied)⟩

theorem State.goodSample_staged (s : State) (ch : Channel) (raw : Int) (x : ChannelState) (hx : x = (s.chan ch).convert raw) :
    ∃ s2 k, s.SampleStaged ch raw s2 x x.occupancy ((s.setChan ch x).sampleEnds ch) k ∧
      s.goodSample ch raw = s2.testCapture ch raw := by
  let s0 := s.setChan ch x
  have chan0 : s0.chan ch = x := s.chan_setChan ch x
  have occ0 : x.occupied = (s.chan ch).occupied := by rw [hx]; rfl
  have stamp0 : s0.stamp = s.stamp := State.stamp_setChan ..
  have judged := s0.judgeSample_effect ch x.occupancy (by rw [chan0])
  let s1 := (s0.endOutOfRange ch).decideOccupancy ch
  let sample : Sample := ⟨raw, fineWeight (s.chan ch).set (s.chan ch).z raw⟩
  have staged := s1.stage_alone ch sample (s.chan ch).capture.isSome
  have chan1 : s1.chan ch =
      { ({ x with occupied := x.occupancy } : ChannelState) with
        capture := (x.endsBy ch (s0.sampleEnds ch) s.stamp).capture, slot := (x.endsBy ch (s0.sampleEnds ch) s.stamp).slot } := by
    have := judged.chan
    rw [chan0, stamp0, ChannelState.endsBy_eq] at this
    exact this
  have stage : s.goodSample ch raw =
      (match (s1.chan ch).st with
        | .starting => s1.countStarting ch
        | .active => s1.track ch sample (s.chan ch).capture.isSome
        | _ => s1).testCapture ch raw := by
    have st : (s1.chan ch).st = ((s.chan ch).convert raw).st := by rw [chan1, ← hx]
    rw [st]
    subst hx
    rfl
  have reached : Reaches [.wch, .dsu, .evu] s s1 :=
    ((Reaches.setChan s ch x (by decide)).trans (Reaches.endOutOfRange _ ch (by decide))).trans
      (Reaches.decideOccupancy _ ch (by decide))
  generalize (match (s1.chan ch).st with
    | .starting => s1.countStarting ch
    | .active => s1.track ch sample (s.chan ch).capture.isSome
    | _ => s1) = s2 at stage staged
  have staged_eq : (s1.chan ch).staged (s1.blockWith ch sample (s.chan ch).capture.isSome) =
      { ({ x with occupied := x.occupancy } : ChannelState).staged (s1.blockWith ch sample (s.chan ch).capture.isSome) with
        capture := (x.endsBy ch (s0.sampleEnds ch) s.stamp).capture, slot := (x.endsBy ch (s0.sampleEnds ch) s.stamp).slot } := by
    rw [chan1, ChannelState.staged_aside]
  have pos (b : Bridge) : s0.positionAt b x.occupancy = s.positionAt b x.occupancy := s.positionAt_setChan ch x occ0 b _
  have bridge0 (b : Bridge) : s0.bridge b = s.bridge b := by simp [s0]
  have events0 (p : Port) : s0.events p = s.events p := State.events_setChan ..
  have moves (f : EventFlag) : s0.movesDeck ch x.occupancy f = s.movesDeck ch x.occupancy f := by
    simp only [State.movesDeck, pos, bridge0]
  refine ⟨s2, s1.blockWith ch sample (s.chan ch).capture.isSome, ⟨?_, ?_, ?_, ?_, ?_, ?_⟩, stage⟩
  · rw [staged.chan, staged_eq]
  · intro b hb
    rw [staged.bridge, judged.bridge b hb, pos, bridge0, s.vacatesDeck_setChan ch x occ0]
  · intro p f
    rw [staged.has, judged.has, staged_eq, chan1, moves, events0, chan0]
    rfl
  · rw [staged.tkt, reached.tkt (by decide)]
  · rw [staged.clu, reached.clu (by decide)]
  · have away : s1.awayFromZero ch =
        (match ch.bridge? with
          | some b => decide (s.positionAt b x.occupancy ≠ .empty)
          | none => x.occupancy) := by
      unfold State.awayFromZero
      cases hb : ch.bridge? with
      | none => dsimp only; rw [chan1]
      | some b => dsimp only; rw [judged.bridge b hb, pos]; cases s.positionAt b x.occupancy <;> rfl
    rw [State.blockWith, away, chan1, hx]
    rfl

theorem State.goodSample_taken (s : State) (ch : Channel) (raw : Int) (x : ChannelState) (hx : x = (s.chan ch).convert raw) :
    ∃ k, s.SampleTaken ch raw (s.goodSample ch raw) x x.occupancy k := by
  obtain ⟨s2, k, staged, tests⟩ := s.goodSample_staged ch raw x hx
  have aside := s2.testCapture_aside ch raw
  rw [← tests] at aside
  refine ⟨k, ?_, ?_, ?_, ?_, staged.block, ?_⟩
  · rw [aside.chan, staged.chan]
  · intro b hb
    rw [aside.bridge, staged.deck b hb]
  · intro p
    have moves : s.movesDeck ch x.occupancy (.channel ch) = false := by simp [State.movesDeck]
    rw [aside.has p _ (by simp), staged.has, moves]
    simp
  · intro b p hb
    have moves : s.movesDeck ch x.occupancy (.deck b) = decide (s.positionAt b x.occupancy ≠ (s.bridge b).pos) := by
      simp [State.movesDeck, hb]
    rw [aside.has p _ (by simp), staged.has, moves]
    simp
  · intro idle
    have ended (e : Option CaptureEnd) : x.endsBy ch e s.stamp = x := ChannelState.endsBy_none idle ..
    have noCapture : (s2.chan ch).capture = none := by rw [staged.chan, ended]; exact idle
    have same : s.goodSample ch raw = s2 := by rw [tests, State.testCapture_none noCapture]
    have tells (q : Port) : x.tells q = false := by rw [ChannelState.tells, idle]; rfl
    have moves : s.movesDeck ch x.occupancy (.captureEnd ch) = false := by simp [State.movesDeck]
    refine ⟨by rw [same, staged.tkt], by rw [same]; exact noCapture, by rw [same, staged.chan, ended], fun p => ?_, fun b hb => ?_⟩
    · rw [same, staged.has, tells, moves]; simp
    · rw [same, staged.deck b hb]

/-! A sample as a command (R1, R2) -/

/-- The record of a channel out of OFF as a good sample finds it: its signal timer restarted, out of FAULT in STARTING with a cleared
window, in SERVICE with its signal GOOD (R7, R8). -/
def ChannelState.arriving (c : ChannelState) (timer : Timer) : ChannelState :=
  match c.st with
  | .fault => { c.clearWindow with goodCount := 0, signalTimer := some timer, st := .starting }
  | .service => { c with signalTimer := some timer, signal := .good }
  | _ => { c with signalTimer := some timer }

/-- A good sample at a channel out of OFF is a good sample of the record it finds. -/
theorem State.sample_good (s : State) (ch : Channel) (raw : Int) (out : (s.chan ch).st ≠ .off) :
    ∃ s0, s.ChannelAlone ch ((s.chan ch).arriving (s.timer (signalTime ch))) (decide ((s.chan ch).st = .fault)) s0 ∧
      s.sample ch raw true = s0.goodSample ch raw ∧ s0.dsu = s.dsu := by
  have plain (c : ChannelState) (hc : (s.chan ch).arriving (s.timer (signalTime ch)) = c) (st : (s.chan ch).st ≠ .fault)
      (sampled : s.sample ch raw true = (s.setChan ch c).goodSample ch raw) :
      ∃ s0, s.ChannelAlone ch ((s.chan ch).arriving (s.timer (signalTime ch))) (decide ((s.chan ch).st = .fault)) s0 ∧
        s.sample ch raw true = s0.goodSample ch raw ∧ s0.dsu = s.dsu := by
    rw [hc, decide_eq_false st]
    exact ⟨_, s.setChan_alone ch c, sampled, by simp⟩
  cases st : (s.chan ch).st with
  | off => exact absurd st out
  | fault =>
    have arrives := s.enter_alone ch (s.timed ch { (s.chan ch).clearWindow with goodCount := 0 }) .starting
    refine ⟨_, ?_, by simp only [State.sample, st, if_true]; rfl, by simp [State.enter]⟩
    convert arrives using 1
    · simp only [ChannelState.arriving, st]; rfl
    · simp
  | service => rw [← st]; exact plain _ rfl (by simp [st]) (by simp only [State.sample, ChannelState.arriving, State.timed, st, if_true])
  | starting => rw [← st]; exact plain _ rfl (by simp [st]) (by simp only [State.sample, ChannelState.arriving, State.timed, st, if_true])
  | active => rw [← st]; exact plain _ rfl (by simp [st]) (by simp only [State.sample, ChannelState.arriving, State.timed, st, if_true])

theorem ChannelState.staged_st (c : ChannelState) (k : ZeroBlock) :
    (c.staged k).st = if c.st = .starting ∧ c.set.M ≤ c.goodCount + 1 then .active else c.st := by
  unfold ChannelState.staged
  split
  · rename_i st
    unfold ChannelState.counted
    split
    · rw [if_neg (by omega)]
    · rw [if_pos ⟨st, by omega⟩]
  · rename_i st
    unfold ChannelState.tracked
    split <;> simp [st]
  · rename_i st _
    rw [if_neg (fun h => st h.1)]

/-- A sample takes a channel neither into nor out of SERVICE. -/
theorem State.sample_service (s : State) (ch : Channel) (raw : Int) (ok : Bool) :
    ((s.sample ch raw ok).chan ch).st = .service ↔ (s.chan ch).st = .service := by
  by_cases off : (s.chan ch).st = .off
  · simp [State.sample, off]
  cases ok with
  | true =>
    obtain ⟨s0, alone, sampled, -⟩ := s.sample_good ch raw off
    obtain ⟨k, taken⟩ := s0.goodSample_taken ch raw _ rfl
    have st : ((s.sample ch raw true).chan ch).st = ((({ (s0.chan ch).convert raw with
        occupied := ((s0.chan ch).convert raw).occupancy } : ChannelState).staged k)).st := by
      rw [sampled, taken.chan]
    rw [st, ChannelState.staged_st, alone.chan]
    cases h : (s.chan ch).st <;> simp [ChannelState.convert, ChannelState.arriving, h] at *
    split <;> simp
    split <;> simp
  | false =>
    cases h : (s.chan ch).st <;>
      simp [State.sample, h, State.enterFault, State.enter, ChannelState.lose, ChannelState.clearWindow, State.timed]

theorem State.beginAlert_setNextPlatform (t before : State) (n : Platform) (src : AlertSource) :
    (t.setNextPlatform n).beginAlert before src = (t.beginAlert before src).setNextPlatform n := by
  have same : (t.setNextPlatform n).alertCondition src = t.alertCondition src := State.alertCondition_congr _ _ rfl rfl src
  unfold State.beginAlert
  rw [same]
  split
  · unfold State.markAlert
    dsimp only [State.setNextPlatform]
    split <;> rfl
  · rfl

theorem State.setNextPlatform_conclude (s t : State) (n : Platform) :
    s.conclude (t.setNextPlatform n) = (s.conclude t).setNextPlatform n := by
  simp only [State.conclude, State.beginAlerts, State.beginAlert_setNextPlatform]
  rfl

/-- A sample as a command: its effect on the channel it is delivered to, the turn the arbiter passes, and the judgement of lamps and
outputs. -/
theorem exec_digitizerSample {s : State} {dig : Digitizer} {ch : Channel} (power : s.powered = true) (delivers : s.deliversTo dig = some ch)
    (raw : Int) (ok : Bool) :
    ∃ n, exec (.digitizerSample dig raw ok) s = .next ((s.sample ch raw ok).settle.setNextPlatform n) ∧
      (ch.bridge?.isSome = true → n = s.wch.nextPlatform) ∧
      ∀ p : Platform, p.channel = ch → n = if (s.chan p.other.channel).st = .off then p else p.other := by
  have keeps := WeighingKeeps.sample s ch raw ok
  have settled := keeps.conclude (s.sample_service ch raw ok)
  cases dig with
  | bridge b =>
    obtain rfl : b.channel = ch := by simpa [State.deliversTo] using delivers
    refine ⟨s.wch.nextPlatform, ?_, fun _ => rfl, fun p hp => by cases p <;> cases b <;> cases hp⟩
    have same : (s.sample b.channel raw ok).settle.setNextPlatform s.wch.nextPlatform = (s.sample b.channel raw ok).settle := by
      rw [← keeps.nextPlatform]; rfl
    rw [same, ← settled]
    show Host.Outcome.next (if s.powered then s.conclude (s.sample b.channel raw ok) else s) = _
    rw [if_pos power]
  | platform =>
    obtain ⟨n, selected, rfl⟩ := Option.map_eq_some_iff.mp delivers
    have other : ((s.sample n.channel raw ok).chan n.other.channel).st = (s.chan n.other.channel).st := by
      rw [keeps.channels _ (by cases n <;> decide)]
    refine ⟨if (s.chan n.other.channel).st = .off then n else n.other, ?_, ?_, ?_⟩
    · have takes : Weigh.digitizerSample .platform raw ok s = (s.sample n.channel raw ok).setNextPlatform
          (if (s.chan n.other.channel).st = .off then n else n.other) := by
        simp only [Weigh.digitizerSample, selected, other, ne_eq, ite_not]
      show Host.Outcome.next (if s.powered then s.conclude (Weigh.digitizerSample .platform raw ok s) else s) = _
      rw [if_pos power, takes, State.setNextPlatform_conclude, settled]
    · cases n <;> exact nofun
    · intro p hp
      have : p = n := by cases p <;> cases n <;> first | rfl | cases hp
      rw [this]

end Sys2Proof.Machine
end

