-- ==== Sys2Proof/Proofs/Samples.lean ====
section
/-! PROOFS. The statements about samples and captures: O16, O18, O19, O20, O21, O22. -/

namespace Sys2Proof.Machine

/-! A sample delivered -/

/-- What the state after the command of a sample has in common with the state its channel's operation leaves. -/
structure State.SameWeighing (u t : State) : Prop where
  chan : ∀ o, t.chan o = u.chan o
  bridge : ∀ b, t.bridge b = u.bridge b
  evu : t.evu = u.evu
  tkt : t.tkt = u.tkt
  dsu : t.dsu = u.dsu

theorem State.SameWeighing.events {u t : State} (h : u.SameWeighing t) (p : Port) : t.events p = u.events p := by
  cases p <;> simp [State.events, h.evu]

theorem State.SameWeighing.settle (u : State) : u.SameWeighing u.settle :=
  ⟨fun o => by cases o <;> rfl, fun b => by cases b <;> rfl, rfl, rfl, rfl⟩

theorem State.SameWeighing.turned (u : State) (n : Platform) : u.SameWeighing (u.settle.setNextPlatform n) :=
  ⟨fun o => by cases o <;> rfl, fun b => by cases b <;> rfl, rfl, rfl, rfl⟩

theorem State.sampleKeeps_settle {s u : State} {ch : Channel} (h : s.sampleKeeps ch u) : s.sampleKeeps ch u.settle := by
  obtain ⟨blocks, dsu, alerts, others, set, serial, turn, flags⟩ := h
  have same := State.SameWeighing.settle u
  refine ⟨by rw [blocks]; rfl, dsu, alerts, fun o ho => (same.chan o).trans (others o ho), by rw [same.chan, set],
    by rw [same.chan, serial], turn, ?_⟩
  intro p
  rw [same.events]
  exact flags p

theorem State.sampleKeeps_turned {s u : State} {ch : Channel} (h : s.sampleKeeps ch u) (n : Platform)
    (hn : ch.bridge?.isSome = true → n = s.wch.nextPlatform) : s.sampleKeeps ch (u.settle.setNextPlatform n) := by
  obtain ⟨blocks, dsu, alerts, others, set, serial, -, flags⟩ := h
  have same := State.SameWeighing.turned u n
  refine ⟨by rw [blocks]; rfl, dsu, alerts, fun o ho => (same.chan o).trans (others o ho), by rw [same.chan, set],
    by rw [same.chan, serial], hn, ?_⟩
  intro p
  rw [same.events]
  exact flags p

/-- The state a delivered sample leaves. -/
theorem sample_delivered {s : State} {dig : Digitizer} {ch : Channel} (power : s.powered = true) (delivers : s.deliversTo dig = some ch)
    (raw : Int) (ok : Bool) :
    ∃ t, exec (.digitizerSample dig raw ok) s = .next t ∧ s.sampleKeeps ch t ∧ (s.sample ch raw ok).SameWeighing t := by
  obtain ⟨n, runs, turn, -⟩ := exec_digitizerSample power delivers raw ok
  exact ⟨_, runs, State.sampleKeeps_turned (WeighingKeeps.sample s ch raw ok).sampleKeeps n turn, .turned _ n⟩

/-! O16 -/

/-- Settles O16: the cases of `endCapture`, by the channel's bridge and by the outcome. -/
theorem captureEndLeavesOutcome : Obligations.CaptureEndLeavesOutcome := by
  unfold Obligations.CaptureEndLeavesOutcome
  rintro s ch k e weight app c rfl hk after rfl
  simp only [State.endCapture, hk]
  cases hb : ch.bridge? with
  | none => rfl
  | some b =>
    simp only [State.bridge_setChan]
    rfl

/-! O21 -/

/-- Settles O21: `State.selected` decides whom the shared digitizer's sample reaches, and `exec_digitizerSample` the turn. -/
theorem arbiterAlternatesPlatforms : Obligations.ArbiterAlternatesPlatforms := by
  unfold Obligations.ArbiterAlternatesPlatforms
  intro s raw ok power
  have idle (i : Instr) (f : State → State) (hi : exec i s = run f s) (hf : f s = s) : exec i s = .next s.settle := by
    rw [hi, run, if_pos power, hf, State.conclude, State.beginAlerts_of_same _ _ (State.sameConditions_of _ _ rfl rfl)]
  refine ⟨fun off2 off3 => idle _ _ rfl ?_, fun b off => idle _ _ rfl ?_, fun n out turn => ?_⟩
  · have none_ : s.selected = none := by
      unfold State.selected
      cases s.wch.nextPlatform <;> simp [Platform.channel, Platform.other, off2, off3]
    simp [Weigh.digitizerSample, none_]
  · simp [Weigh.digitizerSample, State.sample, off]
  · have delivers : s.deliversTo .platform = some n.channel := by
      have selected : s.selected = some n := by
        unfold State.selected
        rcases turn with turn | off
        · rw [turn]; exact if_pos out
        · by_cases same : s.wch.nextPlatform = n
          · rw [same]; exact if_pos out
          · have other : s.wch.nextPlatform = n.other := by
              cases h : s.wch.nextPlatform <;> cases n <;> simp_all [Platform.other]
            have back : n.other.other = n := by cases n <;> rfl
            simp [other, off, back, out]
      simp [State.deliversTo, selected]
    obtain ⟨m, runs, turned, passes⟩ := exec_digitizerSample power delivers raw ok
    exact ⟨_, runs, State.sampleKeeps_turned (WeighingKeeps.sample s _ raw ok).sampleKeeps m turned, passes n rfl⟩

/-! O20 -/

theorem State.enterFault_chan (s : State) (ch : Channel) :
    (s.enterFault ch).chan ch =
      { s.chan ch with
        st := .fault, live := .absent, window := [], stable := false, block := emptyBlock, signalTimer := none, goodCount := 0
        capture := none, slot := ((s.chan ch).afterEnd ch .signal none none s.stamp).slot } := by
  simp only [State.enterFault, State.enter, State.chan_latchBoth, State.chan_setChan, State.chan_endCapture]
  rw [ChannelState.afterEnd_eq]
  rfl

theorem State.enterFault_bridge (s : State) (ch : Channel) (b : Bridge) : (s.enterFault ch).bridge b = s.bridge b := by
  simp only [State.enterFault, State.enter, State.bridge_latchBoth, State.bridge_setChan]
  exact (s.endCapture_keeps ch .signal rfl).2.1 b

theorem State.enterFault_has (s : State) (ch : Channel) (p : Port) (f : EventFlag) :
    ((s.enterFault ch).events p).has f =
      ((s.events p).has f || (decide (f = .captureEnd ch) && (s.chan ch).tells p) || decide (f = .channel ch)) := by
  simp only [State.enterFault, State.enter, State.has_latchBoth, State.events_setChan, State.has_endCapture]

/-- Where the weighing events of a channel leave its bridge alone, they leave the whole deck block alone. -/
theorem WeighingKeeps.dsu_eq {s t : State} {ch : Channel} (h : WeighingKeeps s ch t) (hb : ∀ b, t.bridge b = s.bridge b) :
    t.dsu = s.dsu := by
  have h0 := hb .b0
  have h1 := hb .b1
  simp only [State.bridge] at h0 h1
  rw [h.dsu, h0, h1]

/-- A sample that is not good, or the expiry of the signal timer, as a command. -/
theorem fault_delivered {s : State} {dig : Digitizer} {ch : Channel} (power : s.powered = true) (raw : Int) (timeout : Bool)
    (timed : timeout = true → (s.chan ch).signalTimer.isSome = true) (delivers : timeout = false → s.deliversTo dig = some ch)
    (u : State) (expires : timeout = true → Weigh.signalTimeout ch s = u) (samples : timeout = false → s.sample ch raw false = u)
    (keeps : WeighingKeeps s ch u) (service : (u.chan ch).st = .service ↔ (s.chan ch).st = .service) :
    ∃ t, exec (if timeout then .signalTimeout ch else .digitizerSample dig raw false) s = .next t ∧ s.sampleKeeps ch t ∧
      (timeout = true → t.wch.nextPlatform = s.wch.nextPlatform) ∧ u.SameWeighing t := by
  cases timeout with
  | true =>
    refine ⟨u.settle, ?_, State.sampleKeeps_settle keeps.sampleKeeps, fun _ => keeps.nextPlatform, .settle u⟩
    show Host.Outcome.next (if s.powered then s.conclude (Weigh.signalTimeout ch s) else s) = _
    rw [if_pos power, expires rfl, keeps.conclude service]
  | false =>
    obtain ⟨t, runs, kept, same⟩ := sample_delivered power (delivers rfl) raw false
    rw [samples rfl] at same
    exact ⟨t, runs, kept, nofun, same⟩

/-- Settles O20: the two events are one operation, by the state of the channel: `State.enterFault`, the loss of the signal, nothing. -/
theorem signalFaults : Obligations.SignalFaults := by
  unfold Obligations.SignalFaults
  refine ⟨?_, fun s b raw good power off => (arbiterAlternatesPlatforms s raw good power).2.1 b off⟩
  rintro s ch c dig raw timeout i power rfl rfl timed delivers
  have expires (u : State) (h : timeout = true → (match (s.chan ch).st with
      | .starting => s.enterFault ch
      | .active => s.enterFault ch
      | .service => s.setChan ch { (s.chan ch).lose with signalTimer := none }
      | _ => s) = u) : timeout = true → Weigh.signalTimeout ch s = u := by
    intro ht
    have running := timed ht
    rw [Weigh.signalTimeout, if_neg (by simp [Option.isSome_iff_ne_none.mp running])]
    refine Eq.trans ?_ (h ht)
    cases (s.chan ch).st <;> rfl
  refine ⟨fun st => ?_, fun st => ?_, fun st ht => ?_⟩
  · have keeps := WeighingKeeps.enterFault s ch
    have chan := s.enterFault_chan ch
    have service : ((s.enterFault ch).chan ch).st = .service ↔ (s.chan ch).st = .service := by
      rw [chan]; rcases st with st | st <;> simp [st]
    obtain ⟨t, runs, kept, turn, same⟩ := fault_delivered (dig := dig) power raw timeout timed delivers (s.enterFault ch)
      (expires _ fun _ => by rcases st with st | st <;> rw [st])
      (fun _ => by unfold State.sample; rcases st with st | st <;> simp [st]) keeps service
    have tkt : (s.enterFault ch).tkt = s.tkt := (Reaches.enterFault s ch (bs := [.wch, .dsu, .evu]) (by decide)).tkt (by decide)
    refine ⟨t, runs, kept, turn, same.tkt.trans tkt, same.dsu.trans (keeps.dsu_eq (s.enterFault_bridge ch)), ?_, ?_, ?_, ?_, ?_, ?_⟩
    · rw [same.chan, chan]; rfl
    · intro _; rw [same.chan, chan]
    · intro p; rw [same.events, State.enterFault_has]; simp
    · intro idle
      refine ⟨by rw [same.chan, chan, ChannelState.afterEnd_none idle], fun p => ?_⟩
      rw [same.events, State.enterFault_has, ChannelState.tells, idle]
      simp
    · intro b p; rw [same.events, State.enterFault_has]; simp
    · intro k hk
      refine ⟨by rw [same.events, State.enterFault_has, ChannelState.tells, hk]; simp, ?_⟩
      rw [same.chan, chan]
      simp only [ChannelState.afterEnd, hk, Option.map_some]
  · let timer : Option Timer := if timeout then none else some ⟨if ch.bridge?.isSome then 200 else 400, s.elapsed⟩
    have alone := s.setChan_alone ch
      { s.chan ch with signal := .lost, live := .absent, window := [], stable := false, signalTimer := timer }
    have keeps := WeighingKeeps.setChan s ch
      { s.chan ch with signal := .lost, live := .absent, window := [], stable := false, signalTimer := timer } rfl rfl
    obtain ⟨t, runs, kept, turn, same⟩ := fault_delivered (dig := dig) power raw timeout timed delivers
      (s.setChan ch { s.chan ch with signal := .lost, live := .absent, window := [], stable := false, signalTimer := timer })
      (expires _ fun ht => by rw [st]; simp [ChannelState.lose, ChannelState.clearWindow, timer, ht])
      (fun ht => by
        have time : signalTime ch = if ch.bridge?.isSome then 200 else 400 := by cases ch <;> rfl
        unfold State.sample
        simp [st, ChannelState.lose, ChannelState.clearWindow, State.timed, State.timer, timer, ht, time])
      keeps (by rw [alone.chan])
    exact ⟨t, runs, kept, turn, same.tkt.trans alone.tkt, by rw [same.dsu]; simp, by rw [same.evu]; simp,
      by rw [same.chan, alone.chan]⟩
  · subst ht
    obtain ⟨t, runs, kept, same⟩ := sample_delivered power (delivers rfl) raw false
    have still : s.sample ch raw false = s := by simp [State.sample, st]
    rw [still] at same
    exact ⟨t, runs, kept, same.chan ch, same.tkt, same.dsu, same.evu⟩

/-! O18 and O19 -/

theorem ChannelState.occupancy_iff {c : ChannelState} {w : Int} (live : c.live = reported c.set w) :
    c.occupancy = true ↔ (c.set.K + 9 * c.set.d : Nat) < w ∨
      (-(20 * (c.set.d : Int)) ≤ w ∧ if c.occupied then (c.set.T / 2 * c.set.d : Nat) ≤ w else (c.set.T * c.set.d : Nat) ≤ w) := by
  unfold ChannelState.occupancy
  rw [live, reported]
  by_cases high : (c.set.K : Int) + 9 * c.set.d < w
  · have high' : ((c.set.K + 9 * c.set.d : Nat) : Int) < w := by push_cast; exact high
    simp [high]
  · have high' : ¬ ((c.set.K + 9 * c.set.d : Nat) : Int) < w := by push_cast; exact high
    by_cases low : w < -(20 * (c.set.d : Int))
    · simp only [high, high', low, if_false, if_true, false_or, not_le.mpr low, false_and, Bool.false_eq_true]
    · simp only [high, high', low, if_false, false_or, not_lt.mp low, true_and]
      cases c.occupied <;> simp

/-- The fields the count and the block leave alone. -/
theorem ChannelState.staged_keeps (c : ChannelState) (k : ZeroBlock) :
    (c.staged k).set = c.set ∧ (c.staged k).live = c.live ∧ (c.staged k).fine = c.fine ∧ (c.staged k).window = c.window ∧
      (c.staged k).signal = c.signal ∧ (c.staged k).signalTimer = c.signalTimer ∧ (c.staged k).occupied = c.occupied := by
  unfold ChannelState.staged
  split
  · unfold ChannelState.counted; split <;> exact ⟨rfl, rfl, rfl, rfl, rfl, rfl, rfl⟩
  · unfold ChannelState.tracked; split <;> exact ⟨rfl, rfl, rfl, rfl, rfl, rfl, rfl⟩
  · exact ⟨rfl, rfl, rfl, rfl, rfl, rfl, rfl⟩

theorem ChannelState.staged_goodCount (c : ChannelState) (k : ZeroBlock) :
    (c.staged k).goodCount = if c.st = .starting then c.goodCount + 1 else c.goodCount := by
  unfold ChannelState.staged
  split
  · rename_i st; unfold ChannelState.counted; split <;> simp
  · rename_i st; unfold ChannelState.tracked; split <;> simp [st]
  · rename_i st _; rw [if_neg st]

theorem ChannelState.staged_inactive {c : ChannelState} (h : c.st ≠ .active) (k : ZeroBlock) :
    (c.staged k).z = c.z ∧ (c.staged k).drift = c.drift ∧
      (c.staged k).block = if (c.staged k).st = .active then emptyBlock else c.block := by
  unfold ChannelState.staged
  split
  · unfold ChannelState.counted; split <;> simp_all
  · rename_i st; exact absurd st h
  · simp [h]

theorem ChannelState.steady_iff (c : ChannelState) :
    c.steady = true ↔ c.set.M ≤ c.window.length ∧ fineSpread c.window ≤ (c.set.b * c.set.d : Nat) := by
  rw [ChannelState.steady, decide_eq_true_iff, ChannelSettings.band]
  push_cast
  rfl

/-- A channel whose stability has been judged by the sample is stable exactly in ACTIVE and SERVICE with a steady window, before and after
the count and the block. -/
theorem ChannelState.staged_stable {c : ChannelState} (h : c.stable = ((c.st == .active || c.st == .service) && c.steady))
    (k : ZeroBlock) : (c.staged k).stable = true ↔ ((c.staged k).st = .active ∨ (c.staged k).st = .service) ∧ c.steady = true := by
  unfold ChannelState.staged
  split
  · rename_i st
    unfold ChannelState.counted
    split
    · simp [h, st]
    · simp
  · rename_i st
    unfold ChannelState.tracked
    split <;> simp [h, st]
  · simp [h]

/-- The fields of the record a good sample finds, and converts. -/
theorem ChannelState.arriving_fields {c : ChannelState} (timer : Timer) :
    (c.arriving timer).set = c.set ∧ (c.arriving timer).z = c.z ∧ (c.arriving timer).drift = c.drift ∧
      (c.arriving timer).st = (if c.st = .fault then .starting else c.st) ∧
      (c.arriving timer).window = (if c.st = .fault then [] else c.window) ∧
      (c.arriving timer).goodCount = (if c.st = .fault then 0 else c.goodCount) ∧
      (c.arriving timer).signal = (if c.st = .service then .good else c.signal) ∧ (c.arriving timer).signalTimer = some timer ∧
      (c.arriving timer).occupied = c.occupied ∧ (c.arriving timer).block = c.block ∧ (c.arriving timer).capture = c.capture ∧
      (c.arriving timer).slot = c.slot := by
  unfold ChannelState.arriving
  split <;> simp_all [ChannelState.clearWindow]

theorem weighed_one (set : ChannelSettings) (z raw : Int) :
    weighed set z raw 1 = roundAway ((raw - z) * set.G) (65536 * set.d) * set.d := by
  simp [weighed, weighNumerator]

theorem signalTime_eq (ch : Channel) : signalTime ch = if ch.bridge?.isSome then 200 else 400 := by cases ch <;> rfl

/-- What a good sample delivered to a channel leaves: `x` is the converted record, `y` that record with the occupancy it decides, which the
count or the block `k` then stages. -/
structure State.GoodSample (s : State) (ch : Channel) (raw : Int) (t : State) (x y : ChannelState) (k : ZeroBlock) : Prop where
  set : x.set = (s.chan ch).set
  z : x.z = (s.chan ch).z
  drift : x.drift = (s.chan ch).drift
  st : x.st = if (s.chan ch).st = .fault then .starting else (s.chan ch).st
  good : x.goodCount = if (s.chan ch).st = .fault then 0 else (s.chan ch).goodCount
  signal : x.signal = if (s.chan ch).st = .service then .good else (s.chan ch).signal
  timer : x.signalTimer = some (s.timer (signalTime ch))
  occupied : x.occupied = (s.chan ch).occupied
  capture : x.capture = (s.chan ch).capture
  slot : x.slot = (s.chan ch).slot
  zeroBlock : x.block = (s.chan ch).block
  live : x.live = reported (s.chan ch).set (weighed (s.chan ch).set (s.chan ch).z raw 1)
  fine : x.fine = some (fineWeight (s.chan ch).set (s.chan ch).z raw)
  window : x.window = keepLast (s.chan ch).set.M
    ((if (s.chan ch).st = .fault then [] else (s.chan ch).window) ++ [⟨raw, fineWeight (s.chan ch).set (s.chan ch).z raw⟩])
  stable : x.stable = ((x.st == .active || x.st == .service) && x.steady)
  decided : y = { x with occupied := x.occupancy }
  chan : t.chan ch = { y.staged k with capture := (t.chan ch).capture, slot := (t.chan ch).slot }
  deck : ∀ b, ch.bridge? = some b →
    t.bridge b = { s.bridge b with pos := s.positionAt b x.occupancy, captured := (t.bridge b).captured }
  others : ∀ b, ch.bridge? ≠ some b → t.bridge b = s.bridge b
  channelFlag : ∀ p, (t.events p).has (.channel ch) =
    ((s.events p).has (.channel ch) || decide ((t.chan ch).st ≠ (s.chan ch).st ∨ (t.chan ch).drift ≠ (s.chan ch).drift))
  deckFlag : ∀ b p, ch.bridge? = some b → (t.events p).has (.deck b) =
    ((s.events p).has (.deck b) || decide (s.positionAt b x.occupancy ≠ (s.bridge b).pos))
  block : k =
    ⟨x.block.samples ++ [⟨raw, fineWeight x.set x.z raw⟩], x.block.disqualified || x.capture.isSome ||
      (match ch.bridge? with
        | some b => decide (s.positionAt b x.occupancy ≠ .empty)
        | none => x.occupancy)⟩
  idle : x.capture = none → t.tkt = s.tkt ∧ (t.chan ch).capture = none ∧ (t.chan ch).slot = x.slot ∧
    (∀ p, (t.events p).has (.captureEnd ch) = (s.events p).has (.captureEnd ch)) ∧
    ∀ b, ch.bridge? = some b → (t.bridge b).captured = if s.vacatesDeck b x.occupancy then false else (s.bridge b).captured

theorem good_delivered {s : State} {dig : Digitizer} {ch : Channel} (power : s.powered = true) (delivers : s.deliversTo dig = some ch)
    (out : (s.chan ch).st ≠ .off) (raw : Int) :
    ∃ t x y k, exec (.digitizerSample dig raw true) s = .next t ∧ s.sampleKeeps ch t ∧ s.GoodSample ch raw t x y k := by
  obtain ⟨t, runs, keeps, same⟩ := sample_delivered power delivers raw true
  obtain ⟨s0, arrives, sampled, dsu0⟩ := s.sample_good ch raw out
  obtain ⟨k, taken⟩ := s0.goodSample_taken ch raw _ rfl
  have others := (WeighingKeeps.sample s ch raw true).bridges
  rw [sampled] at same others
  obtain ⟨set0, z0, drift0, st0, window0, good0, signal0, timer0, occupied0, block0, capture0, slot0⟩ :=
    (s.chan ch).arriving_fields (s.timer (signalTime ch))
  rw [← arrives.chan] at set0 z0 drift0 st0 window0 good0 signal0 timer0 occupied0 block0 capture0 slot0
  have clear (b : Bridge) : s0.beamsClear b = s.beamsClear b := by
    simp only [State.beamsClear, State.beamBlocked, State.served, dsu0]
  have pos (b : Bridge) (hb : ch.bridge? = some b) (o : Bool) : s0.positionAt b o = s.positionAt b o := by
    obtain rfl := Channel.eq_of_bridge? hb
    simp only [State.positionAt, occupied0, arrives.bridge, clear]
  have vacates (b : Bridge) (hb : ch.bridge? = some b) (o : Bool) : s0.vacatesDeck b o = s.vacatesDeck b o := by
    rw [State.vacatesDeck_eq, State.vacatesDeck_eq, pos b hb, arrives.bridge]
  refine ⟨t, (s0.chan ch).convert raw, _, k, runs, keeps,
    ⟨set0, z0, drift0, st0, good0, signal0, timer0, occupied0, capture0, slot0, block0, ?_, ?_, ?_, rfl, rfl,
      ?_, ?_, ?_, ?_, ?_, ?_, ?_⟩⟩
  · rw [← set0, ← z0]; rfl
  · rw [← set0, ← z0]; rfl
  · rw [← set0, ← z0, ← window0]; rfl
  · rw [same.chan, taken.chan]
  · intro b hb
    rw [same.bridge, taken.deck b hb, arrives.bridge, pos b hb]
  · intro b hb
    rw [same.bridge, others b hb]
  · intro p
    have chan := taken.chan
    have st1 : ((s0.chan ch).convert raw).st = if (s.chan ch).st = .fault then .starting else (s.chan ch).st := st0
    have drift1 : ((s0.chan ch).convert raw).drift = (s.chan ch).drift := drift0
    have staged := ChannelState.staged_st
      { (s0.chan ch).convert raw with occupied := ((s0.chan ch).convert raw).occupancy } k
    rw [same.events, taken.channelFlag, arrives.has, same.chan, chan]
    generalize ({ (s0.chan ch).convert raw with occupied := ((s0.chan ch).convert raw).occupancy } : ChannelState).staged k = z at staged
    simp only [ChannelState.differs, drift1, st1]
    by_cases fault : (s.chan ch).st = .fault
    · have left : z.st ≠ .fault := by
        rw [staged]
        simp only [st1, fault, if_true]
        split <;> simp
      simp [left, fault]
    · simp [fault]
  · intro b p hb
    rw [same.events, taken.deckFlag b p hb, arrives.has, pos b hb, arrives.bridge]
    simp
  · rw [taken.block]
    cases hb : ch.bridge? with
    | none => rfl
    | some b => simp only [pos b hb]
  · intro idle
    obtain ⟨tkt, capture, slot, flag, captured⟩ := taken.idle idle
    refine ⟨by rw [same.tkt, tkt, arrives.tkt], by rw [same.chan, capture], by rw [same.chan, slot], fun p => ?_, fun b hb => ?_⟩
    · rw [same.events, flag, arrives.has]; simp
    · rw [same.bridge, captured b hb, vacates b hb, arrives.bridge]

/-- Settles O18: the record is the converted one, staged; the deck follows the occupancy decided. -/
theorem goodSampleConverts : Obligations.GoodSampleConverts := by
  unfold Obligations.GoodSampleConverts
  rintro s dig ch raw w f c kept power delivers rfl out rfl rfl rfl
  obtain ⟨t, x, y, k, runs, keeps, took⟩ := good_delivered power delivers out raw
  obtain ⟨setY, liveY, fineY, windowY, signalY, timerY, occupiedY⟩ := y.staged_keeps k
  have stY := y.staged_st k
  have goodY := y.staged_goodCount k
  have stableY := y.staged_stable (by rw [took.decided]; exact took.stable) k
  have y_st : y.st = x.st := by rw [took.decided]
  have occupancy := ChannelState.occupancy_iff (took.set ▸ took.live)
  rw [took.set, took.occupied, weighed_one] at occupancy
  have occupied : (t.chan ch).occupied = x.occupancy := by rw [took.chan, occupiedY, took.decided]
  have st : (t.chan ch).st = (match (s.chan ch).st with
      | .fault => if 1 < (s.chan ch).set.M then .starting else .active
      | .starting => if (s.chan ch).goodCount + 1 < (s.chan ch).set.M then .starting else .active
      | other => other) := by
    rw [took.chan, stY, y_st, took.st, took.decided]
    simp only [took.set, took.good]
    cases h : (s.chan ch).st with
    | fault => simp; split <;> split <;> first | rfl | omega
    | starting => simp; split <;> split <;> first | rfl | omega
    | off => exact absurd h out
    | active => simp
    | service => simp
  refine ⟨t, runs, keeps, ?_, ?_, ?_, st, took.channelFlag, ?_, ?_, ?_, ?_, ?_, ?_, ?_, took.others, ?_⟩
  · rw [took.chan, liveY, took.decided, took.live, weighed_one, reported]
    push_cast
    rfl
  · rw [took.chan, fineY, took.decided]; exact took.fine
  · rw [took.chan, windowY, took.decided]; exact took.window
  · rw [took.chan, goodY, y_st, took.st, took.decided]
    simp only [took.good]
    cases (s.chan ch).st <;> simp
  · rw [took.chan, signalY, took.decided]; exact took.signal
  · intro inactive
    have idle : y.st ≠ .active := by
      rw [y_st, took.st]
      split
      · simp
      · exact inactive
    obtain ⟨z, drift, block⟩ := ChannelState.staged_inactive idle k
    refine ⟨?_, ?_, ?_⟩
    · rw [took.chan, z, took.decided]; exact took.z
    · rw [took.chan, drift, took.decided]; exact took.drift
    · rw [took.chan, block, took.decided]
      simp only [took.zeroBlock]
      rfl
  · intro idle
    obtain ⟨tkt, capture, slot, flag, -⟩ := took.idle (took.capture.trans idle)
    exact ⟨tkt, capture, slot.trans took.slot, flag⟩
  · have steady : y.steady = true ↔ (s.chan ch).set.M ≤ (t.chan ch).window.length ∧
        fineSpread (t.chan ch).window ≤ ((s.chan ch).set.b * (s.chan ch).set.d : Nat) := by
      rw [ChannelState.steady_iff, took.chan, windowY, took.decided]
      simp only [took.set]
    rw [← steady, took.chan]
    exact stableY
  · rw [took.chan, timerY, took.decided]
    simp only [took.timer, State.timer, signalTime_eq]
  · rw [occupied]; exact occupancy
  · intro b new hb hnew
    obtain rfl := Channel.eq_of_bridge? hb
    have position : new = s.positionAt b x.occupancy := by
      simp only [hnew, occupied, State.positionAt, State.beamsClear, Bool.and_assoc,
        eq_comm (a := x.occupancy) (b := (s.chan b.channel).occupied)]
      cases (s.bridge b).pos <;> rfl
    subst position
    refine ⟨took.deck b hb, fun p => took.deckFlag b p hb, fun idle => ?_⟩
    obtain ⟨-, -, -, -, captured⟩ := took.idle (took.capture.trans idle)
    rw [took.deck b hb, captured b hb, State.vacatesDeck_eq]
    simp only [decide_eq_true_eq]

/-- A full block qualifies as R13 says, where the band and the gain are spelled out. -/
theorem ZeroBlock.qualifies_eq (k : ZeroBlock) (set : ChannelSettings) (z : Int) :
    k.qualifies set z =
      (!k.disqualified && decide (fineSpread k.samples ≤ (set.b * set.d : Nat))
        && decide (2 * ((rawSum k.samples - set.M * z) * set.G).natAbs ≤ set.d * 65536 * set.M)) := by
  unfold ZeroBlock.qualifies ChannelSettings.band weighNumerator
  push_cast
  rfl

/-- Settles O19: the block joined is that of `State.GoodSample`, and `ChannelState.tracked` judges it. -/
theorem zeroTrackingJudgesBlocks : Obligations.ZeroTrackingJudgesBlocks := by
  unfold Obligations.ZeroTrackingJudgesBlocks
  rintro s dig ch raw f mean c samples away disqualified fits inBound t power delivers rfl st rfl rfl runs haway rfl rfl rfl rfl
  obtain ⟨t', x, y, k, runs', -, took⟩ := good_delivered power delivers (by simp [st]) raw
  obtain rfl : t = t' := by rw [runs] at runs'; injection runs'
  have x_st : x.st = .active := by rw [took.st]; simp [st]
  have y_st : y.st = .active := by rw [took.decided]; exact x_st
  have staged : y.staged k = y.tracked k := by simp only [ChannelState.staged, y_st]
  have occupied : (t.chan ch).occupied = x.occupancy := by rw [took.chan, (y.staged_keeps k).2.2.2.2.2.2, took.decided]
  have block : k = ⟨(s.chan ch).block.samples ++ [⟨raw, Int.tdiv ((raw - (s.chan ch).z) * (s.chan ch).set.G) 65536⟩],
      (s.chan ch).block.disqualified || (s.chan ch).capture.isSome || away⟩ := by
    rw [took.block, took.zeroBlock, took.set, took.z, took.capture, haway]
    cases hb : ch.bridge? with
    | none => simp only [occupied]; rfl
    | some b =>
      have pos : (t.bridge b).pos = s.positionAt b x.occupancy := by rw [took.deck b hb]
      simp only [pos]; rfl
  have y_set : y.set = (s.chan ch).set := by rw [took.decided]; exact took.set
  have y_z : y.z = (s.chan ch).z := by rw [took.decided]; exact took.z
  have y_drift : y.drift = (s.chan ch).drift := by rw [took.decided]; exact took.drift
  have chan := took.chan
  rw [staged, ChannelState.tracked, y_set, block] at chan
  refine ⟨fun few => ?_, fun full => ?_⟩
  · rw [if_pos few] at chan
    rw [chan]
    exact ⟨y_z, y_drift, rfl⟩
  · rw [if_neg (not_lt.mpr full)] at chan
    refine ⟨by rw [chan]; rfl, ?_, ?_, fun moved p => by rw [took.channelFlag]; simp [moved]⟩
    · rw [chan]
      simp only [ChannelState.blockZero, y_set, y_z, ZeroBlock.qualifies_eq, zeroBound, rawMean, Bool.and_eq_true]
    · rw [chan]
      simp only [ChannelState.blockDrift, y_set, y_z, y_drift, ZeroBlock.qualifies_eq, zeroBound, rawMean]

/-! O22 -/

/-- The hand-over reads and writes the ticket table alone. -/
theorem State.handOver_congr {s t : State} (h : t.tkt = s.tkt) (r : Option TicketRef) (w : Weighing) (g : Option Nat) (tare : Int) :
    (t.handOver r w g tare).1.tkt = (s.handOver r w g tare).1.tkt ∧ (t.handOver r w g tare).2 = (s.handOver r w g tare).2 := by
  have ticket (n : Nat) : t.ticket? n = s.ticket? n := by rw [State.ticket?, State.ticket?, h]
  unfold State.handOver
  cases r with
  | none => exact ⟨h, rfl⟩
  | some r =>
    dsimp only
    rw [ticket]
    cases found : s.ticket? r.number with
    | none => exact ⟨h, rfl⟩
    | some k =>
      dsimp only
      cases k.application r w tare with
      | applied => simp only [State.changeTicket, ticket, found, h, and_self]
      | _ => exact ⟨h, rfl⟩

theorem State.vacates_congr {s t : State} {ch : Channel} (hc : (t.chan ch).occupied = (s.chan ch).occupied)
    (hb : ∀ b, t.bridge b = s.bridge b) (occupied : Bool) : t.vacates ch occupied = s.vacates ch occupied := by
  unfold State.vacates State.vacatesDeck
  cases h : ch.bridge? with
  | none => simp only [hc]
  | some b =>
    obtain rfl := Channel.eq_of_bridge? h
    simp only [hc, hb]

theorem ChannelState.endsBy_congr {c d : ChannelState} (hc : d.capture = c.capture) (hs : d.set = c.set) (ho : d.slot = c.slot)
    (ch : Channel) (e : Option CaptureEnd) (now : Stamp) :
    (d.endsBy ch e now).capture = (c.endsBy ch e now).capture ∧ (d.endsBy ch e now).slot = (c.endsBy ch e now).slot := by
  cases e with
  | none => exact ⟨hc, ho⟩
  | some e =>
    unfold ChannelState.endsBy ChannelState.afterEnd
    dsimp only
    rw [hc, hs]
    cases h : c.capture with
    | none => exact ⟨hc, ho⟩
    | some k => exact ⟨rfl, rfl⟩

/-- What the capture test of a good sample in ACTIVE finds with a capture in flight: `ends` is what the sample ends it with. -/
structure State.TestFinds (s : State) (ch : Channel) (occupied : Bool) (ends : Option CaptureEnd) (t : State) : Prop where
  tkt : t.tkt = s.tkt
  clu : t.clu = s.clu
  set : (t.chan ch).set = (s.chan ch).set
  z : (t.chan ch).z = (s.chan ch).z
  capture : (t.chan ch).capture = ((s.chan ch).endsBy ch ends s.stamp).capture
  slot : (t.chan ch).slot = ((s.chan ch).endsBy ch ends s.stamp).slot
  deck : ∀ b, ch.bridge? = some b → t.bridge b =
    { s.bridge b with
      pos := s.positionAt b occupied, captured := if s.vacatesDeck b occupied then false else (s.bridge b).captured }
  has : ∀ p, (t.events p).has (.captureEnd ch) = ((s.events p).has (.captureEnd ch) || (ends.isSome && (s.chan ch).tells p))

theorem capturing_sample {s : State} {ch : Channel} {k : Capture} (st : (s.chan ch).st = .active) (flight : (s.chan ch).capture = some k)
    (raw : Int) (d : ChannelState)
    (hd : d = { s.chan ch with live := reported (s.chan ch).set (weighed (s.chan ch).set (s.chan ch).z raw 1) }) :
    ∃ s2 : State, s.sample ch raw true = s2.testCapture ch raw ∧
      s.TestFinds ch d.occupancy ((s.setChan ch d).sampleEnds ch) s2 := by
  obtain ⟨s0, arrives, sampled, dsu0⟩ := s.sample_good ch raw (by simp [st])
  obtain ⟨s2, block, staged, tests⟩ := s0.goodSample_staged ch raw _ rfl
  obtain ⟨set0, z0, -, st0, -, -, -, -, occupied0, -, capture0, slot0⟩ :=
    (s.chan ch).arriving_fields (s.timer (signalTime ch))
  rw [← arrives.chan] at set0 z0 st0 occupied0 capture0 slot0
  have stamp0 : s0.stamp = s.stamp := State.stamp_congr arrives.clu
  have live : ((s0.chan ch).convert raw).live = d.live := by rw [hd, ← set0, ← z0]; rfl
  have occupancy : ((s0.chan ch).convert raw).occupancy = d.occupancy := by
    have set1 : ((s0.chan ch).convert raw).set = d.set := by rw [hd]; exact set0
    have occ1 : ((s0.chan ch).convert raw).occupied = d.occupied := by rw [hd]; exact occupied0
    unfold ChannelState.occupancy
    rw [live, set1, occ1]
  have vacates : (s0.setChan ch ((s0.chan ch).convert raw)).vacates ch d.occupancy = (s.setChan ch d).vacates ch d.occupancy :=
    State.vacates_congr (by simp only [State.chan_setChan]; rw [hd]; exact occupied0) (fun b => by simp [arrives.bridge]) _
  have ends : (s0.setChan ch ((s0.chan ch).convert raw)).sampleEnds ch = (s.setChan ch d).sampleEnds ch := by
    unfold State.sampleEnds
    simp only [State.chan_setChan]
    rw [live, occupancy, vacates]
  have clear (b : Bridge) : s0.beamsClear b = s.beamsClear b := by
    simp only [State.beamsClear, State.beamBlocked, State.served, dsu0]
  have pos (b : Bridge) (hb : ch.bridge? = some b) (o : Bool) : s0.positionAt b o = s.positionAt b o := by
    obtain rfl := Channel.eq_of_bridge? hb
    simp only [State.positionAt, occupied0, arrives.bridge, clear]
  have leaves (b : Bridge) (hb : ch.bridge? = some b) (o : Bool) : s0.vacatesDeck b o = s.vacatesDeck b o := by
    rw [State.vacatesDeck_eq, State.vacatesDeck_eq, pos b hb, arrives.bridge]
  rw [occupancy, ends] at staged
  have disqualified : block.disqualified = true := by
    have capture : ((s0.chan ch).convert raw).capture = some k := capture0.trans flight
    rw [staged.block, capture]
    simp
  have unmoved : block.qualifies (s.chan ch).set (s.chan ch).z = false := by simp [ZeroBlock.qualifies, disqualified]
  have ended := ChannelState.endsBy_congr (c := s.chan ch) (d := (s0.chan ch).convert raw) capture0 set0 slot0 ch
    ((s.setChan ch d).sampleEnds ch) s.stamp
  refine ⟨s2, by rw [sampled, tests], staged.tkt.trans arrives.tkt, staged.clu.trans arrives.clu, ?_, ?_, ?_, ?_, ?_, ?_⟩
  · rw [staged.chan, (ChannelState.staged_keeps _ block).1]
    exact set0
  · have active : ((s0.chan ch).convert raw).st = .active := by rw [← st]; exact st0.trans (by simp [st])
    have set1 : ((s0.chan ch).convert raw).set = (s.chan ch).set := set0
    have z1 : ((s0.chan ch).convert raw).z = (s.chan ch).z := z0
    rw [staged.chan]
    simp only [ChannelState.staged, active, ChannelState.tracked, ChannelState.blockZero, set1, z1, unmoved, Bool.false_and]
    split <;> rfl
  · rw [staged.chan, stamp0]; exact ended.1
  · rw [staged.chan, stamp0]; exact ended.2
  · intro b hb
    rw [staged.deck b hb, arrives.bridge, pos b hb, leaves b hb]
  · intro p
    have moves : s0.movesDeck ch d.occupancy (.captureEnd ch) = false := by simp [State.movesDeck]
    have tells : ((s0.chan ch).convert raw).tells p = (s.chan ch).tells p := by
      have capture : ((s0.chan ch).convert raw).capture = (s.chan ch).capture := capture0
      rw [ChannelState.tells, ChannelState.tells, capture]
    rw [staged.has, moves, arrives.has, tells]
    simp

/-- A window that passes completes the capture, else it is kept (R20). -/
theorem State.testCapture_some {s : State} {ch : Channel} {k : Capture} (h : (s.chan ch).capture = some k) (raw : Int) (k1 : Capture)
    (hk : k1 = { k with samples := keepLast (s.chan ch).set.M (k.samples ++ [raw]) }) :
    s.testCapture ch raw =
      if (s.chan ch).set.M ≤ k1.samples.length ∧
          spread (k1.samples.map (fineWeight (s.chan ch).set (s.chan ch).z)) ≤ k1.band (s.chan ch).set then
        (s.setChan ch { s.chan ch with capture := some k1 }).completeCapture ch k1
      else s.setChan ch { s.chan ch with capture := some k1 } := by
  subst hk
  simp only [State.testCapture, h]

theorem State.SameWeighing.ofDecks {s u t : State} (h : u.SameWeighing t) {ch : Channel} (keeps : WeighingKeeps s ch u)
    (hb : ∀ b, ch.bridge? = some b → u.bridge b = s.bridge b) (b : Bridge) : t.bridge b = s.bridge b := by
  rw [h.bridge]
  by_cases mine : ch.bridge? = some b
  · exact hb b mine
  · exact keeps.bridges b mine

/-- What a good sample ends a capture with, by its weight and the occupancy it decides. -/
theorem State.sampleEnds_eq (s : State) (ch : Channel) (w : Int) (d : ChannelState)
    (hd : d = { s.chan ch with live := reported (s.chan ch).set w }) :
    (s.setChan ch d).sampleEnds ch =
      if ((s.chan ch).set.K + 9 * (s.chan ch).set.d : Nat) < w then some .overload
      else if w < -(20 * ((s.chan ch).set.d : Int)) then some .underload
      else if s.vacates ch d.occupancy then some .position else none := by
  have vacates : (s.setChan ch d).vacates ch d.occupancy = s.vacates ch d.occupancy :=
    State.vacates_congr (by rw [State.chan_setChan, hd]) (fun b => by simp) _
  have live : d.live = reported (s.chan ch).set w := by rw [hd]
  simp only [State.sampleEnds, State.chan_setChan, vacates, live]
  by_cases high : (((s.chan ch).set.K + 9 * (s.chan ch).set.d : Nat) : Int) < w
  · have over_ : reported (s.chan ch).set w = .over := by rw [reported, if_pos (by push_cast at high; exact high)]
    rw [over_, if_pos high]
  · rw [if_neg high]
    by_cases low : w < -(20 * ((s.chan ch).set.d : Int))
    · have under : reported (s.chan ch).set w = .under := by rw [reported, if_neg (by push_cast at high; exact high), if_pos low]
      rw [under, if_pos low]
    · have within : reported (s.chan ch).set w = .weight w := by
        rw [reported, if_neg (by push_cast at high; exact high), if_neg low]
      rw [within, if_neg low]

/-- The occupancy a weight within the limits decides on an occupied channel (R11). -/
theorem ChannelState.occupancy_within {c : ChannelState} {w : Int} (live : c.live = reported c.set w) (occupied : c.occupied = true)
    (low : ¬ w < -(20 * (c.set.d : Int))) (high : ¬ ((c.set.K + 9 * c.set.d : Nat) : Int) < w) :
    c.occupancy = decide (((c.set.T / 2 * c.set.d : Nat) : Int) ≤ w) := by
  rw [Bool.eq_iff_iff, ChannelState.occupancy_iff live, decide_eq_true_iff]
  simp only [high, false_or, not_lt.mp low, true_and, occupied, if_true]

/-- The band of an attempt as a whole number of kilograms (R20). -/
theorem Capture.band_eq (k : Capture) (set : ChannelSettings) :
    k.band set = ((if decide (set.Rf < k.attempt) = true then min (2 * (set.b * set.d)) (8 * set.d) else set.b * set.d : Nat) : Int) := by
  unfold Capture.band Capture.coarse ChannelSettings.band
  split <;> push_cast <;> rfl

/-- What the capture test leaves where the window of the attempt passes: a capture ended, and a weighing handed over where the weight is
within the limits (R24). -/
structure State.TestPasses (s : State) (ch : Channel) (k : Capture) (weighing : Weighing) (t : State) : Prop where
  capture : (t.chan ch).capture = none
  has : (t.events k.port).has (.captureEnd ch) = true
  limits : reported (s.chan ch).set weighing.weight ≠ .weight weighing.weight → t.tkt = s.tkt ∧ (∀ b, t.bridge b = s.bridge b) ∧
    ((t.chan ch).slot.map fun x => (x.1, x.2.outcome, x.2.serial, x.2.weight, x.2.application)) =
      some (k.port, if reported (s.chan ch).set weighing.weight = .over then .overload else .underload, k.serial, none, none)
  handed : reported (s.chan ch).set weighing.weight = .weight weighing.weight →
    t.tkt = (s.handOver k.ticket weighing k.grade k.tare).1.tkt ∧
    (∀ b, t.bridge b = if ch.bridge? = some b then { s.bridge b with captured := true } else s.bridge b) ∧
    ((t.chan ch).slot.map fun x => (x.1, x.2.outcome, x.2.serial, x.2.weight, x.2.application)) =
      some (k.port, if weighing.coarse then .capturedCoarse else .captured, k.serial, some weighing.weight,
        some (s.handOver k.ticket weighing k.grade k.tare).2)

theorem State.completeCapture_passes {s : State} {ch : Channel} {k : Capture} (flight : (s.chan ch).capture = some k) :
    s.TestPasses ch k (s.weighingOf ch k) (s.completeCapture ch k) := by
  have ended (e : CaptureEnd) (he : e.weighs = false) (completes : s.completeCapture ch k = s.endCapture ch e none none)
      (report : reported (s.chan ch).set (s.weighingOf ch k).weight ≠ .weight (s.weighingOf ch k).weight)
      (named : e = if reported (s.chan ch).set (s.weighingOf ch k).weight = .over then .overload else .underload) :
      s.TestPasses ch k (s.weighingOf ch k) (s.completeCapture ch k) := by
    rw [completes]
    refine ⟨by rw [State.chan_endCapture, ChannelState.afterEnd_capture], State.endCapture_has flight .., fun _ => ⟨?_, ?_, ?_⟩,
      fun h => absurd h report⟩
    · exact (Reaches.endCapture s ch e none none (bs := [.wch, .dsu, .evu]) (by decide)).tkt (by decide)
    · exact (s.endCapture_keeps ch e he).2.1
    · rw [State.chan_endCapture, ChannelState.afterEnd_slot flight, named]
  rcases s.completeCapture_cases ch k with ⟨report, completes⟩ | ⟨report, completes⟩ | ⟨report, completes⟩
  · exact ended .overload rfl completes (by simp [report]) (by simp [report])
  · exact ended .underload rfl completes (by simp [report]) (by simp [report])
  · obtain ⟨tkt, handed, -⟩ := s.handOver_frame k.ticket (s.weighingOf ch k) k.grade k.tare
    have chan' : (s.handOver k.ticket (s.weighingOf ch k) k.grade k.tare).1.chan ch = s.chan ch := by rw [handed]; cases ch <;> rfl
    have bridge' (b : Bridge) : (s.handOver k.ticket (s.weighingOf ch k) k.grade k.tare).1.bridge b = s.bridge b := by
      rw [handed]; cases b <;> rfl
    have flight' : ((s.handOver k.ticket (s.weighingOf ch k) k.grade k.tare).1.chan ch).capture = some k := by rw [chan']; exact flight
    have weighs : (if k.coarse (s.chan ch).set then CaptureEnd.capturedCoarse else .captured).weighs = true := by split <;> rfl
    rw [completes]
    refine ⟨by rw [State.chan_endCapture, ChannelState.afterEnd_capture], State.endCapture_has flight' .., fun h => absurd report h,
      fun _ => ⟨?_, fun b => ?_, ?_⟩⟩
    · exact (Reaches.endCapture _ ch _ _ _ (bs := [.wch, .dsu, .evu]) (by decide)).tkt (by decide)
    · by_cases mine : ch.bridge? = some b
      · obtain rfl := Channel.eq_of_bridge? mine
        rw [State.bridge_endCapture, flight', weighs, bridge', if_pos mine]
        rfl
      · rw [(WeighingKeeps.endCapture _ ch _ _ _).bridges b mine, bridge', if_neg mine]
    · rw [State.chan_endCapture, ChannelState.afterEnd_slot flight']
      rfl

/-- The test passed, told of the state before the sample. -/
theorem State.TestPasses.completed {s s3 u t : State} {ch : Channel} {k : Capture} {window : List Int} {weighing : Weighing}
    {weight : Int} {coarse : Bool} (h : s3.TestPasses ch { k with samples := window } weighing u) (same : u.SameWeighing t)
    (keeps : WeighingKeeps s ch u) (set3 : (s3.chan ch).set = (s.chan ch).set) (tkt3 : s3.tkt = s.tkt)
    (deck3 : ∀ b, ch.bridge? = some b → s3.bridge b = s.bridge b)
    (hw : weighing.weight = weight) (hc : weighing.coarse = coarse) :
    (t.chan ch).capture = none ∧ (t.events k.port).has (.captureEnd ch) = true ∧
      (if ((s.chan ch).set.K + 9 * (s.chan ch).set.d : Nat) < weight ∨ weight < -(20 * ((s.chan ch).set.d : Int)) then
        t.tkt = s.tkt ∧ (∀ b, t.bridge b = s.bridge b) ∧
        ((t.chan ch).slot.map fun x => (x.1, x.2.outcome, x.2.serial, x.2.weight, x.2.application)) =
          some (k.port, if weight < 0 then .underload else .overload, k.serial, none, none)
      else
        t.tkt = (s.handOver k.ticket weighing k.grade k.tare).1.tkt ∧
        (∀ b, t.bridge b = if ch.bridge? = some b then { s.bridge b with captured := true } else s.bridge b) ∧
        ((t.chan ch).slot.map fun x => (x.1, x.2.outcome, x.2.serial, x.2.weight, x.2.application)) =
          some (k.port, if coarse then .capturedCoarse else .captured, k.serial, some weight,
            some (s.handOver k.ticket weighing k.grade k.tare).2)) := by
  subst hw hc
  obtain ⟨capture, has, limits, handed⟩ := h
  rw [set3] at limits handed
  have congr := State.handOver_congr tkt3 k.ticket weighing k.grade k.tare
  refine ⟨by rw [same.chan, capture], by rw [same.events]; exact has, ?_⟩
  have high : (((s.chan ch).set.K + 9 * (s.chan ch).set.d : Nat) : Int) = (s.chan ch).set.K + 9 * (s.chan ch).set.d := by push_cast; rfl
  split
  · rename_i out
    have report : reported (s.chan ch).set weighing.weight ≠ .weight weighing.weight ∧
        ((reported (s.chan ch).set weighing.weight = .over) ↔ ¬ weighing.weight < 0) := by
      rw [high] at out
      unfold reported
      split
      · exact ⟨by simp, by simp; omega⟩
      · rename_i below
        have low := out.resolve_left below
        rw [if_pos low]
        exact ⟨by simp, by simp; omega⟩
    obtain ⟨tkt, bridge, slot⟩ := limits report.1
    refine ⟨by rw [same.tkt, tkt, tkt3], same.ofDecks keeps fun b hb => by rw [bridge, deck3 b hb], ?_⟩
    rw [same.chan, slot]
    simp only [report.2, ite_not]
  · rename_i within
    rw [high, not_or] at within
    obtain ⟨tkt, bridge, slot⟩ := handed (by rw [reported, if_neg within.1, if_neg within.2])
    refine ⟨by rw [same.tkt, tkt, congr.1], fun b => ?_, by rw [same.chan, slot, congr.2]⟩
    rw [same.bridge]
    by_cases mine : ch.bridge? = some b
    · rw [bridge, if_pos mine, if_pos mine, deck3 b mine]
    · rw [if_neg mine, keeps.bridges b mine]

/-- Settles O22: the two parts are the capture test passed to with the capture in flight, and with the capture ended. -/
theorem captureWindowCompletes : Obligations.CaptureWindowCompletes := by
  unfold Obligations.CaptureWindowCompletes
  refine ⟨?_, ?_⟩
  · rintro s dig ch raw w c k window coarse weight weighing power delivers rfl st flight occupied rfl low high hwindow hcoarse hweight
      hweighing
    rw [← weighed_one] at low high
    obtain ⟨t, runs, keeps, same⟩ := sample_delivered power delivers raw true
    have weighing_keeps := WeighingKeeps.sample s ch raw true
    obtain ⟨s2, sampled, found⟩ := capturing_sample st flight raw _ rfl
    have ends := s.sampleEnds_eq ch (weighed (s.chan ch).set (s.chan ch).z raw 1) _ rfl
    have above : ¬ weighed (s.chan ch).set (s.chan ch).z raw 1 < -(20 * ((s.chan ch).set.d : Int)) := by omega
    generalize hd : ({ s.chan ch with live := reported (s.chan ch).set (weighed (s.chan ch).set (s.chan ch).z raw 1) } : ChannelState) = d
      at found ends
    have occupancy : d.occupancy = true := by
      have set : d.set = (s.chan ch).set := by rw [← hd]
      rw [ChannelState.occupancy_within (w := weighed (s.chan ch).set (s.chan ch).z raw 1) (by rw [← hd])
        (by rw [← hd]; exact occupied) (by rw [set]; exact above) (by rw [set]; exact not_lt.mpr high), set]
      exact decide_eq_true low
    have stays : s.vacates ch true = false := by
      unfold State.vacates State.vacatesDeck
      cases ch.bridge? <;> simp
    rw [occupancy, if_neg (not_lt.mpr high), if_neg above, stays] at ends
    rw [occupancy, ends] at found
    have deck (b : Bridge) (hb : ch.bridge? = some b) : s2.bridge b = s.bridge b := by
      obtain rfl := Channel.eq_of_bridge? hb
      rw [found.deck b hb, State.positionAt, if_pos occupied, State.vacatesDeck_eq, State.positionAt, if_pos occupied]
      simp
    have flight2 : (s2.chan ch).capture = some k := by rw [found.capture]; exact flight
    let k1 : Capture := { k with samples := window }
    let s3 := s2.setChan ch { s2.chan ch with capture := some k1 }
    have tests := State.testCapture_some flight2 raw k1 (by rw [found.set]; simp only [k1, hwindow]; rfl)
    rw [found.set, found.z, Capture.band_eq, ← sampled] at tests
    refine ⟨t, runs, keeps, ?_⟩
    have set3 : (s3.chan ch).set = (s.chan ch).set := by rw [State.chan_setChan]; exact found.set
    have flight3 : (s3.chan ch).capture = some k1 := by rw [State.chan_setChan]
    have tkt3 : s3.tkt = s.tkt := by rw [← found.tkt]; simp [s3]
    have deck3 (b : Bridge) (hb : ch.bridge? = some b) : s3.bridge b = s.bridge b := by rw [← deck b hb]; simp [s3]
    have decks := same.ofDecks weighing_keeps
    have condition : ((s.chan ch).set.M ≤ window.length ∧
        spread (window.map fun r => Int.tdiv ((r - (s.chan ch).z) * (s.chan ch).set.G) 65536) ≤
          ((if coarse then min (2 * ((s.chan ch).set.b * (s.chan ch).set.d)) (8 * (s.chan ch).set.d)
            else (s.chan ch).set.b * (s.chan ch).set.d : Nat) : Int)) ↔
        ((s.chan ch).set.M ≤ k1.samples.length ∧ spread (k1.samples.map (fineWeight (s.chan ch).set (s.chan ch).z)) ≤
          ((if decide ((s.chan ch).set.Rf < k1.attempt) = true
            then min (2 * ((s.chan ch).set.b * (s.chan ch).set.d)) (8 * (s.chan ch).set.d)
            else (s.chan ch).set.b * (s.chan ch).set.d : Nat) : Int)) := by
      rw [hcoarse]; rfl
    by_cases pass : ((s.chan ch).set.M ≤ window.length ∧
        spread (window.map fun r => Int.tdiv ((r - (s.chan ch).z) * (s.chan ch).set.G) 65536) ≤
          ((if coarse then min (2 * ((s.chan ch).set.b * (s.chan ch).set.d)) (8 * (s.chan ch).set.d)
            else (s.chan ch).set.b * (s.chan ch).set.d : Nat) : Int))
    · rw [if_pos pass]
      rw [if_pos (condition.mp pass)] at tests
      have passes := State.completeCapture_passes flight3
      have z3 : (s3.chan ch).z = (s.chan ch).z := by rw [State.chan_setChan]; exact found.z
      have stamp3 : s3.stamp = ⟨s.clu.now, s.clu.valid⟩ := by rw [State.stamp_setChan, State.stamp_congr found.clu]; rfl
      have weighed3 : s3.weighingOf ch k1 = weighing := by
        rw [hweighing, hweight, hcoarse, State.weighingOf, set3, z3, stamp3]; rfl
      rw [weighed3, ← tests] at passes
      exact passes.completed same weighing_keeps set3 tkt3 deck3 (by rw [hweighing]) (by rw [hweighing])
    · rw [if_neg pass]
      rw [if_neg (condition.not.mp pass)] at tests
      rw [tests] at same
      refine ⟨by rw [same.chan, flight3], by rw [same.chan, State.chan_setChan]; exact found.slot, by rw [same.tkt, tkt3], ?_⟩
      exact decks fun b hb => by rw [tests]; exact deck3 b hb
  · rintro s dig ch raw w c k vacated power delivers rfl st flight hw rfl out
    rw [← weighed_one] at hw
    obtain ⟨t, runs, keeps, same⟩ := sample_delivered power delivers raw true
    obtain ⟨s2, sampled, found⟩ := capturing_sample st flight raw _ rfl
    rw [← hw] at found
    have ends := s.sampleEnds_eq ch w _ rfl
    generalize hd : ({ s.chan ch with live := reported (s.chan ch).set w } : ChannelState) = d at found ends
    have vacated : ¬ ((s.chan ch).set.K + 9 * (s.chan ch).set.d : Nat) < w → ¬ w < -(20 * ((s.chan ch).set.d : Int)) →
        s.vacates ch d.occupancy = true := by
      intro high low
      obtain ⟨⟨occupied, below⟩, here⟩ :
          ((s.chan ch).occupied = true ∧ w < (((s.chan ch).set.T / 2 * (s.chan ch).set.d : Nat) : Int)) ∧
          (ch.bridge?.all fun b => decide ((s.bridge b).pos = .onDeck)) = true := by
        rcases out with out | out | out
        · exact absurd out high
        · exact absurd out low
        · simpa only [Bool.and_eq_true, decide_eq_true_eq] using out
      have vacant : d.occupancy = false := by
        have set : d.set = (s.chan ch).set := by rw [← hd]
        rw [ChannelState.occupancy_within (w := w) (by rw [← hd]) (by rw [← hd]; exact occupied) (by rw [set]; exact low)
          (by rw [set]; exact high), set]
        exact decide_eq_false (not_le.mpr below)
      unfold State.vacates State.vacatesDeck
      rw [vacant]
      cases hb : ch.bridge? with
      | none => simp [occupied]
      | some b =>
        obtain rfl := Channel.eq_of_bridge? hb
        simpa [occupied] using here
    have ended : (s.setChan ch d).sampleEnds ch = some (if ((s.chan ch).set.K + 9 * (s.chan ch).set.d : Nat) < w then .overload
        else if w < -(20 * ((s.chan ch).set.d : Int)) then .underload else .position) := by
      rw [ends]
      split
      · rfl
      · rename_i high
        split
        · rfl
        · rename_i low
          rw [if_pos (vacated high low)]
    rw [ended] at found
    have noCapture : (s2.chan ch).capture = none := by rw [found.capture]; exact ChannelState.afterEnd_capture ..
    rw [sampled, State.testCapture_none noCapture] at same
    refine ⟨t, runs, keeps, same.tkt.trans found.tkt, by rw [same.chan, noCapture], ?_, ?_, ?_⟩
    · rw [same.events, found.has, ChannelState.tells, flight]; simp
    · rw [same.chan, found.slot]; exact ChannelState.afterEnd_slot flight ..
    · intro b
      by_cases mine : ch.bridge? = some b
      · obtain rfl := Channel.eq_of_bridge? mine
        rw [same.bridge, found.deck b mine, State.vacatesDeck_eq]
        simp [mine]
      · have others := (WeighingKeeps.sample s ch raw true).bridges b mine
        rw [sampled, State.testCapture_none noCapture] at others
        rw [same.bridge, others]
        simp [mine]

end Sys2Proof.Machine
end

