-- ==== Sys2Proof/Proofs/Deck.lean ====
section
/-! PROOFS. The statements about the deck positions and their timers: O25 and O26. -/

namespace Sys2Proof.Machine

/-- A channel whose record is that of an ended capture, its occupancy aside, has its capture ended in the sense of R22 and R24. -/
theorem State.captureEnded_of {s t : State} {ch : Channel} {e : CaptureEnd} {now : Stamp} {occupied : Bool}
    (chan : t.chan ch = { (s.chan ch).afterEnd ch e none none now with occupied := occupied })
    (has : ∀ p, (t.events p).has (.captureEnd ch) = ((s.events p).has (.captureEnd ch) || (s.chan ch).tells p)) :
    s.captureEnded t ch e := by
  refine ⟨by rw [chan]; exact ChannelState.afterEnd_capture .., fun idle => by rw [chan, ChannelState.afterEnd_none idle], fun k hk => ?_⟩
  exact ⟨by rw [has, ChannelState.tells, hk]; simp, by rw [chan]; exact ChannelState.afterEnd_slot hk ..⟩

theorem State.wch_ext {s t : State} (chan : ∀ o, t.chan o = s.chan o) (turn : t.wch.nextPlatform = s.wch.nextPlatform) : t.wch = s.wch := by
  have h0 := chan .c0
  have h1 := chan .c1
  have h2 := chan .c2
  have h3 := chan .c3
  simp only [State.chan] at h0 h1 h2 h3
  generalize t.wch = v, s.wch = w at *
  obtain ⟨a0, a1, a2, a3, n⟩ := v
  obtain ⟨b0, b1, b2, b3, m⟩ := w
  simp only at h0 h1 h2 h3 turn
  rw [h0, h1, h2, h3, turn]

/-- Where a weighing event leaves its own channel alone, it leaves every channel alone. -/
theorem WeighingKeeps.wch_eq {s t : State} {ch : Channel} (h : WeighingKeeps s ch t) (own : t.chan ch = s.chan ch) : t.wch = s.wch := by
  refine State.wch_ext (fun o => ?_) h.nextPlatform
  by_cases mine : o = ch
  · rw [mine, own]
  · exact h.channels o mine

theorem WeighingKeeps.otherBridge {s t : State} {b o : Bridge} (h : WeighingKeeps s b.channel t) (ho : o ≠ b) :
    t.bridge o = s.bridge o :=
  h.bridges o (by rw [Bridge.bridge?_channel]; exact fun same => ho (Option.some.inj same).symm)

/-! O25 -/

/-- A bridge with the fault timer of one beam replaced. -/
def BridgeState.withFault (x : BridgeState) (side : Side) (t : Option Timer) : BridgeState :=
  { x with
    entryFault := if side = .entry then t else x.entryFault
    exitFault := if side = .exit then t else x.exitFault }

/-- The position a beam change leads to (R35): `shut` says that some beam is blocked, `occupied` what the channel is. -/
def Position.onBeam (p : Position) (blocked shut occupied : Bool) : Position :=
  if blocked then (match p with
    | .empty => .entering
    | .onDeck => .leaving
    | x => x)
  else if shut then p
  else match p with
    | .entering => if occupied then .onDeck else .empty
    | .leaving => if occupied then .onDeck else .empty
    | .fault => if occupied then .onDeck else .empty
    | x => x

/-- A beam change restarts or stops the fault timer of the beam, and then moves the deck where the table of R35 moves it. -/
theorem State.beamChange_eq (s : State) (b : Bridge) (side : Side) (blocked : Bool) (t : Option Timer) (new : Position)
    (ht : t = if blocked then some (s.timer (s.dsu.beamFault * 1000)) else none)
    (hn : new = (s.bridge b).pos.onBeam blocked (s.beamBlocked b .entry || s.beamBlocked b .exit) (s.chan b.channel).occupied) :
    s.beamChange b side blocked =
      if (s.bridge b).pos = new then s.setBridge b ((s.bridge b).withFault side t)
      else (s.setBridge b ((s.bridge b).withFault side t)).setPosition b new := by
  have blocked1 (x : BridgeState) (side : Side) : (s.setBridge b x).beamBlocked b side = s.beamBlocked b side := by
    cases b <;> rfl
  have unfolded : s.beamChange b side blocked =
      if blocked then
        match (s.bridge b).pos with
        | .empty => (s.setBridge b ((s.bridge b).withFault side t)).setPosition b .entering
        | .onDeck => (s.setBridge b ((s.bridge b).withFault side t)).setPosition b .leaving
        | _ => s.setBridge b ((s.bridge b).withFault side t)
      else if s.beamBlocked b .entry || s.beamBlocked b .exit then s.setBridge b ((s.bridge b).withFault side t)
      else
        match (s.bridge b).pos with
        | .onDeck => s.setBridge b ((s.bridge b).withFault side t)
        | .empty => s.setBridge b ((s.bridge b).withFault side t)
        | _ => (s.setBridge b ((s.bridge b).withFault side t)).setPosition b (if (s.chan b.channel).occupied then .onDeck else .empty) := by
    unfold State.beamChange State.clearedTo
    dsimp only
    rw [← ht]
    cases side
    all_goals
      simp only [blocked1, State.chan_setBridge, BridgeState.withFault, if_true, if_false, reduceCtorEq]
      cases (s.bridge b).pos <;> rfl
  rw [unfolded, hn]
  unfold Position.onBeam
  cases blocked
  · cases s.beamBlocked b .entry || s.beamBlocked b .exit
    · cases (s.bridge b).pos <;> cases (s.chan b.channel).occupied <;> rfl
    · simp
  · cases (s.bridge b).pos <;> rfl

/-- A fault timer replaced, and the deck moved where the table of R35 moves it, told as one change of the bridge. -/
theorem State.moved_effect (s : State) (b : Bridge) (x : BridgeState) (new : Position) (hx : x.pos = (s.bridge b).pos)
    (t : State) (ht : t = if (s.bridge b).pos = new then s.setBridge b x else (s.setBridge b x).setPosition b new) :
    t.bridge b =
        { x with
          pos := new
          stretch := if (s.bridge b).pos ≠ .entering ∧ new = .entering then some (s.timer s.dsu.stretchTime) else x.stretch
          captured := if (s.bridge b).pos = .onDeck ∧ new ≠ .onDeck then false else x.captured } ∧
      t.chan b.channel =
        (if (s.bridge b).pos = .onDeck ∧ new ≠ .onDeck then (s.chan b.channel).afterEnd b.channel .position none none s.stamp
        else s.chan b.channel) ∧
      ∀ p f, (t.events p).has f =
        ((s.events p).has f ||
          (decide (f = .captureEnd b.channel) && (decide ((s.bridge b).pos = .onDeck ∧ new ≠ .onDeck) && (s.chan b.channel).tells p))
          || (decide (f = .deck b) && (decide ((s.bridge b).pos ≠ new) && new.told))) := by
  have events (p : Port) : (s.setBridge b x).events p = s.events p := by cases p <;> simp [State.events]
  have stamp : (s.setBridge b x).stamp = s.stamp := State.stamp_congr (by simp)
  have timer : (s.setBridge b x).timer (s.setBridge b x).dsu.stretchTime = s.timer s.dsu.stretchTime := by cases b <;> rfl
  by_cases same : (s.bridge b).pos = new
  · rw [if_pos same] at ht
    subst ht same
    refine ⟨?_, by simp, fun p f => by rw [events]; simp⟩
    rw [State.bridge_setBridge, ← hx]
    simp
  · rw [if_neg same] at ht
    obtain ⟨chan, bridge, has⟩ := (s.setBridge b x).setPosition_effect b new _ rfl
    simp only [State.bridge_setBridge, State.chan_setBridge, hx, events, stamp, timer, decide_eq_true_eq] at chan bridge has
    subst ht
    refine ⟨?_, chan, fun p f => ?_⟩
    · rw [bridge]
      have entered : ((s.bridge b).pos ≠ .entering ∧ new = .entering) ↔ new = .entering :=
        ⟨And.right, fun h => ⟨fun h' => same (h'.trans h.symm), h⟩⟩
      simp only [entered]
    · rw [has]; simp [same]

/-- Settles O25: a beam change is `State.beamChange_eq`, a change of occupancy `State.setOccupied_effect`. -/
theorem deckFollowsTable : Obligations.DeckFollowsTable := by
  unfold Obligations.DeckFollowsTable
  refine ⟨?_, ?_⟩
  · rintro s v b side blocked old new rfl hblocked hv hnew
    have table : new =
        (s.bridge b).pos.onBeam blocked (s.beamBlocked b .entry || s.beamBlocked b .exit) (s.chan b.channel).occupied := by
      rw [hnew]; unfold Position.onBeam; cases (s.bridge b).pos <;> rfl
    have keeps := WeighingKeeps.beamChange s b side blocked
    have changes := s.beamChange_eq b side blocked _ new rfl table
    obtain ⟨bridge, chan, has⟩ := s.moved_effect b ((s.bridge b).withFault side _) new rfl _ changes
    rw [← hv] at keeps bridge chan has
    refine ⟨keeps.sampleKeeps, ?_, fun o ho => keeps.otherBridge ho, ?_, ?_, ?_, ?_⟩
    · rw [hv]; exact (Reaches.beamChange s b side blocked (bs := [.wch, .dsu, .evu]) (by decide)).tkt (by decide)
    · rw [bridge]; rfl
    · intro moved told p
      rw [has]
      simp [moved, Position.told, told]
    · intro was left
      refine State.captureEnded_of (now := s.stamp) (occupied := (s.chan b.channel).occupied) ?_ fun p => by rw [has]; simp [was, left]
      rw [chan, if_pos ⟨was, left⟩, ChannelState.afterEnd_eq]
    · intro stays
      refine keeps.wch_eq ?_
      rw [chan, if_neg (by tauto)]
  · rintro s u b occupied old new rfl differs rfl hnew
    have keeps := WeighingKeeps.setOccupied s b.channel occupied
    have table : s.positionAt b occupied = new := by
      rw [State.positionAt, if_neg (Ne.symm differs), hnew, Bool.and_assoc]
      cases (s.bridge b).pos <;> rfl
    obtain ⟨chan, bridge, has⟩ := s.setOccupied_effect b occupied
    rw [State.vacatesDeck_eq, table] at chan bridge
    simp only [State.vacatesDeck_eq, table] at has
    refine ⟨keeps.sampleKeeps, ?_, fun o ho => keeps.otherBridge ho, ?_, by rw [chan], ?_, ?_, ?_⟩
    · exact (Reaches.setOccupied s b.channel occupied (bs := [.wch, .dsu, .evu]) (by decide)).tkt (by decide)
    · rw [bridge]; simp only [decide_eq_true_eq]
    · intro moved p; rw [has]; simp [Ne.symm moved]
    · intro was left
      refine State.captureEnded_of (now := s.stamp) (occupied := occupied) ?_ fun p => by rw [has]; simp [was, left]
      rw [chan, if_pos (by simp [was, left])]
    · intro stays
      rw [chan, if_neg (by simp; tauto)]

/-! O26 -/

/-- The expiry of a running beam fault timer (R36): the timer stops, the position becomes FAULT, and a capture in flight ends. -/
theorem Deck.beamFaultExpiry_effect (s : State) (b : Bridge) (side : Side) (running : ((s.bridge b).faultTimer side).isSome = true)
    (t : State) (ht : t = Deck.beamFaultExpiry b side s) :
    WeighingKeeps s b.channel t ∧ t.tkt = s.tkt ∧
      t.bridge b =
        { (s.bridge b).withFault side none with
          pos := .fault, captured := if (s.bridge b).pos = .onDeck then false else (s.bridge b).captured } ∧
      ((s.bridge b).pos ≠ .fault → s.captureEnded t b.channel .position ∧ ∀ p, (t.events p).has (.deck b) = true) ∧
      ((s.bridge b).pos = .fault → t.evu = s.evu ∧ t.wch = s.wch) ∧ ((t.chan b.channel).st = (s.chan b.channel).st) := by
  let s1 := s.setBridge b ((s.bridge b).withFault side none)
  have expires : Deck.beamFaultExpiry b side s =
      if (s.bridge b).pos = .fault then s1 else (s1.setPosition b .fault).endCapture b.channel .position none none := by
    obtain ⟨timer, htimer⟩ := Option.isSome_iff_exists.mp running
    simp only [Deck.beamFaultExpiry, htimer]
    cases side <;> rfl
  have keeps1 : WeighingKeeps s b.channel s1 := .setBridge s _ b.bridge?_channel
  by_cases fault : (s.bridge b).pos = .fault
  · rw [if_pos fault] at expires
    rw [expires] at ht
    subst ht
    refine ⟨keeps1, by simp [s1], ?_, fun h => absurd fault h, fun _ => by simp [s1], by simp [s1]⟩
    simp [s1, fault, BridgeState.withFault]
  · rw [if_neg fault] at expires
    rw [expires] at ht
    have moved : s1.setPosition b .fault = if (s.bridge b).pos = .fault then s1 else s1.setPosition b .fault := (if_neg fault).symm
    obtain ⟨bridge, chan, has⟩ := s.moved_effect b ((s.bridge b).withFault side none) .fault rfl _ moved
    have keeps := (keeps1.trans (WeighingKeeps.setPosition s1 b .fault)).trans (WeighingKeeps.endCapture _ b.channel .position none none)
    have reached : Reaches [.wch, .dsu, .evu] s t := by
      rw [ht]
      exact ((Reaches.setBridge s b _ (by decide)).trans (Reaches.setPosition _ b .fault (by decide))).trans
        (Reaches.endCapture _ b.channel .position none none (by decide))
    rw [← ht] at keeps
    have stamp : (s1.setPosition b .fault).stamp = s.stamp :=
      State.stamp_congr (((Reaches.setBridge s b _ (by decide)).trans
        (Reaches.setPosition s1 b .fault (bs := [.wch, .dsu, .evu]) (by decide))).clu (by decide))
    have ended : ((s.chan b.channel).afterEnd b.channel .position none none s.stamp).capture = none := ChannelState.afterEnd_capture ..
    have chan' : t.chan b.channel = (s.chan b.channel).afterEnd b.channel .position none none s.stamp := by
      rw [ht, State.chan_endCapture, stamp, chan]
      split
      · exact ChannelState.afterEnd_none ended ..
      · rfl
    refine ⟨keeps, reached.tkt (by decide), ?_, fun _ => ⟨?_, fun p => ?_⟩, fun h => absurd h fault,
      by rw [chan', ChannelState.afterEnd_eq]⟩
    · rw [ht, State.bridge_endCapture_position _ b b none none .position rfl, bridge]
      simp [BridgeState.withFault]
    · refine State.captureEnded_of (now := s.stamp) (occupied := (s.chan b.channel).occupied) ?_ fun p => ?_
      · rw [chan', ChannelState.afterEnd_eq]
      · rw [ht, State.has_endCapture, has, chan]
        by_cases here : (s.bridge b).pos = .onDeck
        · simp [here, ChannelState.tells, ended]
        · simp [here]
    · rw [ht, State.has_endCapture, has]
      simp [fault, Position.told]

/-- A command that changes the state by `f`, on a part with power, where it touches neither the lines nor the states of the channels. -/
theorem run_settles {s t : State} (power : s.powered = true) (f : State → State) (hf : f s = t) (lines : t.dsu.lines = s.dsu.lines)
    (service : t.anyInService = s.anyInService) : run f s = .next t.settle := by
  rw [run, if_pos power, hf, State.conclude, State.beginAlerts_of_same _ _ (State.sameConditions_of _ _ lines service)]

@[simp] theorem State.setBridge_lines (s : State) (b : Bridge) (x : BridgeState) : (s.setBridge b x).dsu.lines = s.dsu.lines := by
  cases b <;> rfl

@[simp] theorem State.setBridge_anyInService (s : State) (b : Bridge) (x : BridgeState) :
    (s.setBridge b x).anyInService = s.anyInService := by cases b <;> rfl

/-- One tick of a lamp role that runs a pattern with ticks (R40), by what is left of the pause, and else by the step. -/
theorem LampRun.advance_eq (r : LampRun) (pause : Nat) :
    r.advance pause =
      if 1 < r.pauseLeft then ⟨r.pattern, r.step, r.pauseLeft - 1⟩
      else if r.pauseLeft = 1 ∨ (8 ≤ r.step ∧ pause = 0) then ⟨r.pattern, 1, 0⟩
      else if r.step < 8 then ⟨r.pattern, r.step + 1, 0⟩
      else ⟨r.pattern, r.step, pause⟩ := by
  unfold LampRun.advance LampRun.begin
  obtain ⟨pattern, step, left⟩ := r
  dsimp only
  rcases Nat.lt_trichotomy left 1 with h | rfl | h
  · obtain rfl : left = 0 := by omega
    by_cases hs : step < 8
    · simp [hs]
    · by_cases hp : pause = 0 <;> simp [hs, hp, not_lt.mp hs]
  · simp
  · simp [h, show left ≠ 1 by omega]

/-- Settles O26: each timer's expiry as a command, the beam fault's by `Deck.beamFaultExpiry_effect`. -/
theorem deckTimersExpire : Obligations.DeckTimersExpire := by
  unfold Obligations.DeckTimersExpire
  intro s b power
  refine ⟨fun side running => ?_, ?_, fun row timer over_ => ?_, fun row over_ => ?_, ?_⟩
  · obtain ⟨keeps, tkt, bridge, ends, stays, st⟩ := Deck.beamFaultExpiry_effect s b side running _ rfl
    generalize ht : Deck.beamFaultExpiry b side s = t at *
    have runs : exec (.beamFaultTimeout b side) s = .next t.settle := by
      show Host.Outcome.next (if s.powered then s.conclude (Deck.beamFaultExpiry b side s) else s) = _
      rw [if_pos power, ht, keeps.conclude (by rw [st])]
    have same := State.SameWeighing.settle t
    refine ⟨_, runs, State.sampleKeeps_settle keeps.sampleKeeps, tkt, fun o ho => ?_, ?_, fun moved => ⟨?_, fun p => ?_⟩, stays⟩
    · rw [same.bridge, keeps.otherBridge ho]
    · rw [same.bridge, bridge]; rfl
    · obtain ⟨capture, slot, held⟩ := (ends moved).1
      refine ⟨by rw [same.chan]; exact capture, by rw [same.chan]; exact slot, fun k hk => ?_⟩
      rw [same.chan, same.events]
      exact held k hk
    · rw [same.events]; exact (ends moved).2 p
  · exact run_settles power _ rfl (by simp) (by simp)
  · exact run_settles power _ (by simp only [Deck.overrideExpiry, over_]) (by simp) (by simp)
  · exact run_settles power _ (by simp only [Deck.overrideExpiry, over_]) rfl rfl
  · rintro side colour r rfl
    refine ⟨fun plain => ?_, fun ticks => ?_⟩
    · exact run_settles power (Deck.tick b side colour) (by rw [Deck.tick]; exact if_pos plain) rfl rfl
    · rw [← LampRun.advance_eq]
      refine run_settles power (Deck.tick b side colour) (by rw [Deck.tick]; exact if_neg (by omega)) ?_ ?_
      · cases b <;> rfl
      · cases b <;> rfl

end Sys2Proof.Machine
end

