-- ==== Sys2Proof/Proofs/WeighingKept.lean ====
section
/-! PROOFS. The weighing invariant of O58, channel by channel: what it says of one channel with its deck, and that every operation of a
channel or a deck keeps it. -/

namespace Sys2Proof.Machine

/-! One channel and its deck -/

/-- A capture in flight keeps within its list and its attempts (R20, R21). -/
def Capture.fits (k : Capture) (set : ChannelSettings) : Prop :=
  k.samples.length ≤ set.M ∧ 1 ≤ k.attempt ∧ k.attempt ≤ set.Rf + 2 ∧ 0 ≤ k.tare

/-- The vehicle is in place: the deck in ON_DECK, or the platform, which has no deck, occupied (R18). -/
def ChannelState.placed (c : ChannelState) : Option BridgeState → Bool
  | some x => x.pos == .onDeck
  | none => c.occupied

/-- What the weighing invariant says of a channel and its deck. -/
structure ChannelState.Holds (c : ChannelState) (deck : Option BridgeState) : Prop where
  sound : c.sound
  flight : ∀ k, c.capture = some k → c.st = .active ∧ c.slot = none ∧ c.placed deck = true ∧ k.fits c.set
  mark : ∀ x, deck = some x → x.captured = true → x.pos = .onDeck ∧ c.capture = none

def State.deckOf (s : State) (ch : Channel) : Option BridgeState := ch.bridge?.map s.bridge

theorem State.inPlace_eq (s : State) (ch : Channel) : s.inPlace ch = (s.chan ch).placed (s.deckOf ch) := by
  unfold State.inPlace State.deckOf ChannelState.placed
  cases ch.bridge? <;> rfl

theorem State.weighingSound_iff (s : State) : s.weighingSound ↔ ∀ ch, (s.chan ch).Holds (s.deckOf ch) := by
  constructor
  · rintro ⟨channels, decks⟩ ch
    obtain ⟨sound, flight⟩ := channels ch (by cases ch <;> simp)
    refine ⟨sound, fun k hk => ?_, fun x hx captured => ?_⟩
    · obtain ⟨st, slot, place, rest⟩ := flight k hk
      exact ⟨st, slot, by rw [← State.inPlace_eq]; exact place, rest⟩
    · obtain ⟨b, hb, rfl⟩ := Option.map_eq_some_iff.mp hx
      obtain rfl := Channel.eq_of_bridge? hb
      exact decks b (by cases b <;> simp) captured
  · intro h
    refine ⟨fun ch _ => ⟨(h ch).sound, fun k hk => ?_⟩, fun b _ captured => ?_⟩
    · obtain ⟨st, slot, place, rest⟩ := (h ch).flight k hk
      exact ⟨st, slot, by rw [State.inPlace_eq]; exact place, rest⟩
    · exact (h b.channel).mark (s.bridge b) (by simp [State.deckOf]) captured

/-- An operation of one channel and its deck that keeps what the invariant says of them. -/
structure State.KeepsSound (s : State) (ch : Channel) (t : State) : Prop where
  channels : ∀ o, o ≠ ch → t.chan o = s.chan o
  bridges : ∀ b, ch.bridge? ≠ some b → t.bridge b = s.bridge b
  own : (s.chan ch).Holds (s.deckOf ch) → (t.chan ch).Holds (t.deckOf ch)

theorem State.KeepsSound.sound {s t : State} {ch : Channel} (h : s.KeepsSound ch t) (hs : s.weighingSound) : t.weighingSound := by
  rw [State.weighingSound_iff] at hs ⊢
  intro o
  by_cases mine : o = ch
  · rw [mine]; exact h.own (hs ch)
  · have deck : t.deckOf o = s.deckOf o := by
      unfold State.deckOf
      cases hb : o.bridge? with
      | none => rfl
      | some b =>
        have other : ch.bridge? ≠ some b := fun h' => mine ((Channel.eq_of_bridge? hb).trans (Channel.eq_of_bridge? h').symm)
        simp only [Option.map_some, h.bridges b other]
    rw [h.channels o mine, deck]
    exact hs o

theorem State.KeepsSound.refl (s : State) (ch : Channel) : s.KeepsSound ch s := ⟨fun _ _ => rfl, fun _ _ => rfl, id⟩

theorem State.KeepsSound.trans {s t u : State} {ch : Channel} (h : s.KeepsSound ch t) (g : t.KeepsSound ch u) : s.KeepsSound ch u :=
  ⟨fun o ho => (g.channels o ho).trans (h.channels o ho), fun b hb => (g.bridges b hb).trans (h.bridges b hb), fun hs => g.own (h.own hs)⟩

theorem WeighingKeeps.keepsSound {s t : State} {ch : Channel} (h : WeighingKeeps s ch t)
    (own : (s.chan ch).Holds (s.deckOf ch) → (t.chan ch).Holds (t.deckOf ch)) : s.KeepsSound ch t := ⟨h.channels, h.bridges, own⟩

/-- What is not of the weighing and leaves positions and captured marks alone. -/
theorem State.deckOf_bridge (s : State) (b : Bridge) : s.deckOf b.channel = some (s.bridge b) := by simp [State.deckOf]

theorem State.deckOf_platform {ch : Channel} (h : ch.bridge? = none) (s : State) : s.deckOf ch = none := by simp [State.deckOf, h]

theorem State.deckOf_congr {s t : State} (h : ∀ b, t.bridge b = s.bridge b) (ch : Channel) : t.deckOf ch = s.deckOf ch := by
  rw [State.deckOf, State.deckOf, show t.bridge = s.bridge from funext h]

@[simp] theorem State.deckOf_setChan (s : State) (ch o : Channel) (c : ChannelState) : (s.setChan ch c).deckOf o = s.deckOf o :=
  State.deckOf_congr (fun b => by simp) o

/-! The end of a capture and the moves of a deck -/

theorem ChannelState.Holds.afterEnd {c : ChannelState} {deck : Option BridgeState} (h : c.Holds deck) (ch : Channel) (e : CaptureEnd)
    (w : Option Int) (a : Option Application) (now : Stamp) :
    (c.afterEnd ch e w a now).Holds
      (deck.map fun x => if c.capture.isSome && e.weighs then { x with captured := true } else x) := by
  cases hk : c.capture with
  | none => simpa [ChannelState.afterEnd_none hk] using h
  | some k =>
    obtain ⟨st, slot, place, fits⟩ := h.flight k hk
    obtain ⟨legal, serial, window, stable, active, good, block, empty, timer, dead, live, free⟩ := h.sound
    have capture := c.afterEnd_capture ch e w a now
    refine ⟨?_, fun k' hk' => ?_, fun x hx captured => ⟨?_, capture⟩⟩
    · rw [ChannelState.afterEnd_eq]
      exact ⟨legal, serial, window, stable, active, good, block, empty, timer, dead, live, fun h' => by simp [st] at h'⟩
    · rw [capture] at hk'; cases hk'
    · obtain ⟨y, rfl, rfl⟩ := Option.map_eq_some_iff.mp hx
      have onDeck : y.pos = .onDeck := by simpa [ChannelState.placed] using place
      split <;> exact onDeck

theorem State.endCapture_keepsSound (s : State) (ch : Channel) (e : CaptureEnd) (w : Option Int) (a : Option Application) :
    s.KeepsSound ch (s.endCapture ch e w a) := by
  refine (WeighingKeeps.endCapture s ch e w a).keepsSound fun h => ?_
  have ended := h.afterEnd ch e w a s.stamp
  have deck : (s.endCapture ch e w a).deckOf ch =
      (s.deckOf ch).map fun x => if (s.chan ch).capture.isSome && e.weighs then { x with captured := true } else x := by
    unfold State.deckOf
    cases hb : ch.bridge? with
    | none => rfl
    | some b =>
      obtain rfl := Channel.eq_of_bridge? hb
      simp only [Option.map_some, State.bridge_endCapture]
  rw [State.chan_endCapture, deck]
  exact ended

/-- The occupancy of a channel with a deck is no part of what the invariant says of it. -/
theorem ChannelState.Holds.occupied {c : ChannelState} {x : BridgeState} (h : c.Holds (some x)) (o : Bool) :
    ({ c with occupied := o } : ChannelState).Holds (some x) := ⟨h.sound, h.flight, h.mark⟩

/-- A deck that leaves ON_DECK ends the capture and drops the mark; elsewhere neither was there. -/
theorem ChannelState.Holds.moved {c : ChannelState} {x : BridgeState} (h : c.Holds (some x)) (ch : Channel) (now : Stamp) (y : BridgeState)
    (leaves : Bool) (hl : leaves = decide (x.pos = .onDeck ∧ y.pos ≠ .onDeck))
    (hy : y.captured = if leaves then false else x.captured) :
    (if leaves then c.afterEnd ch .position none none now else c).Holds (some y) := by
  subst hl
  by_cases left : x.pos = .onDeck ∧ y.pos ≠ .onDeck
  · simp only [left, ne_eq, not_false_eq_true, and_self, decide_true, if_true] at hy ⊢
    have ended := h.afterEnd ch .position none none now
    have capture := c.afterEnd_capture ch .position none none now
    refine ⟨ended.sound, fun k hk => ?_, fun z hz marked => ?_⟩
    · rw [capture] at hk; cases hk
    · obtain rfl := Option.some.inj hz
      rw [hy] at marked; cases marked
  · rw [decide_eq_false left] at hy ⊢
    simp only [Bool.false_eq_true, if_false] at hy ⊢
    have still (hx : x.pos = .onDeck) : y.pos = .onDeck := by
      by_contra hn
      exact left ⟨hx, hn⟩
    refine ⟨h.sound, fun k hk => ?_, fun z hz marked => ?_⟩
    · obtain ⟨st, slot, place, fits⟩ := h.flight k hk
      have here : x.pos = .onDeck := by simpa [ChannelState.placed] using place
      exact ⟨st, slot, by simp [ChannelState.placed, still here], fits⟩
    · obtain rfl := Option.some.inj hz
      obtain ⟨here, idle⟩ := h.mark x rfl (hy ▸ marked)
      exact ⟨still here, idle⟩

theorem State.setPosition_keepsSound (s : State) (b : Bridge) (p : Position) : s.KeepsSound b.channel (s.setPosition b p) := by
  refine (WeighingKeeps.setPosition s b p).keepsSound fun h => ?_
  obtain ⟨chan, bridge, -⟩ := s.setPosition_effect b p _ rfl
  rw [State.deckOf_bridge] at h ⊢
  rw [chan, bridge]
  exact h.moved b.channel s.stamp _ _ rfl rfl

/-- A bridge record changed in neither its position nor its captured mark. -/
theorem State.setBridge_keepsSound (s : State) (b : Bridge) (x : BridgeState) (pos : x.pos = (s.bridge b).pos)
    (captured : x.captured = (s.bridge b).captured) : s.KeepsSound b.channel (s.setBridge b x) := by
  refine (WeighingKeeps.setBridge s x b.bridge?_channel).keepsSound fun h => ?_
  rw [State.deckOf_bridge] at h ⊢
  rw [State.chan_setBridge, State.bridge_setBridge]
  refine ⟨h.sound, fun k hk => ?_, fun z hz marked => ?_⟩
  · obtain ⟨st, slot, place, fits⟩ := h.flight k hk
    exact ⟨st, slot, by simpa [ChannelState.placed, pos] using place, fits⟩
  · obtain rfl := Option.some.inj hz
    rw [pos]
    exact h.mark _ rfl (captured ▸ marked)

theorem State.beamChange_keepsSound (s : State) (b : Bridge) (side : Side) (blocked : Bool) :
    s.KeepsSound b.channel (s.beamChange b side blocked) := by
  rw [s.beamChange_eq b side blocked _ _ rfl rfl]
  have timed := s.setBridge_keepsSound b ((s.bridge b).withFault side
    (if blocked then some (s.timer (s.dsu.beamFault * 1000)) else none)) rfl rfl
  split
  · exact timed
  · exact timed.trans (State.setPosition_keepsSound ..)

theorem State.setOccupied_keepsSound (s : State) (b : Bridge) (occupied : Bool) :
    s.KeepsSound b.channel (s.setOccupied b.channel occupied) := by
  refine (WeighingKeeps.setOccupied s b.channel occupied).keepsSound fun h => ?_
  obtain ⟨chan, bridge, -⟩ := s.setOccupied_effect b occupied
  rw [State.deckOf_bridge] at h ⊢
  rw [chan, bridge]
  exact (h.moved b.channel s.stamp _ _ (s.vacatesDeck_eq b occupied) rfl).occupied occupied

/-! The steps of a sample -/

/-- A weight as reported is within the limits (R5). -/
theorem reported_within (set : ChannelSettings) (z raw : Int) (n : Nat) :
    reported set (weighed set z raw n) ≠ .absent ∧ (reported set (weighed set z raw n)).within set = true := by
  have multiple : weighed set z raw n % (set.d : Int) = 0 := by rw [weighed]; exact Int.mul_emod_left _ _
  unfold reported
  split
  · exact ⟨by simp, rfl⟩
  · split
    · exact ⟨by simp, rfl⟩
    · rename_i high low
      refine ⟨by simp, ?_⟩
      simp only [Report.within, decide_eq_true_eq]
      exact ⟨multiple, not_lt.mp low, by push_cast; exact not_lt.mp high⟩

theorem keepLast_le {α : Type} (n : Nat) (l : List α) : (keepLast n l).length ≤ n := by
  simp only [keepLast, List.length_drop]; omega

theorem ChannelState.Holds.arriving {c : ChannelState} {deck : Option BridgeState} (h : c.Holds deck) (timer : Timer)
    (out : c.st ≠ .off) : (c.arriving timer).Holds deck := by
  obtain ⟨legal, serial, window, stable, active, good, block, empty, timed, dead, live, free⟩ := h.sound
  have idle (st : c.st = .fault) : c.capture = none := by
    by_contra hn
    obtain ⟨k, hk⟩ := Option.ne_none_iff_exists'.mp hn
    have := (h.flight k hk).1
    simp [st] at this
  unfold ChannelState.arriving
  split
  · rename_i st
    have some_ : 0 < c.set.M := Nat.lt_of_lt_of_le (by decide) legal.2.2.2.2.2.2.1.1
    refine ⟨⟨legal, serial, Nat.zero_le _, nofun, nofun, fun _ => some_, block, fun _ => empty (by simp [st]), fun _ => rfl, by simp, nofun,
      by simp⟩, fun k hk => ?_, fun x hx marked => ⟨(h.mark x hx marked).1, idle st⟩⟩
    have none_ := idle st
    rw [show c.capture = some k from hk] at none_
    cases none_
  · rename_i st
    exact ⟨⟨legal, serial, window, stable, active, good, block, empty, fun _ => rfl, by simp [st], live, free⟩, h.flight, h.mark⟩
  · rename_i fault _
    exact ⟨⟨legal, serial, window, stable, active, good, block, empty, fun _ => rfl, fun dead => (dead.elim out fault).elim, live, free⟩,
      h.flight, h.mark⟩

theorem ChannelState.steady_full {c : ChannelState} (h : c.window.length ≤ c.set.M) :
    c.steady = true ↔ c.window.length = c.set.M ∧ fineSpread c.window ≤ (c.set.b * c.set.d : Nat) := by
  rw [ChannelState.steady_iff]
  constructor
  · exact fun ⟨full, fits⟩ => ⟨le_antisymm h full, fits⟩
  · exact fun ⟨full, fits⟩ => ⟨full.ge, fits⟩

theorem ChannelState.Holds.convert {c : ChannelState} {deck : Option BridgeState} (h : c.Holds deck) (raw : Int)
    (running : c.st ≠ .off ∧ c.st ≠ .fault) : (c.convert raw).Holds deck := by
  obtain ⟨legal, serial, window, stable, active, good, block, empty, timed, dead, live, free⟩ := h.sound
  have bounded : (c.convert raw).window.length ≤ (c.convert raw).set.M := keepLast_le _ _
  have judged : (c.convert raw).stable = ((c.st == .active || c.st == .service) && (c.convert raw).steady) := rfl
  have steady := ChannelState.steady_full bounded
  refine ⟨⟨legal, serial, bounded, ?_, ?_, good, block, empty, timed, ?_, fun _ => reported_within .., free⟩, h.flight, h.mark⟩
  · intro isStable
    rw [judged, Bool.and_eq_true, steady] at isStable
    exact ⟨show c.st = .active ∨ c.st = .service by simpa using isStable.1, isStable.2.1⟩
  · intro st
    replace st : c.st = .active := st
    rw [judged, st, ← steady]
    simp
  · rintro (st | st)
    · exact absurd st running.1
    · exact absurd st running.2

theorem ChannelState.Holds.staged {c : ChannelState} {deck : Option BridgeState} (h : c.Holds deck) (k : ZeroBlock)
    (live : c.live ≠ .absent ∧ c.live.within c.set = true) :
    (c.staged k).Holds deck := by
  obtain ⟨legal, serial, window, stable, active, good, block, empty, timed, dead, -, free⟩ := h.sound
  have some_ : 0 < c.set.M := Nat.lt_of_lt_of_le (by decide) legal.2.2.2.2.2.2.1.1
  unfold ChannelState.staged
  split
  · rename_i st
    have idle (k : Capture) (hk : c.capture = some k) : False := by
      have := (h.flight k hk).1
      simp [st] at this
    unfold ChannelState.counted
    split
    · rename_i few
      exact ⟨⟨legal, serial, window, stable, active, fun _ => few, block, empty, timed, dead, fun _ => live, free⟩,
        fun k hk => (idle k hk).elim, h.mark⟩
    · have steady := ChannelState.steady_full window
      refine ⟨⟨legal, serial, window, fun h' => ⟨.inl rfl, (steady.mp h').1⟩, fun _ => steady, nofun, some_, fun h' => absurd rfl h',
        fun _ => timed (.inl st), by simp, fun _ => live, by simp⟩, fun k hk => (idle k hk).elim, h.mark⟩
  · rename_i st
    unfold ChannelState.tracked
    split
    · rename_i few
      exact ⟨⟨legal, serial, window, stable, active, good, few, fun h' => absurd st h', timed, dead, fun _ => live, free⟩, h.flight, h.mark⟩
    · exact ⟨⟨legal, serial, window, stable, active, good, some_, fun h' => absurd st h', timed, dead, fun _ => live, free⟩, h.flight,
        h.mark⟩
  · exact h

/-- A platform whose occupancy has been decided, the capture it ends included. -/
theorem ChannelState.Holds.platform {c : ChannelState} (h : c.Holds none) (occupied : Bool)
    (stays : c.capture.isSome = true → occupied = true) : ({ c with occupied := occupied } : ChannelState).Holds none := by
  refine ⟨h.sound, fun k hk => ?_, nofun⟩
  obtain ⟨st, slot, place, fits⟩ := h.flight k hk
  have flying : c.capture.isSome = true := by rw [show c.capture = some k from hk]; rfl
  exact ⟨st, slot, stays flying, fits⟩

/-- What the live report and the occupancy of a good sample leave of a channel and its deck. -/
theorem ChannelState.Holds.decided {s : State} {ch : Channel} (h : (s.chan ch).Holds (s.deckOf ch)) (occupied : Bool)
    (e : Option CaptureEnd) (he : ∀ x, e = some x → x.weighs = false) (ends : s.vacates ch occupied = true → e.isSome = true)
    (now : Stamp) (deck : Option BridgeState)
    (hd : deck = ch.bridge?.map fun b =>
      { s.bridge b with
        pos := s.positionAt b occupied, captured := if s.vacatesDeck b occupied then false else (s.bridge b).captured }) :
    ({ (s.chan ch).endsBy ch e now with occupied := occupied } : ChannelState).Holds deck := by
  have ended : ((s.chan ch).endsBy ch e now).Holds (s.deckOf ch) := by
    cases e with
    | none => exact h
    | some x =>
      have plain : (fun y : BridgeState => if (s.chan ch).capture.isSome && x.weighs then { y with captured := true } else y) = id := by
        funext y; simp [he x rfl]
      have := h.afterEnd ch x none none now
      rw [plain, Option.map_id, id] at this
      exact this
  have over_ (x : CaptureEnd) (hx : e = some x) : ((s.chan ch).endsBy ch e now).capture = none := by
    rw [hx]; exact ChannelState.afterEnd_capture ..
  cases hb : ch.bridge? with
  | none =>
    have flat : s.deckOf ch = none := by simp [State.deckOf, hb]
    rw [hb, Option.map_none] at hd
    rw [flat] at ended h
    subst hd
    refine ended.platform occupied fun flying => ?_
    cases e with
    | some x => rw [over_ x rfl] at flying; cases flying
    | none =>
      obtain ⟨k, hk⟩ := Option.isSome_iff_exists.mp flying
      have place : (s.chan ch).occupied = true := (h.flight k hk).2.2.1
      by_contra vacant
      have := ends (by simp only [State.vacates, hb, place, Bool.eq_false_iff.mpr vacant]; rfl)
      cases this
  | some b =>
    obtain rfl := Channel.eq_of_bridge? hb
    rw [hb, Option.map_some] at hd
    rw [State.deckOf_bridge] at ended
    subst hd
    have moved := ended.moved b.channel now
      { s.bridge b with
        pos := s.positionAt b occupied, captured := if s.vacatesDeck b occupied then false else (s.bridge b).captured }
      (s.vacatesDeck b occupied) (s.vacatesDeck_eq b occupied) rfl
    have same : (if s.vacatesDeck b occupied then ((s.chan b.channel).endsBy b.channel e now).afterEnd b.channel .position none none now
        else (s.chan b.channel).endsBy b.channel e now) = (s.chan b.channel).endsBy b.channel e now := by
      split
      · rename_i leaves
        obtain ⟨x, hx⟩ := Option.isSome_iff_exists.mp (ends (by simp only [State.vacates, hb]; exact leaves))
        exact ChannelState.afterEnd_none (over_ x hx) ..
      · rfl
    rw [same] at moved
    exact moved.occupied occupied

theorem State.sampleEnds_unweighed (s : State) (ch : Channel) (e : CaptureEnd) (h : s.sampleEnds ch = some e) : e.weighs = false := by
  unfold State.sampleEnds at h
  split at h
  · cases h; rfl
  · cases h; rfl
  · split at h
    · cases h; rfl
    · cases h

theorem State.sampleEnds_of_vacates (s : State) (ch : Channel) (h : s.vacates ch (s.chan ch).occupancy = true) :
    (s.sampleEnds ch).isSome = true := by
  unfold State.sampleEnds
  split
  · rfl
  · rfl
  · rw [if_pos h]; rfl

theorem State.withTickets_keepsSound (s : State) (ch : Channel) (k : Tkt) : s.KeepsSound ch { s with tkt := k } := by
  refine (WeighingKeeps.withTickets s ch k).keepsSound fun h => ?_
  have chan : ({ s with tkt := k } : State).chan ch = s.chan ch := by cases ch <;> rfl
  have deck : ({ s with tkt := k } : State).deckOf ch = s.deckOf ch := by cases ch <;> rfl
  rw [chan, deck]
  exact h

theorem State.completeCapture_keepsSound (s : State) (ch : Channel) (k : Capture) : s.KeepsSound ch (s.completeCapture ch k) := by
  rcases s.completeCapture_cases ch k with ⟨-, h⟩ | ⟨-, h⟩ | ⟨-, h⟩
  · rw [h]; exact s.endCapture_keepsSound ..
  · rw [h]; exact s.endCapture_keepsSound ..
  · obtain ⟨tkt, handed, -⟩ := s.handOver_frame k.ticket (s.weighingOf ch k) k.grade k.tare
    rw [h, handed]
    exact (s.withTickets_keepsSound ch tkt).trans (State.endCapture_keepsSound ..)

/-- A channel's record replaced by one that holds beside the same deck. -/
theorem State.setChan_keepsSound (s : State) (ch : Channel) (c : ChannelState)
    (own : (s.chan ch).Holds (s.deckOf ch) → c.Holds (s.deckOf ch)) : s.KeepsSound ch (s.setChan ch c) := by
  refine ⟨fun o ho => s.chan_setChan_of_ne c ho, fun b _ => by simp, fun h => ?_⟩
  rw [State.chan_setChan, State.deckOf_setChan]
  exact own h

theorem State.testCapture_keepsSound (s : State) (ch : Channel) (raw : Int) : s.KeepsSound ch (s.testCapture ch raw) := by
  cases hk : (s.chan ch).capture with
  | none => rw [State.testCapture_none hk]; exact .refl s ch
  | some k =>
    rw [State.testCapture_some hk raw _ rfl]
    have kept := s.setChan_keepsSound ch
      { s.chan ch with capture := some { k with samples := keepLast (s.chan ch).set.M (k.samples ++ [raw]) } } fun h => by
        refine ⟨h.sound, fun k' hk' => ?_, fun x hx marked => ?_⟩
        · obtain rfl := Option.some.inj hk'
          obtain ⟨st, slot, place, -, first, last, tare⟩ := h.flight k hk
          refine ⟨st, slot, ?_, keepLast_le _ _, first, last, tare⟩
          cases hd : s.deckOf ch with
          | none => rw [hd] at place; exact place
          | some x => rw [hd] at place; exact place
        · have idle := (h.mark x hx marked).2
          rw [hk] at idle; cases idle
    split
    · exact kept.trans (State.completeCapture_keepsSound ..)
    · exact kept

theorem State.goodSample_keepsSound (s : State) (ch : Channel) (raw : Int) (running : (s.chan ch).st ≠ .off ∧ (s.chan ch).st ≠ .fault) :
    s.KeepsSound ch (s.goodSample ch raw) := by
  refine (WeighingKeeps.goodSample s ch raw).keepsSound fun h => ?_
  obtain ⟨s2, k, staged, tests⟩ := s.goodSample_staged ch raw _ rfl
  rw [tests]
  refine (s2.testCapture_keepsSound ch raw).own ?_
  generalize hx : (s.chan ch).convert raw = x at *
  have converted : x.Holds (s.deckOf ch) := by rw [← hx]; exact h.convert raw running
  have live : x.live ≠ .absent ∧ x.live.within x.set = true := by rw [← hx]; exact reported_within ..
  have occ : x.occupied = (s.chan ch).occupied := by rw [← hx]; rfl
  have chan0 : (s.setChan ch x).chan ch = x := s.chan_setChan ch x
  have decided := ChannelState.Holds.decided (s := s.setChan ch x) (ch := ch) (by rw [chan0, State.deckOf_setChan]; exact converted)
    x.occupancy
    ((s.setChan ch x).sampleEnds ch) (fun e => State.sampleEnds_unweighed _ ch e)
    (fun v => State.sampleEnds_of_vacates _ ch (by rw [chan0]; exact v)) s.stamp _ rfl
  simp only [chan0, State.bridge_setChan, s.positionAt_setChan ch x occ, s.vacatesDeck_setChan ch x occ] at decided
  have deck2 : s2.deckOf ch = ch.bridge?.map fun b =>
      { s.bridge b with
        pos := s.positionAt b x.occupancy
        captured := if s.vacatesDeck b x.occupancy then false else (s.bridge b).captured } := by
    unfold State.deckOf
    cases hb : ch.bridge? with
    | none => rfl
    | some b => simp only [Option.map_some, staged.deck b hb]
  have chan2 : s2.chan ch =
      ({ x.endsBy ch ((s.setChan ch x).sampleEnds ch) s.stamp with occupied := x.occupancy } : ChannelState).staged k := by
    rw [staged.chan, ChannelState.endsBy_eq]
    exact (ChannelState.staged_aside { x with occupied := x.occupancy } k _ _).symm
  rw [chan2, deck2]
  refine decided.staged k ?_
  rw [ChannelState.endsBy_eq]
  exact live

/-! Samples and timers as operations -/

theorem State.ChannelAlone.keepsSound {s t : State} {ch : Channel} {c : ChannelState} {told : Bool} (h : s.ChannelAlone ch c told t)
    (others : ∀ o, o ≠ ch → t.chan o = s.chan o) (own : (s.chan ch).Holds (s.deckOf ch) → c.Holds (s.deckOf ch)) :
    s.KeepsSound ch t := by
  refine ⟨others, fun b _ => h.bridge b, fun hs => ?_⟩
  rw [h.chan, State.deckOf_congr h.bridge]
  exact own hs

theorem State.enterFault_keepsSound (s : State) (ch : Channel) : s.KeepsSound ch (s.enterFault ch) := by
  refine (WeighingKeeps.enterFault s ch).keepsSound fun h => ?_
  rw [State.enterFault_chan, State.deckOf_congr (s.enterFault_bridge ch)]
  obtain ⟨legal, serial, window, stable, active, good, block, empty, timer, dead, live, free⟩ := h.sound
  have some_ : 0 < (s.chan ch).set.M := Nat.lt_of_lt_of_le (by decide) legal.2.2.2.2.2.2.1.1
  exact ⟨⟨legal, serial, Nat.zero_le _, nofun, nofun, nofun, some_, fun _ => rfl, by simp, fun _ => ⟨rfl, rfl⟩, nofun, by simp⟩, nofun,
    fun x hx marked => ⟨(h.mark x hx marked).1, rfl⟩⟩

theorem ChannelState.Holds.lost {c : ChannelState} {deck : Option BridgeState} (h : c.Holds deck) (st : c.st = .service)
    (timer : Option Timer) : ({ c.lose with signalTimer := timer } : ChannelState).Holds deck := by
  obtain ⟨legal, serial, window, stable, active, good, block, empty, timed, dead, live, free⟩ := h.sound
  have st' : ({ c.lose with signalTimer := timer } : ChannelState).st = .service := st
  refine ⟨⟨legal, serial, Nat.zero_le _, nofun, ?_, ?_, block, empty, ?_, ?_, ?_, free⟩, h.flight, h.mark⟩
  all_goals rw [st']; simp

theorem State.sample_keepsSound (s : State) (ch : Channel) (raw : Int) (ok : Bool) : s.KeepsSound ch (s.sample ch raw ok) := by
  by_cases off : (s.chan ch).st = .off
  · have still : s.sample ch raw ok = s := by simp [State.sample, off]
    rw [still]; exact .refl s ch
  cases ok with
  | true =>
    obtain ⟨s0, alone, sampled, -⟩ := s.sample_good ch raw off
    have running : (s0.chan ch).st ≠ .off ∧ (s0.chan ch).st ≠ .fault := by
      rw [alone.chan, ((s.chan ch).arriving_fields _).2.2.2.1]
      split
      · simp
      · exact ⟨off, ‹_›⟩
    have sound := s0.goodSample_keepsSound ch raw running
    have keeps := WeighingKeeps.sample s ch raw true
    rw [sampled] at keeps ⊢
    refine keeps.keepsSound fun h => sound.own ?_
    rw [alone.chan, State.deckOf_congr alone.bridge]
    exact h.arriving _ off
  | false =>
    cases st : (s.chan ch).st with
    | off => exact absurd st off
    | fault =>
      have still : s.sample ch raw false = s := by simp [State.sample, st]
      rw [still]; exact .refl s ch
    | service =>
      have lost : s.sample ch raw false =
          s.setChan ch { (s.chan ch).lose with signalTimer := some (s.timer (signalTime ch)) } := by
        simp [State.sample, st]; rfl
      rw [lost]
      exact s.setChan_keepsSound ch _ fun h => h.lost st _
    | starting =>
      have faulty : s.sample ch raw false = s.enterFault ch := by simp [State.sample, st]
      rw [faulty]; exact s.enterFault_keepsSound ch
    | active =>
      have faulty : s.sample ch raw false = s.enterFault ch := by simp [State.sample, st]
      rw [faulty]; exact s.enterFault_keepsSound ch

theorem State.weighingSound_same {s t : State} (hw : ∀ ch, t.chan ch = s.chan ch) (hb : ∀ b, t.bridge b = s.bridge b)
    (hs : s.weighingSound) : t.weighingSound := by
  rw [State.weighingSound_iff] at hs ⊢
  intro ch
  rw [hw, State.deckOf_congr hb]
  exact hs ch

theorem Weigh.digitizerSample_sound (dig : Digitizer) (raw : Int) (ok : Bool) (s : State) (hs : s.weighingSound) :
    (Weigh.digitizerSample dig raw ok s).weighingSound := by
  unfold Weigh.digitizerSample
  cases dig with
  | bridge b => exact (s.sample_keepsSound b.channel raw ok).sound hs
  | platform =>
    dsimp only
    split
    · exact hs
    · rename_i n _
      refine State.weighingSound_same (s := s.sample n.channel raw ok) (fun ch => ?_) (fun b => ?_)
        ((s.sample_keepsSound n.channel raw ok).sound hs)
      · cases ch <;> rfl
      · cases b <;> rfl

theorem Weigh.signalTimeout_sound (ch : Channel) (s : State) (hs : s.weighingSound) : (Weigh.signalTimeout ch s).weighingSound := by
  unfold Weigh.signalTimeout
  dsimp only
  split
  · exact hs
  · split
    · exact (s.enterFault_keepsSound ch).sound hs
    · exact (s.enterFault_keepsSound ch).sound hs
    · rename_i st
      exact (s.setChan_keepsSound ch _ fun h => h.lost st none).sound hs
    · exact hs

theorem Weigh.attemptTimeout_sound (ch : Channel) (s : State) (hs : s.weighingSound) : (Weigh.attemptTimeout ch s).weighingSound := by
  unfold Weigh.attemptTimeout
  dsimp only
  split
  · exact hs
  · rename_i k hk
    split
    · rename_i more
      refine (s.setChan_keepsSound ch _ fun h => ?_).sound hs
      refine ⟨h.sound, fun k' hk' => ?_, fun x hx marked => ?_⟩
      · obtain rfl := Option.some.inj hk'
        obtain ⟨st, slot, place, samples, first, last, tare⟩ := h.flight k hk
        refine ⟨st, slot, ?_, samples, Nat.succ_pos _, more, tare⟩
        cases hd : s.deckOf ch <;> · rw [hd] at place; exact place
      · have idle := (h.mark x hx marked).2
        rw [hk] at idle; cases idle
    · exact (s.endCapture_keepsSound ..).sound hs

theorem Deck.beamFaultExpiry_sound (b : Bridge) (side : Side) (s : State) (hs : s.weighingSound) :
    (Deck.beamFaultExpiry b side s).weighingSound := by
  unfold Deck.beamFaultExpiry
  dsimp only
  split
  · exact hs
  · have stopped (x : BridgeState) (hx : x = (s.bridge b).withFault side none) : s.KeepsSound b.channel (s.setBridge b x) :=
      s.setBridge_keepsSound b x (by rw [hx]; rfl) (by rw [hx]; rfl)
    split
    · exact (stopped _ (by cases side <;> rfl)).sound hs
    · exact (((stopped _ (by cases side <;> rfl)).trans (State.setPosition_keepsSound ..)).trans (State.endCapture_keepsSound ..)).sound hs

end Sys2Proof.Machine
end

