-- ==== Sys2Proof/Proofs/RegisterCalendar.lean ====
section
/-! PROOFS. The weighing invariant over requests, lines and starts, the calendar and the event sets, the tare register: O58. -/

namespace Sys2Proof.Machine

/-! Lines and lamps -/

theorem Reaches.weighingSound {bs : List Block} {s t : State} (h : Reaches bs s t) (hw : Block.wch ∉ bs) (hd : Block.dsu ∉ bs)
    (hs : s.weighingSound) : t.weighingSound :=
  (State.weighingSound_congr (h.wch hw) fun b => by cases b <;> simp [State.bridge, h.dsu hd]).mpr hs

/-- The lines, lamp tables and lengths of the decks' block are no part of the weighing invariant. -/
theorem State.withDecks_sound {s : State} (d : Dsu) (h0 : d.bridge0 = s.dsu.bridge0) (h1 : d.bridge1 = s.dsu.bridge1)
    (hs : s.weighingSound) : ({ s with dsu := d } : State).weighingSound := by
  refine (State.weighingSound_congr (s := s) (t := { s with dsu := d }) rfl fun b => ?_).mpr hs
  cases b
  · simp [State.bridge, h0]
  · simp [State.bridge, h1]

theorem Lines.levelChange_sound (line : Nat) (drive : LineDrive) (s : State) (hs : s.weighingSound) :
    (Lines.levelChange line drive s).weighingSound := by
  unfold Lines.levelChange
  split
  · exact hs
  · exact State.withDecks_sound _ rfl rfl hs

theorem Lines.driveOnly_sound (line : Nat) (drive : LineDrive) (s : State) (hs : s.weighingSound) :
    (Lines.driveOnly line drive s).weighingSound := by
  unfold Lines.driveOnly
  split
  · exact hs
  · exact State.withDecks_sound _ rfl rfl hs

theorem State.setBridge_sound (s : State) (b : Bridge) (x : BridgeState) (pos : x.pos = (s.bridge b).pos)
    (captured : x.captured = (s.bridge b).captured) (hs : s.weighingSound) : (s.setBridge b x).weighingSound :=
  (s.setBridge_keepsSound b x pos captured).sound hs

theorem State.doorEvent_weighingSound (s : State) (opens : Bool) (hs : s.weighingSound) : (s.doorEvent opens).weighingSound :=
  (Reaches.doorEvent (bs := [.pyu, .tkt, .rpu, .evu]) s opens (by decide)).weighingSound (by decide) (by decide) hs

theorem State.roleChange_sound (s : State) (f : LineFunction) (active : Bool) (hs : s.weighingSound) :
    (s.roleChange f active).weighingSound := by
  cases f with
  | beam b side => exact (s.beamChange_keepsSound b side active).sound hs
  | cashDoor => exact s.doorEvent_weighingSound _ hs
  | gpIn => exact (Reaches.latchBoth (bs := [.evu]) s .lineChange (by decide)).weighingSound (by decide) (by decide) hs
  | lamp => exact hs
  | calSwitch => exact hs
  | cabinet => exact hs
  | gpOut => exact hs
  | unmapped => exact hs

theorem Lines.debounced_sound (line : Nat) (s : State) (hs : s.weighingSound) : (Lines.debounced line s).weighingSound := by
  unfold Lines.debounced
  split
  · exact hs
  · dsimp only
    split
    · exact hs
    · exact State.roleChange_sound _ _ _ (State.withDecks_sound _ rfl rfl hs)

theorem State.rebeam_sound (s before : State) (b : Bridge) (side : Side) (hs : s.weighingSound) :
    (s.rebeam before b side).weighingSound := by
  unfold State.rebeam
  split
  · exact hs
  · exact (s.beamChange_keepsSound ..).sound hs

theorem State.restartFaultTimers_sound (s : State) (b : Bridge) (hs : s.weighingSound) : (s.restartFaultTimers b).weighingSound :=
  s.setBridge_sound b _ (by rfl) (by rfl) hs

theorem State.takeMap_sound (s : State) (l : List LineEntry) (d f : Nat) (hs : s.weighingSound) : (s.takeMap l d f).weighingSound := by
  unfold State.takeMap
  dsimp only
  refine State.restartFaultTimers_sound _ _ (State.restartFaultTimers_sound _ _ ?_)
  have beams := State.rebeam_sound _ s .b1 .exit (State.rebeam_sound _ s .b1 .entry (State.rebeam_sound _ s .b0 .exit
    (State.rebeam_sound _ s .b0 .entry (State.withDecks_sound (s := s)
      { s.dsu with
        lines := remapLines s.dsu.lines l
        beamDebounce := clamp d 10 500
        beamFault := clamp f 30 600 } rfl rfl hs))))
  split
  · exact beams
  · exact State.doorEvent_weighingSound _ _ beams

theorem Lines.mapSet_sound (l : List LineEntry) (d f : Nat) (p : Port) (s : State) (hs : s.weighingSound) :
    (Lines.mapSet l d f p s).1.weighingSound := by
  unfold Lines.mapSet
  split
  · exact hs
  · split
    · exact hs
    · exact s.takeMap_sound l d f hs

theorem Lines.write_sound (n : Nat) (on : Bool) (p : Port) (s : State) (hs : s.weighingSound) :
    (Lines.write n on p s).1.weighingSound := by
  unfold Lines.write
  split
  · exact hs
  · split
    · exact State.withDecks_sound _ rfl rfl hs
    · exact hs

theorem Deck.lampPatternSet_sound (n : Nat) (steps : BitVec 8) (tick pause : Nat) (p : Port) (s : State) (hs : s.weighingSound) :
    (Deck.lampPatternSet n steps tick pause p s).1.weighingSound := by
  unfold Deck.lampPatternSet
  split
  · exact hs
  · exact (State.weighingSound_congr rfl fun b => by cases b <;> exact ⟨rfl, rfl⟩).mpr hs

theorem Deck.aspectSet_sound (rows : List AspectRow) (stretch : Nat) (p : Port) (s : State) (hs : s.weighingSound) :
    (Deck.aspectSet rows stretch p s).1.weighingSound := by
  unfold Deck.aspectSet
  split
  · exact hs
  · split
    · exact hs
    · exact State.withDecks_sound _ rfl rfl hs

theorem Deck.lampOverride_sound (n : Nat) (x : Option (AspectRow × Nat)) (p : Port) (s : State) (hs : s.weighingSound) :
    (Deck.lampOverride n x p s).1.weighingSound := by
  unfold Deck.lampOverride
  dsimp only
  split
  · exact hs
  · split
    · split
      · exact hs
      · exact s.setBridge_sound _ _ (by rfl) (by rfl) hs
    · split
      · exact s.setBridge_sound _ _ (by rfl) (by rfl) hs
      · exact hs

theorem Deck.stretchExpiry_sound (b : Bridge) (s : State) (hs : s.weighingSound) : (Deck.stretchExpiry b s).weighingSound :=
  s.setBridge_sound _ _ (by rfl) (by rfl) hs

theorem Deck.overrideExpiry_sound (b : Bridge) (s : State) (hs : s.weighingSound) : (Deck.overrideExpiry b s).weighingSound := by
  unfold Deck.overrideExpiry
  dsimp only
  split
  · exact s.setBridge_sound _ _ (by rfl) (by rfl) hs
  · exact hs

/-! Settings and states of a channel -/

theorem clamp_within (n lo hi : Nat) (_h : lo ≤ hi) : lo ≤ clamp n lo hi ∧ clamp n lo hi ≤ hi := by
  unfold clamp
  split
  · omega
  · split <;> omega

theorem saturating_le {n top : Nat} (_h : n ≤ top) : saturating n top ≤ top := by unfold saturating; split <;> omega

theorem wrapping_le (n : Nat) {bottom top : Nat} (_h : bottom ≤ top) : wrapping n bottom top ≤ top := by unfold wrapping; split <;> omega

theorem divisions_pos {d : Nat} (h : d ∈ divisions) : 0 < d := by
  simp only [divisions, List.mem_cons, List.not_mem_nil, or_false] at h
  omega

theorem ChannelSettings.with?_legal {set new : ChannelSettings} {x : ChannelParams} (h : set.legal) (hn : set.with? x = some new) :
    new.legal := by
  obtain ⟨gain, -, -, -, -, -, -, -, -, -, -, counter⟩ := h
  unfold ChannelSettings.with? at hn
  dsimp only at hn
  split at hn
  · cases hn
  · rename_i ok
    cases hn
    simp only [not_or, not_lt, ne_eq, Decidable.not_not] at ok
    obtain ⟨-, -, division, multiple, low, high, top, m0, m1, b0, b1, t0, t1, t2, r0, r1⟩ := ok
    have pos := divisions_pos division
    have clamped := clamp_within x.A 1 5 (by decide)
    have low' : 100 * x.d.toNat ≤ x.K.toNat := (Nat.le_div_iff_mul_le pos).mp low
    have high' : x.K.toNat ≤ 10000 * x.d.toNat := by
      have exact_ : x.d.toNat * (x.K.toNat / x.d.toNat) = x.K.toNat := Nat.mul_div_cancel' (Nat.dvd_of_mod_eq_zero multiple)
      rw [← exact_, mul_comm 10000]
      exact Nat.mul_le_mul_left _ high
    refine ⟨gain, division, multiple, low', high', top, ⟨m0, m1⟩, ⟨b0, b1⟩, ⟨t0, t1, t2⟩, clamped, ⟨r0, r1⟩, ?_⟩
    dsimp only
    split
    · exact saturating_le counter
    · exact counter

/-- A channel with no capture whose record is sound holds beside a deck that holds beside another without one. -/
theorem ChannelState.Holds.idle {c d : ChannelState} {deck : Option BridgeState} (h : c.Holds deck) (sound : d.sound)
    (none_ : d.capture = none) : d.Holds deck :=
  ⟨sound, fun k hk => absurd (none_.symm.trans hk) (by simp), fun x hx marked => ⟨(h.mark x hx marked).1, none_⟩⟩

theorem ChannelState.Holds.noFlight {c : ChannelState} {deck : Option BridgeState} (h : c.Holds deck) (st : c.st ≠ .active) :
    c.capture = none := by
  by_contra some_
  obtain ⟨k, hk⟩ := Option.ne_none_iff_exists'.mp some_
  exact st (h.flight k hk).1

theorem ChannelState.Holds.rest {c : ChannelState} {deck : Option BridgeState} (h : c.Holds deck) (st : c.st = .off ∨ c.st = .service) :
    c.capture = none ∧ c.slot = none ∧ c.block = emptyBlock := by
  have idle : c.st ≠ .active := by rcases st with st | st <;> simp [st]
  obtain ⟨-, -, -, -, -, -, -, block, -, -, -, slot⟩ := h.sound
  exact ⟨h.noFlight idle, slot st, block idle⟩

theorem State.enter_keepsSound (s : State) (ch : Channel) (c : ChannelState) (st : ChannelSt)
    (own : (s.chan ch).Holds (s.deckOf ch) → ({ c with st := st } : ChannelState).Holds (s.deckOf ch)) :
    s.KeepsSound ch (s.enter ch c st) := by
  have latched (u : State) (f : EventFlag) : u.KeepsSound ch (u.latchBoth f) := by
    have deck : (u.latchBoth f).deckOf ch = u.deckOf ch := State.deckOf_congr (fun b => by simp) ch
    exact ⟨fun o _ => by simp, fun b _ => by simp, fun h => by rw [State.chan_latchBoth, deck]; exact h⟩
  exact (s.setChan_keepsSound ch _ own).trans (latched _ _)

theorem State.wakePlatform_sound (s : State) (ch : Channel) (hs : s.weighingSound) : (s.wakePlatform ch).weighingSound := by
  have turned (n : Platform) : (s.setNextPlatform n).weighingSound :=
    State.weighingSound_same (fun ch => by cases ch <;> rfl) (fun b => by cases b <;> rfl) hs
  unfold State.wakePlatform
  split
  · split
    · exact turned _
    · exact turned _
    · exact hs
  · exact hs

theorem State.wakePlatform_chan (s : State) (ch o : Channel) : (s.wakePlatform ch).chan o = s.chan o := by
  unfold State.wakePlatform
  split
  · split <;> cases o <;> rfl
  · rfl

theorem State.enterService_sound (s : State) (ch : Channel) (idle : (s.chan ch).capture = none) (slot : (s.chan ch).slot = none)
    (hs : s.weighingSound) : (s.enterService ch).weighingSound := by
  unfold State.enterService
  dsimp only
  refine (State.enter_keepsSound _ ch _ .service fun h => ?_).sound (s.wakePlatform_sound ch hs)
  rw [State.wakePlatform_chan] at h ⊢
  obtain ⟨legal, serial, -⟩ := h.sound
  have some_ : 0 < (s.chan ch).set.M := Nat.lt_of_lt_of_le (by decide) legal.2.2.2.2.2.2.1.1
  exact h.idle ⟨legal, serial, Nat.zero_le _, nofun, nofun, nofun, some_, fun _ => rfl, by simp, by simp, nofun, fun _ => slot⟩ idle

theorem State.enterStarting_keepsSound (s : State) (ch : Channel) (st : (s.chan ch).st = .off ∨ (s.chan ch).st = .service) :
    s.KeepsSound ch (s.enterStarting ch) := by
  refine s.enter_keepsSound ch _ .starting fun h => ?_
  obtain ⟨idle, slot, block⟩ := h.rest st
  obtain ⟨legal, serial, -⟩ := h.sound
  have some_ : 0 < (s.chan ch).set.M := Nat.lt_of_lt_of_le (by decide) legal.2.2.2.2.2.2.1.1
  refine h.idle ⟨legal, serial, Nat.zero_le _, nofun, nofun, fun _ => some_, ?_, fun _ => block, fun _ => rfl, by simp, nofun,
    by simp⟩ idle
  change (s.chan ch).block.samples.length < _
  rw [block]
  exact some_

theorem State.setOccupied_platform_keepsSound (s : State) (ch : Channel) (platform : ch.bridge? = none)
    (idle : (s.chan ch).capture = none) (occupied : Bool) : s.KeepsSound ch (s.setOccupied ch occupied) := by
  rw [s.setOccupied_platform platform]
  refine s.setChan_keepsSound ch _ fun h => ?_
  rw [State.deckOf_platform platform] at h ⊢
  exact h.platform occupied fun flying => by rw [idle] at flying; cases flying

theorem State.enterOff_keepsSound (s : State) (ch : Channel) (st : (s.chan ch).st = .off ∨ (s.chan ch).st = .service) :
    s.KeepsSound ch (s.enterOff ch) := by
  unfold State.enterOff
  dsimp only
  have entered := s.enter_keepsSound ch { s.chan ch with signalTimer := none, live := .absent, stable := false } .off fun h => by
    obtain ⟨idle, slot, block⟩ := h.rest st
    obtain ⟨legal, serial, window, -⟩ := h.sound
    have some_ : 0 < (s.chan ch).set.M := Nat.lt_of_lt_of_le (by decide) legal.2.2.2.2.2.2.1.1
    refine h.idle ⟨legal, serial, window, nofun, nofun, nofun, ?_, fun _ => block, by simp, fun _ => ⟨rfl, rfl⟩, nofun,
      fun _ => slot⟩ idle
    change (s.chan ch).block.samples.length < _
    rw [block]
    exact some_
  have still (h : (s.chan ch).Holds (s.deckOf ch)) :
      ((s.enter ch { s.chan ch with signalTimer := none, live := .absent, stable := false } .off).chan ch).capture = none := by
    unfold State.enter
    rw [State.chan_latchBoth, State.chan_setChan]
    exact (h.rest st).1
  generalize s.enter ch { s.chan ch with signalTimer := none, live := .absent, stable := false } .off = u at entered still ⊢
  have moves := WeighingKeeps.setOccupied u ch false
  refine ⟨fun o ho => (moves.channels o ho).trans (entered.channels o ho), fun b hb => (moves.bridges b hb).trans (entered.bridges b hb),
    fun h => ?_⟩
  cases hb : ch.bridge? with
  | none => exact (u.setOccupied_platform_keepsSound ch hb (still h) false).own (entered.own h)
  | some b =>
    obtain rfl := Channel.eq_of_bridge? hb
    exact (u.setOccupied_keepsSound b false).own (entered.own h)

/-! Requests on a channel -/

theorem withChannel_sound {k : Channel → Handler} (n : Nat) (p : Port) (s : State) (hs : s.weighingSound)
    (h : ∀ ch, (k ch p s).1.weighingSound) : (withChannel n k p s).1.weighingSound := by
  unfold withChannel
  split
  · exact hs
  · exact h _

theorem State.dropTares_sound (s : State) (ch : Channel) (hs : s.weighingSound) : (s.dropTares ch).weighingSound :=
  (s.dropTares_reaches (bs := [.vtr]) ch (by decide)).weighingSound (by decide) (by decide) hs

theorem Weigh.channelSet_sound (x : ChannelParams) (ch : Channel) (p : Port) (s : State) (hs : s.weighingSound) :
    (Weigh.channelSet x ch p s).1.weighingSound := by
  unfold Weigh.channelSet
  dsimp only
  split
  · exact hs
  · rename_i st
    replace st : (s.chan ch).st = .service := not_not.mp st
    split
    · exact hs
    · rename_i set hset
      have stored : (s.setChan ch (if (set.d ≠ (s.chan ch).set.d ∨ set.K ≠ (s.chan ch).set.K) ∨ set.M ≠ (s.chan ch).set.M
          then { ({ s.chan ch with set := set } : ChannelState).clearWindow with block := emptyBlock }
          else { s.chan ch with set := set })).weighingSound := by
        refine (s.setChan_keepsSound ch _ fun h => ?_).sound hs
        obtain ⟨legal, serial, window, stable, active, good, block, empty, timer, dead, live, free⟩ := h.sound
        have legal' := ChannelSettings.with?_legal legal hset
        have some_ : 0 < set.M := Nat.lt_of_lt_of_le (by decide) legal'.2.2.2.2.2.2.1.1
        have idle := h.noFlight (by simp [st])
        split
        · exact h.idle ⟨legal', serial, Nat.zero_le _, nofun, fun h' => by simp [st, ChannelState.clearWindow] at h', fun h' => by
            simp [st, ChannelState.clearWindow] at h', some_, fun _ => rfl, timer, dead, fun h' => by
            simp [st, ChannelState.clearWindow] at h', free⟩ idle
        · rename_i same
          have full : set.M = (s.chan ch).set.M := by
            by_contra hn
            exact same (.inr hn)
          refine h.idle ⟨legal', serial, full ▸ window, full ▸ stable, fun h' => by simp [st] at h', fun h' => by simp [st] at h',
            full ▸ block, empty, timer, dead, fun h' => by simp [st] at h', free⟩ idle
      split
      · exact State.dropTares_sound _ _ stored
      · exact stored

theorem Weigh.service_sound (enter : Bool) (ch : Channel) (p : Port) (s : State) (hs : s.weighingSound) :
    (Weigh.service enter ch p s).1.weighingSound := by
  unfold Weigh.service
  dsimp only
  split
  · split
    · exact hs
    · split
      · exact hs
      · rename_i free
        simp only [not_or, Bool.not_eq_true, Option.isSome_eq_false_iff, Option.isNone_iff_eq_none] at free
        exact s.enterService_sound ch free.1 free.2 hs
  · split
    · exact hs
    · rename_i st
      replace st : (s.chan ch).st = .service := not_not.mp st
      dsimp only [done]
      split
      · exact (s.enterStarting_keepsSound ch (.inr st)).sound hs
      · exact (s.enterOff_keepsSound ch (.inr st)).sound hs

theorem State.setDrift_chan_of_ne (s : State) {ch o : Channel} (h : o ≠ ch) (drift : Bool) : (s.setDrift ch drift).chan o = s.chan o := by
  unfold State.setDrift
  dsimp only
  split
  · rfl
  · rw [State.chan_latchBoth, State.chan_setChan_of_ne _ _ h]

theorem State.setDrift_keepsSound (s : State) (ch : Channel) (drift : Bool) : s.KeepsSound ch (s.setDrift ch drift) :=
  (s.setDrift_alone ch drift).keepsSound (fun _ ho => s.setDrift_chan_of_ne ho drift) fun h => ⟨h.sound, h.flight, h.mark⟩

theorem Weigh.zero_sound (ch : Channel) (p : Port) (s : State) (hs : s.weighingSound) : (Weigh.zero ch p s).1.weighingSound := by
  unfold Weigh.zero
  dsimp only
  split
  · exact hs
  · rename_i st
    replace st : (s.chan ch).st = .active := not_not.mp st
    iterate 3
      split
      · exact hs
    refine ((s.setChan_keepsSound ch _ fun h => ?_).trans (State.setDrift_keepsSound ..)).sound hs
    obtain ⟨legal, serial, window, stable, active, good, block, empty, timer, dead, live, free⟩ := h.sound
    have some_ : 0 < (s.chan ch).set.M := Nat.lt_of_lt_of_le (by decide) legal.2.2.2.2.2.2.1.1
    exact ⟨⟨legal, serial, window, stable, active, good, some_, fun _ => rfl, timer, dead, live, free⟩, h.flight, h.mark⟩

/-- New settings of a channel in SERVICE that leave its window's length. -/
theorem ChannelState.Holds.calibrated {c : ChannelState} {deck : Option BridgeState} (h : c.Holds deck) (st : c.st = .service)
    {set : ChannelSettings} (legal : set.legal) (full : set.M = c.set.M) (z : Int) {k : ZeroBlock} (hk : k = c.block ∨ k = emptyBlock) :
    ({ c with z := z, set := set, block := k } : ChannelState).Holds deck := by
  obtain ⟨-, serial, window, stable, active, good, block, empty, timer, dead, live, free⟩ := h.sound
  have some_ : 0 < c.set.M := full ▸ Nat.lt_of_lt_of_le (by decide) legal.2.2.2.2.2.2.1.1
  have rest := empty (by simp [st])
  have none_ : k = emptyBlock := by rcases hk with hk | hk <;> rw [hk]; exact rest
  refine h.idle ⟨legal, serial, full ▸ window, full ▸ stable, fun h' => by simp [st] at h', fun h' => by simp [st] at h', ?_,
    fun _ => none_, timer, dead, fun h' => by simp [st] at h', free⟩ (h.noFlight (by simp [st]))
  change k.samples.length < set.M
  rw [none_, full]
  exact some_

theorem ChannelSettings.counted_legal {set : ChannelSettings} (h : set.legal) : set.counted.legal := by
  obtain ⟨gain, division, multiple, low, high, top, m, b, t, a, r, counter⟩ := h
  exact ⟨gain, division, multiple, low, high, top, m, b, t, a, r, saturating_le counter⟩

theorem State.service_of_unlocked {s : State} {ch : Channel} (h : s.calLocked ch ≠ true) : (s.chan ch).st = .service := by
  simp only [State.calLocked, Bool.or_eq_true, bne_iff_ne, ne_eq, not_or, not_not] at h
  exact h.1

theorem Weigh.calibrateZero_sound (ch : Channel) (p : Port) (s : State) (hs : s.weighingSound) :
    (Weigh.calibrateZero ch p s).1.weighingSound := by
  unfold Weigh.calibrateZero
  dsimp only
  split
  · exact hs
  · rename_i unlocked
    have st := State.service_of_unlocked unlocked
    split
    · exact hs
    · refine ((s.setChan_keepsSound ch _ fun h => ?_).trans (State.setDrift_keepsSound ..)).sound hs
      have legal := ChannelSettings.counted_legal h.sound.1
      exact h.calibrated st (set := { (s.chan ch).set.counted with zCal := rawMean (s.chan ch).window }) legal rfl _ (.inr rfl)

theorem spanGain?_range {set : ChannelSettings} {sum weight : Int} {g : Nat} (h : spanGain? set sum weight = some g) :
    1 ≤ g ∧ g ≤ 16777215 := by
  unfold spanGain? at h
  dsimp only at h
  split at h
  · cases h
  · split at h
    · cases h
    · rename_i range
      cases h
      omega

theorem Weigh.calibrateSpan_sound (w : Int) (ch : Channel) (p : Port) (s : State) (hs : s.weighingSound) :
    (Weigh.calibrateSpan w ch p s).1.weighingSound := by
  unfold Weigh.calibrateSpan
  dsimp only
  split
  · exact hs
  · rename_i unlocked
    have st := State.service_of_unlocked unlocked
    iterate 2
      split
      · exact hs
    split
    · exact hs
    · rename_i g hg
      refine (s.setChan_keepsSound ch _ fun h => ?_).sound hs
      obtain ⟨-, rest⟩ := ChannelSettings.counted_legal h.sound.1
      exact h.calibrated st (set := { (s.chan ch).set.counted with G := g, calibrated := true }) ⟨spanGain?_range hg, rest⟩ rfl _
        (.inl rfl)

/-! Captures -/

theorem slot_free {α : Type} {slot : Option (Port × α)} {p : Port} (mine : heldFor slot p = false)
    (theirs : heldFor slot p.other = false) : slot = none := by
  cases slot with
  | none => rfl
  | some x => obtain ⟨q, y⟩ := x; cases p <;> cases q <;> simp_all [heldFor, Port.other]

theorem State.capture_taken {s : State} {p : Port} {ch : Channel} {ticket grade : Option Nat} {tare : Option Int}
    (taken : s.captureRefusal p ch ticket grade tare = none) :
    0 ≤ tare.getD 0 ∧ (s.chan ch).st = .active ∧ (s.chan ch).capture = none ∧ (s.chan ch).slot = none ∧ s.inPlace ch = true := by
  unfold State.captureRefusal at taken
  dsimp only at taken
  split at taken
  · cases taken
  split at taken
  · cases taken
  split at taken
  · cases taken
  split at taken
  · cases taken
  split at taken
  · cases taken
  split at taken
  · cases taken
  rename_i fits active free unread place
  simp only [not_or, not_lt, not_not, Bool.not_eq_true, Option.isSome_eq_false_iff, Option.isNone_iff_eq_none] at fits active free unread
  exact ⟨fits.2.1, active, free.1, slot_free unread free.2, by simpa using place⟩

theorem State.startCapture_sound {s : State} {p : Port} {ch : Channel} {ticket grade : Option Nat} {tare : Option Int}
    (taken : s.captureRefusal p ch ticket grade tare = none) (hs : s.weighingSound) :
    (s.startCapture p ch ticket grade tare).weighingSound := by
  obtain ⟨positive, st, -, slot, place⟩ := State.capture_taken taken
  rw [State.inPlace_eq] at place
  refine State.KeepsSound.sound (ch := ch) ⟨fun o ho => ?_, fun b hb => ?_, fun h => ?_⟩ hs
  · unfold State.startCapture
    dsimp only
    split
    · rw [State.chan_setBridge, State.chan_setChan_of_ne _ _ ho]
    · rw [State.chan_setChan_of_ne _ _ ho]
  · unfold State.startCapture
    dsimp only
    split
    · rename_i b' hb'
      rw [State.bridge_setBridge_of_ne _ _ (by rintro rfl; exact hb hb'), State.bridge_setChan]
    · simp
  · obtain ⟨legal, serial, window, stable, active, good, block, empty, timer, dead, live, free⟩ := h.sound
    have chan : (s.startCapture p ch ticket grade tare).chan ch =
        { s.chan ch with
          capture := some (s.newCapture p (s.chan ch) ticket grade tare)
          serial := wrapping (s.chan ch).serial 0 65535
          block := { (s.chan ch).block with disqualified := true } } := by
      unfold State.startCapture
      dsimp only
      split <;> simp
    have deck : (s.startCapture p ch ticket grade tare).deckOf ch = (s.deckOf ch).map fun x => { x with captured := false } := by
      unfold State.startCapture State.deckOf
      dsimp only
      cases hb : ch.bridge? <;> simp
    rw [chan, deck]
    refine ⟨⟨legal, wrapping_le _ (by decide), window, stable, active, good, block, fun h' => absurd st h', timer, dead, live, free⟩,
      fun k hk => ?_, fun x hx marked => ?_⟩
    · obtain rfl := Option.some.inj hk
      refine ⟨st, slot, ?_, Nat.zero_le _, le_refl 1, Nat.succ_le_succ (Nat.zero_le _), positive⟩
      cases hd : s.deckOf ch with
      | none => rw [hd] at place; exact place
      | some x => rw [hd] at place; exact place
    · obtain ⟨y, -, rfl⟩ := Option.map_eq_some_iff.mp hx
      cases marked

theorem Weigh.capture_sound (ticket grade : Option Nat) (tare : Option Int) (ch : Channel) (p : Port) (s : State)
    (hs : s.weighingSound) : (Weigh.capture ticket grade tare ch p s).1.weighingSound := by
  unfold Weigh.capture
  split
  · exact hs
  · exact State.startCapture_sound ‹_› hs

theorem Weigh.abort_sound (ch : Channel) (p : Port) (s : State) (hs : s.weighingSound) : (Weigh.abort ch p s).1.weighingSound := by
  unfold Weigh.abort
  split
  · exact hs
  · split
    · split
      · exact (s.endCapture_keepsSound ..).sound hs
      · exact hs
    · exact hs

theorem Weigh.fetch_sound (n : Nat) (p : Port) (s : State) (hs : s.weighingSound) : (Weigh.fetch n p s).1.weighingSound := by
  rcases Weigh.fetch_cases n p s with e | e | ⟨ch, idle, e⟩
  · rw [e]; exact hs
  · rw [e]
    exact (Reaches.withPayout (bs := [.pyu]) s _ (by decide)).weighingSound (by decide) (by decide) hs
  · rw [e]
    refine (s.setChan_keepsSound ch _ fun h => ?_).sound hs
    obtain ⟨legal, serial, window, stable, active, good, block, empty, timer, dead, live, free⟩ := h.sound
    exact h.idle ⟨legal, serial, window, stable, active, good, block, empty, timer, dead, live, fun _ => rfl⟩ idle

/-! Starts of the part -/

theorem defaultChannelSettings_legal : defaultChannelSettings.legal := by decide

theorem State.cleared_weighingSound (s : State) (w : Start) (hs : s.weighingSound) : (s.cleared w).weighingSound := by
  rw [State.weighingSound_iff] at hs ⊢
  intro ch
  have chan : (s.cleared w).chan ch = (s.chan ch).afterReset w := by cases ch <;> rfl
  have deck : (s.cleared w).deckOf ch = ch.bridge?.map fun _ => idleBridge := by cases ch <;> rfl
  obtain ⟨legal, serial, -⟩ := (hs ch).sound
  have legal' : ((s.chan ch).afterReset w).set.legal := by
    change (w.set (s.chan ch).set defaultChannelSettings).legal
    unfold Start.set
    split
    · exact legal
    · exact defaultChannelSettings_legal
  have serial' : ((s.chan ch).afterReset w).serial ≤ 65535 := by
    change w.ret (s.chan ch).serial 0 ≤ 65535
    unfold Start.ret
    split
    · exact serial
    · exact Nat.zero_le _
  have some_ : 0 < ((s.chan ch).afterReset w).set.M := Nat.lt_of_lt_of_le (by decide) legal'.2.2.2.2.2.2.1.1
  rw [chan, deck]
  refine ⟨⟨legal', serial', Nat.zero_le _, nofun, nofun, nofun, some_, fun _ => rfl, nofun, fun _ => ⟨rfl, rfl⟩, nofun, fun _ => rfl⟩,
    nofun, fun x hx marked => ?_⟩
  obtain ⟨-, -, rfl⟩ := Option.map_eq_some_iff.mp hx
  cases marked

theorem State.cleared_off (s : State) (w : Start) (ch : Channel) : ((s.cleared w).chan ch).st = .off := by cases ch <;> rfl

theorem State.startChannel_keepsSound (s : State) (ch : Channel) (off : (s.chan ch).st = .off) : s.KeepsSound ch (s.startChannel ch) := by
  unfold State.startChannel
  dsimp only
  split
  · exact s.enterStarting_keepsSound ch (.inl off)
  · exact s.enterOff_keepsSound ch (.inl off)

theorem State.startChannels_sound (s : State) (off : ∀ ch, (s.chan ch).st = .off) (hs : s.weighingSound) :
    ((((s.startChannel .c0).startChannel .c1).startChannel .c2).startChannel .c3).weighingSound := by
  have k0 := s.startChannel_keepsSound .c0 (off _)
  have k1 := (s.startChannel .c0).startChannel_keepsSound .c1 (by rw [k0.channels _ (by decide)]; exact off _)
  have k2 := ((s.startChannel .c0).startChannel .c1).startChannel_keepsSound .c2 (by
    rw [k1.channels _ (by decide), k0.channels _ (by decide)]; exact off _)
  have k3 := (((s.startChannel .c0).startChannel .c1).startChannel .c2).startChannel_keepsSound .c3 (by
    rw [k2.channels _ (by decide), k1.channels _ (by decide), k0.channels _ (by decide)]; exact off _)
  exact k3.sound (k2.sound (k1.sound (k0.sound hs)))

theorem State.startBeam_sound (s : State) (b : Bridge) (side : Side) (hs : s.weighingSound) : (s.startBeam b side).weighingSound := by
  unfold State.startBeam
  split
  · exact (s.beamChange_keepsSound b side true).sound hs
  · exact hs

/-- A start of the part up to its channels and beams. -/
def State.startedDecks (s : State) (w : Start) : State :=
  let s1 := (s.cleared w).latchLosses w
  let s2 := (((s1.startChannel .c0).startChannel .c1).startChannel .c2).startChannel .c3
  (((s2.startBeam .b0 .entry).startBeam .b0 .exit).startBeam .b1 .entry).startBeam .b1 .exit

/-- What a start does after its channels and beams; `disputes` tells whether the reset leaves a ticket disputed. -/
def State.startedRest (s : State) (w : Start) (disputes : Bool) : State :=
  let s4 := ((s.startAlert .cashDoor).startAlert .cabinet).startAlert .calSwitch
  let s5 := if w.retained && disputes then s4.markAlert .dispute else s4
  let s6 := if w.retained then s5.releaseCheck s5.releaseDate else s5
  s6.pump.startLamps.settle

theorem State.startUp_eq (s : State) (w : Start) : s.startUp w = (s.startedDecks w).startedRest w s.resetDisputes := by
  simp only [State.startUp, State.startedRest, State.startedDecks]

theorem State.startAlert_reaches (s : State) (src : AlertSource) : Reaches [.evu, .tkt, .rpu] s (s.startAlert src) := by
  unfold State.startAlert
  split
  · exact .markAlert _ _ (by decide)
  · exact .refl _ _

theorem State.startLamps_reaches (bs : List Block) (s : State) : Reaches bs s s.startLamps := by
  unfold State.startLamps
  exact {}

theorem State.startedRest_reaches (s : State) (w : Start) (disputes : Bool) :
    Reaches [.evu, .tkt, .rpu] s (s.startedRest w disputes) := by
  have alerts := ((s.startAlert_reaches .cashDoor).trans (State.startAlert_reaches _ .cabinet)).trans
    (State.startAlert_reaches _ .calSwitch)
  unfold State.startedRest
  dsimp only
  generalize ((s.startAlert .cashDoor).startAlert .cabinet).startAlert .calSwitch = u at alerts ⊢
  refine .trans (.trans (.trans ?_ (.pump _ (by decide))) (State.startLamps_reaches _ _)) (.settle _ _)
  have marked : Reaches [.evu, .tkt, .rpu] u (if w.retained && disputes then u.markAlert .dispute else u) := by
    split
    · exact .markAlert _ _ (by decide)
    · exact .refl _ _
  generalize (if w.retained && disputes then u.markAlert .dispute else u) = v at marked ⊢
  split
  · exact (alerts.trans marked).trans (.releaseCheck _ _ (by decide))
  · exact alerts.trans marked

theorem State.latchLosses_reaches (s : State) (w : Start) : Reaches [.evu] s (s.latchLosses w) := by
  have kept : Reaches [.evu] s (if w.retained then s else (s.latchBoth .retainLost).latchBoth .clock) := by
    split
    · exact .refl _ _
    · exact (Reaches.latchBoth _ _ (by decide)).trans (.latchBoth _ _ (by decide))
  unfold State.latchLosses
  dsimp only
  generalize (if w.retained then s else (s.latchBoth .retainLost).latchBoth .clock) = v at kept ⊢
  split
  · exact kept
  · exact kept.trans (.latchBoth _ _ (by decide))

theorem State.startUp_weighingSound (s : State) (w : Start) (hs : s.weighingSound) : (s.startUp w).weighingSound := by
  rw [State.startUp_eq]
  refine ((s.startedDecks w).startedRest_reaches w _).weighingSound (by decide) (by decide) ?_
  have lost := (s.cleared w).latchLosses_reaches w
  have sound := lost.weighingSound (by decide) (by decide) (s.cleared_weighingSound w hs)
  have off (ch : Channel) : (((s.cleared w).latchLosses w).chan ch).st = .off := by
    have same : (((s.cleared w).latchLosses w).chan ch) = (s.cleared w).chan ch := by
      cases ch <;> simp only [State.chan, lost.wch (by decide)]
    rw [same]
    exact s.cleared_off w ch
  exact State.startBeam_sound _ _ _ (State.startBeam_sound _ _ _ (State.startBeam_sound _ _ _ (State.startBeam_sound _ _ _
    (State.startChannels_sound _ off sound))))

/-- The weighing invariant is kept by every rule and event that reaches the channels or the decks. -/
theorem weighingSound_kept : Kept [.wch, .dsu] State.weighingSound where
  reads hm hr h := hr.weighingSound (not_mem_of_meets hm (by simp)) (not_mem_of_meets hm (by simp)) h
  rule {r bs} hr hm p s h := by
    cases hr <;> try exact absurd hm (by decide)
    case channelSet n x => exact withChannel_sound n p s h fun ch => Weigh.channelSet_sound x ch p s h
    case channelService n enter => exact withChannel_sound n p s h fun ch => Weigh.service_sound enter ch p s h
    case zero n => exact withChannel_sound n p s h fun ch => Weigh.zero_sound ch p s h
    case capture n ticket grade tare => exact withChannel_sound n p s h fun ch => Weigh.capture_sound ticket grade tare ch p s h
    case captureAbort n => exact withChannel_sound n p s h fun ch => Weigh.abort_sound ch p s h
    case outcomeFetch n => exact Weigh.fetch_sound n p s h
    case calibrateZero n => exact withChannel_sound n p s h fun ch => Weigh.calibrateZero_sound ch p s h
    case calibrateSpan n w => exact withChannel_sound n p s h fun ch => Weigh.calibrateSpan_sound w ch p s h
    case lampPatternSet n steps tick pause => exact Deck.lampPatternSet_sound n steps tick pause p s h
    case aspectSet rows stretch => exact Deck.aspectSet_sound rows stretch p s h
    case lampOverride b x => exact Deck.lampOverride_sound b x p s h
    case lineMapSet l d f => exact Lines.mapSet_sound l d f p s h
    case lineWrite n on => exact Lines.write_sound n on p s h
  event {f bs} hf hm s h := by
    cases hf <;> try exact absurd hm (by decide)
    case digitizerSample dig raw ok => exact Weigh.digitizerSample_sound dig raw ok s h
    case signalTimeout ch => exact Weigh.signalTimeout_sound ch s h
    case attemptTimeout ch => exact Weigh.attemptTimeout_sound ch s h
    case levelChange line drive => exact Lines.levelChange_sound line drive s h
    case driveOnly line drive => exact Lines.driveOnly_sound line drive s h
    case debounced line => exact Lines.debounced_sound line s h
    case beamFaultTimeout b side => exact Deck.beamFaultExpiry_sound b side s h
    case stretchTimeout b => exact Deck.stretchExpiry_sound b s h
    case overrideTimeout b => exact Deck.overrideExpiry_sound b s h
  start s w h := s.startUp_weighingSound w h

/-! The tare register (R115, R119 to R122) -/

theorem registerSound_filter {vtr : List TareEntry} (h : registerSound vtr) (f : TareEntry → Bool) : registerSound (vtr.filter f) :=
  ⟨(List.length_filter_le _ _).trans h.1, h.2.sublist (List.filter_sublist.map _)⟩

theorem not_mem_withoutPlate (vtr : List TareEntry) (plate : Text) : plate ∉ (withoutPlate vtr plate).map (·.plate) := by
  simp [withoutPlate]

theorem withoutPlate_length_lt {vtr : List TareEntry} {plate : Text} (h : vtr.any (fun e => e.plate == plate) = true) :
    (withoutPlate vtr plate).length < vtr.length := by
  obtain ⟨e, he, hp⟩ := List.any_eq_true.mp h
  exact List.length_filter_lt_length_iff_exists.mpr ⟨e, he, by simpa using hp⟩

theorem nodup_concat_plate {vtr : List TareEntry} {e : TareEntry} (h : (vtr.map (·.plate)).Nodup) (new : e.plate ∉ vtr.map (·.plate)) :
    ((vtr ++ [e]).map (·.plate)).Nodup := by
  rw [List.map_append, List.nodup_append]
  refine ⟨h, by simp, fun a ha b hb => ?_⟩
  obtain rfl := List.mem_singleton.mp hb
  rintro rfl
  exact new ha

theorem storeTare_sound {vtr : List TareEntry} (h : registerSound vtr) (e : TareEntry) : registerSound (storeTare vtr e) := by
  obtain ⟨size, distinct⟩ := h
  by_cases held : vtr.any (fun x => x.plate == e.plate) = true
  · have kept : storeTare vtr e = withoutPlate vtr e.plate ++ [e] := by simp [storeTare, evicted?, held]
    have fewer := withoutPlate_length_lt held
    rw [kept]
    refine ⟨?_, nodup_concat_plate (registerSound_filter ⟨size, distinct⟩ _).2 (not_mem_withoutPlate _ _)⟩
    rw [List.length_append, List.length_singleton]
    omega
  · have absent : e.plate ∉ vtr.map (·.plate) := by
      simp only [List.any_eq_true, beq_iff_eq, not_exists, not_and] at held
      simpa using held
    by_cases full : 32 ≤ vtr.length
    · obtain ⟨x, rest, rfl⟩ : ∃ x rest, vtr = x :: rest := by
        cases vtr with
        | nil => simp at full
        | cons x rest => exact ⟨x, rest, rfl⟩
      have kept : storeTare (x :: rest) e = rest ++ [e] := by
        have none_ : ¬(x :: rest).any (fun y => y.plate == e.plate) = true := held
        unfold storeTare evicted?
        rw [if_neg none_, if_pos full]
        rfl
      rw [kept]
      refine ⟨?_, nodup_concat_plate (List.nodup_cons.mp distinct).2 fun hm => absent (List.mem_cons_of_mem _ hm)⟩
      simpa using size
    · have kept : storeTare vtr e = withoutPlate vtr e.plate ++ [e] := by
        unfold storeTare evicted?
        rw [if_neg held, if_neg full]
      rw [kept]
      refine ⟨?_, nodup_concat_plate (registerSound_filter ⟨size, distinct⟩ _).2 (not_mem_withoutPlate _ _)⟩
      have fewer : (withoutPlate vtr e.plate).length ≤ vtr.length := List.length_filter_le _ _
      rw [List.length_append, List.length_singleton]
      omega

theorem useTare_sound {vtr : List TareEntry} (h : registerSound vtr) {e : TareEntry} (he : e ∈ vtr) (now : Stamp) :
    registerSound (useTare vtr e now) := by
  have held : vtr.any (fun x => x.plate == e.plate) = true := List.any_eq_true.mpr ⟨e, he, by simp⟩
  have fewer := withoutPlate_length_lt held
  refine ⟨?_, nodup_concat_plate (registerSound_filter h _).2 (not_mem_withoutPlate _ _)⟩
  have size := h.1
  rw [useTare, List.length_append, List.length_singleton]
  omega

theorem State.mem_of_usableTare? {s : State} {plate : Text} {e : TareEntry} (h : s.usableTare? plate = some e) : e ∈ s.vtr := by
  unfold State.usableTare? at h
  split at h
  · split at h
    · cases h
      exact List.mem_of_find?_eq_some ‹_›
    · cases h
  · cases h

theorem Tickets.finish_registerSound (n : Nat) (stored store : Bool) (c q : Option Text) (p : Port) (s : State) (h : registerSound s.vtr) :
    registerSound (Tickets.finish n stored store c q p s).1.vtr := by
  have changed (f : Ticket → Ticket) : (s.changeTicket n f).vtr = s.vtr :=
    (Reaches.changeTicket (bs := [.tkt]) s n f (by decide)).vtr (by decide)
  have stores (u : State) (hu : registerSound u.vtr) (q : Text) (w : Weighing) : registerSound (u.storeFromFinish q w).1.vtr := by
    unfold State.storeFromFinish
    dsimp only
    split
    · exact hu
    · exact storeTare_sound hu _
  have plain (t : Ticket) (x a b : Option Text) : registerSound (Tickets.finishPlain s n t x a b).1.vtr := by
    unfold Tickets.finishPlain
    dsimp only
    split
    · exact stores _ (changed _ ▸ h) _ _
    · exact changed _ ▸ h
  have used (t : Ticket) (a b : Option Text) : registerSound (Tickets.finishStored s n t a b).1.vtr := by
    unfold Tickets.finishStored
    split
    · rename_i e last he hlast
      obtain ⟨plate, -, usable⟩ := Option.bind_eq_some_iff.mp he
      split
      · exact h
      · split
        · exact h
        · dsimp only [done]
          rw [changed]
          exact useTare_sound h (State.mem_of_usableTare? usable) _
    · exact h
  unfold Tickets.finish
  split
  · exact h
  · unfold withTicket
    split
    · exact h
    · dsimp only
      iterate 6
        split
        · exact h
      split
      · exact used _ _ _
      · exact plain _ _ _ _

theorem registerSound_kept : Kept [.vtr] fun s => registerSound s.vtr where
  reads hm hr h := by
    rw [hr.vtr (not_mem_of_meets hm (by simp))]
    exact h
  rule {r bs} hr hm p s h := by
    cases hr <;> try exact absurd hm (by decide)
    case channelSet n x =>
      have drop (u : State) (ch : Channel) (hu : registerSound u.vtr) : registerSound (u.dropTares ch).vtr := by
        unfold State.dropTares
        split
        · exact registerSound_filter hu _
        · exact hu
      unfold withChannel
      split
      · exact h
      · rename_i ch _
        unfold Weigh.channelSet
        dsimp only
        split
        · exact h
        · split
          · exact h
          · dsimp only [done]
            split
            · exact drop _ _ (by rw [State.setChan_vtr]; exact h)
            · rw [State.setChan_vtr]; exact h
    case tareStore plate ch tare =>
      unfold Tares.store
      split
      · dsimp only
        split
        · exact h
        · split
          · exact h
          · exact storeTare_sound h _
      · exact h
    case tareDelete plate =>
      unfold Tares.delete
      split
      · exact ⟨Nat.zero_le _, List.nodup_nil⟩
      · split
        · exact h
        · split
          · exact h
          · exact registerSound_filter h _
    case ticketFinish n stored store c q => exact Tickets.finish_registerSound n stored store c q p s h
  event {f bs} hf hm s h := by cases hf <;> exact absurd hm (by decide)
  start s w h := by
    rw [(s.cleared_reaches_events w).vtr (by decide)]
    have vtr : (s.cleared w).vtr = if w.retained && w.settings then s.vtr else [] := rfl
    rw [vtr]
    split
    · exact h
    · exact ⟨Nat.zero_le _, List.nodup_nil⟩

/-! The calendar and the event sets (R179, R182, R192) -/

theorem Evu.sound_iff (s : State) :
    s.evu.sound ↔ ∀ p, (s.events p).latched.getLsbD 23 = false ∧ (s.events p).mask.getLsbD 23 = false := by
  constructor
  · rintro ⟨lo, lw, mo, mw⟩ (_ | _)
    · exact ⟨lo, mo⟩
    · exact ⟨lw, mw⟩
  · exact fun h => ⟨(h .office).1, (h .window).1, (h .office).2, (h .window).2⟩

theorem Reaches.calendarSound {bs : List Block} {s t : State} (h : Reaches bs s t) (hc : Block.clu ∉ bs) (hm : Block.masks ∉ bs)
    (hs : s.clu.sound ∧ s.evu.sound) : t.clu.sound ∧ t.evu.sound := by
  rw [Evu.sound_iff] at hs ⊢
  refine ⟨h.clu hc ▸ hs.1, fun p => ?_⟩
  rw [(h.masks hm p).1, (h.masks hm p).2]
  exact hs.2 p

theorem State.second_calendarSound (s : State) (h : s.clu.sound ∧ s.evu.sound) : s.second.clu.sound ∧ s.second.evu.sound :=
  ⟨⟨DateTime.next_legal h.1.1, h.1.2⟩, h.2⟩

theorem State.advance_calendarSound (s : State) (h : s.clu.sound ∧ s.evu.sound) : s.advance.clu.sound ∧ s.advance.evu.sound := by
  have ticked := s.second_calendarSound h
  have told : Reaches [.evu] s.second (if s.second.clockStopped then s.second.latchBoth .clock else s.second) := by
    split
    · exact .latchBoth _ _ (by decide)
    · exact .refl _ _
  unfold State.advance
  dsimp only
  generalize (if s.second.clockStopped then s.second.latchBoth .clock else s.second) = u at told ⊢
  have latched := told.calendarSound (by decide) (by decide) ticked
  split
  · exact ticked
  · split
    · exact (Reaches.releaseCheck (bs := [.tkt, .evu]) u _ (by decide)).calendarSound (by decide) (by decide) latched
    · exact latched

theorem calendarSound_kept : Kept [.clu, .masks] fun s => s.clu.sound ∧ s.evu.sound where
  reads hm hr h := hr.calendarSound (not_mem_of_meets hm (by simp)) (not_mem_of_meets hm (by simp)) h
  rule {r bs} hr hm p s h := by
    cases hr <;> try exact absurd hm (by decide)
    case eventsFetch =>
      obtain ⟨clock, lo, lw, mo, mw⟩ := h
      cases p
      · exact ⟨clock, BitVec.getLsbD_zero, lw, mo, mw⟩
      · exact ⟨clock, lo, BitVec.getLsbD_zero, mo, mw⟩
    case eventsMask m =>
      unfold General.eventsMask
      split
      · exact h
      · rename_i top
        have top' := eq_false_of_ne_true top
        obtain ⟨clock, lo, lw, mo, mw⟩ := h
        cases p
        · exact ⟨clock, lo, lw, top', mw⟩
        · exact ⟨clock, lo, lw, mo, top'⟩
    case clockSet t =>
      unfold Calendar.set
      split
      · exact h
      · rename_i legal
        have set : ({ s with clu := { s.clu with now := t, valid := true } } : State).clu.sound ∧
            ({ s with clu := { s.clu with now := t, valid := true } } : State).evu.sound := ⟨⟨by simpa using legal, h.1.2⟩, h.2⟩
        exact ((Reaches.latchBoth (bs := [.tkt, .evu]) _ .clock (by decide)).trans (.releaseCheck _ _ (by decide))).calendarSound
          (by decide) (by decide) set
    case releaseHourSet hour =>
      unfold Calendar.releaseHourSet
      split
      · exact h
      · rename_i range
        exact ⟨⟨h.1.1, not_lt.mp range⟩, h.2⟩
  event {f bs} hf hm s h := by
    cases hf <;> try exact absurd hm (by decide)
    case advance => exact s.advance_calendarSound h
    case second => exact s.second_calendarSound h
  start s w h := by
    refine (s.cleared_reaches_events w).calendarSound (by decide) (by decide) ⟨?_, BitVec.getLsbD_zero, BitVec.getLsbD_zero,
      BitVec.getLsbD_zero, BitVec.getLsbD_zero⟩
    have clu : (s.cleared w).clu = s.clu.afterReset w := rfl
    rw [clu]
    constructor
    · change (w.ret s.clu.now epoch).legal = true
      unfold Start.ret
      split
      · exact h.1.1
      · decide
    · change w.set s.clu.releaseHour defaultReleaseHour ≤ 23
      unfold Start.set
      split
      · exact h.1.2
      · decide

/-- Settles O58: the register changes by storing, using and dropping tares, the calendar by its requests and its seconds, bit 23 by
nothing, and every operation of a channel or a deck keeps what the weighing invariant says of the two. -/
theorem stepsKeepRegisterAndCalendar : Obligations.StepsKeepRegisterAndCalendar := by
  refine ⟨fun s t h hs => registerSound_kept.step (by decide) h hs, fun s t hc he hs => calendarSound_kept.step (by decide) ⟨hc, he⟩ hs,
    fun s t h hs => weighingSound_kept.step (by decide) h hs⟩

end Sys2Proof.Machine
end

