-- ==== Sys2Proof/Proofs/RequestCycle.lean ====
section
/-! PROOFS. The machine as a whole and the request cycle: O1, O2, O5, O6, O7. -/

namespace Sys2Proof.Machine

/-! The machine as a whole -/

/-- Settles O1. -/
theorem stepTakesFrontCommand : Obligations.StepTakesFrontCommand := by
  refine ⟨fun s c rest queue => ?_, fun s empty => ?_⟩
  · simp [step, queue, State.withPending]
  · simp [step, empty]

/-- Settles O2: the tables are empty or default, and each invariant is checked on the one state. -/
theorem resetMeetsInvariants : Obligations.ResetMeetsInvariants := by
  have weighing : State.reset.weighingSound :=
    ⟨fun ch _ => ⟨by cases ch <;> decide, fun k hk => by cases ch <;> cases hk⟩, fun b _ marked => by cases b <;> cases marked⟩
  have judged : State.reset.judged := by decide
  have balances : State.reset.tkt.balances := fun t ht => by cases ht
  refine ⟨by decide, by decide, by decide, by decide, by decide, by decide, weighing, by decide, by decide, by decide, judged,
    balances, rfl, rfl, rfl, rfl, rfl, rfl, rfl, fun ch => by cases ch <;> exact ⟨rfl, rfl⟩, rfl, rfl⟩

/-- A command that does not act without power runs as a change of a powered part. -/
theorem exec_powered {c : Instr} (h : actsUnpowered c = false) :
    ∃ f : State → State, ∀ s, exec c s = .next (if s.powered then f s else s) := by
  cases c <;> first | exact ⟨_, fun _ => rfl⟩ | cases h

/-- Settles O5: without power only the commands that act there change anything. -/
theorem powerOffAndUnpoweredPart : Obligations.PowerOffAndUnpoweredPart := by
  refine ⟨fun s => rfl, fun s c off idle => ?_, fun s off => ?_⟩
  · obtain ⟨f, runs⟩ := exec_powered idle
    simp [runs, off]
  · simp [exec, execClockTick, State.tick, off, State.second]

/-! What a request can do -/

/-- A refusal leaves the state as it was. -/
def RefusesQuietly (s : State) (x : State × Reply) : Prop := x.2.status.refuses = true → x.1 = s

theorem refuse_quietly (s : State) (code : Status) (data : List Field) : RefusesQuietly s (refuse s code data) := fun _ => rfl

theorem done_quietly (s t : State) (data : List Field) : RefusesQuietly s (done t data) := nofun

theorem withChannel_quietly {k : Channel → Handler} (n : Nat) (p : Port) (s : State) (h : ∀ ch, RefusesQuietly s (k ch p s)) :
    RefusesQuietly s (withChannel n k p s) := by
  unfold withChannel
  split
  · exact refuse_quietly _ _ _
  · exact h _

theorem withTicket_quietly {k : Ticket → State × Reply} (n : Nat) (s : State) (h : ∀ t, RefusesQuietly s (k t)) :
    RefusesQuietly s (withTicket s n k) := by
  unfold withTicket
  split
  · exact refuse_quietly _ _ _
  · exact h _

/-- A request that is refused has no effect of its own (R206). -/
theorem Rule.refuses_quietly {r : Handler} {bs : List Block} (h : Rule r bs) (p : Port) (s : State) : RefusesQuietly s (r p s) := by
  have channels {k : Channel → Handler} (n : Nat) (hk : ∀ ch, RefusesQuietly s (k ch p s)) : RefusesQuietly s (withChannel n k p s) :=
    withChannel_quietly n p s hk
  cases h
  case channelSet | channelService | zero | capture | captureAbort | calibrateZero | calibrateSpan | channelState =>
    refine channels _ fun ch => ?_
    simp only [Weigh.channelSet, Weigh.service, Weigh.zero, Weigh.capture, Weigh.abort, Weigh.calibrateZero, Weigh.calibrateSpan,
      Weigh.channelState]
    repeat' split
    all_goals first | exact refuse_quietly _ _ _ | exact done_quietly _ _ _ | exact nofun
  case lineGrade | lineDeduct | lineStrike | weighingStrike | ticketReopen | ticketSettle | ticketApprove | ticketClaim | ticketRelease
      | ticketVoid | ticketResolve =>
    refine withTicket_quietly _ _ fun t => ?_
    repeat' split
    all_goals first | exact refuse_quietly _ _ _ | exact done_quietly _ _ _
  case payoutStart =>
    refine withTicket_quietly _ _ fun t => ?_
    dsimp only
    repeat' split
    all_goals first | exact refuse_quietly _ _ _ | exact done_quietly _ _ _ | exact nofun
  case ticketFinish n used stored c q =>
    have plain (t : Ticket) (x a b : Option Text) : RefusesQuietly s (Tickets.finishPlain s n t x a b) := by
      unfold Tickets.finishPlain
      dsimp only
      split <;> exact done_quietly _ _ _
    have storedTare (t : Ticket) (a b : Option Text) : RefusesQuietly s (Tickets.finishStored s n t a b) := by
      unfold Tickets.finishStored
      repeat' split
      all_goals first | exact refuse_quietly _ _ _ | exact done_quietly _ _ _
    unfold Tickets.finish
    split
    · exact refuse_quietly _ _ _
    · refine withTicket_quietly _ _ fun t => ?_
      dsimp only
      repeat' split
      all_goals first | exact refuse_quietly _ _ _ | exact storedTare _ _ _ | exact plain _ _ _ _
  case outcomeFetch n =>
    unfold Weigh.fetch
    split
    · unfold Cash.outcomeFetch
      repeat' split
      all_goals first | exact refuse_quietly _ _ _ | exact done_quietly _ _ _
    · refine channels _ fun ch => ?_
      unfold Weigh.outcomeFetch
      dsimp only
      repeat' split
      all_goals first | exact refuse_quietly _ _ _ | exact done_quietly _ _ _
  case badBody => exact refuse_quietly _ _ _
  all_goals
    simp only [General.ident, General.eventsFetch, General.eventsMask, General.linkCounters, General.restart, Deck.state,
      Deck.lampPatternSet, Deck.aspectSet, Deck.lampOverride, Lines.mapSet, Lines.read, Lines.write, Grades.set, Grades.read,
      Grades.priceSet, Grades.limitsSet, Tares.store, Tares.read, Tares.delete, Tickets.open_, Tickets.read, Tickets.list, Cash.storeLoad,
      Cash.storeEnable, Cash.storeRead, Cash.payoutCancel, Cash.logRead, Cash.binEmpty, Cash.dispenserClear, Print.receiptPrint,
      Print.cancel, Print.state, Print.headerSet, Calendar.set, Calendar.read, Calendar.releaseHourSet, Alert.read, Alert.set, Alert.clear]
    repeat' split
    all_goals first | exact refuse_quietly _ _ _ | exact done_quietly _ _ _

/-- A request row is its kind's frame carried out by one of the rules. -/
theorem exec_request {c : Instr} {src : Sender} {kind : Nat} (h : requestOf c = some (src, kind)) :
    ∃ r bs, Rule r bs ∧ ∀ s, exec c s = request src kind r s := by
  cases c
  case unknownRequest src' kind' =>
    simp only [requestOf] at h
    split at h
    · cases h
    · rename_i unknown
      cases h
      refine ⟨badBody, _, .badBody, fun s => ?_⟩
      have frame (u : State) : Links.unknown src kind u = u.takeFrame src kind badBody := if_neg unknown
      simp only [exec, execUnknownRequest, request, run, frame]
  all_goals first | (cases h; done) | (cases h; exact ⟨_, _, by constructor, fun _ => rfl⟩)

/-- Checks 1 and 2 of R206: a kind that is none, and one the port may not use. -/
theorem request_checked (s : State) (p : Port) (kind : Nat) (r : Handler) (code : Status) (hr : s.ready p)
    (hd : (s.taken p).dispatch p kind r = (s.taken p).answer p kind ⟨code, []⟩) :
    request (Port.sender p) kind r s = .next ((s.taken p).answered p kind code []) := by
  have same : ((s.taken p).answer p kind ⟨code, []⟩).sameConditions s := State.sameConditions_of _ _ (by simp [State.answer]) (by simp)
  simp [request, run, hr.1, State.takeFrame_ready s p kind r hr, hd, State.conclude, State.beginAlerts_of_same _ _ same, State.answered]

theorem request_unknown (s : State) (p : Port) {kind : Nat} (r : Handler) (hr : s.ready p) (hk : kind ∉ knownKinds) :
    request (Port.sender p) kind r s = .next ((s.taken p).answered p kind .unknownRequest []) :=
  request_checked s p kind r _ hr (if_pos hk)

theorem request_window (s : State) {kind : Nat} (r : Handler) (hr : s.ready .window) (hk : kind ∈ knownKinds) (hw : kind ∉ windowKinds) :
    request .window kind r s = .next ((s.taken .window).answered .window kind .wrongPort []) :=
  request_checked s .window kind r _ hr (by simp [State.dispatch, hk, hw])

/-- Refused by its own rule. -/
theorem request_refused {s : State} {p : Port} {kind : Nat} {r : Handler} {code : Status} (hr : s.ready p)
    (he : r p (s.taken p) = refuse (s.taken p) code) (hk : kind ∈ knownKinds) (hw : p = .window → kind ∈ windowKinds) :
    request (Port.sender p) kind r s = .next ((s.taken p).answered p kind code []) :=
  request_told s p kind r code [] hr hk hw he

theorem withTicket_missing {s : State} {n : Nat} (h : s.ticket? n = none) (k : Ticket → State × Reply) :
    withTicket s n k = refuse s .noTicket := by simp [withTicket, h]

theorem withChannel_missing {n : Nat} (h : 3 < n) (k : Channel → Handler) (p : Port) (s : State) :
    withChannel n k p s = refuse s .badParam := by
  have none_ : Channel.ofNat? n = none := by
    match n, h with
    | n + 4, _ => rfl
  simp [withChannel, none_]

theorem State.port_answer (s : State) (p : Port) (kind : Nat) (r : Reply) :
    ((s.answer p kind r).port p).answer = some ⟨kind, r.status, s.summary p, r.data⟩ := by simp [State.answer]

theorem State.port_answered (s : State) (p : Port) (kind : Nat) (status : Status) (data : List Field) :
    ((s.answered p kind status data).port p).answer = some ⟨kind, status, s.summary p, data⟩ := by
  rw [State.answered, State.port_settle, State.port_answer]

theorem State.port_conclude (before after : State) (p : Port) : (before.conclude after).port p = after.port p := by
  obtain ⟨e, he⟩ := after.beginAlerts_frame before
  rw [State.conclude, he, State.port_settle]
  cases p <;> rfl

/-- A request taken by a ready port is answered with its own kind, and refused it has no other effect (R205, R206). -/
theorem request_answers (s : State) (p : Port) (kind : Nat) {r : Handler} {bs : List Block} (rule : Rule r bs) (hr : s.ready p) :
    ∃ t a, request (Port.sender p) kind r s = .next t ∧ (t.port p).answer = some a ∧ a.kind = kind ∧
      (a.status.refuses = true → t = (s.taken p).answered p kind a.status a.data) := by
  by_cases known : kind ∈ knownKinds
  · by_cases allowed : p = .window → kind ∈ windowKinds
    · cases refused : (r p (s.taken p)).2.status.refuses with
      | true =>
        have still : r p (s.taken p) = (s.taken p, ⟨(r p (s.taken p)).2.status, (r p (s.taken p)).2.data⟩) :=
          Prod.ext (rule.refuses_quietly p _ refused) rfl
        exact ⟨_, _, request_told s p kind r _ _ hr known allowed still, State.port_answered .., rfl, fun _ => rfl⟩
      | false =>
        exact ⟨_, _, request_taken s p kind r hr known allowed, by rw [State.port_conclude, State.port_answer], rfl,
          fun h => by rw [refused] at h; cases h⟩
    · obtain ⟨rfl, denied⟩ := Classical.not_imp.mp allowed
      exact ⟨_, _, request_window s r hr known denied, State.port_answered .., rfl, fun _ => rfl⟩
  · exact ⟨_, _, request_unknown s p r hr known, State.port_answered .., rfl, fun _ => rfl⟩

theorem Sender.eq_of_addressed {src : Sender} (h : src ≠ .group) : Port.sender src.port = src := by
  cases src <;> simp_all [Sender.port, Port.sender]

/-- Settles O6: a request row is its kind's frame, which checks 1 and 2 meet first; each rule refuses without an effect. -/
theorem requestsAnsweredOrRefused : Obligations.RequestsAnsweredOrRefused := by
  refine ⟨fun s c src kind row addressed hr => ?_, fun s p kind hr unknown => ?_, fun s c kind row hr known denied => ?_,
    fun s p n place code form mode b b' customer plate hr gone printable printable' c hc kind row => ?_,
    fun s n h hr gone c hc kind row => ?_, fun s p n ticket grade tare hr high c hc kind row => ?_,
    fun s n x enter weight setting hr => ⟨fun high c hc kind row => ?_, fun high => ?_⟩⟩
  · obtain ⟨r, bs, rule, runs⟩ := exec_request row
    have answers := request_answers s src.port kind rule hr
    rw [Sender.eq_of_addressed addressed] at answers
    rw [runs]
    exact answers
  · obtain ⟨r, bs, -, runs⟩ := exec_request (c := .unknownRequest (Port.sender p) kind) (if_neg unknown)
    rw [runs]
    exact request_unknown s p r hr unknown
  · obtain ⟨r, bs, -, runs⟩ := exec_request row
    rw [runs]
    exact request_window s r hr known denied
  · have gone' : (s.taken p).ticket? n = none := by rw [State.ticket?_taken]; exact gone
    simp only [List.mem_cons, List.not_mem_nil, or_false] at hc
    have finish : Tickets.finish n b b' customer plate p (s.taken p) = refuse (s.taken p) .noTicket := by
      simp [Tickets.finish, printable, printable', withTicket_missing gone']
    rcases hc with rfl | rfl | rfl | rfl | rfl | rfl | rfl | rfl | rfl | rfl <;> cases row <;> refine request_refused hr ?_ (by decide)
      fun _ => by decide
    all_goals first | exact withTicket_missing gone' _ | exact finish
  · have gone' : (s.taken .office).ticket? n = none := by rw [State.ticket?_taken]; exact gone
    simp only [List.mem_cons, List.not_mem_nil, or_false] at hc
    rcases hc with rfl | rfl | rfl | rfl <;> cases row <;>
      exact request_refused (p := .office) hr (withTicket_missing gone' _) (by decide) nofun
  · simp only [List.mem_cons, List.not_mem_nil, or_false] at hc
    rcases hc with rfl | rfl | rfl <;> cases row <;>
      exact request_refused hr (withChannel_missing high _ _ _) (by decide) fun _ => by decide
  · simp only [List.mem_cons, List.not_mem_nil, or_false] at hc
    rcases hc with rfl | rfl | rfl | rfl | rfl <;> cases row <;>
      exact request_refused (p := .office) hr (withChannel_missing high _ _ _) (by decide) nofun
  · refine request_refused (p := .office) hr ?_ (by decide) nofun
    have none_ : Bridge.ofNat? n = none := by
      match n, high with
      | n + 2, _ => rfl
    simp only [Deck.lampOverride, none_]

/-! Frames dropped -/

theorem State.takeFrame_offline {s : State} {src : Sender} (h : s.receives src.port = false) (kind : Nat) (r : Handler) :
    s.takeFrame src kind r = s := by simp [State.takeFrame, h]

theorem saturating_eq_min (n top : Nat) : saturating n top = min (n + 1) top := by
  unfold saturating
  split <;> omega

/-- A frame at a port that is ANSWERING is discarded and counted OVERRUN (R205). -/
theorem State.takeFrame_answering {s : State} {src : Sender} (online : s.receives src.port = true)
    (busy : (s.port src.port).answer.isSome = true) (kind : Nat) (r : Handler) :
    s.takeFrame src kind r = s.setPort src.port
      { s.port src.port with
        rx := .hunting
        counters := { (s.port src.port).counters with overrun := min ((s.port src.port).counters.overrun + 1) 65535 } } := by
  simp only [State.takeFrame, online, busy, Counters.addOverrun, saturating_eq_min, State.port_setPort]
  cases src.port <;> rfl

/-- A group frame of a kind that may not be sent to the group is dropped and counted (R208). -/
theorem State.takeFrame_groupDropped {s : State} (hr : s.ready .office) {kind : Nat} (h : kind ∉ groupKinds) (r : Handler) :
    s.takeFrame .group kind r = s.groupCounted := by
  obtain ⟨-, online, idle⟩ := hr
  have idle' : s.office.answer = none := idle
  simp [State.takeFrame, Sender.port, online, idle', State.dispatchGroup, h, State.dropGroup, State.groupCounted,
    Counters.addGroupDropped, saturating_eq_min, State.setPort, State.port]

/-- Settles O7: what a port does with a frame it may not take is said by the frame cycle before any rule is asked. -/
theorem droppedFramesCounted : Obligations.DroppedFramesCounted := by
  refine ⟨⟨fun s c kind row hr other => ?_, fun s kind hr other => ?_⟩, fun s c src kind row power online busy => ?_,
    fun s p power online busy => ?_, fun s c src kind row office power offline => ?_⟩
  · obtain ⟨r, bs, -, runs⟩ := exec_request row
    rw [runs]
    exact run_settles hr.1 _ (State.takeFrame_groupDropped hr other r) rfl rfl
  · refine run_settles hr.1 _ ?_ rfl rfl
    exact (if_neg other).trans (State.takeFrame_groupDropped hr other badBody)
  · obtain ⟨r, bs, -, runs⟩ := exec_request row
    rw [runs]
    exact run_settles power _ (State.takeFrame_answering online busy kind r) (by simp) (by simp)
  · refine run_settles power (Links.whileAnswering p) ?_ (by simp) (by simp)
    simp [Links.whileAnswering, Links.onLine, online, busy, State.discard, Counters.addOverrun, saturating_eq_min]
  · obtain ⟨r, bs, -, runs⟩ := exec_request row
    rw [runs]
    refine run_settles power _ (State.takeFrame_offline ?_ kind r) rfl rfl
    rw [office]
    simp only [State.receives, State.online, decide_eq_false_iff_not]
    omega

end Sys2Proof.Machine
end

