-- ==== Sys2Proof/Proofs/Links.lean ====
section
/-! PROOFS. The receivers of the two lines: O10, O11. -/

namespace Sys2Proof.Machine

/-! Events of a line -/

/-- An event of a line that changes the port's record alone. -/
theorem run_onLine {s : State} {p : Port} {f : State → State} {x : PortState} (power : s.powered = true) (online : s.receives p = true)
    (hf : f s = s.setPort p x) : run (Links.onLine p f) s = .next (s.setPort p x).settle :=
  run_settles power _ (by rw [Links.onLine, if_pos online, hf]) (by simp) (by simp)

theorem run_onLine_same {s : State} {p : Port} {f : State → State} (power : s.powered = true) (online : s.receives p = true)
    (hf : f s = s) : run (Links.onLine p f) s = .next s.settle :=
  run_settles power _ (by rw [Links.onLine, if_pos online, hf]) rfl rfl

theorem State.discard_eq (s : State) (p : Port) (f : Counters → Counters) {c : Counters} (h : f (s.port p).counters = c) :
    s.discard p f = s.setPort p { s.port p with rx := .hunting, counters := c } := by rw [State.discard, h]

theorem State.isLead_setPort (s : State) (p q : Port) (x : PortState) (c : LineChar) : (s.setPort q x).isLead p c = s.isLead p c := by
  cases p <;> cases q <;> rfl

theorem State.lengthErrorAt_iff (s : State) (p : Port) (c : LineChar) :
    s.lengthErrorAt p c = true ↔
      (s.port p).rx ≠ .hunting ∧ ((p = .office ∧ isAddress c = true) ∨
        ((∃ lead, (s.port p).rx = .length lead) ∧ ((byteOf c).toNat = 0 ∨ 200 < (byteOf c).toNat))) := by
  have zero : (byteOf c == 0) = true ↔ (byteOf c).toNat = 0 := by
    rw [beq_iff_eq, BitVec.toNat_eq]; rfl
  unfold State.lengthErrorAt
  cases hrx : (s.port p).rx with
  | hunting => simp
  | length lead => simp only [Bool.or_eq_true, Bool.and_eq_true, zero, decide_eq_true_eq, beq_iff_eq]; simp [or_assoc]
  | body lead need kept => simp
  | check lead kept first => simp

theorem State.lengthError_eq (s : State) (p : Port) (c : LineChar) :
    s.lengthError p c = s.setPort p
      { s.port p with
        rx := if p = .office ∧ isAddress c = true ∧ s.isLead .office c = true then .length c else .hunting
        counters := { (s.port p).counters with length := min ((s.port p).counters.length + 1) 65535 } } := by
  have counted : (s.port p).counters.addLength = { (s.port p).counters with length := min ((s.port p).counters.length + 1) 65535 } := by
    simp only [Counters.addLength, saturating_eq_min]
  unfold State.lengthError
  dsimp only
  rw [State.discard_eq s p _ counted]
  by_cases lead : p = .office ∧ isAddress c = true
  · obtain ⟨rfl, address⟩ := lead
    simp only [address, and_self, if_true, true_and, State.hunt, State.setRx, State.setPort_setPort, State.port_setPort,
      State.isLead_setPort]
  · have other : ¬(p = .office ∧ isAddress c = true ∧ s.isLead .office c = true) := fun h => lead ⟨h.1, h.2.1⟩
    rw [if_neg lead, if_neg other]

theorem State.midFrame_eq (s : State) (p : Port) : s.midFrame p = decide ((s.port p).rx ≠ .hunting) := by
  unfold State.midFrame
  cases (s.port p).rx <;> simp

/-- Settles O10. -/
theorem receiverTakesCharacters : Obligations.ReceiverTakesCharacters := by
  refine ⟨fun s p power online => ⟨fun c hc => ⟨fun mid => ⟨?_, ?_, ?_⟩, ?_, fun lead kept first rx => ?_, fun ch err => ?_⟩,
    fun hunting => ⟨?_, ?_, ?_⟩⟩, fun s p c power online => ⟨s.lengthErrorAt_iff p c, fun err => ?_, fun fine => ⟨fun rx => ?_,
    fun lead rx => ?_, fun lead need kept rx => ?_, fun lead kept rx => ?_, fun lead kept first rx bad => ?_⟩⟩⟩
  · refine run_onLine power online ?_
    rw [s.midFrame_eq, if_pos (by simpa using mid), hc]
    exact s.discard_eq p _ (by simp only [Counters.addChar, saturating_eq_min])
  · refine run_onLine power online ?_
    rw [s.midFrame_eq, if_pos (by simpa using mid), hc]
    exact s.discard_eq p _ (by simp only [Counters.addOverrun, saturating_eq_min])
  · refine run_onLine power online ?_
    rw [s.midFrame_eq, if_pos (by simpa using mid), hc]
    exact s.discard_eq p _ (by simp only [Counters.addGap, saturating_eq_min])
  · rw [hc]
    exact run_onLine power online (s.discard_eq p _ (by simp only [Counters.addBreak, saturating_eq_min]))
  · refine run_onLine power online ?_
    rw [rx, hc]
    exact s.discard_eq p _ (by simp only [Counters.addCheck, saturating_eq_min])
  · refine run_onLine power online ?_
    rw [if_pos err, hc]
    exact s.lengthError_eq p ch
  · exact run_onLine_same power online (by rw [s.midFrame_eq, hunting]; rfl)
  · exact run_onLine_same power online (by rw [s.midFrame_eq, hunting]; rfl)
  · exact run_onLine_same power online (by rw [s.midFrame_eq, hunting]; rfl)
  · change run _ s = run _ s
    simp only [run, power, if_true, Links.character, Links.lengthError, Links.onLine, online, State.receive, err]
  · refine run_onLine power online ?_
    simp only [State.receive, fine, rx, Bool.false_eq_true, if_false, State.hunt, State.setRx]
  · refine run_onLine power online ?_
    simp only [State.receive, fine, rx, Bool.false_eq_true, if_false, State.setRx]
  · refine run_onLine power online ?_
    simp only [State.receive, fine, rx, Bool.false_eq_true, if_false, State.setRx, List.length_append, List.length_singleton]
  · refine run_onLine power online ?_
    simp only [State.receive, fine, rx, Bool.false_eq_true, if_false, State.setRx]
  · have failed : s.complete p lead kept [first, byteOf c] = s.discard p Counters.addCheck := by
      unfold State.complete
      split
      · rfl
      · rename_i kind body
        rw [if_neg]
        rcases bad with bad | bad
        · cases bad
        · exact bad
    change run _ s = run _ s
    simp [run, power, Links.character, Links.checkFailed, Links.onLine, online, State.receive, fine, rx, failed, Receiver.lastByte]

/-! A whole frame -/

theorem State.settle_setPort (s : State) (p : Port) (x : PortState) : (s.setPort p x).settle = s.settle.setPort p x := by
  cases p <;> rfl

theorem State.setRx_setRx (s : State) (p : Port) (r r' : Receiver) : (s.setRx p r).setRx p r' = s.setRx p r' := by
  simp [State.setRx]

theorem State.port_setRx (s : State) (p : Port) (r : Receiver) : ((s.setRx p r).port p).rx = r := by simp [State.setRx]

theorem feed_next {p : Port} {c : LineChar} {s t : State} (h : exec (.characterArriving p c) s = .next t) (rest : List LineChar) :
    feed p (c :: rest) s = feed p rest t := by rw [feed, h]

section Frame

variable {s : State} {p : Port}

/-- A character that the receiver takes moves the receiver and nothing else, where lamps and outputs are judged. -/
theorem exec_receives (judged : s.settle = s) (power : s.powered = true) (online : s.receives p = true) {c : LineChar}
    {r r' : Receiver} (h : (s.setRx p r).receive p c = s.setRx p r') :
    exec (.characterArriving p c) (s.setRx p r) = .next (s.setRx p r') := by
  have online' : (s.setRx p r).receives p = true := by cases p <;> exact online
  have power' : (s.setRx p r).powered = true := by rw [State.setRx, State.setPort_powered]; exact power
  refine (run_settles (t := s.setRx p r') power' (Links.character p c) ?_ (by simp [State.setRx]) (by simp [State.setRx])).trans ?_
  · rw [Links.character, Links.onLine, if_pos online', h]
  · rw [State.setRx, State.settle_setPort, judged]

theorem byteOf_zeroExtend (b : Byte) : byteOf (b.zeroExtend 9) = b := by
  unfold byteOf
  ext i hi
  simp [hi]
  omega

theorem isAddress_zeroExtend (b : Byte) : isAddress (b.zeroExtend 9) = false := by simp [isAddress]

theorem receive_length (lead : LineChar) {n : Nat} (h : n ≤ 199) :
    (s.setRx p (.length lead)).receive p ((BitVec.ofNat 8 (n + 1)).zeroExtend 9) = s.setRx p (.body lead (n + 1) []) := by
  have size : (BitVec.ofNat 8 (n + 1)).toNat = n + 1 := by rw [BitVec.toNat_ofNat]; omega
  have fine : (s.setRx p (.length lead)).lengthErrorAt p ((BitVec.ofNat 8 (n + 1)).zeroExtend 9) = false := by
    rw [← Bool.not_eq_true, State.lengthErrorAt_iff, isAddress_zeroExtend, byteOf_zeroExtend, size]
    simp
    omega
  rw [State.receive, if_neg (by rw [fine]; simp), State.port_setRx]
  simp only [byteOf_zeroExtend, size, State.setRx_setRx]

theorem receive_body (lead : LineChar) (need : Nat) (kept : List Byte) (b : Byte) :
    (s.setRx p (.body lead need kept)).receive p (b.zeroExtend 9) =
      s.setRx p (if need ≤ kept.length + 1 then .check lead (kept ++ [b]) none else .body lead need (kept ++ [b])) := by
  have fine : (s.setRx p (.body lead need kept)).lengthErrorAt p (b.zeroExtend 9) = false := by
    rw [← Bool.not_eq_true, State.lengthErrorAt_iff, isAddress_zeroExtend, State.port_setRx]
    simp
  rw [State.receive, if_neg (by rw [fine]; simp), State.port_setRx]
  simp only [byteOf_zeroExtend, State.setRx_setRx, List.length_append, List.length_singleton]

theorem receive_check (lead : LineChar) (kept : List Byte) (b : Byte) :
    (s.setRx p (.check lead kept none)).receive p (b.zeroExtend 9) = s.setRx p (.check lead kept (some b)) := by
  have fine : (s.setRx p (.check lead kept none)).lengthErrorAt p (b.zeroExtend 9) = false := by
    rw [← Bool.not_eq_true, State.lengthErrorAt_iff, isAddress_zeroExtend, State.port_setRx]
    simp
  rw [State.receive, if_neg (by rw [fine]; simp), State.port_setRx]
  simp only [byteOf_zeroExtend, State.setRx_setRx]

/-- The bytes still needed are kept one by one; after the last the receiver waits for the check. -/
theorem feed_body (judged : s.settle = s) (power : s.powered = true) (online : s.receives p = true) (lead : LineChar)
    (rest : List LineChar) (bytes : List Byte) (kept : List Byte) (some_ : bytes ≠ []) :
    feed p (bytes.map (·.zeroExtend 9) ++ rest) (s.setRx p (.body lead (kept.length + bytes.length) kept)) =
      feed p rest (s.setRx p (.check lead (kept ++ bytes) none)) := by
  induction bytes generalizing kept with
  | nil => exact absurd rfl some_
  | cons b more ih =>
    rw [List.map_cons, List.cons_append, feed_next (exec_receives judged power online (receive_body ..))]
    cases more with
    | nil => simp
    | cons b' more =>
      have short : ¬kept.length + (b :: b' :: more).length ≤ kept.length + 1 := by simp
      have grown : kept.length + (b :: b' :: more).length = (kept ++ [b]).length + (b' :: more).length := by simp; omega
      rw [if_neg short, grown, ih (kept ++ [b]) (by simp)]
      simp

/-- A frame taken leaves the receiver in HUNTING, wherever it stood. -/
theorem State.takeFrame_setRx {src : Sender} (online : s.receives src.port = true) (rx : Receiver) (kind : Nat) (r : Handler) :
    (s.setRx src.port rx).takeFrame src kind r = s.takeFrame src kind r := by
  have online' : (s.setPort src.port { s.port src.port with rx := rx }).receives src.port = true := by cases src <;> exact online
  simp only [State.takeFrame, State.setRx, online, online', State.port_setPort, State.setPort_setPort, Bool.not_true, Bool.false_eq_true,
    if_false]

theorem State.conclude_setRx (t : State) (rx : Receiver) : (s.setRx p rx).conclude t = s.conclude t := by
  simp [State.conclude, State.beginAlerts, State.beginAlert, State.setRx]

/-- The last character of a good frame gives it to the request cycle. -/
theorem exec_lastCharacter {src : Sender} {kind : Byte} {body : List Byte} (power : s.powered = true) (online : s.receives src.port = true)
    {lead : LineChar} (hl : senderOf src.port lead = src) (first last : Byte)
    (good : [first, last] = checkBytes (covered (kind :: body))) :
    exec (.characterArriving src.port (last.zeroExtend 9)) (s.setRx src.port (.check lead (kind :: body) (some first))) =
      request src kind.toNat (handlerOf kind.toNat body) s := by
  have online' : (s.setRx src.port (.check lead (kind :: body) (some first))).receives src.port = true := by cases src <;> exact online
  have power' : (s.setRx src.port (.check lead (kind :: body) (some first))).powered = true := by
    rw [State.setRx, State.setPort_powered]; exact power
  have fine : (s.setRx src.port (.check lead (kind :: body) (some first))).lengthErrorAt src.port (last.zeroExtend 9) = false := by
    rw [← Bool.not_eq_true, State.lengthErrorAt_iff, isAddress_zeroExtend, State.port_setRx]
    simp
  have taken : Links.character src.port (last.zeroExtend 9) (s.setRx src.port (.check lead (kind :: body) (some first))) =
      s.takeFrame src kind.toNat (handlerOf kind.toNat body) := by
    rw [Links.character, Links.onLine, if_pos online', State.receive, if_neg (by rw [fine]; simp), State.port_setRx]
    simp only [byteOf_zeroExtend, State.complete, good, if_true, hl]
    exact State.takeFrame_setRx online _ _ _
  change run _ _ = run _ _
  rw [run, run, if_pos power', if_pos power, taken, State.conclude_setRx]

theorem feed_single {c : LineChar} {t : Host.Outcome State Fault Refusal} (h : exec (.characterArriving p c) s = t) : feed p [c] s = t := by
  rw [feed, h]
  cases t <;> rfl

end Frame

theorem State.requestLead_office {s : State} (online : s.online = true) :
    isAddress (s.requestLead .office) = true ∧ (byteOf (s.requestLead .office)).toNat = s.straps ∧ s.straps ≠ 31 := by
  have range : 1 ≤ s.straps ∧ s.straps ≤ 30 := by simpa [State.online] using online
  generalize hn : s.straps = n at *
  have small : n < 31 := by omega
  rw [State.requestLead, hn]
  interval_cases n <;> decide

/-- The lead of a request frame is one the receiver takes, and it tells the sender. -/
theorem State.requestLead_leads {s : State} {src : Sender} (online : s.receives src.port = true) :
    s.isLead src.port (s.requestLead src) = true ∧ senderOf src.port (s.requestLead src) = src := by
  cases src with
  | office =>
    obtain ⟨address, straps, own⟩ := State.requestLead_office online
    refine ⟨by simp [Sender.port, State.isLead, address, straps], ?_⟩
    have other : byteOf (s.requestLead .office) ≠ 31 := fun h => own (by rw [← straps, h]; rfl)
    exact if_neg other
  | group =>
    have lead : isAddress (0x11F#9) = true ∧ byteOf (0x11F#9) = 31 := by decide
    exact ⟨by simp [Sender.port, State.isLead, State.requestLead, lead], by simp [Sender.port, senderOf, State.requestLead, lead]⟩
  | window =>
    have lead : byteOf (0x0A5#9) = 0xA5 := by decide
    exact ⟨by simp [Sender.port, State.isLead, State.requestLead, lead], rfl⟩

/-- The characters of a good frame from HUNTING do what the request they spell does. -/
theorem feed_frame {s : State} {src : Sender} (kind : Byte) (body : List Byte) (judged : s.settle = s) (power : s.powered = true)
    (online : s.receives src.port = true) (hunting : (s.port src.port).rx = .hunting) (size : body.length ≤ 199) :
    feed src.port (frameChars (s.requestLead src) kind body) s = request src kind.toNat (handlerOf kind.toNat body) s := by
  obtain ⟨leads, sender⟩ := s.requestLead_leads online
  have start : s.setRx src.port .hunting = s := by
    rw [State.setRx, ← hunting]
    exact s.setPort_port src.port
  have led : (s.setRx src.port .hunting).receive src.port (s.requestLead src) = s.setRx src.port (.length (s.requestLead src)) := by
    have fine : s.lengthErrorAt src.port (s.requestLead src) = false := by
      rw [← Bool.not_eq_true, State.lengthErrorAt_iff, hunting]
      simp
    rw [start, State.receive, if_neg (by rw [fine]; simp), hunting]
    simp only [State.hunt, leads, if_true]
  have lead := exec_receives judged power online led
  rw [start] at lead
  have length := exec_receives judged power online (receive_length (s := s) (p := src.port) (s.requestLead src) size)
  obtain ⟨first, last, good⟩ : ∃ a b, checkBytes (covered (kind :: body)) = [a, b] := ⟨_, _, rfl⟩
  have chars : frameChars (s.requestLead src) kind body = s.requestLead src :: (BitVec.ofNat 8 (body.length + 1)).zeroExtend 9 ::
      ((kind :: body).map (·.zeroExtend 9) ++ [first.zeroExtend 9, last.zeroExtend 9]) := by
    have check : checkBytes (BitVec.ofNat 8 (body.length + 1) :: kind :: body) = [first, last] := good
    simp [frameChars, check]
  have bodyFed := feed_body judged power online (s.requestLead src) [first.zeroExtend 9, last.zeroExtend 9] (kind :: body) [] (by simp)
  rw [List.length_nil, Nat.zero_add, List.length_cons, List.nil_append] at bodyFed
  rw [chars, feed_next lead, feed_next length, bodyFed, feed_next (exec_receives judged power online (receive_check ..))]
  exact feed_single (exec_lastCharacter power online sender first last good.symm)

/-- Settles O11: a frame is fed character by character, and its body is read back as the row it spells. -/
theorem framesActAsRequests : Obligations.FramesActAsRequests := by
  refine ⟨fun s src kind body judged power online hunting size => ?_,
    fun s c src kind fields formed spelled size judged power online hunting => ?_⟩
  · exact feed_frame kind body ((s.judged_iff_settle power).mp judged) power online hunting size
  · have fed := feed_frame (BitVec.ofNat 8 kind) (fields.flatMap Field.bytes) ((s.judged_iff_settle power).mp judged) power online hunting size
    have byte : (BitVec.ofNat 8 kind).toNat = kind := by
      rw [BitVec.toNat_ofNat]
      exact Nat.mod_eq_of_lt (requestForm_kind_lt c spelled)
    rw [byte] at fed
    exact fed.trans (request_form c s formed spelled)

end Sys2Proof.Machine
end

