-- ==== Sys2Proof/Proofs/Checks.lean ====
section
/-! PROOFS. Requests whose checks stand in a table: the first that fails decides. With them the requests on a weighing channel: O12 to
O15, O17. -/

namespace Sys2Proof.Machine

/-- A table of checks before an effect: what the first failing check gives, or else the effect. -/
def afterChecks {α : Type} (checks : List (Bool × Status)) (refused : Status → α) (taken : α) : α :=
  match firstFailing checks with
  | some code => refused code
  | none => taken

section Checks

variable {α : Type} {checks : List (Bool × Status)} {refused : Status → α} {taken : α}

@[simp] theorem afterChecks_nil : afterChecks [] refused taken = taken := rfl

@[simp] theorem afterChecks_cons (b : Bool) (code : Status) :
    afterChecks ((b, code) :: checks) refused taken = if b then refused code else afterChecks checks refused taken := by
  cases b <;> rfl

theorem afterChecks_some {code : Status} (h : firstFailing checks = some code) : afterChecks checks refused taken = refused code := by
  rw [afterChecks, h]

theorem afterChecks_none (h : firstFailing checks = none) : afterChecks checks refused taken = taken := by rw [afterChecks, h]

end Checks

/-- A table of checks before an effect on the state of a request. -/
abbrev State.checked (s : State) (checks : List (Bool × Status)) (taken : State × Reply) : State × Reply :=
  afterChecks checks (fun code => refuse s code) taken

section Requests

variable {s t : State} {p : Port} {kind : Nat} {h : Handler} {checks : List (Bool × Status)} {taken : State × Reply} {status : Status}
  {data : List Field}

/-- The first failing check of a request is its answer. -/
theorem request_fails (hr : s.ready p) (hk : kind ∈ knownKinds) (hw : p = .window → kind ∈ windowKinds)
    (he : h p (s.taken p) = (s.taken p).checked checks taken) {code : Status} (hc : firstFailing checks = some code) :
    request (Port.sender p) kind h s = .next ((s.taken p).answered p kind code []) :=
  request_told s p kind h code [] hr hk hw (he.trans (afterChecks_some hc))

/-- A request whose checks pass has its effect. -/
theorem request_passes (hr : s.ready p) (hk : kind ∈ knownKinds) (hw : p = .window → kind ∈ windowKinds)
    (he : h p (s.taken p) = (s.taken p).checked checks (t, ⟨status, data⟩)) (hc : firstFailing checks = none)
    (lines : t.dsu.lines = s.dsu.lines) (service : t.anyInService = s.anyInService) :
    request (Port.sender p) kind h s = .next (t.answered p kind status data) :=
  request_acts s t p kind h status data hr hk hw (he.trans (afterChecks_none hc)) lines service

end Requests

/-! The services of the channels -/

theorem State.anyInService_setChan (s : State) (ch : Channel) (c : ChannelState)
    (h : (c.st = .service) ↔ ((s.chan ch).st = .service)) : (s.setChan ch c).anyInService = s.anyInService := by
  have same : (c.st == ChannelSt.service) = ((s.chan ch).st == .service) := by
    rw [Bool.eq_iff_iff]
    simpa using h
  cases ch <;> (simp only [State.anyInService, State.setChan, State.chan] at same ⊢; rw [same])

/-! CAPTURE -/

theorem heldFor_eq {α : Type} (slot : Option (Port × α)) (p : Port) : heldFor slot p = decide (slot.map (·.1) = some p) := by
  cases slot with
  | none => rfl
  | some x => simp [heldFor]

theorem withChannel_named {n : Nat} {ch : Channel} (h : Channel.ofNat? n = some ch) (k : Channel → Handler) (p : Port) (s : State) :
    withChannel n k p s = k ch p s := by simp [withChannel, h]

/-- The checks of CAPTURE (R18). -/
def State.captureChecks (s : State) (p : Port) (ch : Channel) (ticket grade : Option Nat) (w : Int) (named : Option Ticket) :
    List (Bool × Status) :=
  let c := s.chan ch
  [ (decide (p = .window) && ch.bridge?.isSome, .wrongPort),
    (grade.any (fun g => decide (g < 1 ∨ 64 < g)) || decide (w < 0 ∨ w % c.set.d ≠ 0 ∨ (c.set.K : Int) < w), .badParam),
    (decide (c.st ≠ .active), .wrongState),
    (c.capture.isSome || decide (c.slot.map (·.1) = some p.other), .unitBusy),
    (decide (c.slot.map (·.1) = some p), .outcomeUnread),
    ((match ch.bridge? with
      | some b => decide ((s.bridge b).pos ≠ .onDeck)
      | none => !c.occupied), .position),
    (ticket.isSome && named.isNone, .noTicket),
    (named.any (fun k => decide (k.st ≠ .opened ∧ k.st ≠ .weighing)), .ticketState),
    (named.any (fun k => decide (k.kind = .bridge) != ch.bridge?.isSome), .wrongChannel) ]

theorem State.captureRefusal_eq (s : State) (p : Port) (ch : Channel) (ticket grade : Option Nat) (tare : Option Int) :
    s.captureRefusal p ch ticket grade tare =
      firstFailing (s.captureChecks p ch ticket grade (tare.getD 0) (ticket.bind s.ticket?)) := by
  have place : (!s.inPlace ch) = (match ch.bridge? with
      | some b => decide ((s.bridge b).pos ≠ .onDeck)
      | none => !(s.chan ch).occupied) := by
    unfold State.inPlace
    cases ch.bridge? with
    | none => rfl
    | some b => exact (decide_not (p := (s.bridge b).pos = .onDeck)).symm
  have denied : deniedTo p ch = (decide (p = .window) && ch.bridge?.isSome) := by cases p <;> rfl
  have fits (a b c : Prop) [Decidable a] [Decidable b] [Decidable c] (g : Bool) :
      (g || decide (a ∨ b ∨ c)) = true ↔ g = true ∨ a ∨ b ∨ c := by simp
  have kinds (k : Ticket) : (k.kind == .bridge) = decide (k.kind = .bridge) := by cases k.kind <;> rfl
  unfold State.captureRefusal State.captureChecks
  simp only [firstFailing, kinds, denied, place, heldFor_eq, fits, Bool.or_eq_true, decide_eq_true_eq]
  cases ticket with
  | none => simp
  | some n =>
    cases hn : s.ticket? n with
    | none => simp [hn]
    | some k => simp [hn]

/-- A taken CAPTURE as the state it leaves. -/
theorem State.startCapture_eq (s : State) (p : Port) (ch : Channel) (ticket grade : Option Nat) (tare : Option Int) {after : State}
    (h : after = s.setChan ch
      { s.chan ch with
        capture := some (s.newCapture p (s.chan ch) ticket grade tare)
        serial := wrapping (s.chan ch).serial 0 65535
        block := { (s.chan ch).block with disqualified := true } }) :
    s.startCapture p ch ticket grade tare =
      (match ch.bridge? with
        | some b => after.setBridge b { s.bridge b with captured := false }
        | none => after) := by
  subst h
  unfold State.startCapture
  cases ch.bridge? with
  | none => rfl
  | some b => simp only [State.bridge_setChan]

/-- Settles O15. -/
theorem captureStartsOrIsRefused : Obligations.CaptureStartsOrIsRefused := by
  rintro s p n ch ticket grade tare c w named hr hch rfl rfl rfl
  have checks : (s.taken p).captureRefusal p ch ticket grade tare =
      firstFailing (s.captureChecks p ch ticket grade (tare.getD 0) (ticket.bind s.ticket?)) := by
    rw [State.captureRefusal_eq]
    simp only [State.captureChecks, State.chan_taken, State.bridge_taken, State.ticket?_taken]
  have rule : withChannel n (Weigh.capture ticket grade tare) p (s.taken p) =
      (s.taken p).checked (s.captureChecks p ch ticket grade (tare.getD 0) (ticket.bind s.ticket?))
        ((s.taken p).startCapture p ch ticket grade tare, ⟨.started, [.u8 ch.num, .u16 (s.chan ch).serial]⟩) := by
    rw [withChannel_named hch, Weigh.capture, checks, State.chan_taken]
    rfl
  split
  · rename_i code failed
    exact request_fails hr (by decide) (fun _ => by decide) rule failed
  · rename_i passed
    rintro after hafter
    have taken : (s.taken p).newCapture p (s.chan ch) ticket grade tare =
        { port := p, serial := (s.chan ch).serial, ticket := (ticket.bind s.ticket?).map fun k => ⟨k.number, k.opening⟩, grade := grade,
          tare := tare.getD 0, attempt := 1, attemptTimer := ⟨(s.chan ch).set.A * 1000, s.elapsed⟩, samples := [],
          startedAt := ⟨s.clu.now, s.clu.valid⟩ } := by
      have refs : Ticket.ref = fun k => ⟨k.number, k.opening⟩ := rfl
      cases ticket <;> simp [State.newCapture, State.captureTicket, refs]
    have started := (s.taken p).startCapture_eq p ch ticket grade tare (after := after) (by
      rw [State.chan_taken, taken]
      exact hafter)
    simp only [State.bridge_taken] at started
    have same : after.dsu = s.dsu ∧ after.anyInService = s.anyInService := by
      rw [hafter, State.setChan_dsu, State.taken_dsu]
      refine ⟨rfl, (State.anyInService_setChan _ _ _ ?_).trans (s.anyInService_taken p)⟩
      rw [State.chan_taken]
    have acts := request_passes hr (kind := 0x14) (by decide) (fun _ => by decide) rule passed (by
        rw [started]
        cases ch.bridge? <;> simp [same.1]) (by
        rw [started]
        cases ch.bridge? <;> simp [same.2])
    rw [started] at acts
    refine Eq.trans acts ?_
    cases ch.bridge? <;> rfl

/-! CHANNEL SET -/

/-- A capacity of 100 to 10,000 whole divisions, read as a quotient. -/
theorem divisions_of_capacity {d : Nat} (pos : 0 < d) (k : Nat) :
    (k % d = 0 ∧ 100 * d ≤ k ∧ k ≤ 10000 * d) ↔ k % d = 0 ∧ ¬k / d < 100 ∧ ¬10000 < k / d := by
  refine and_congr_right fun multiple => ?_
  have exact_ : d * (k / d) = k := Nat.mul_div_cancel' (Nat.dvd_of_mod_eq_zero multiple)
  rw [not_lt, not_lt, Nat.le_div_iff_mul_le pos]
  refine and_congr_right fun _ => ?_
  conv_lhs => rw [← exact_, mul_comm 10000]
  exact Nat.mul_le_mul_left_iff pos

theorem capacity_legal {d : Nat} (pos : 0 < d) (K : Int) :
    (K % (d : Int) = 0 ∧ 100 * (d : Int) ≤ K ∧ K ≤ 10000 * (d : Int) ∧ K ≤ 999990) ↔
      ¬K < 0 ∧ K.toNat % d = 0 ∧ ¬K.toNat / d < 100 ∧ ¬10000 < K.toNat / d ∧ ¬999990 < K.toNat := by
  by_cases sign : 0 ≤ K
  · obtain ⟨k, rfl⟩ := Int.eq_ofNat_of_zero_le sign
    have quotient := divisions_of_capacity pos k
    simp only [Int.toNat_natCast]
    norm_cast
    rw [← and_assoc (a := _ * d ≤ k), ← and_assoc, quotient]
    simp [and_assoc]
  · have low : ¬100 * (d : Int) ≤ K := by omega
    simp [low, not_le.mp sign]

theorem ChannelSettings.with?_eq (set : ChannelSettings) (x : ChannelParams) {inRange : Bool}
    (h : inRange = true ↔ 0 ≤ x.d ∧ x.d.toNat ∈ [1, 2, 5, 10, 20, 50, 100, 200, 500] ∧ x.K % x.d = 0 ∧ 100 * x.d ≤ x.K ∧
      x.K ≤ 10000 * x.d ∧ x.K ≤ 999990 ∧ 4 ≤ x.M ∧ x.M ≤ 32 ∧ 1 ≤ x.b ∧ x.b ≤ 4 ∧ x.T % 2 = 0 ∧ 10 ≤ x.T ∧ x.T ≤ 100 ∧
      1 ≤ x.Rf ∧ x.Rf ≤ 7) :
    set.with? x = if inRange then
      some
        { set with
          enabled := x.enabled, d := x.d.toNat, K := x.K.toNat, M := x.M, b := x.b, T := x.T, A := max 1 (min x.A 5), Rf := x.Rf,
          calCounter := if x.d.toNat ≠ set.d ∨ x.K.toNat ≠ set.K then min (set.calCounter + 1) 65535 else set.calCounter }
      else none := by
  have same : inRange = true ↔ ¬(x.d < 0 ∨ x.K < 0 ∨ x.d.toNat ∉ divisions ∨ x.K.toNat % x.d.toNat ≠ 0 ∨ x.K.toNat / x.d.toNat < 100 ∨
      10000 < x.K.toNat / x.d.toNat ∨ 999990 < x.K.toNat ∨ x.M < 4 ∨ 32 < x.M ∨ x.b < 1 ∨ 4 < x.b ∨ x.T % 2 ≠ 0 ∨ x.T < 10 ∨ 100 < x.T ∨
      x.Rf < 1 ∨ 7 < x.Rf) := by
    rw [h]
    simp only [not_or, not_not, ne_eq]
    by_cases sign : 0 ≤ x.d
    · obtain ⟨d, hd⟩ := Int.eq_ofNat_of_zero_le sign
      rw [hd, Int.toNat_natCast]
      by_cases division : d ∈ divisions
      · have pos := divisions_pos division
        have division' : d ∈ [1, 2, 5, 10, 20, 50, 100, 200, 500] := division
        have capacity := capacity_legal pos x.K
        simp only [division, division', true_and]
        constructor
        · rintro ⟨-, multiple, low, high, top, rest⟩
          obtain ⟨sign', multiple', low', high', top'⟩ := capacity.mp ⟨multiple, low, high, top⟩
          exact ⟨by omega, sign', multiple', low', high', top', by omega⟩
        · rintro ⟨-, sign', multiple', low', high', top', rest⟩
          obtain ⟨multiple, low, high, top⟩ := capacity.mpr ⟨sign', multiple', low', high', top'⟩
          exact ⟨by omega, multiple, low, high, top, by omega⟩
      · have division' : d ∉ [1, 2, 5, 10, 20, 50, 100, 200, 500] := division
        simp [division, division']
    · simp [sign, not_le.mp sign]
  have clamped : clamp x.A 1 5 = max 1 (min x.A 5) := by unfold clamp; split_ifs <;> omega
  unfold ChannelSettings.with?
  dsimp only
  rw [clamped]
  simp only [saturating_eq_min]
  by_cases ok : inRange = true
  · rw [if_neg (same.mp ok), if_pos ok]
  · rw [if_pos (not_not.mp fun hn => ok (same.mpr hn)), if_neg ok]

theorem State.dropTares_eq (s : State) (ch : Channel) :
    s.dropTares ch = { s with vtr := s.vtr.filter fun e => decide (e.channel.channel ≠ ch) } := by
  have keep (b : Bridge) (e : TareEntry) : (e.channel != b) = decide (e.channel.channel ≠ b.channel) := by
    cases e.channel <;> cases b <;> rfl
  unfold State.dropTares
  cases hb : ch.bridge? with
  | some b =>
    obtain rfl := Channel.eq_of_bridge? hb
    simp only [keep]
  | none =>
    have all (e : TareEntry) : decide (e.channel.channel ≠ ch) = true := by
      rw [decide_eq_true_iff]
      rintro rfl
      rw [Bridge.bridge?_channel] at hb
      cases hb
    simp [all]

/-- A stored CHANNEL SET, by whether it changes the calibration and whether it empties window and block. -/
theorem Weigh.channelSet_stored {s : State} {ch : Channel} {x : ChannelParams} {set : ChannelSettings} (st : (s.chan ch).st = .service)
    (kept : (s.chan ch).set.with? x = some set) (changed emptied : Bool)
    (changes : (set.d ≠ (s.chan ch).set.d ∨ set.K ≠ (s.chan ch).set.K) ↔ changed = true)
    (empties : (changed = true ∨ set.M ≠ (s.chan ch).set.M) ↔ emptied = true) {u : State}
    (hu : u = s.setChan ch
      { s.chan ch with
        set := set
        window := if emptied then [] else (s.chan ch).window
        stable := if emptied then false else (s.chan ch).stable
        block := if emptied then ⟨[], false⟩ else (s.chan ch).block }) (p : Port) :
    Weigh.channelSet x ch p s = done (if changed then u.dropTares ch else u) := by
  unfold Weigh.channelSet
  dsimp only
  split
  · exact absurd st ‹_›
  · split
    · rename_i refused
      rw [kept] at refused
      cases refused
    · rename_i set' stored
      rw [kept] at stored
      obtain rfl := Option.some.inj stored
      simp only [changes, empties]
      rw [hu]
      cases emptied <;> cases changed <;> rfl

/-- Settles O12. -/
theorem channelSetStoresSettings : Obligations.ChannelSetStoresSettings := by
  rintro s n ch x inRange c hr hch rfl range
  have rule : withChannel n (Weigh.channelSet x) .office (s.taken .office) = Weigh.channelSet x ch .office (s.taken .office) :=
    withChannel_named hch _ _ _
  have stored := (s.chan ch).set.with?_eq x range
  refine ⟨fun st => ?_, fun st out => ?_, fun st fits changed emptied hchanged hemptied => ?_⟩
  · refine request_refused (p := .office) hr (rule.trans ?_) (by decide) nofun
    simp [Weigh.channelSet, st]
  · refine request_refused (p := .office) hr (rule.trans ?_) (by decide) nofun
    simp [Weigh.channelSet, st, stored, out]
  · generalize hset : ({ (s.chan ch).set with
        enabled := x.enabled, d := x.d.toNat, K := x.K.toNat, M := x.M, b := x.b, T := x.T, A := max 1 (min x.A 5), Rf := x.Rf,
        calCounter := if changed then min ((s.chan ch).set.calCounter + 1) 65535 else (s.chan ch).set.calCounter } :
      ChannelSettings) = set at *
    have kept : (s.chan ch).set.with? x = some set := by
      rw [stored, if_pos fits, ← hset]
      by_cases new : x.d.toNat ≠ (s.chan ch).set.d ∨ x.K.toNat ≠ (s.chan ch).set.K
      · rw [if_pos new, if_pos (hchanged.mpr new)]
      · rw [if_neg new, if_neg fun h => new (hchanged.mp h)]
    obtain ⟨hd, hK, hM⟩ : set.d = x.d.toNat ∧ set.K = x.K.toNat ∧ set.M = x.M := by rw [← hset]; exact ⟨rfl, rfl, rfl⟩
    have changes : (set.d ≠ (s.chan ch).set.d ∨ set.K ≠ (s.chan ch).set.K) ↔ changed = true := by rw [hd, hK, hchanged]
    have empties : (changed = true ∨ set.M ≠ (s.chan ch).set.M) ↔ emptied = true := by rw [hemptied, hM]; simp
    have tares (u : State) (c : ChannelState) (v : List TareEntry) :
        ({ u.setChan ch c with vtr := v } : State) = ({ u with vtr := v } : State).setChan ch c := by cases ch <;> rfl
    refine request_acts s _ .office 0x11 _ .done [] hr (by decide) nofun (rule.trans ?_) (by simp) ?_
    · rw [Weigh.channelSet_stored (by rw [State.chan_taken]; exact st) (by rw [State.chan_taken]; exact kept) changed emptied
        (by rw [State.chan_taken]; exact changes) (by rw [State.chan_taken]; exact empties) rfl, State.chan_taken]
      cases changed with
      | true =>
        simp only [if_true, State.dropTares_eq, State.setChan_vtr, State.taken_vtr, tares]
        rw [← hset]
        rfl
      | false =>
        simp only [Bool.false_eq_true, if_false]
        rw [← hset]
        cases ch <;> rfl
    · refine (State.anyInService_setChan _ _ _ ?_).trans (s.anyInService_taken .office)
      have same : ({ s.taken .office with
          vtr := if changed then s.vtr.filter fun e => decide (e.channel.channel ≠ ch) else s.vtr } : State).chan ch = s.chan ch := by
        cases ch <;> rfl
      rw [same]

end Sys2Proof.Machine
end

