-- ==== Sys2Proof/Proofs/AlertSources.lean ====
section
/-! PROOFS. How alert sources latch, and a request that begins an alert condition. -/

namespace Sys2Proof.Machine

@[simp] theorem State.alerts_latchBoth (s : State) (f : EventFlag) : (s.latchBoth f).evu.alerts = s.evu.alerts := rfl

theorem Alerts.get_put (a : Alerts) (src o : AlertSource) (x : AlertState) : (a.put src x).get o = if o = src then x else a.get o := by
  cases src <;> cases o <;> rfl

theorem State.markAlert_new {s : State} {src : AlertSource} (h : (s.evu.alerts.get src).latch = none) :
    s.markAlert src = (s.setAlert src { s.evu.alerts.get src with latch := some s.stamp }).latchBoth .alert := by
  unfold State.markAlert
  simp only [h]

/-- A source marked is latched, with the stamp of that moment where it was not latched before; the others stay. -/
theorem State.alert_markAlert (s : State) (src o : AlertSource) :
    (s.markAlert src).evu.alerts.get o =
      if o = src ∧ (s.evu.alerts.get src).latch = none then { s.evu.alerts.get src with latch := some s.stamp } else s.evu.alerts.get o := by
  cases hl : (s.evu.alerts.get src).latch with
  | some x =>
    rw [State.markAlert_latched s src x hl]
    simp
  | none =>
    rw [State.markAlert_new hl, State.alerts_latchBoth, State.setAlert, Alerts.get_put]
    simp

theorem State.alertCondition_evu (s : State) (e : Evu) (src : AlertSource) :
    ({ s with evu := e } : State).alertCondition src = s.alertCondition src := by cases src <;> rfl

theorem State.alertCondition_beginAlert (s before : State) (src o : AlertSource) :
    (s.beginAlert before src).alertCondition o = s.alertCondition o := by
  obtain ⟨e, he⟩ := s.beginAlert_frame before src
  rw [he, State.alertCondition_evu]

theorem State.alertCondition_beginAlerts (s before : State) (o : AlertSource) :
    (s.beginAlerts before).alertCondition o = s.alertCondition o := by
  obtain ⟨e, he⟩ := s.beginAlerts_frame before
  rw [he, State.alertCondition_evu]

theorem State.beginAlert_congr {b c : State} (h : ∀ o, b.alertCondition o = c.alertCondition o) (s : State) (src : AlertSource) :
    s.beginAlert b src = s.beginAlert c src := by simp only [State.beginAlert, h]

theorem State.beginAlerts_congr {b c : State} (h : ∀ o, b.alertCondition o = c.alertCondition o) (s : State) :
    s.beginAlerts b = s.beginAlerts c := by simp only [State.beginAlerts, State.beginAlert_congr h]

/-- Nothing latches anew where every condition that holds held before or is latched. -/
theorem State.beginAlert_settled {s before : State} {src : AlertSource}
    (h : s.alertCondition src = true → before.alertCondition src = true ∨ (s.evu.alerts.get src).latch.isSome = true) :
    s.beginAlert before src = s := by
  unfold State.beginAlert
  split
  · rename_i begun
    obtain ⟨now, was⟩ := (Bool.and_eq_true ..).mp begun
    rcases h now with old | latched
    · simp [old] at was
    · obtain ⟨x, hx⟩ := Option.isSome_iff_exists.mp latched
      exact s.markAlert_latched src x hx
  · rfl

theorem State.beginAlerts_settled {s before : State}
    (h : ∀ src, s.alertCondition src = true → before.alertCondition src = true ∨ (s.evu.alerts.get src).latch.isSome = true) :
    s.beginAlerts before = s := by
  rw [State.beginAlerts, State.beginAlert_settled (h _), State.beginAlert_settled (h _), State.beginAlert_settled (h _)]

/-- A source stays latched while others begin. -/
theorem State.beginAlert_latched (s before : State) (src o : AlertSource) (h : (s.evu.alerts.get o).latch.isSome = true) :
    ((s.beginAlert before src).evu.alerts.get o).latch.isSome = true := by
  unfold State.beginAlert
  split
  · rw [State.alert_markAlert]
    split <;> simp_all
  · exact h

theorem State.beginAlert_latches {s before : State} {src : AlertSource} (now : s.alertCondition src = true)
    (was : before.alertCondition src = false) : ((s.beginAlert before src).evu.alerts.get src).latch.isSome = true := by
  have begun : (s.alertCondition src && !before.alertCondition src) = true := by simp [now, was]
  rw [State.beginAlert, if_pos begun, State.alert_markAlert]
  split
  · rfl
  · rename_i latched
    rw [Option.isSome_iff_ne_none]
    exact fun free => latched ⟨rfl, free⟩

/-- Every condition begun is latched. -/
theorem State.beginAlerts_latches {s before : State} {src : AlertSource} (now : s.alertCondition src = true)
    (was : before.alertCondition src = false) : ((s.beginAlerts before).evu.alerts.get src).latch.isSome = true := by
  unfold State.beginAlerts
  cases src with
  | cashDoor => exact State.beginAlert_latched _ _ _ _ (State.beginAlert_latched _ _ _ _ (State.beginAlert_latches now was))
  | cabinet =>
    refine State.beginAlert_latched _ _ _ _ (State.beginAlert_latches ?_ was)
    rw [State.alertCondition_beginAlert]
    exact now
  | calSwitch =>
    refine State.beginAlert_latches ?_ was
    rw [State.alertCondition_beginAlert, State.alertCondition_beginAlert]
    exact now
  | retract => cases now
  | dispute => cases now

/-- What an event began is latched once: concluding it again begins nothing. -/
theorem State.beginAlerts_again {s t before : State} (alerts : t.evu.alerts = (s.beginAlerts before).evu.alerts)
    (conditions : ∀ src, t.alertCondition src = s.alertCondition src) : t.beginAlerts before = t := by
  refine State.beginAlerts_settled fun src now => ?_
  cases was : before.alertCondition src with
  | true => exact .inl rfl
  | false =>
    rw [alerts]
    exact .inr (State.beginAlerts_latches (conditions src ▸ now) was)

/-- A request taken by a ready port has its handler's effect, the alerts it begins latch, and its answer starts. -/
theorem request_begins {s t : State} {p : Port} {kind : Nat} {h : Handler} {status : Status} {data : List Field} (hr : s.ready p)
    (hk : kind ∈ knownKinds) (hw : p = .window → kind ∈ windowKinds) (he : h p (s.taken p) = (t, ⟨status, data⟩)) :
    request (Port.sender p) kind h s = .next ((t.beginAlerts s).answered p kind status data) := by
  have before : t.beginAlerts (s.taken p) = t.beginAlerts s := State.beginAlerts_congr (s.alertCondition_taken p) t
  rw [request_taken s p kind h hr hk hw, he, before, State.conclude, State.beginAlerts_again (s := t)]
  · rfl
  · simp [State.answer]
  · intro src
    rw [State.alertCondition_answer, State.alertCondition_beginAlerts]

/-! CHANNEL SERVICE -/

theorem State.switchClosed_congr {s t : State} (h : t.dsu.lines = s.dsu.lines) : t.switchClosed = s.switchClosed := by
  simp only [State.switchClosed, State.served, h]

theorem State.lineCondition_congr {s t : State} (h : t.dsu.lines = s.dsu.lines) {src : AlertSource} (hs : src ≠ .calSwitch) :
    t.alertCondition src = s.alertCondition src := by
  cases src with
  | calSwitch => exact absurd rfl hs
  | cashDoor => simp only [State.alertCondition, State.cashDoorOpen, State.served, h]
  | cabinet => simp only [State.alertCondition, State.cabinetOpen, State.served, h]
  | retract => rfl
  | dispute => rfl

/-- Entering SERVICE begins no alert. -/
theorem State.beginAlerts_serving {s t : State} (lines : t.dsu.lines = s.dsu.lines) (service : t.anyInService = true) :
    t.beginAlerts s = t := by
  refine State.beginAlerts_settled fun src now => ?_
  by_cases hs : src = .calSwitch
  · subst hs
    simp [State.alertCondition, service] at now
  · exact .inl (State.lineCondition_congr lines hs ▸ now)

/-- Leaving SERVICE begins the CAL_SWITCH condition where the switch is closed and no other channel is in SERVICE. -/
theorem State.beginAlerts_leaving {s t : State} (lines : t.dsu.lines = s.dsu.lines) (service : s.anyInService = true) {begins : Bool}
    (hb : begins = (s.switchClosed && !t.anyInService && t.evu.alerts.calSwitch.latch.isNone)) :
    t.beginAlerts s =
      if begins then (t.setAlert .calSwitch ⟨some t.stamp, t.evu.alerts.calSwitch.enabled⟩).latchBoth .alert else t := by
  have line {src : AlertSource} (hs : src ≠ .calSwitch) : t.beginAlert s src = t :=
    State.beginAlert_settled fun now => .inl (by rw [← State.lineCondition_congr lines hs]; exact now)
  have was : s.alertCondition .calSwitch = false := by simp [State.alertCondition, service]
  have now : t.alertCondition .calSwitch = (s.switchClosed && !t.anyInService) := by
    simp only [State.alertCondition, State.switchClosed_congr lines]
  rw [State.beginAlerts, line (by decide), line (by decide), State.beginAlert, was, now, hb]
  cases hl : t.evu.alerts.calSwitch.latch with
  | none =>
    have new : t.markAlert .calSwitch = _ := State.markAlert_new (s := t) (src := .calSwitch) hl
    rw [new]
    simp [Alerts.get]
  | some x =>
    rw [State.markAlert_latched t .calSwitch x hl]
    simp

theorem State.anyInService_of {s : State} {ch : Channel} (h : (s.chan ch).st = .service) : s.anyInService = true := by
  cases ch <;> simp_all [State.anyInService, State.chan]

theorem State.anyInService_others {s t : State} {ch : Channel} (others : ∀ o, o ≠ ch → (t.chan o).st = (s.chan o).st)
    (left : (t.chan ch).st ≠ .service) :
    (!t.anyInService) = [Channel.c0, .c1, .c2, .c3].all fun o => decide (o = ch ∨ (s.chan o).st ≠ .service) := by
  have each (o : Channel) : decide (o = ch ∨ (s.chan o).st ≠ .service) = !((t.chan o).st == .service) := by
    by_cases mine : o = ch
    · subst mine
      simp [left]
    · rw [← others o mine]
      simp only [mine, false_or, ne_eq, decide_not]
      cases (t.chan o).st <;> rfl
  simp only [each, List.all_cons, List.all_nil, Bool.and_true, State.anyInService, Bool.not_or, Bool.and_assoc]
  rfl

theorem State.wakePlatform_keeps (s : State) (ch : Channel) :
    (s.wakePlatform ch).elapsed = s.elapsed ∧ (s.wakePlatform ch).dsu = s.dsu := by
  unfold State.wakePlatform
  split
  · split <;> exact ⟨rfl, rfl⟩
  · exact ⟨rfl, rfl⟩

theorem State.setOccupied_st (s : State) (ch : Channel) (occupied : Bool) : ((s.setOccupied ch occupied).chan ch).st = (s.chan ch).st := by
  cases hb : ch.bridge? with
  | none => rw [State.setOccupied_platform hb, State.chan_setChan]
  | some b =>
    obtain rfl := Channel.eq_of_bridge? hb
    rw [(s.setOccupied_effect b occupied).1, ChannelState.afterEnd_eq]
    split <;> rfl

/-- What a channel that has left SERVICE begins: CAL_SWITCH, where the switch is closed and no other channel is there. -/
theorem State.leaves_service {s left : State} {ch : Channel} (keeps : WeighingKeeps (s.taken .office) ch left)
    (was : (s.chan ch).st = .service) (now : (left.chan ch).st ≠ .service) {begins : Bool}
    (hb : begins = (s.switchClosed && ([Channel.c0, .c1, .c2, .c3].all fun o => decide (o = ch ∨ (s.chan o).st ≠ .service))
      && s.evu.alerts.calSwitch.latch.isNone)) :
    left.beginAlerts s =
      if begins then (left.setAlert .calSwitch ⟨some ⟨s.clu.now, s.clu.valid⟩, s.evu.alerts.calSwitch.enabled⟩).latchBoth .alert
      else left := by
  have lines : left.dsu.lines = s.dsu.lines := by rw [keeps.dsu]; simp
  have clock : left.stamp = ⟨s.clu.now, s.clu.valid⟩ := by
    have clu : left.clu = s.clu := by rw [keeps.blocks]; simp
    rw [State.stamp, clu]
  have alerts : left.evu.alerts = s.evu.alerts := by rw [keeps.alerts, State.taken_evu]
  have others := State.anyInService_others (s := s) (t := left) (ch := ch)
    (fun o ho => by rw [keeps.channels o ho, State.chan_taken]) now
  rw [State.beginAlerts_leaving (begins := begins) lines (State.anyInService_of was) (by rw [hb, ← others, ← alerts]), clock, alerts]

/-- Settles O13. -/
theorem channelServiceEntersAndLeaves : Obligations.ChannelServiceEntersAndLeaves := by
  rintro s n ch c timer begins hr hch rfl htimer hbegins
  have rule (enter : Bool) : withChannel n (Weigh.service enter) .office (s.taken .office) = Weigh.service enter ch .office (s.taken .office) :=
    withChannel_named hch _ _ _
  have running (u : State) (hu : u.elapsed = s.elapsed) : u.timer (signalTime ch) = timer := by
    rw [htimer, signalTime_eq, State.timer, hu]
  refine ⟨fun st => ?_, fun st busy => ?_, fun st idle slot => ?_, fun st => ?_, fun st enabled calibrated left hleft => ?_,
    fun st disabled left hleft => ?_⟩
  · refine request_refused (p := .office) hr ((rule true).trans ?_) (by decide) nofun
    simp [Weigh.service, st]
  · refine request_refused (p := .office) hr ((rule true).trans ?_) (by decide) nofun
    simp [Weigh.service, st, busy]
  · have entered : Weigh.service true ch .office (s.taken .office) = done ((s.taken .office).enterService ch) := by
      simp [Weigh.service, st, idle, slot]
    have served : (s.taken .office).enterService ch =
        (((s.taken .office).wakePlatform ch).setChan ch
          { s.chan ch with
            st := .service, signal := .good, window := [], stable := false, block := ⟨[], false⟩, goodCount := 0,
            signalTimer := some timer }).latchBoth (.channel ch) := by
      have time := running ((s.taken .office).wakePlatform ch) (by rw [((s.taken .office).wakePlatform_keeps ch).1, State.taken_elapsed])
      unfold State.enterService
      simp only [State.wakePlatform_chan, State.chan_taken, State.timed, time]
      rfl
    refine (request_begins hr (by decide) nofun ((rule true).trans entered)).trans ?_
    rw [State.beginAlerts_serving, served]
    · rw [served, State.latchBoth_dsu, State.setChan_dsu, ((s.taken .office).wakePlatform_keeps ch).2, State.taken_dsu]
    · exact State.anyInService_of (ch := ch) (by rw [served]; simp)
  · refine request_refused (p := .office) hr ((rule false).trans ?_) (by decide) nofun
    simp [Weigh.service, st]
  · have started : Weigh.service false ch .office (s.taken .office) = done ((s.taken .office).enterStarting ch) := by
      simp [Weigh.service, st, enabled, calibrated]
    have leaves : (s.taken .office).enterStarting ch = left := by
      unfold State.enterStarting
      simp only [State.chan_taken, State.timed, running (s.taken .office) (s.taken_elapsed .office)]
      exact hleft.symm
    have keeps : WeighingKeeps (s.taken .office) ch left := by
      rw [← leaves]
      exact .enter _ _ _ _ rfl rfl
    rw [leaves] at started
    refine (request_begins hr (by decide) nofun ((rule false).trans started)).trans ?_
    rw [State.leaves_service keeps st (by rw [hleft]; simp) hbegins]
  · have stopped : Weigh.service false ch .office (s.taken .office) = done ((s.taken .office).enterOff ch) := by
      simp [Weigh.service, st, disabled]
    have leaves : (s.taken .office).enterOff ch = left := by
      unfold State.enterOff
      simp only [State.chan_taken]
      exact hleft.symm
    have keeps : WeighingKeeps (s.taken .office) ch left := by
      rw [hleft]
      exact ((WeighingKeeps.setChan _ _ _ (by simp) (by simp)).trans (.latchBoth _ (.inl rfl))).trans (.setOccupied _ _ _)
    rw [leaves] at stopped
    refine (request_begins hr (by decide) nofun ((rule false).trans stopped)).trans ?_
    rw [State.leaves_service keeps st (by rw [hleft, State.setOccupied_st]; simp) hbegins]

end Sys2Proof.Machine
end

