-- ==== Sys2Proof/Proofs/ChannelRequests.lean ====
section
/-! PROOFS. Zero, calibration, the abort of a capture and the fetch of outcomes: O14, O17. -/

namespace Sys2Proof.Machine

theorem WeighingKeeps.lines {s t : State} {ch : Channel} (h : WeighingKeeps s ch t) : t.dsu.lines = s.dsu.lines := by rw [h.dsu]

theorem WeighingKeeps.anyInService {s t : State} {ch : Channel} (h : WeighingKeeps s ch t)
    (service : (t.chan ch).st = (s.chan ch).st) : t.anyInService = s.anyInService := by
  have same (o : Channel) : (t.chan o).st = (s.chan o).st := by
    by_cases mine : o = ch
    · rw [mine, service]
    · rw [h.channels o mine]
  have h0 := same .c0
  have h1 := same .c1
  have h2 := same .c2
  have h3 := same .c3
  simp only [State.chan] at h0 h1 h2 h3
  simp only [State.anyInService, h0, h1, h2, h3]

/-! ZERO and the calibrations -/

/-- A channel given a new record with its mark of ZERO_DRIFT cleared. -/
theorem State.setDrift_setChan (s : State) (ch : Channel) (c : ChannelState) :
    (s.setChan ch c).setDrift ch false =
      if c.drift then (s.setChan ch { c with drift := false }).latchBoth (.channel ch) else s.setChan ch c := by
  simp only [State.setDrift, State.chan_setChan, State.setChan_setChan]
  cases hd : c.drift <;> simp

theorem State.cleared_drift_keeps (s : State) (ch : Channel) (c : ChannelState) (st : c.st = (s.chan ch).st) :
    (if c.drift then (s.setChan ch { c with drift := false }).latchBoth (.channel ch) else s.setChan ch c).dsu.lines = s.dsu.lines ∧
      (if c.drift then (s.setChan ch { c with drift := false }).latchBoth (.channel ch) else s.setChan ch c).anyInService =
        s.anyInService := by
  split
  · refine ⟨by simp, ?_⟩
    exact (State.anyInService_setChan s ch { c with drift := false } (by rw [← st]))
  · exact ⟨by simp, State.anyInService_setChan s ch c (by rw [← st])⟩

theorem zeroBound_not (set : ChannelSettings) (mean : Int) :
    (!zeroBound set mean) = decide (set.K * 65536 < (mean - set.zCal).natAbs * set.G * 50) := by
  simp only [zeroBound, ← decide_not, not_le]

theorem State.calLocked_eq {s : State} {ch : Channel} {locked : Bool} (h : locked = true ↔ (s.chan ch).st ≠ .service ∨ s.switchClosed = false) :
    s.calLocked ch = locked := by
  rw [Bool.eq_iff_iff, h]
  simp [State.calLocked]

theorem ChannelState.calibratable_eq {c : ChannelState} {unfit : Bool} (h : unfit = true ↔ c.signal ≠ .good ∨ c.stable = false) :
    (!c.calibratable) = unfit := by
  rw [Bool.eq_iff_iff, h]
  cases hs : c.signal <;> simp [ChannelState.calibratable, hs]

theorem spanGain?_eq (set : ChannelSettings) (sum weight : Int) {den g : Int} (hden : den = sum - set.M * set.zCal)
    (hg : g = roundHalfUp (weight * 65536 * set.M) den.toNat) :
    spanGain? set sum weight = if den ≤ 0 ∨ g < 1 ∨ 16777215 < g then none else some g.toNat := by
  subst hg
  unfold spanGain?
  rw [← hden]
  dsimp only
  by_cases low : den ≤ 0
  · simp [low]
  · simp [low]

/-- Settles O14. -/
theorem zeroAndCalibrationRequests : Obligations.ZeroAndCalibrationRequests := by
  refine ⟨?_, ?_⟩
  · rintro s n ch c mean hr hch rfl rfl
    have rule : withChannel n Weigh.zero .office (s.taken .office) =
        (s.taken .office).checked
          [ (decide ((s.chan ch).st ≠ .active), .wrongState), ((s.chan ch).capture.isSome, .unitBusy), (!(s.chan ch).stable, .notStable),
            (decide ((s.chan ch).set.K * 65536 <
              (roundAway (rawSum (s.chan ch).window) (s.chan ch).window.length - (s.chan ch).set.zCal).natAbs * (s.chan ch).set.G * 50),
              .zeroRange) ]
          (((s.taken .office).setChan ch
              { s.chan ch with
                z := roundAway (rawSum (s.chan ch).window) (s.chan ch).window.length, block := emptyBlock }).setDrift ch false,
            ⟨.done, .i32 (roundAway (rawSum (s.chan ch).window) (s.chan ch).window.length) ::
              ({ s.chan ch with z := roundAway (rawSum (s.chan ch).window) (s.chan ch).window.length } : ChannelState).relive.fields⟩) := by
      rw [withChannel_named hch, Weigh.zero, State.chan_taken]
      simp only [afterChecks_cons, afterChecks_nil, ← zeroBound_not, decide_eq_true_eq]
      rfl
    split
    · rename_i code failed
      exact request_fails (p := .office) hr (by decide) nofun rule failed
    · rename_i passed
      have keeps := (s.taken .office).cleared_drift_keeps ch
        { s.chan ch with z := roundAway (rawSum (s.chan ch).window) (s.chan ch).window.length, block := emptyBlock } (by simp)
      rw [State.setDrift_setChan] at rule
      exact request_passes (p := .office) hr (by decide) nofun rule passed (keeps.1.trans (by simp)) (keeps.2.trans (by simp))
  · rintro s n ch c mean g weight den locked unfit hr hch rfl rfl hden hg hlocked hunfit
    have lock : (s.taken .office).calLocked ch = locked := State.calLocked_eq (by
      rw [State.chan_taken, State.switchClosed_congr (s := s) (by simp)]
      exact hlocked)
    have fit : (!(s.chan ch).calibratable) = unfit := ChannelState.calibratable_eq hunfit
    have counted : (s.chan ch).set.counted = { (s.chan ch).set with calCounter := min ((s.chan ch).set.calCounter + 1) 65535 } := by
      rw [ChannelSettings.counted, saturating_eq_min]
    constructor
    · have rule : withChannel n Weigh.calibrateZero .office (s.taken .office) =
          (s.taken .office).checked [(locked, .calLocked), (unfit, .notStable)]
            (((s.taken .office).setChan ch
                { s.chan ch with
                  z := roundAway (rawSum (s.chan ch).window) (s.chan ch).window.length
                  set :=
                    { (s.chan ch).set with
                      zCal := roundAway (rawSum (s.chan ch).window) (s.chan ch).window.length
                      calCounter := min ((s.chan ch).set.calCounter + 1) 65535 }
                  block := emptyBlock }).setDrift ch false,
              ⟨.done, [.i32 (roundAway (rawSum (s.chan ch).window) (s.chan ch).window.length)]⟩) := by
        rw [withChannel_named hch, Weigh.calibrateZero, State.chan_taken]
        simp only [afterChecks_cons, afterChecks_nil, lock, fit, counted]
        rfl
      split
      · rename_i code failed
        exact request_fails (p := .office) hr (by decide) nofun rule failed
      · rename_i passed
        have keeps := (s.taken .office).cleared_drift_keeps ch
          { s.chan ch with
            z := roundAway (rawSum (s.chan ch).window) (s.chan ch).window.length
            set :=
              { (s.chan ch).set with
                zCal := roundAway (rawSum (s.chan ch).window) (s.chan ch).window.length
                calCounter := min ((s.chan ch).set.calCounter + 1) 65535 }
            block := emptyBlock } (by simp)
        rw [State.setDrift_setChan] at rule
        exact request_passes (p := .office) hr (by decide) nofun rule passed (keeps.1.trans (by simp)) (keeps.2.trans (by simp))
    · have rule : withChannel n (Weigh.calibrateSpan weight) .office (s.taken .office) =
          (s.taken .office).checked
            [ (locked, .calLocked),
              (decide (weight % (s.chan ch).set.d ≠ 0 ∨ weight < 50 * (s.chan ch).set.d ∨ ((s.chan ch).set.K : Int) < weight), .badParam),
              (unfit, .notStable), (decide (den ≤ 0 ∨ g < 1 ∨ 16777215 < g), .spanRange) ]
            ((s.taken .office).setChan ch
                { s.chan ch with
                  set :=
                    { (s.chan ch).set with
                      G := g.toNat, calibrated := true, calCounter := min ((s.chan ch).set.calCounter + 1) 65535 } },
              ⟨.done, .u32 g.toNat :: ({ s.chan ch with
                  set :=
                    { (s.chan ch).set with
                      G := g.toNat, calibrated := true, calCounter := min ((s.chan ch).set.calCounter + 1) 65535 } } :
                    ChannelState).relive.fields⟩) := by
        rw [withChannel_named hch, Weigh.calibrateSpan, State.chan_taken]
        simp only [afterChecks_cons, afterChecks_nil, lock, fit, counted, spanGain?_eq _ _ _ hden hg, decide_eq_true_eq]
        split
        · rfl
        · split
          · rfl
          · split
            · rfl
            · by_cases out : den ≤ 0 ∨ g < 1 ∨ 16777215 < g
              · simp only [if_pos out]
              · simp only [if_neg out]
                rfl
      split
      · rename_i code failed
        exact request_fails (p := .office) hr (by decide) nofun rule failed
      · rename_i passed
        rintro c' rfl
        exact request_passes (p := .office) hr (by decide) nofun rule passed (by simp)
          ((State.anyInService_setChan _ _ _ (by simp)).trans (by simp))

/-! The abort of a capture, its attempts, and outcomes -/

/-- A port that may use a channel is not denied it (R207). -/
theorem deniedTo_eq {p : Port} {ch : Channel} (may : p = .window → ch.bridge? = none) : deniedTo p ch = false := by
  cases p with
  | office => rfl
  | window => simp [deniedTo, may rfl]

theorem Weigh.fetch_channel {n : Nat} {ch : Channel} (h : Channel.ofNat? n = some ch) (p : Port) (s : State) :
    Weigh.fetch n p s = Weigh.outcomeFetch ch p s := by
  have other : n ≠ 4 := by
    rintro rfl
    cases h
  rw [Weigh.fetch, if_neg other, withChannel_named h]

/-- Settles O17. -/
theorem captureAbortAttemptsAndOutcomes : Obligations.CaptureAbortAttemptsAndOutcomes := by
  refine ⟨⟨fun s p n ch hr hch may => ⟨fun mine => ?_, fun other => ?_⟩, fun s n ch b hr hch hb => ?_,
    fun s ch k power hk => ⟨fun more => ?_, fun last => ?_⟩⟩,
    fun s p hr => ⟨fun n ch hch may => ⟨fun o held idle => ?_, fun none_ => ?_⟩, fun o held idle => ?_, fun none_ => ?_, fun n high => ?_,
      fun n low hp => ?_⟩⟩
  · have rule : withChannel n Weigh.abort p (s.taken p) = ((s.taken p).endCapture ch .aborted none none, ⟨.done, []⟩) := by
      obtain ⟨k, hk, port⟩ := Option.map_eq_some_iff.mp mine
      simp [withChannel_named hch, Weigh.abort, deniedTo_eq may, hk, port, done]
    have keeps := WeighingKeeps.endCapture (s.taken p) ch .aborted none none
    refine request_acts s _ p 0x15 _ .done [] hr (by decide) (fun _ => by decide) rule (keeps.lines.trans (by simp)) ?_
    refine (keeps.anyInService ?_).trans (s.anyInService_taken p)
    rw [State.chan_endCapture, ChannelState.afterEnd_eq]
  · refine request_refused hr ?_ (by decide) fun _ => by decide
    rw [withChannel_named hch]
    cases hk : (s.chan ch).capture with
    | none => simp [Weigh.abort, deniedTo_eq may, hk]
    | some k =>
      have port : k.port ≠ p := by simpa [hk] using other
      simp [Weigh.abort, deniedTo_eq may, hk, port]
  · refine request_refused (p := .window) hr ?_ (by decide) fun _ => by decide
    simp [withChannel_named hch, Weigh.abort, deniedTo, hb]
  · have keeps := WeighingKeeps.setChan s ch
      { s.chan ch with
        capture := some { k with attempt := k.attempt + 1, attemptTimer := ⟨(s.chan ch).set.A * 1000, s.elapsed⟩ } } rfl rfl
    refine run_settles power _ ?_ keeps.lines (keeps.anyInService (by simp))
    simp only [Weigh.attemptTimeout, hk, more, if_true, State.timer]
  · have keeps := WeighingKeeps.endCapture s ch .unstable none none
    refine run_settles power _ ?_ keeps.lines (keeps.anyInService ?_)
    · simp only [Weigh.attemptTimeout, hk, not_lt.mpr last, if_false]
    · rw [State.chan_endCapture, ChannelState.afterEnd_eq]
  · have number : ch.num = n := by
      match n, hch with
      | 0, h => cases h; rfl
      | 1, h => cases h; rfl
      | 2, h => cases h; rfl
      | 3, h => cases h; rfl
    refine request_acts s _ p 0x16 _ .done _ hr (by decide) (fun _ => by decide) ?_ (by simp)
      ((State.anyInService_setChan _ _ _ (by simp)).trans (s.anyInService_taken p))
    rw [Weigh.fetch_channel hch]
    simp [Weigh.outcomeFetch, deniedTo_eq may, held, idle, done, number]
  · refine request_refused hr ?_ (by decide) fun _ => by decide
    rw [Weigh.fetch_channel hch]
    cases hs : (s.chan ch).slot with
    | none => simp [Weigh.outcomeFetch, deniedTo_eq may, hs]
    | some x =>
      have denied : x.1 ≠ p ∨ (s.chan ch).capture.isSome = true := by simpa [hs] using none_
      simp [Weigh.outcomeFetch, deniedTo_eq may, hs, denied]
  · refine request_acts s _ p 0x16 _ .done _ hr (by decide) (fun _ => by decide) ?_ (by simp) (s.anyInService_taken p)
    simp [Weigh.fetch, Cash.outcomeFetch, held, idle, done]
  · refine request_refused hr ?_ (by decide) fun _ => by decide
    cases hs : s.pyu.slot with
    | none => simp [Weigh.fetch, Cash.outcomeFetch, hs]
    | some x =>
      have denied : x.1 ≠ p ∨ s.pyu.payout.isSome = true := by simpa [hs] using none_
      simp [Weigh.fetch, Cash.outcomeFetch, hs, denied]
  · refine request_refused hr ?_ (by decide) fun _ => by decide
    rw [Weigh.fetch, if_neg (by omega)]
    exact withChannel_missing (by omega) _ _ _
  · obtain ⟨ch, hch, b, hb⟩ : ∃ ch, Channel.ofNat? n = some ch ∧ ∃ b, ch.bridge? = some b := by
      match n, low with
      | 0, _ => exact ⟨.c0, rfl, .b0, rfl⟩
      | 1, _ => exact ⟨.c1, rfl, .b1, rfl⟩
    subst hp
    refine request_refused (p := .window) hr ?_ (by decide) fun _ => by decide
    rw [Weigh.fetch_channel hch]
    simp [Weigh.outcomeFetch, deniedTo, hb]

end Sys2Proof.Machine
end

