-- ==== Sys2Proof/Proofs/Roundings.lean ====
section
/-! PROOFS. The roundings: O23. Alert requests: O53. -/

namespace Sys2Proof.Machine

/-- The quotient nearest to m / d, a tie upward, on natural numbers. -/
theorem two_mul_quotient {d : Nat} (pos : 0 < d) (m : Nat) :
    2 * ((2 * m + d) / (2 * d) * d) ≤ 2 * m + d ∧ 2 * m < 2 * ((2 * m + d) / (2 * d) * d) + d := by
  have low : (2 * m + d) / (2 * d) * (2 * d) ≤ 2 * m + d := Nat.div_mul_le_self _ _
  have high : 2 * m + d < (2 * m + d) / (2 * d) * (2 * d) + 2 * d := Nat.lt_div_mul_add (by omega)
  constructor <;> linarith

theorem roundAway_nearest (n : Int) {d : Nat} (pos : 0 < d) :
    2 * (n - roundAway n d * d).natAbs ≤ d ∧
      (2 * (n - roundAway n d * d).natAbs = d → n.natAbs < (roundAway n d).natAbs * d) := by
  obtain ⟨low, high⟩ := two_mul_quotient pos n.natAbs
  generalize hq : (2 * n.natAbs + d) / (2 * d) = q at low high
  have value : roundAway n d = if n < 0 then -(q : Int) else q := by rw [roundAway, hq]
  have product : ((q * d : Nat) : Int) = (q : Int) * d := by push_cast; rfl
  have size : (roundAway n d).natAbs * d = q * d := by rw [value]; split <;> simp
  rw [size]
  generalize q * d = m at low high product ⊢
  rw [value]
  split
  · rw [neg_mul, ← product]
    omega
  · rw [← product]
    omega

/-- Settles O23. -/
theorem roundingsAreNearest : Obligations.RoundingsAreNearest := by
  refine ⟨fun n d pos => roundAway_nearest n pos, fun n d pos => ?_, fun n u pos => ?_, fun n u pos => ?_, fun n d pos => ?_⟩
  · have even : (0 : Int) < 2 * d := by omega
    have low := Int.ediv_mul_le (2 * n + d) even.ne'
    have high := Int.lt_ediv_add_one_mul_self (2 * n + d) even
    unfold roundHalfUp
    constructor <;> linarith
  · exact ⟨nearestMultiple_mod n u, lt_two_mul_nearestMultiple pos, two_mul_nearestMultiple_le⟩
  · refine ⟨Nat.mul_mod_left _ _, Nat.div_mul_le_self _ _, Nat.lt_div_mul_add pos⟩
  · have size : (truncate n d * d).natAbs = n.natAbs / d * d := by
      rw [Int.natAbs_mul, truncate, Int.natAbs_tdiv, Int.natAbs_natCast]
      rfl
    rw [size]
    refine ⟨Nat.div_mul_le_self _ _, Nat.lt_div_mul_add pos, ?_⟩
    have divisor : (0 : Int) ≤ d := Int.natCast_nonneg d
    rcases le_total 0 n with sign | sign
    · exact mul_nonneg (Int.tdiv_nonneg sign divisor) sign
    · have opposite := Int.tdiv_nonneg (Int.neg_nonneg.mpr sign) divisor
      rw [Int.neg_tdiv, Int.neg_nonneg] at opposite
      exact mul_nonneg_of_nonpos_of_nonpos opposite sign

/-- Settles O53. -/
theorem alertRequests : Obligations.AlertRequests := by
  refine fun s hr => ⟨fun on m => ?_, ?_, fun all m a some_ ha => ?_⟩
  · exact request_acts s _ .office 0x71 _ .done [] hr (by decide) nofun (by rw [Alert.set, State.taken_evu]; rfl) (by simp)
      (s.anyInService_taken .office)
  · exact request_refused (p := .office) hr rfl (by decide) nofun
  · have named : (!all && AlertMarks.none? m) = false := by
      cases all with
      | true => rfl
      | false =>
        simp only [Bool.false_or] at some_
        simp only [AlertMarks.none?, some_]
        rfl
    have cleared : (s.taken .office).clearedAlerts all m = a := by
      rw [ha]
      simp only [State.clearedAlerts, State.clearedAlert, AlertMarks.has, Alerts.get, State.alertCondition_taken, State.taken_evu]
      simp [State.alertCondition]
    refine request_acts s _ .office 0x72 _ .done _ hr (by decide) nofun ?_ (by simp) (s.anyInService_taken .office)
    rw [Alert.clear, named, cleared, State.taken_evu]
    rfl

end Sys2Proof.Machine
end

