-- ==== Sys2Proof/Proofs/Plans.lean ====
section
/-! PROOFS. The dispense plan: O44. -/

namespace Sys2Proof.Machine

/-! The order of the sources -/

theorem PlanSource.before_iff (x y : PlanSource) :
    x.before y = true ↔ y.denomination < x.denomination ∨ (x.denomination = y.denomination ∧
      ((x.kind = .note ∧ y.kind = .coin) ∨ (x.kind = y.kind ∧ (y.count < x.count ∨ (x.count = y.count ∧ x.index < y.index))))) := by
  unfold PlanSource.before
  by_cases value : x.denomination = y.denomination
  · by_cases kind : x.kind = y.kind
    · by_cases count : x.count = y.count <;> cases hy : y.kind <;> simp [value, kind, count, hy]
    · cases hx : x.kind <;> cases hy : y.kind <;> simp_all
  · simp [value]

theorem PlanSource.before_total {x y : PlanSource} (other : x.index ≠ y.index) (h : ¬x.before y = true) : y.before x = true := by
  rw [PlanSource.before_iff] at h ⊢
  cases hx : x.kind <;> cases hy : y.kind <;> simp_all <;> omega

theorem PlanSource.before_trans {x y z : PlanSource} (h : x.before y = true) (g : y.before z = true) : x.before z = true := by
  rw [PlanSource.before_iff] at h g ⊢
  cases hx : x.kind <;> cases hy : y.kind <;> cases hz : z.kind <;> simp_all <;> omega

theorem PlanSource.before_asymm {x y : PlanSource} (h : x.before y = true) : ¬y.before x = true := by
  rw [PlanSource.before_iff] at h ⊢
  cases hx : x.kind <;> cases hy : y.kind <;> simp_all <;> omega

theorem PlanSource.insert_perm (x : PlanSource) (l : List PlanSource) : (x.insert l).Perm (x :: l) := by
  induction l with
  | nil => exact .refl _
  | cons y rest ih =>
    unfold PlanSource.insert
    split
    · exact .refl _
    · exact (ih.cons y).trans (.swap x y rest)

theorem PlanSource.insert_sorted {x : PlanSource} {l : List PlanSource} (new : ∀ y ∈ l, x.index ≠ y.index)
    (sorted : l.Pairwise fun a b => a.before b = true) : (x.insert l).Pairwise fun a b => a.before b = true := by
  induction l with
  | nil => exact List.pairwise_singleton _ _
  | cons y rest ih =>
    obtain ⟨first, others⟩ := List.pairwise_cons.mp sorted
    unfold PlanSource.insert
    split
    · rename_i lower
      refine List.pairwise_cons.mpr ⟨fun z hz => ?_, sorted⟩
      rcases List.mem_cons.mp hz with rfl | hz
      · exact lower
      · exact PlanSource.before_trans lower (first z hz)
    · rename_i higher
      refine List.pairwise_cons.mpr ⟨fun z hz => ?_, ih (fun z hz => new z (List.mem_cons_of_mem _ hz)) others⟩
      rcases List.mem_cons.mp ((x.insert_perm rest).mem_iff.mp hz) with rfl | hz
      · exact PlanSource.before_total (new y (List.mem_cons_self ..)) higher
      · exact first z hz

theorem sources_sorted (l : List PlanSource) (distinct : (l.map (·.index)).Nodup) :
    (l.foldr PlanSource.insert []).Pairwise (fun a b => a.before b = true) ∧ (l.foldr PlanSource.insert []).Perm l := by
  induction l with
  | nil => exact ⟨.nil, .refl _⟩
  | cons x rest ih =>
    obtain ⟨new, distinct⟩ := List.nodup_cons.mp distinct
    obtain ⟨sorted, perm⟩ := ih distinct
    refine ⟨PlanSource.insert_sorted (fun y hy same => ?_) sorted, (x.insert_perm _).trans (perm.cons x)⟩
    exact new (List.mem_map.mpr ⟨y, perm.mem_iff.mp hy, same.symm⟩)

/-! The sources of a plan -/

/-- A source tells what its store holds. -/
def PlanSource.tells (x : PlanSource) (stores : List Store) : Prop :=
  ∃ y, stores[x.index]? = some y ∧ y.st = .enabled ∧ y.kind = some x.kind ∧ y.denomination = some x.denomination ∧ y.count = x.count

theorem Store.source?_eq_some {y : Store} {i : Nat} {x : PlanSource} (h : y.source? i = some x) :
    x.index = i ∧ y.st = .enabled ∧ y.kind = some x.kind ∧ y.denomination = some x.denomination ∧ y.count = x.count := by
  unfold Store.source? at h
  split at h
  · rename_i k d st kind value
    cases h
    exact ⟨rfl, st, kind, value, rfl⟩
  · cases h

theorem planSources_raw (stores : List Store) :
    (((stores.zipIdx.filterMap fun x => x.1.source? x.2).map (·.index)).Nodup) ∧
      (∀ x ∈ stores.zipIdx.filterMap (fun x => x.1.source? x.2), x.tells stores) ∧
      ∀ i y k v, stores[i]? = some y → y.st = .enabled → y.kind = some k → y.denomination = some v →
        ⟨i, k, v, y.count⟩ ∈ stores.zipIdx.filterMap (fun x => x.1.source? x.2) := by
  refine ⟨?_, fun x hx => ?_, fun i y k v hi st kind value => ?_⟩
  · have indices : (stores.zipIdx.filterMap fun x => x.1.source? x.2).map (·.index) =
        (stores.zipIdx.filter fun x => (x.1.source? x.2).isSome).map (·.2) := by
      induction stores.zipIdx with
      | nil => rfl
      | cons x rest ih =>
        cases hx : x.1.source? x.2 with
        | none => simp [hx, ih]
        | some z => simp [hx, ih, (Store.source?_eq_some hx).1]
    rw [indices]
    refine List.Nodup.sublist (List.filter_sublist.map _) ?_
    rw [List.zipIdx_map_snd]
    exact List.nodup_range'
  · obtain ⟨⟨y, i⟩, hy, hx⟩ := List.mem_filterMap.mp hx
    obtain ⟨index, st, kind, value, count⟩ := Store.source?_eq_some hx
    refine ⟨y, ?_, st, kind, value, count⟩
    rw [index]
    exact List.mk_mem_zipIdx_iff_getElem?.mp hy
  · refine List.mem_filterMap.mpr ⟨(y, i), List.mk_mem_zipIdx_iff_getElem?.mpr hi, ?_⟩
    simp [Store.source?, st, kind, value]

/-- The sources a plan draws on: in the order of the rule, no store twice, each telling its store, and every usable store among them. -/
theorem planSources_facts (stores : List Store) :
    (planSources stores).Pairwise (fun a b => a.before b = true) ∧ ((planSources stores).map (·.index)).Nodup ∧
      (∀ x ∈ planSources stores, x.tells stores) ∧
      ∀ i y k v, stores[i]? = some y → y.st = .enabled → y.kind = some k → y.denomination = some v →
        ⟨i, k, v, y.count⟩ ∈ planSources stores := by
  obtain ⟨distinct, tell, all⟩ := planSources_raw stores
  obtain ⟨sorted, perm⟩ := sources_sorted _ distinct
  refine ⟨sorted, (perm.map _).nodup_iff.mpr distinct, fun x hx => tell x (perm.mem_iff.mp hx),
    fun i y k v hi st kind value => perm.mem_iff.mpr (all i y k v hi st kind value)⟩

theorem drawnBefore_eq {stores : List Store} {a b : PlanSource} {x y : Store} (hx : stores[a.index]? = some x)
    (hy : stores[b.index]? = some y) (ta : a.tells stores) (tb : b.tells stores) : drawnBefore a.index x b.index y = a.before b := by
  obtain ⟨x', hx', -, xk, xd, xc⟩ := ta
  obtain ⟨y', hy', -, yk, yd, yc⟩ := tb
  rw [hx] at hx'
  rw [hy] at hy'
  obtain rfl := Option.some.inj hx'
  obtain rfl := Option.some.inj hy'
  rw [Bool.eq_iff_iff, PlanSource.before_iff]
  simp [drawnBefore, xk, xd, xc, yk, yd, yc]

/-! Sums over the steps of a plan -/

/-- What plan steps take off a target. -/
def stepsWorth (stores : List Store) (steps : List (Nat × Nat)) : Nat :=
  (steps.map fun x => x.2 * ((stores[x.1]?.bind (·.denomination)).getD 0)).sum

/-- The pieces of one kind among plan steps. -/
def stepsOfKind (stores : List Store) (k : StoreKind) (steps : List (Nat × Nat)) : Nat :=
  ((steps.filter fun x => decide ((stores[x.1]?.bind (·.kind)) = some k)).map (·.2)).sum

/-- The pieces of one store among plan steps. -/
def stepsOfStore (i : Nat) (steps : List (Nat × Nat)) : Nat := ((steps.filter fun a => a.1 == i).map (·.2)).sum

/-- The steps of a plan up to and including those of one store. -/
def stepsUpTo (stores : List Store) (i : Nat) (x : Store) (steps : List (Nat × Nat)) : List (Nat × Nat) :=
  steps.filter fun a => a.1 == i || stores[a.1]?.any fun y => drawnBefore a.1 y i x

theorem stepsWorth_append (stores : List Store) (a b : List (Nat × Nat)) :
    stepsWorth stores (a ++ b) = stepsWorth stores a + stepsWorth stores b := by
  simp [stepsWorth]

theorem stepsOfKind_append (stores : List Store) (k : StoreKind) (a b : List (Nat × Nat)) :
    stepsOfKind stores k (a ++ b) = stepsOfKind stores k a + stepsOfKind stores k b := by
  simp [stepsOfKind]

theorem stepsOfStore_append (i : Nat) (a b : List (Nat × Nat)) :
    stepsOfStore i (a ++ b) = stepsOfStore i a + stepsOfStore i b := by
  simp [stepsOfStore]

theorem stepsUpTo_append (stores : List Store) (i : Nat) (x : Store) (a b : List (Nat × Nat)) :
    stepsUpTo stores i x (a ++ b) = stepsUpTo stores i x a ++ stepsUpTo stores i x b := by
  simp [stepsUpTo]

theorem stepsOfStore_eq_zero {i : Nat} {steps : List (Nat × Nat)} (h : i ∉ steps.map (·.1)) : stepsOfStore i steps = 0 := by
  have none : (steps.filter fun a => a.1 == i) = [] :=
    List.filter_eq_nil_iff.mpr fun a ha same => h (List.mem_map.mpr ⟨a, ha, by simpa using same⟩)
  simp [stepsOfStore, none]

/-! One draw -/

/-- The step a draw of `n` pieces adds: none for no piece. -/
def PlanSource.step (x : PlanSource) (n : Nat) : List (Nat × Nat) := if n = 0 then [] else [(x.index, n)]

/-- What one draw does: it takes `n` pieces within rest, count and allowance, and no further piece would fit all three. -/
theorem Plan.draw_facts (p : Plan) (x : PlanSource) : ∃ n, n * x.denomination ≤ p.rest ∧ n ≤ x.count ∧ n ≤ p.allowance x.kind ∧
    (p.draw x).rest = p.rest - n * x.denomination ∧ (p.draw x).steps = p.steps ++ x.step n ∧
    (∀ k, (p.draw x).allowance k = if x.kind = k then p.allowance k - n else p.allowance k) ∧
    (0 < x.denomination → n = x.count ∨ p.rest < n * x.denomination + x.denomination ∨ n = p.allowance x.kind) := by
  let n := min (min (p.rest / x.denomination) x.count) (p.allowance x.kind)
  have fits : n ≤ p.rest / x.denomination := (Nat.min_le_left _ _).trans (Nat.min_le_left _ _)
  have greedy : 0 < x.denomination → n = x.count ∨ p.rest < n * x.denomination + x.denomination ∨ n = p.allowance x.kind := by
    intro pos
    have which : n = p.rest / x.denomination ∨ n = x.count ∨ n = p.allowance x.kind := by omega
    rcases which with h | h | h
    · refine .inr (.inl ?_)
      rw [h, Nat.mul_comm]
      exact Nat.lt_mul_div_succ p.rest pos
    · exact .inl h
    · exact .inr (.inr h)
  refine ⟨n, ?_, (Nat.min_le_left _ _).trans (Nat.min_le_right _ _), Nat.min_le_right _ _, ?_⟩
  · exact (Nat.mul_le_mul_right _ fits).trans (Nat.div_mul_le_self _ _)
  · by_cases none : n = 0
    · have same : p.draw x = p := if_pos none
      refine ⟨by simp [same, none], by simp [same, none, PlanSource.step], fun k => ?_, greedy⟩
      simp [same, none]
    · have drawn : p.draw x = { rest := p.rest - n * x.denomination
                                notes := if x.kind = .note then p.notes - n else p.notes
                                coins := if x.kind = .coin then p.coins - n else p.coins
                                steps := p.steps ++ [(x.index, n)] } := if_neg none
      refine ⟨by rw [drawn], by rw [drawn, PlanSource.step, if_neg none], fun k => ?_, greedy⟩
      rw [drawn]
      cases k <;> rfl

/-! The whole plan -/

/-- What a plan made from the sources `l` keeps: its sums, its order, its bounds, and that each source was drawn on greedily. -/
structure PlanMade (stores : List Store) (target : Nat) (allowed : StoreKind → Nat) (l : List PlanSource) (p : Plan) : Prop where
  worth : p.rest + stepsWorth stores p.steps = target
  order : (p.steps.map (·.1)).Sublist (l.map (·.index))
  bounds : ∀ a ∈ p.steps, 0 < a.2 ∧ ∃ x ∈ l, x.index = a.1 ∧ a.2 ≤ x.count
  kinds : ∀ k, stepsOfKind stores k p.steps + p.allowance k = allowed k
  greedy : ∀ x ∈ l, ∀ y, stores[x.index]? = some y → 0 < x.denomination →
    stepsOfStore x.index p.steps = x.count ∨ target < stepsWorth stores (stepsUpTo stores x.index y p.steps) + x.denomination ∨
      stepsOfKind stores x.kind (stepsUpTo stores x.index y p.steps) = allowed x.kind

theorem stepsWorth_step {stores : List Store} {x : PlanSource} (tells : x.tells stores) (n : Nat) :
    stepsWorth stores (x.step n) = n * x.denomination := by
  obtain ⟨y, at_, -, -, value, -⟩ := tells
  unfold PlanSource.step
  split
  · rename_i none
    simp [stepsWorth, none]
  · simp [stepsWorth, at_, value]

theorem stepsOfKind_step {stores : List Store} {x : PlanSource} (tells : x.tells stores) (k : StoreKind) (n : Nat) :
    stepsOfKind stores k (x.step n) = if x.kind = k then n else 0 := by
  obtain ⟨y, at_, -, kind, -, -⟩ := tells
  unfold PlanSource.step
  by_cases same : x.kind = k <;> by_cases none : n = 0 <;> simp [stepsOfKind, at_, kind, same, none]

theorem stepsOfStore_step (x : PlanSource) (i n : Nat) : stepsOfStore i (x.step n) = if x.index = i then n else 0 := by
  unfold PlanSource.step
  by_cases same : x.index = i <;> by_cases none : n = 0 <;> simp [stepsOfStore, same, none]

theorem PlanSource.mem_step {x : PlanSource} {n : Nat} {a : Nat × Nat} (h : a ∈ x.step n) : a = (x.index, n) ∧ 0 < n := by
  unfold PlanSource.step at h
  split at h
  · cases h
  · exact ⟨List.mem_singleton.mp h, by omega⟩

/-- A source drawn on later is not among the steps up to an earlier one. -/
theorem stepsUpTo_later {stores : List Store} {x z : PlanSource} {y : Store} (at_ : stores[x.index]? = some y) (tx : x.tells stores)
    (tz : z.tells stores) (before : x.before z = true) (other : x.index ≠ z.index) (n : Nat) :
    stepsUpTo stores x.index y (z.step n) = [] := by
  refine List.filter_eq_nil_iff.mpr fun a ha => ?_
  obtain ⟨rfl, -⟩ := PlanSource.mem_step ha
  have ⟨w, hw, _⟩ := tz
  have later : drawnBefore z.index w x.index y = false := by
    rw [drawnBefore_eq hw at_ tz tx]
    exact Bool.eq_false_iff.mpr (PlanSource.before_asymm before)
  simp [hw, later, Ne.symm other]

/-- Every step taken from sources before the last one is among the steps up to the last one. -/
theorem stepsUpTo_last {stores : List Store} {z : PlanSource} {y : Store} {steps : List (Nat × Nat)}
    (at_ : stores[z.index]? = some y) (tz : z.tells stores)
    (from_ : ∀ a ∈ steps, a.1 = z.index ∨ ∃ x : PlanSource, x.index = a.1 ∧ x.tells stores ∧ x.before z = true) :
    stepsUpTo stores z.index y steps = steps := by
  refine List.filter_eq_self.mpr fun a ha => ?_
  rcases from_ a ha with same | ⟨x, index, tx, before⟩
  · simp [same]
  · have ⟨w, hw, _⟩ := tx
    have earlier : drawnBefore x.index w z.index y = true := (drawnBefore_eq hw at_ tx tz).trans before
    rw [← index, hw]
    simp [earlier]

theorem PlanMade.draw {stores : List Store} {target : Nat} {allowed : StoreKind → Nat} {l : List PlanSource} {p : Plan} {z : PlanSource}
    (made : PlanMade stores target allowed l p) (tells : ∀ x ∈ l ++ [z], x.tells stores)
    (sorted : (l ++ [z]).Pairwise fun a b => a.before b = true) (distinct : ((l ++ [z]).map (·.index)).Nodup) :
    PlanMade stores target allowed (l ++ [z]) (p.draw z) := by
  obtain ⟨n, worth, count, allowance, rest, steps, allowances, full⟩ := p.draw_facts z
  have tz := tells z (by simp)
  have before : ∀ x ∈ l, x.before z = true := fun x hx => (List.pairwise_append.mp sorted).2.2 x hx z (by simp)
  have other : ∀ x ∈ l, x.index ≠ z.index := fun x hx same => by
    rw [List.map_append] at distinct
    exact List.disjoint_of_nodup_append distinct (List.mem_map.mpr ⟨x, hx, rfl⟩) (by simp [same])
  have untouched : z.index ∉ p.steps.map (·.1) := fun h => by
    obtain ⟨x, hx, same⟩ := List.mem_map.mp (made.order.subset h)
    exact other x hx same
  have hw := made.worth
  have kindSum : ∀ k, stepsOfKind stores k (p.draw z).steps + (p.draw z).allowance k = allowed k := fun k => by
    have hk := made.kinds k
    rw [steps, stepsOfKind_append, stepsOfKind_step tz, allowances]
    split
    · rename_i same
      subst same
      omega
    · omega
  have worthSum : (p.draw z).rest + stepsWorth stores (p.draw z).steps = target := by
    rw [steps, stepsWorth_append, stepsWorth_step tz, rest]
    omega
  refine ⟨worthSum, ?_, fun a ha => ?_, kindSum, fun x hx y at_ pos => ?_⟩
  · rw [steps, List.map_append, List.map_append]
    refine made.order.append ?_
    unfold PlanSource.step
    split <;> simp
  · rw [steps] at ha
    rcases List.mem_append.mp ha with ha | ha
    · obtain ⟨pos, x, hx, facts⟩ := made.bounds a ha
      exact ⟨pos, x, List.mem_append_left _ hx, facts⟩
    · obtain ⟨rfl, pos⟩ := PlanSource.mem_step ha
      exact ⟨pos, z, by simp, rfl, count⟩
  · rcases List.mem_append.mp hx with hx | hx
    · have same : stepsUpTo stores x.index y (p.draw z).steps = stepsUpTo stores x.index y p.steps := by
        rw [steps, stepsUpTo_append, stepsUpTo_later at_ (tells x (by simp [hx])) tz (before x hx) (other x hx), List.append_nil]
      rw [same, steps, stepsOfStore_append, stepsOfStore_step, if_neg (other x hx).symm]
      exact made.greedy x hx y at_ pos
    · obtain rfl := List.mem_singleton.mp hx
      have all : stepsUpTo stores x.index y (p.draw x).steps = (p.draw x).steps := by
        refine stepsUpTo_last at_ tz fun a ha => ?_
        rw [steps] at ha
        rcases List.mem_append.mp ha with ha | ha
        · obtain ⟨-, w, hw, index, -⟩ := made.bounds a ha
          exact .inr ⟨w, index, tells w (by simp [hw]), before w hw⟩
        · exact .inl (by rw [(PlanSource.mem_step ha).1])
      rw [all]
      rcases full pos with h | h | h
      · refine .inl ?_
        rw [steps, stepsOfStore_append, stepsOfStore_eq_zero untouched, stepsOfStore_step, if_pos rfl, h, Nat.zero_add]
      · exact .inr (.inl (by omega))
      · refine .inr (.inr ?_)
        have left := allowances x.kind
        have sum := kindSum x.kind
        rw [if_pos rfl] at left
        omega

theorem foldl_draw_made (stores : List Store) (target notes coins : Nat) (l : List PlanSource) (tells : ∀ x ∈ l, x.tells stores)
    (sorted : l.Pairwise fun a b => a.before b = true) (distinct : (l.map (·.index)).Nodup) :
    PlanMade stores target (Plan.allowance ⟨target, notes, coins, []⟩) l (l.foldl Plan.draw ⟨target, notes, coins, []⟩) := by
  induction l using List.reverseRecOn with
  | nil =>
    exact ⟨rfl, .slnil, fun a ha => absurd ha List.not_mem_nil, fun k => Nat.zero_add _, fun x hx => absurd hx List.not_mem_nil⟩
  | append_singleton l z ih =>
    rw [List.foldl_append]
    rw [List.map_append] at distinct
    have made := ih (fun x hx => tells x (List.mem_append_left _ hx)) (List.pairwise_append.mp sorted).1 distinct.of_append_left
    exact made.draw tells sorted (by rwa [List.map_append])

theorem makePlan_made (stores : List Store) (target notes coins : Nat) :
    PlanMade stores target (Plan.allowance ⟨target, notes, coins, []⟩) (planSources stores) (makePlan stores target notes coins) := by
  obtain ⟨sorted, distinct, tells, -⟩ := planSources_facts stores
  exact foldl_draw_made stores target notes coins _ tells sorted distinct

/-- The steps of a plan stand in the order of the rule. -/
theorem PlanMade.drawn_in_order {stores : List Store} {target : Nat} {allowed : StoreKind → Nat} {l : List PlanSource} {p : Plan}
    (made : PlanMade stores target allowed l p) (tells : ∀ x ∈ l, x.tells stores) (sorted : l.Pairwise fun a b => a.before b = true) :
    p.steps.Pairwise fun a b => (match stores[a.1]?, stores[b.1]? with
      | some x, some y => drawnBefore a.1 x b.1 y
      | _, _ => false) = true := by
  have indices : (p.steps.map (·.1)).Pairwise fun i j => (match stores[i]?, stores[j]? with
      | some x, some y => drawnBefore i x j y
      | _, _ => false) = true := by
    refine List.Pairwise.sublist made.order (List.pairwise_map.mpr ?_)
    refine sorted.imp_of_mem fun {a b} ha hb before => ?_
    have ⟨x, hx, _⟩ := tells a ha
    have ⟨y, hy, _⟩ := tells b hb
    have drawn := (drawnBefore_eq hx hy (tells a ha) (tells b hb)).trans before
    simp only [hx, hy]
    exact drawn
  exact List.pairwise_map.mp indices

/-- Settles O44: the plan is the sources' fold in the order of the rule; each draw keeps the sums and is greedy. -/
theorem plansStayWithinBounds : Obligations.PlansStayWithinBounds := by
  rintro stores target notes coins _ - rfl
  obtain ⟨sorted, distinct, tells, all⟩ := planSources_facts stores
  have made := makePlan_made stores target notes coins
  have worth := made.worth
  refine ⟨by omega, ?_, distinct.sublist made.order, fun a ha => ?_, made.kinds .note, made.kinds .coin,
    made.drawn_in_order tells sorted, ?_⟩
  · change _ = stepsWorth stores _
    omega
  · obtain ⟨pos, x, hx, index, le⟩ := made.bounds a ha
    obtain ⟨y, at_, st, -, -, count⟩ := tells x hx
    exact ⟨pos, y, index ▸ at_, st, count ▸ le⟩
  · rintro i x k v _ at_ st kind value pos rfl
    have greedy := made.greedy _ (all i x k v at_ st kind value) x at_ pos
    cases k <;> exact greedy

end Sys2Proof.Machine
end

