-- ==== Sys2Proof/Proofs/GroupRequests.lean ====
section
/-! PROOFS. The changes of a record, the release of holds, and the requests that may be sent to the group: O27, O29, O30, O31, O33. -/

namespace Sys2Proof.Machine

theorem clamp_eq (n lo hi : Nat) (h : lo ≤ hi) : clamp n lo hi = max lo (min n hi) := by
  unfold clamp
  split_ifs <;> omega

/-! One event on one record -/

theorem Ticket.revised_counts (t u : Ticket) :
    t.revised u = if u = t then t else { u with revision := if t.revision < 255 then t.revision + 1 else 0 } := rfl

theorem State.spent_changeTicket {s : State} {n : Nat} {t : Ticket} (h : s.ticket? n = some t) (f : Ticket → Ticket) :
    (s.changeTicket n f).tkt.spent =
      if (t.revised (f t)).isSpent = true ∧ t.isSpent = false then s.tkt.spent ++ [n] else s.tkt.spent := by
  simp [State.changeTicket, h]

/-- Settles O33. -/
theorem revisionCountsChanges : Obligations.RevisionCountsChanges := by
  rintro s n f t _ - held number rfl
  have kept : (f t).number = t.number := number.trans (s.ticket?_number n t held).symm
  have length : (s.changeTicket n f).tkt.tickets.length = s.tkt.tickets.length := by simp [State.changeTicket, held]
  obtain ⟨k, frame⟩ := s.changeTicket_frame n f
  refine ⟨s.ticket?_changeTicket n f t held kept, fun m other => s.ticket?_changeTicket_of_ne n m f other ?_, length,
    State.spent_changeTicket held f, by rw [frame], s.changeTicket_counters n f⟩
  intro u hu
  rw [held] at hu
  exact Option.some.inj hu ▸ kept

/-! The release of holds -/

theorem daysBefore_eq_sum (y m : Nat) : daysBefore y m = ((List.range (m - 1)).map fun k => monthLength y (k + 1)).sum := by
  induction m with
  | zero => rfl
  | succ m ih =>
    cases m with
    | zero => rfl
    | succ m =>
      rw [daysBefore_succ y (Nat.le_add_left 1 m), ih]
      simp [List.range_succ]

theorem monthLength_eq (y m : Nat) :
    monthLength y m = if m = 2 then (if y % 4 = 0 then 29 else 28) else if m ∈ [4, 6, 9, 11] then 30 else 31 := by
  simp [monthLength, isLeap]

theorem Date.number_eq (d : Date) : d.number = 365 * (d.year - 2000) + (d.year - 2000 + 3) / 4 + (d.day - 1)
    + ((List.range (d.month - 1)).map fun m =>
        if m + 1 = 2 then (if d.year % 4 = 0 then 29 else 28) else if m + 1 ∈ [4, 6, 9, 11] then 30 else 31).sum := by
  simp only [Date.number, daysBefore_eq_sum, monthLength_eq]
  omega

theorem Ticket.due_eq (t : Ticket) (d : Date) :
    t.due d = (t.st == .held && (t.settlement.bind (·.holdUntil)).any fun h => decide (h.number ≤ d.number)) := by
  unfold Ticket.due
  cases t.settlement with
  | none => rfl
  | some b => cases hb : b.holdUntil <;> simp [hb]

/-- A due ticket leaves HELD, which is a change of its record. -/
theorem Ticket.release_eq (t : Ticket) (d : Date) : t.release d =
    if t.due d then { t with st := .settled, revision := if t.revision < 255 then t.revision + 1 else 0 } else t := by
  unfold Ticket.release
  split
  · rename_i due
    have held : t.st = .held := by
      rw [Ticket.due_eq] at due
      simp only [Bool.and_eq_true, beq_iff_eq] at due
      exact due.1
    have changed : ({ t with st := .settled } : Ticket) ≠ t := fun same => by
      have := congrArg Ticket.st same
      rw [held] at this
      cases this
    rw [Ticket.revised_counts, if_neg changed]
  · rfl

theorem State.dueCount_eq_zero (s : State) (d : Date) : s.dueCount d = 0 ↔ s.tkt.tickets.any (·.due d) = false := by
  simp [State.dueCount, List.filter_eq_nil_iff, List.any_eq_false]

/-- A release check, by whether any ticket is due. -/
theorem State.releaseCheck_eq (s : State) (d : Date) : s.releaseCheck d =
    if s.tkt.tickets.any (·.due d) then
      ({ s with
        tkt :=
          { s.tkt with
            tickets := s.tkt.tickets.map fun t =>
              if t.due d then { t with st := .settled, revision := if t.revision < 255 then t.revision + 1 else 0 } else t } } :
        State).latchBoth .holdRelease
    else s := by
  have released : s.tkt.tickets.map (fun t => t.release d) = s.tkt.tickets.map fun t =>
      if t.due d then { t with st := .settled, revision := if t.revision < 255 then t.revision + 1 else 0 } else t :=
    List.map_congr_left fun t _ => t.release_eq d
  unfold State.releaseCheck
  simp only [State.dueCount_eq_zero]
  cases any : s.tkt.tickets.any (·.due d) with
  | true => simp [released]
  | false =>
    have same : s.tkt.tickets.map (fun t => t.release d) = s.tkt.tickets := by
      refine (List.map_congr_left fun t ht => ?_).trans (List.map_id _)
      have : t.due d = false := by simpa using List.any_eq_false.mp any t ht
      simp [Ticket.release, this]
    simp [same]

/-- Settles O31. -/
theorem releaseCheckReleasesDue : Obligations.ReleaseCheckReleasesDue := by
  rintro number length rfl rfl
  have counts (d : Date) : d.number = 365 * (d.year - 2000) + (d.year - 2000 + 3) / 4 + (d.day - 1)
      + ((List.range (d.month - 1)).map fun m =>
          if m + 1 = 2 then (if d.year % 4 = 0 then 29 else 28) else if m + 1 ∈ [4, 6, 9, 11] then 30 else 31).sum := d.number_eq
  refine ⟨fun d later n y1 y2 m1 m2 d1 d2 hl => ?_, fun s d due hdue => ?_⟩
  · subst hl
    have legal : d.legal = true := (Date.legal_iff d).mpr ⟨y1, y2, m1, m2, d1, by rw [monthLength_eq]; exact d2⟩
    obtain ⟨a, b, c, e, f, g⟩ := (Date.legal_iff _).mp (Date.addDays_legal legal n)
    rw [monthLength_eq] at g
    have days := Date.addDays_number legal n
    rw [counts, counts d, show lastDate.number = _ from counts lastDate] at days
    exact ⟨days, a, b, c, e, f, g⟩
  · have same : due = fun t => t.due d := by
      rw [hdue]
      funext t
      simp only [Ticket.due_eq, counts]
    rw [State.releaseCheck_eq, same]

/-! Requests that may be sent to the group -/

section Group

variable {s t : State} {kind : Nat} {h : Handler} {data : List Field} {code : Status}

theorem groupKinds_known (hk : kind ∈ groupKinds) : kind ∈ knownKinds := by
  have all : ∀ k ∈ groupKinds, k ∈ knownKinds := by decide
  exact all kind hk

/-- A request taken, addressed and from the group. -/
theorem request_taken_both (hr : s.ready .office) (hk : kind ∈ groupKinds) (he : h .office (s.taken .office) = (t, ⟨.done, data⟩))
    (lines : t.dsu.lines = s.dsu.lines) (service : t.anyInService = s.anyInService) :
    request .office kind h s = .next (t.answered .office kind .done data) ∧ request .group kind h s = .next t.settle := by
  refine ⟨request_acts s t .office kind h .done data hr (groupKinds_known hk) nofun he lines service, ?_⟩
  rw [request_group s kind h hr hk (by rw [he]; rfl) (by rw [he]; exact State.sameConditions_of _ _ lines service), he]

/-- A request refused: answered when addressed, and dropped and counted from the group (R208). -/
theorem request_refused_both (hr : s.ready .office) (hk : kind ∈ groupKinds)
    (he : h .office (s.taken .office) = refuse (s.taken .office) code) (refuses : code.refuses = true) :
    request .office kind h s = .next ((s.taken .office).answered .office kind code []) ∧
      request .group kind h s = .next s.groupCounted.settle := by
  refine ⟨request_refused (p := .office) hr he (groupKinds_known hk) nofun, ?_⟩
  have dropped : s.takeFrame .group kind h = s.groupCounted := by
    have refused : (h .office (s.taken .office)).2.status.refuses = true := by rw [he]; exact refuses
    have counted : (s.taken .office).dispatchGroup kind h = s.groupCounted := by
      simp only [State.dispatchGroup, not_not.mpr hk, refused, if_true, if_false]
      simp [State.dropGroup, State.taken, State.groupCounted, Counters.addGroupDropped, saturating_eq_min, State.setPort, State.port]
    obtain ⟨-, online, idle⟩ := hr
    have idle' : s.office.answer = none := idle
    rw [← counted]
    simp [State.takeFrame, Sender.port, online, State.port, idle', State.taken]
  exact run_settles hr.1 _ dropped (by simp [State.groupCounted]) (by simp [State.groupCounted])

end Group

/-! The calendar -/

theorem State.anyInService_releaseCheck (s : State) (d : Date) : (s.releaseCheck d).anyInService = s.anyInService := by
  obtain ⟨k, e, h⟩ := s.releaseCheck_frame d
  rw [h]
  rfl

theorem State.dsu_releaseCheck (s : State) (d : Date) : (s.releaseCheck d).dsu = s.dsu := by
  obtain ⟨k, e, h⟩ := s.releaseCheck_frame d
  rw [h]

theorem DateTime.opens_iff (v : DateTime) (hour : Nat) : v.opens hour = true ↔ v.hour = hour ∧ v.minute = 0 ∧ v.second = 0 := by
  simp [DateTime.opens, and_assoc]

theorem State.clockStopped_iff (s : State) : s.clockStopped = true ↔ s.clu.now = lastSecond := by simp [State.clockStopped]

/-- A tick of a powered part runs the advance and judges what it left. -/
theorem execClockTick_eq {s : State} (power : s.powered = true) : exec .clockTick s = .next (s.conclude s.advance) := by
  simp [exec, execClockTick, State.tick, power]

theorem State.advance_conclude (s : State) : s.conclude s.advance = s.advance.settle := by
  have kept : s.advance.dsu.lines = s.dsu.lines ∧ s.advance.anyInService = s.anyInService := by
    unfold State.advance
    dsimp only
    repeat' split
    all_goals first | exact ⟨rfl, rfl⟩ | (rw [State.dsu_releaseCheck, State.anyInService_releaseCheck]; exact ⟨rfl, rfl⟩)
  rw [State.conclude, State.beginAlerts_of_same _ _ (State.sameConditions_of _ _ kept.1 kept.2)]

theorem State.advance_stopped {s : State} (last : s.clu.now = lastSecond) : s.advance = { s with elapsed := s.elapsed + 1 } := by
  have still : lastSecond.next = lastSecond := by decide
  have second : s.second = { s with elapsed := s.elapsed + 1 } := by
    have : ({ s.clu with now := s.clu.now.next } : Clu) = s.clu := by rw [last, still, ← last]
    rw [State.second, this]
  rw [State.advance, if_pos ((s.clockStopped_iff).mpr last), second]

theorem State.advance_running {s : State} {t u : State} {v : DateTime} (last : s.clu.now ≠ lastSecond) (hv : v = s.clu.now.next)
    (ht : t = { s with clu := { s.clu with now := v }, elapsed := s.elapsed + 1 })
    (hu : u = (if v = lastSecond then t.latchBoth .clock else t)) :
    s.advance = if v.hour = s.clu.releaseHour ∧ v.minute = 0 ∧ v.second = 0 then u.releaseCheck v.date else u := by
  have second : s.second = t := by rw [ht, hv]; rfl
  have now : t.clu.now = v := by rw [ht]
  have hour : t.clu.releaseHour = s.clu.releaseHour := by rw [ht]
  unfold State.advance
  dsimp only
  rw [second, if_neg (by rw [State.clockStopped_iff]; exact last)]
  simp only [State.clockStopped_iff, now, DateTime.opens_iff]
  subst hu
  split <;> simp only [State.latchBoth_clu, now, hour]

theorem DateTime.legal_iff_ranges (v : DateTime) : v.legal = true ↔
    2000 ≤ v.year ∧ v.year ≤ 2099 ∧ 1 ≤ v.month ∧ v.month ≤ 12 ∧ 1 ≤ v.day ∧ v.day ≤ monthLength v.year v.month ∧ v.hour ≤ 23 ∧
      v.minute ≤ 59 ∧ v.second ≤ 59 := by
  rw [DateTime.legal_iff, Date.legal_iff]
  simp only [DateTime.date, and_assoc]

/-- Settles O30. -/
theorem clockRequestsAndSeconds : Obligations.ClockRequestsAndSeconds := by
  refine ⟨fun s hr => ⟨?_, fun hour => ?_⟩, fun s power last => ?_, fun s v t power last hv ht => ⟨fun u hu => ?_, ?_, ?_, fun legal => ?_⟩⟩
  · rintro year month day hour minute second v t hv rfl
    subst hv
    have ranges := DateTime.legal_iff_ranges ⟨year, month, day, hour, minute, second⟩
    split
    · rename_i fits
      refine request_taken_both hr (by decide) ?_ ?_ ?_
      · simp only [Calendar.set, ranges.mpr fits, Bool.not_true, Bool.false_eq_true, if_false, done, State.taken_clu, State.stamp,
          State.dueCount, State.taken_tkt]
        rfl
      · simp [State.dsu_releaseCheck]
      · rw [State.anyInService_releaseCheck]
        exact s.anyInService_taken .office
    · rename_i unfit
      refine request_refused_both hr (by decide) ?_ rfl
      have illegal : DateTime.legal ⟨year, month, day, hour, minute, second⟩ = false :=
        Bool.eq_false_iff.mpr fun h => unfit (ranges.mp h)
      simp [Calendar.set, illegal]
  · split
    · rename_i fits
      refine request_acts s _ .office 0x6A _ .done _ hr (by decide) nofun ?_ (by simp) (s.anyInService_taken .office)
      simp [Calendar.releaseHourSet, not_lt.mpr fits, done]
    · rename_i unfit
      refine request_refused (p := .office) hr ?_ (by decide) nofun
      simp [Calendar.releaseHourSet, not_le.mp unfit]
  · have stopped : s.clockStopped = true := (s.clockStopped_iff).mpr last
    refine ⟨?_, ?_, ?_⟩
    · rw [execClockTick_eq power, State.advance_conclude, State.advance_stopped last]
    · simp [exec, execClockStop, stopped]
    · simp [exec, execDailyRelease, stopped]
  · rw [execClockTick_eq power, State.advance_conclude, State.advance_running last hv ht hu]
    split <;> rfl
  · have running : s.clockStopped = false := Bool.eq_false_iff.mpr fun h => last (s.clockStopped_iff.mp h)
    have next : s.second.clockStopped = true ↔ v = lastSecond := by rw [State.clockStopped_iff, hv]; rfl
    simp only [exec, execClockStop, execClockTick, running, Bool.not_false, Bool.true_and, next]
    split <;> rfl
  · have running : s.clockStopped = false := Bool.eq_false_iff.mpr fun h => last (s.clockStopped_iff.mp h)
    have next : s.second.clu.now.opens s.clu.releaseHour = true ↔ v.hour = s.clu.releaseHour ∧ v.minute = 0 ∧ v.second = 0 := by
      rw [DateTime.opens_iff, hv]
      rfl
    simp only [exec, execDailyRelease, execClockTick, running, Bool.not_false, Bool.true_and, next]
    split <;> rfl
  · rw [hv]
    exact ⟨DateTime.next_number legal last, DateTime.next_legal legal⟩

/-! Grades, prices, limits and header -/

theorem codesDistinct_iff (pairs : List (Nat × Nat)) : codesDistinct pairs = true ↔ (pairs.map (·.1)).Nodup := by
  induction pairs with
  | nil => simp [codesDistinct]
  | cons x rest ih =>
    simp only [codesDistinct, Bool.and_eq_true, ih, List.map_cons, List.nodup_cons, List.all_eq_true, bne_iff_ne, List.mem_map]
    exact and_congr_left fun _ => ⟨fun h ⟨y, hy, same⟩ => h y hy same, fun h y hy same => h ⟨y, hy, same⟩⟩

theorem setPrices_getElem? (pairs : List (Nat × Nat)) (grades : List Grade) (first : ∀ x ∈ pairs, 1 ≤ x.1)
    (distinct : (pairs.map (·.1)).Nodup) (i : Nat) :
    (setPrices grades pairs)[i]? = grades[i]?.map fun g => match pairs.find? (fun x => x.1 - 1 == i) with
      | some x => { g with price := x.2 }
      | none => g := by
  induction pairs generalizing grades with
  | nil => simp [setPrices]
  | cons x rest ih =>
    obtain ⟨new, distinct⟩ := List.nodup_cons.mp distinct
    have step : setPrices grades (x :: rest) = setPrices (grades.modify (x.1 - 1) fun g => { g with price := x.2 }) rest := rfl
    rw [step, ih _ (fun y hy => first y (List.mem_cons_of_mem _ hy)) distinct, List.getElem?_modify, List.find?_cons]
    have pos := first x (List.mem_cons_self ..)
    by_cases here : x.1 - 1 = i
    · have none_ : rest.find? (fun y => y.1 - 1 == i) = none := List.find?_eq_none.mpr fun y hy same => by
        have other := first y (List.mem_cons_of_mem _ hy)
        simp only [beq_iff_eq] at same
        exact new (List.mem_map.mpr ⟨y, hy, show y.1 = x.1 by omega⟩)
      rw [none_, beq_iff_eq.mpr here]
      simp only [here, if_true]
      cases grades[i]? <;> rfl
    · rw [beq_eq_false_iff_ne.mpr here]
      simp only [here, if_false]
      cases grades[i]? <;> rfl

theorem setPrices_eq (pairs : List (Nat × Nat)) (grades : List Grade) (first : ∀ x ∈ pairs, 1 ≤ x.1)
    (distinct : (pairs.map (·.1)).Nodup) :
    setPrices grades pairs = grades.zipIdx.map fun g => match pairs.find? (fun x => x.1 - 1 == g.2) with
      | some x => { g.1 with price := x.2 }
      | none => g.1 := by
  refine List.ext_getElem? fun i => ?_
  rw [setPrices_getElem? pairs grades first distinct i, List.getElem?_map, List.getElem?_zipIdx, Nat.zero_add]
  cases grades[i]? with
  | none => rfl
  | some g => cases hf : pairs.find? (fun x => x.1 - 1 == i) <;> simp [hf]

theorem Limits.stored_eq (l : Limits) : Limits.stored l =
    { l with
      claimLapse := max 30 (min l.claimLapse 600), takeTimeout := max 10 (min l.takeTimeout 120),
      tareValidity := max 1 (min l.tareValidity 365) } := by
  simp only [Limits.stored, clamp_eq _ 30 600 (by decide), clamp_eq _ 10 120 (by decide), clamp_eq _ 1 365 (by decide)]

/-- Settles O29. -/
theorem gradesLimitsAndHeader : Obligations.GradesLimitsAndHeader := by
  refine ⟨fun s version hr hversion => ⟨?_, ?_⟩, fun s hr => ⟨?_, ?_⟩⟩
  · rintro code name price deduction restricted hold enabled _ _ rfl rfl
    subst hversion
    split
    · rename_i fits
      obtain ⟨low, high, named, printable, priced⟩ := fits
      refine request_taken_both hr (by decide) ?_ (by simp) (s.anyInService_taken .office)
      simp only [Grades.set, gradeCode, low, high, named, printable, not_lt.mpr priced, State.nextVersion, storedGrade, done,
        State.taken_grt, wrapping]
      simp
    · rename_i unfit
      refine request_refused_both hr (by decide) ?_ rfl
      have out : !gradeCode code ∨ name = [] ∨ !printableText name ∨ 99999999 < price := by
        by_contra fits
        simp only [not_or, gradeCode, Bool.not_eq_true, Bool.not_eq_false', decide_eq_true_eq, not_lt] at fits
        obtain ⟨⟨low, high⟩, named, printable, priced⟩ := fits
        exact unfit ⟨low, high, named, printable, priced⟩
      simp only [Grades.set, if_pos out]
  · rintro pairs ok _ _ hok rfl rfl
    subst hversion
    have same : ok = true ↔ ¬(pairs = [] ∨ 16 < pairs.length ∨ pairs.any (fun x => !gradeCode x.1 || decide (99999999 < x.2)) ∨
        !codesDistinct pairs) := by
      have some_ : pairs ≠ [] ↔ 1 ≤ pairs.length := List.length_pos_iff.symm
      have range : ¬pairs.any (fun x => !gradeCode x.1 || decide (99999999 < x.2)) = true ↔
          ∀ x ∈ pairs, 1 ≤ x.1 ∧ x.1 ≤ 64 ∧ x.2 ≤ 99999999 := by
        simp [gradeCode, and_assoc, Nat.one_le_iff_ne_zero]
      have distinct : ¬(!codesDistinct pairs) = true ↔ (pairs.map (·.1)).Nodup := by rw [← codesDistinct_iff]; simp
      rw [hok, not_or, not_or, not_or, ← ne_eq, some_, range, distinct, not_lt]
    cases ok with
    | true =>
      have fits := same.mp rfl
      obtain ⟨-, -, range, distinct⟩ := hok.mp rfl
      have prices := setPrices_eq pairs s.grt.grades (fun x hx => (range x hx).1) distinct
      refine request_taken_both hr (by decide) ?_ (by simp) (s.anyInService_taken .office)
      have taken := congrArg (fun grades : List Grade => (({ s.taken .office with
        grt := { s.grt with grades := grades, version := if s.grt.version < 65535 then s.grt.version + 1 else 0 } },
          ⟨.done, [.u16 (if s.grt.version < 65535 then s.grt.version + 1 else 0)]⟩) : State × Reply)) prices
      exact (if_neg fits).trans taken
    | false =>
      refine request_refused_both hr (by decide) ?_ rfl
      have out := not_not.mp fun h => Bool.false_ne_true (same.mpr h)
      simp only [Grades.priceSet, if_pos out]
  · rintro l _ _ rfl rfl
    split
    · rename_i fits
      refine request_taken_both hr (by decide) ?_ (by simp) (s.anyInService_taken .office)
      have ok : Limits.moneyOk l = true := decide_eq_true fits
      simp only [Grades.limitsSet, ok, Bool.not_true, Bool.false_eq_true, if_false, Limits.stored_eq, done, State.taken_grt]
      rfl
    · rename_i unfit
      refine request_refused_both hr (by decide) ?_ rfl
      have bad : Limits.moneyOk l = false := decide_eq_false unfit
      simp [Grades.limitsSet, bad]
  · rintro h1 h2 h3 b c _ rfl
    split
    · rename_i fits
      obtain ⟨p1, p2, p3⟩ := fits
      refine request_taken_both hr (by decide) ?_ (by simp) (s.anyInService_taken .office)
      simp [Print.headerSet, p1, p2, p3, done]
    · rename_i unfit
      refine request_refused_both hr (by decide) ?_ rfl
      have bad : (printableText h1 && printableText h2 && printableText h3) = false := by
        rw [Bool.eq_false_iff]
        simpa [and_assoc] using unfit
      simp [Print.headerSet, bad]

/-! Lamps -/

/-- Settles O27. -/
theorem lampRequests : Obligations.LampRequests := by
  refine fun s hr => ⟨fun n steps tick pause => ?_, fun a b c d e f g stretch => ?_, fun n b row seconds hb => ?_, fun n b hb => ?_⟩
  · split
    · rename_i fits
      refine request_acts s _ .office 0x21 _ .done [] hr (by decide) nofun ?_ (by simp) (s.anyInService_taken .office)
      simp only [Deck.lampPatternSet, show ¬(n < 2 ∨ 7 < n ∨ 15 < pause) by omega, if_false, clamp_eq tick 1 50 (by decide), done,
        State.taken_dsu, State.taken_lamps]
    · rename_i unfit
      refine request_refused (p := .office) hr ?_ (by decide) nofun
      simp only [Deck.lampPatternSet, show n < 2 ∨ 7 < n ∨ 15 < pause by omega, if_true]
  · have rows : [a, b, c, d, e, f, g].all (fun r => decide (r.entryRed ≤ 7 ∧ r.entryGreen ≤ 7 ∧ r.exitRed ≤ 7 ∧ r.exitGreen ≤ 7)) =
        [a, b, c, d, e, f, g].all AspectRow.ok := rfl
    rw [rows]
    split
    · rename_i fits
      refine request_acts s _ .office 0x22 _ .done [] hr (by decide) nofun ?_ (by simp) (s.anyInService_taken .office)
      simp only [Deck.aspectSet, aspectTable?, fits, Bool.not_true, Bool.false_eq_true, if_false, clamp_eq stretch 200 2000 (by decide),
        done, State.taken_dsu]
    · rename_i unfit
      refine request_refused (p := .office) hr ?_ (by decide) nofun
      simp only [Deck.aspectSet, aspectTable?, Bool.eq_false_iff.mpr unfit, Bool.not_false, if_true]
  · split
    · rename_i fits
      have ok : AspectRow.ok row = true := decide_eq_true fits
      refine request_acts s _ .office 0x23 _ .done [] hr (by decide) nofun ?_ (by cases b <;> simp [State.setBridge])
        ((State.setBridge_anyInService _ _ _).trans (s.anyInService_taken .office))
      simp only [Deck.lampOverride, hb, ok, Bool.not_true, Bool.false_eq_true, if_false, done, State.bridge_taken, State.timer_taken]
      by_cases zero : seconds = 0
      · simp [zero]
      · have held : min seconds 600 ≠ 0 := by omega
        simp [zero, held]
    · rename_i unfit
      have bad : AspectRow.ok row = false := decide_eq_false unfit
      refine request_refused (p := .office) hr ?_ (by decide) nofun
      simp [Deck.lampOverride, hb, bad]
  · split
    · rename_i held
      refine request_acts s _ .office 0x23 _ .done [] hr (by decide) nofun ?_ (by cases b <;> simp [State.setBridge])
        ((State.setBridge_anyInService _ _ _).trans (s.anyInService_taken .office))
      simp only [Deck.lampOverride, hb, State.bridge_taken, held, if_true, done]
    · rename_i free
      refine request_refused (p := .office) hr ?_ (by decide) nofun
      simp only [Deck.lampOverride, hb, State.bridge_taken, free, Bool.false_eq_true, if_false]

end Sys2Proof.Machine
end

