-- ==== Sys2Proof/Proofs/RecordRequests.lean ====
section
/-! PROOFS. Requests on the register, on lines, weighings and claims, and on cash stores: O32, O36, O39, O43. -/

namespace Sys2Proof.Machine

/-! Requests on a record -/

theorem State.anyInService_congr {s t : State} (h : t.wch = s.wch) : t.anyInService = s.anyInService := by
  simp only [State.anyInService, h]

theorem withTicket_found {s : State} {n : Nat} {t : Ticket} (h : s.ticket? n = some t) (k : Ticket → State × Reply) :
    withTicket s n k = k t := by simp [withTicket, h]

section Taken

variable {s t : State} {p : Port} {kind : Nat} {h : Handler} {checks : List (Bool × Status)} {status : Status} {data : List Field}

/-- A request whose effect reaches neither the channels nor the lines. -/
theorem request_done (hr : s.ready p) (hk : kind ∈ knownKinds) (hw : p = .window → kind ∈ windowKinds)
    (he : h p (s.taken p) = (t, ⟨status, data⟩)) (wch : t.wch = s.wch) (dsu : t.dsu = s.dsu) :
    request (Port.sender p) kind h s = .next (t.answered p kind status data) :=
  request_acts s t p kind h status data hr hk hw he (by rw [dsu]) (State.anyInService_congr wch)

/-- A request whose checks pass and whose effect reaches neither the channels nor the lines. -/
theorem request_does (hr : s.ready p) (hk : kind ∈ knownKinds) (hw : p = .window → kind ∈ windowKinds)
    (he : h p (s.taken p) = (s.taken p).checked checks (t, ⟨status, data⟩)) (hc : firstFailing checks = none)
    (wch : t.wch = s.wch) (dsu : t.dsu = s.dsu) :
    request (Port.sender p) kind h s = .next (t.answered p kind status data) :=
  request_done hr hk hw (he.trans (afterChecks_none hc)) wch dsu

end Taken

@[simp] theorem State.changeTicket_wch (s : State) (n : Nat) (f : Ticket → Ticket) : (s.changeTicket n f).wch = s.wch := by
  obtain ⟨k, h⟩ := s.changeTicket_frame n f
  rw [h]

@[simp] theorem State.changeTicket_dsu (s : State) (n : Nat) (f : Ticket → Ticket) : (s.changeTicket n f).dsu = s.dsu := by
  obtain ⟨k, h⟩ := s.changeTicket_frame n f
  rw [h]

/-! The register -/

theorem tare_held (vtr : List TareEntry) (q : Text) :
    (vtr.find? fun e => e.plate == q).isSome = (vtr.map (·.plate)).contains q := by
  rw [Bool.eq_iff_iff]
  simp

theorem withoutPlate_eq (vtr : List TareEntry) (q : Text) : withoutPlate vtr q = vtr.filter fun x => decide (x.plate ≠ q) := by
  refine List.filter_congr fun e _ => ?_
  rw [Bool.eq_iff_iff]
  simp

theorem evicted?_eq (vtr : List TareEntry) (q : Text) :
    evicted? vtr q = if (vtr.map (·.plate)).contains q ∨ vtr.length < 32 then none else vtr.head? := by
  have held : vtr.any (fun e => e.plate == q) = (vtr.map (·.plate)).contains q := by
    rw [Bool.eq_iff_iff]
    simp
  unfold evicted?
  rw [held]
  cases (vtr.map (·.plate)).contains q with
  | true => simp
  | false =>
    by_cases full : 32 ≤ vtr.length
    · simp [full]
    · simp [full, not_le.mp full]

theorem withoutPlate_new {vtr : List TareEntry} {q : Text} (h : (vtr.map (·.plate)).contains q = false) :
    (vtr.filter fun x => decide (x.plate ≠ q)) = vtr := by
  refine List.filter_eq_self.mpr fun e he => ?_
  rw [decide_eq_true_iff]
  rintro rfl
  have : (vtr.map (·.plate)).contains e.plate = true := List.contains_iff_mem.mpr (List.mem_map.mpr ⟨e, he, rfl⟩)
  rw [h] at this
  cases this

theorem storeTare_eq (vtr : List TareEntry) (e : TareEntry) : storeTare vtr e =
    (if (vtr.map (·.plate)).contains e.plate then vtr.filter fun x => decide (x.plate ≠ e.plate)
      else if 32 ≤ vtr.length then vtr.tail else vtr) ++ [e] := by
  unfold storeTare
  rw [evicted?_eq, withoutPlate_eq]
  cases held : (vtr.map (·.plate)).contains e.plate with
  | true => simp
  | false =>
    by_cases full : 32 ≤ vtr.length
    · cases vtr with
      | nil => simp at full
      | cons x rest => simp only [Bool.false_eq_true, false_or, not_lt.mpr full, if_false, full, if_true, List.head?_cons]
    · simp only [Bool.false_eq_true, false_or, not_le.mp full, if_true, full, if_false, withoutPlate_new held]

/-- Settles O32. -/
theorem taresStoredAndDeleted : Obligations.TaresStoredAndDeleted := by
  refine fun s hr => ⟨?_, fun plate n tare bad => ?_, ?_, fun plate bad => ?_, fun plate q hq => ?_⟩
  · rintro plate q n b tare set now e rest gone hq hb rfl rfl rfl rfl rfl
    have bound : ((s.chan b.channel).set.K : Int) + 9 * ((s.chan b.channel).set.d : Int) =
        (((s.chan b.channel).set.K + 9 * (s.chan b.channel).set.d : Nat) : Int) := by push_cast; rfl
    have rule : Tares.store plate n tare .office (s.taken .office) =
        if (s.chan b.channel).set.calibrated = false then refuse (s.taken .office) .wrongState
        else if tare % (s.chan b.channel).set.d ≠ 0 ∨ tare < (s.chan b.channel).set.d ∨
            ((s.chan b.channel).set.K + 9 * (s.chan b.channel).set.d : Nat) < tare then refuse (s.taken .office) .badParam
        else
          done { s.taken .office with vtr := storeTare s.vtr (freshTare q tare b (s.chan b.channel).set.d ⟨s.clu.now, s.clu.valid⟩) }
            ((freshTare q tare b (s.chan b.channel).set.d ⟨s.clu.now, s.clu.valid⟩).fields ++
              flagField (s.tare? q).isSome :: optText ((evicted? s.vtr q).map (·.plate))) := by
      simp only [Tares.store, hq, hb, State.chan_taken, Bool.not_eq_true', bound, State.stamp_taken, State.taken_vtr, State.tare?]
    split
    · rename_i uncalibrated
      exact request_refused (p := .office) hr (rule.trans (if_pos uncalibrated)) (by decide) nofun
    · rename_i calibrated
      split
      · rename_i bad
        exact request_refused (p := .office) hr (rule.trans ((if_neg calibrated).trans (if_pos bad))) (by decide) nofun
      · rename_i fits
        rw [if_neg calibrated, if_neg fits, storeTare_eq, evicted?_eq, State.tare?, tare_held] at rule
        refine (request_done (p := .office) hr (by decide) nofun rule (by simp) (by simp)).trans ?_
        rw [apply_ite (Option.map _), Option.map_none, List.append_assoc]
        rfl
  · refine request_refused (p := .office) hr ?_ (by decide) nofun
    unfold Tares.store
    split
    · rename_i hq hb
      rw [hq, hb] at bad
      rcases bad with h | h <;> cases h
    · rfl
  · exact request_done (p := .office) hr (by decide) nofun (by rw [← State.taken_vtr s .office]; rfl) (by simp) (by simp)
  · refine request_refused (p := .office) hr ?_ (by decide) nofun
    simp [Tares.delete, bad]
  · have rule : Tares.delete (some plate) .office (s.taken .office) =
        if (s.vtr.map (·.plate)).contains q then
          done { s.taken .office with vtr := s.vtr.filter fun x => decide (x.plate ≠ q) } [.u8 1]
        else refuse (s.taken .office) .noTare := by
      rw [← tare_held, ← withoutPlate_eq]
      simp only [Tares.delete, hq, State.tare?, State.taken_vtr]
      cases s.vtr.find? fun e => e.plate == q <;> rfl
    split
    · rename_i held
      exact request_done (p := .office) hr (by decide) nofun (rule.trans (if_pos held)) (by simp) (by simp)
    · rename_i free
      exact request_refused (p := .office) hr (rule.trans (if_neg free)) (by decide) nofun

/-! Lines and weighings -/

theorem storedMode_eq (l : TicketLine) (mode : DeductMode) : storedMode l mode =
    if (match mode with
      | .weight w => decide (w < 0 ∨ l.net < w ∨ w % l.division ≠ 0)
      | _ => false) then none
    else some (match mode with
      | .percent x => .percent (min x 500)
      | other => other) := by
  cases mode <;> simp [storedMode]

/-- Settles O36. -/
theorem lineAndWeighingRequests : Obligations.LineAndWeighingRequests := by
  refine fun s p n place t hr held => ⟨fun code => ?_, fun mode => ?_, ?_, fun hp => ?_⟩
  all_goals have found : (s.taken p).ticket? n = some t := by rw [State.ticket?_taken]; exact held
  · have rule (after : TicketLine → State × Reply) (none_ : State × Reply)
        (hafter : ∀ l, after l = (
          let s1 := (s.taken p).changeTicket n fun x => x.setLine place { l with grade := some code }
          done s1 [.u8 (s1.revision n)])) :
        Tickets.lineGrade n place code p (s.taken p) = (s.taken p).checked
          [ (decide (p = .window ∧ t.kind = .bridge), .wrongPort), (decide (t.st ≠ .weighing ∧ t.st ≠ .complete), .wrongState),
            ((t.lineAt? place).isNone || decide (code < 1 ∨ 64 < code), .badParam) ]
          (((t.lineAt? place).map after).getD none_) := by
      rw [Tickets.lineGrade, withTicket_found found]
      simp only [afterChecks_cons, afterChecks_nil, decide_eq_true_eq]
      cases t.lineAt? place with
      | none => simp
      | some l => simp [hafter]
    split
    · rename_i c failed
      exact request_fails hr (by decide) (fun _ => by decide) (rule _ (refuse s .badParam) fun _ => rfl) failed
    · rename_i passed
      rintro l after hl rfl
      have taken := rule _ (refuse s .badParam) fun _ => rfl
      rw [hl] at taken passed
      exact request_does hr (by decide) (fun _ => by decide) taken passed (by simp) (by simp)
  · have rule (after : TicketLine → State × Reply) (none_ : State × Reply)
        (hafter : ∀ l, after l = (
          let l' := { l with mode := match mode with
            | .percent x => .percent (min x 500)
            | other => other }
          let s1 := (s.taken p).changeTicket n fun x => x.setLine place l'
          done s1 (l'.storedFields ++ [.u8 (s1.revision n)]))) :
        Tickets.lineDeduct n place mode p (s.taken p) = (s.taken p).checked
          [ (decide (p = .window ∧ t.kind = .bridge), .wrongPort), (decide (t.st ≠ .weighing ∧ t.st ≠ .complete), .wrongState),
            ((t.lineAt? place).any (fun l => match mode with
              | .weight w => decide (w < 0 ∨ l.net < w ∨ w % l.division ≠ 0)
              | _ => false) || (t.lineAt? place).isNone, .badParam) ]
          (((t.lineAt? place).map after).getD none_) := by
      rw [Tickets.lineDeduct, withTicket_found found]
      simp only [afterChecks_cons, afterChecks_nil, decide_eq_true_eq]
      cases t.lineAt? place with
      | none => simp
      | some l =>
        simp only [storedMode_eq, Option.any_some, Option.isNone_some, Bool.or_false, Option.map_some, Option.getD_some, hafter]
        cases mode with
        | grade => rfl
        | percent x => rfl
        | weight w =>
          by_cases out : w < 0 ∨ l.net < w ∨ w % (l.division : Int) ≠ 0
          · simp only [decide_eq_true out, if_true]
          · simp only [decide_eq_false out, Bool.false_eq_true, if_false]
    split
    · rename_i c failed
      exact request_fails hr (by decide) (fun _ => by decide) (rule _ (refuse s .badParam) fun _ => rfl) failed
    · rename_i passed
      rintro l l' after hl rfl rfl
      have taken := rule _ (refuse s .badParam) fun _ => rfl
      rw [hl] at taken passed
      refine (request_does hr (by decide) (fun _ => by decide) taken passed (by simp) (by simp)).trans ?_
      unfold TicketLine.storedFields
      cases mode <;> rfl
  · have rule : Tickets.lineStrike n place p (s.taken p) = (s.taken p).checked
        [ (decide (p = .window ∧ t.kind = .bridge), .wrongPort), (decide (t.kind = .bridge), .badParam),
          (decide (t.st ≠ .weighing), .wrongState), ((t.lineAt? place).isNone, .badParam) ]
        (let s1 := (s.taken p).changeTicket n fun x => { x with lines := x.lines.eraseIdx (place - 1) };
          done s1 [.u8 (t.lines.length - 1), .u8 (s1.revision n)]) := by
      rw [Tickets.lineStrike, withTicket_found found]
      simp only [afterChecks_cons, afterChecks_nil, decide_eq_true_eq]
      by_cases bridge : t.kind = .bridge
      · by_cases window : p = .window <;> simp [bridge, window]
      · simp [bridge]
    split
    · rename_i c failed
      exact request_fails hr (by decide) (fun _ => by decide) rule failed
    · rename_i passed
      rintro after rfl
      exact request_does hr (by decide) (fun _ => by decide) rule passed (by simp) (by simp)
  · subst hp
    have rule : Tickets.weighingStrike n .office (s.taken .office) = (s.taken .office).checked
        [(decide (t.kind = .counter), .badParam), (decide (t.st ≠ .weighing), .wrongState), (t.weighings.isEmpty, .badParam)]
        (let s1 := (s.taken .office).changeTicket n Ticket.strikeWeighing;
          done s1 [.u8 (t.weighings.length - 1), .u8 (s1.revision n)]) := by
      rw [Tickets.weighingStrike, withTicket_found found]
      simp only [afterChecks_cons, afterChecks_nil, decide_eq_true_eq, List.isEmpty_iff]
    split
    · rename_i c failed
      exact request_fails (p := .office) hr (by decide) nofun rule failed
    · rename_i passed
      rintro after rfl
      exact request_does (p := .office) hr (by decide) nofun rule passed (by simp) (by simp)

/-! Claims -/

/-- A powered part runs an event that reaches neither the channels nor the lines. -/
theorem run_done {s t : State} (power : s.powered = true) {f : State → State} (hf : f s = t) (wch : t.wch = s.wch) (dsu : t.dsu = s.dsu) :
    run f s = .next t.settle :=
  run_settles power f hf (by rw [dsu]) (State.anyInService_congr wch)

theorem Ticket.underClaim_iff (t : Ticket) : t.underClaim = true ↔ t.st = .claimed ∨ t.st = .paying := by simp [Ticket.underClaim]

/-- Settles O39. -/
theorem claimsGrantedAndEnded : Obligations.ClaimsGrantedAndEnded := by
  refine ⟨fun s p n t hr held => ⟨?_, ?_⟩, fun s n t c timer power held st claim lapse => ?_⟩
  · have found : (s.taken p).ticket? n = some t := by rw [State.ticket?_taken]; exact held
    have holds : (s.taken p).holdsClaim p = s.tkt.tickets.any (fun x => decide (x.claim.map (·.port) = some p)) := by
      rw [State.holdsClaim, State.taken_tkt]
      refine congrArg (List.any _) (funext fun x => ?_)
      rw [Bool.eq_iff_iff, Ticket.claimant]
      simp
    have rule : Tickets.claim n p (s.taken p) = (s.taken p).checked
        [ (decide ((t.st = .claimed ∨ t.st = .paying) ∧ t.claim.map (·.port) = some p.other), .claimedElsewhere),
          (s.tkt.tickets.any (fun x => decide (x.claim.map (·.port) = some p)), .claimHeld), (decide (t.st = .held), .held),
          (decide (t.st ≠ .settled), .wrongState),
          (decide (p = .window) && t.needsApproval && !t.approved, .needsApproval) ]
        (let s1 := (s.taken p).changeTicket n fun x => x.grant p ⟨s.clu.now, s.clu.valid⟩ ⟨s.grt.limits.claimLapse * 1000, s.elapsed⟩;
          done s1 [.u32 t.cash, .u32 t.remainder, .u8 (s1.revision n)]) := by
      rw [Tickets.claim, withTicket_found found]
      simp only [afterChecks_cons, afterChecks_nil, decide_eq_true_eq, Ticket.underClaim_iff, Ticket.claimant, holds, State.stamp_taken,
        State.timer_taken, State.taken_grt, Bool.and_eq_true, and_assoc]
    split
    · rename_i c failed
      exact request_fails hr (by decide) (fun _ => by decide) rule failed
    · rename_i passed
      rintro after rfl
      exact request_does hr (by decide) (fun _ => by decide) rule passed (by simp) (by simp)
  · rintro after rfl
    have found : (s.taken p).ticket? n = some t := by rw [State.ticket?_taken]; exact held
    have rule : Tickets.release n p (s.taken p) =
        if ¬((t.st = .claimed ∨ t.st = .paying) ∧ t.claim.map (·.port) = some p) then refuse (s.taken p) .notClaimed
        else if t.st = .paying then refuse (s.taken p) .wrongState
        else
          let s1 := (s.taken p).changeTicket n Ticket.unclaim
          done s1 [.u8 (s1.revision n)] := by
      rw [Tickets.release, withTicket_found found]
      have mine : ((!t.underClaim) = true ∨ t.claimant ≠ some p) ↔
          ¬((t.st = .claimed ∨ t.st = .paying) ∧ t.claim.map (·.port) = some p) := by
        rw [← Ticket.underClaim_iff, not_and_or, Bool.not_eq_true', Bool.not_eq_true, Ticket.claimant]
      simp only [mine]
    split
    · rename_i other
      exact request_refused hr (rule.trans (if_pos other)) (by decide) fun _ => by decide
    · rename_i mine
      split
      · rename_i paying
        exact request_refused hr (rule.trans ((if_neg mine).trans (if_pos paying))) (by decide) fun _ => by decide
      · rename_i claimed
        exact request_done hr (by decide) (fun _ => by decide) (rule.trans ((if_neg mine).trans (if_neg claimed))) (by simp) (by simp)
  · refine run_done power (f := Tickets.lapse n) ?_ (by simp) (by simp)
    simp only [Tickets.lapse, held, st, claim, lapse]
    rfl

/-! Cash stores -/

theorem storeOf?_eq (load : Option StoreContents) : storeOf? load =
    if (match load with
      | none => true
      | some c => decide (c.kind ≤ 1 ∧ 1 ≤ c.denomination ∧ c.denomination ≤ 99999999 ∧ 1 ≤ c.capacity ∧ c.capacity ≤ 3000)) then
      some (match load with
        | none => ⟨none, none, 0, 0, 0, .absent, 0, 0, 0, 0, 0⟩
        | some c =>
          ⟨some (if c.kind = 0 then .note else .coin), some c.denomination, min c.count c.capacity, c.capacity,
            min c.lowThreshold c.capacity, if 0 < min c.count c.capacity then .enabled else .empty, min c.count c.capacity, 0, 0, 0, 0⟩)
    else none := by
  cases load with
  | none => rfl
  | some c =>
    by_cases range : c.denomination < 1 ∨ 99999999 < c.denomination ∨ c.capacity < 1 ∨ 3000 < c.capacity
    · have out : ¬(c.kind ≤ 1 ∧ 1 ≤ c.denomination ∧ c.denomination ≤ 99999999 ∧ 1 ≤ c.capacity ∧ c.capacity ≤ 3000) := by omega
      simp only [storeOf?, if_pos range, decide_eq_true_eq, if_neg out]
    · simp only [storeOf?, if_neg range, decide_eq_true_eq]
      by_cases kind : c.kind ≤ 1
      · have fits : c.kind ≤ 1 ∧ 1 ≤ c.denomination ∧ c.denomination ≤ 99999999 ∧ 1 ≤ c.capacity ∧ c.capacity ≤ 3000 := by omega
        rw [if_pos fits]
        have which : c.kind = 0 ∨ c.kind = 1 := by omega
        rcases which with h | h <;> rw [h] <;> rfl
      · have out : ¬(c.kind ≤ 1 ∧ 1 ≤ c.denomination ∧ c.denomination ≤ 99999999 ∧ 1 ≤ c.capacity ∧ c.capacity ≤ 3000) := by omega
        rw [if_neg out]
        split
        · omega
        · omega
        · rfl

theorem Store.enabledTo_eq (x : Store) (enable : Bool) : x.enabledTo enable =
    if x.st = .enabled ∨ x.st = .disabled then
      some (if enable then (if x.st = .disabled ∧ x.count = 0 then .empty else .enabled) else .disabled)
    else none := by
  unfold Store.enabledTo
  cases hx : x.st <;> cases enable <;> simp

theorem DispenserSt.working_iff (d : DispenserSt) :
    d.working = true ↔ d = .picking ∨ d = .presenting ∨ d = .waiting ∨ d = .retracting ∨ d = .recovering := by
  cases d <;> simp [DispenserSt.working]

/-- STORE LOAD by whether the number and the contents fit. -/
theorem storeLoad_result {s : State} (hr : s.ready .office) {i : Nat} {load : Option StoreContents} {ok m : Bool} {x : Store}
    (hok : ok = (decide (i ≤ 5) && m)) (store : storeOf? load = if m then some x else none) :
    exec (.storeLoad .office i load) s =
      if s.pyu.disp ≠ .idle ∧ s.pyu.disp ≠ .doorOpen then .next ((s.taken .office).answered .office 0x50 .unitBusy [])
      else if ok then
        .next (({ s.taken .office with pyu := { s.pyu with stores := s.pyu.stores.set i x } } : State).answered .office 0x50 .done x.fields)
      else .next ((s.taken .office).answered .office 0x50 .badParam []) := by
  have rule : Cash.storeLoad i load .office (s.taken .office) =
      if s.pyu.disp ≠ .idle ∧ s.pyu.disp ≠ .doorOpen then refuse (s.taken .office) .unitBusy
      else if ok then done { s.taken .office with pyu := { s.pyu with stores := s.pyu.stores.set i x } } x.fields
      else refuse (s.taken .office) .badParam := by
    simp only [Cash.storeLoad, State.taken_pyu, store]
    by_cases high : 5 < i
    · have out : ok = false := by rw [hok, decide_eq_false (not_le.mpr high), Bool.false_and]
      simp only [if_pos high, out, Bool.false_eq_true, if_false]
    · have same : ok = m := by rw [hok, decide_eq_true (not_lt.mp high), Bool.true_and]
      rw [if_neg high, same]
      cases m <;> rfl
  split
  · rename_i busy
    exact request_refused (p := .office) hr (rule.trans (if_pos busy)) (by decide) nofun
  · rename_i idle
    rw [if_neg idle] at rule
    split
    · rename_i fits
      exact request_done (p := .office) hr (by decide) nofun (rule.trans (if_pos fits)) (by simp) (by simp)
    · rename_i unfit
      exact request_refused (p := .office) hr (rule.trans (if_neg unfit)) (by decide) nofun

/-- Settles O43. -/
theorem cashStoreAndPayoutRequests : Obligations.CashStoreAndPayoutRequests := by
  refine ⟨fun s hr => ⟨?_, fun i enable gone => ?_, ?_⟩, fun s p hr => ⟨fun none_ => ?_, fun mine late => ?_,
    fun x hx port picking out => ?_, fun hp => ⟨?_, ?_⟩⟩⟩
  · rintro i load ok x hok hx
    refine storeLoad_result hr hok ?_
    rw [storeOf?_eq, hx] <;> cases load <;> rfl
  · refine request_refused (p := .office) hr ?_ (by decide) nofun
    simp only [Cash.storeEnable, State.taken_pyu, gone]
  · rintro i enable x st hx rfl
    have rule : Cash.storeEnable i enable .office (s.taken .office) =
        if s.pyu.disp.working then refuse (s.taken .office) .unitBusy
        else match x.enabledTo enable with
          | none => refuse (s.taken .office) .wrongState
          | some st => done { s.taken .office with pyu := { s.pyu with stores := s.pyu.stores.set i { x with st := st } } }
              [.u8 st.code] := by
      simp only [Cash.storeEnable, State.taken_pyu, hx] <;> rfl
    rw [Store.enabledTo_eq] at rule
    split
    · rename_i busy
      exact request_refused (p := .office) hr (rule.trans (if_pos busy)) (by decide) nofun
    · rename_i rest
      rw [if_neg rest] at rule
      split
      · rename_i counted
        rw [if_pos counted] at rule
        exact request_done (p := .office) hr (by decide) nofun rule (by simp) (by simp)
      · rename_i uncounted
        rw [if_neg uncounted] at rule
        exact request_refused (p := .office) hr rule (by decide) nofun
  · refine request_refused hr ?_ (by decide) fun _ => by decide
    cases hx : s.pyu.payout with
    | none => simp only [Cash.payoutCancel, State.taken_pyu, hx]
    | some x =>
      have other : x.port ≠ p := by simpa [hx] using none_
      simp only [Cash.payoutCancel, State.taken_pyu, hx, other, ne_eq, not_false_eq_true, if_true]
  · refine request_refused hr ?_ (by decide) fun _ => by decide
    obtain ⟨x, hx, port⟩ := Option.map_eq_some_iff.mp mine
    simp only [Cash.payoutCancel, State.taken_pyu, hx, port, ne_eq, not_true_eq_false, if_false, late, not_false_eq_true, if_true]
  · refine request_done hr (by decide) (fun _ => by decide) (data := []) ?_ (by simp) (by simp)
    simp only [Cash.payoutCancel, State.taken_pyu, hx, port, ne_eq, not_true_eq_false, if_false, picking, out, if_true]
    rfl
  · have rule : Cash.binEmpty .office (s.taken .office) =
        if s.pyu.disp.working then refuse (s.taken .office) .unitBusy
        else done { s.taken .office with pyu := { s.pyu with log := [], bin := 0 } } [.u8 s.pyu.log.length, .u16 s.pyu.bin] := by
      simp only [Cash.binEmpty, State.taken_pyu]
    simp only [DispenserSt.working_iff] at rule
    subst hp
    split
    · rename_i busy
      exact request_refused (p := .office) hr (rule.trans (if_pos busy)) (by decide) nofun
    · rename_i rest
      exact request_done (p := .office) hr (by decide) nofun (rule.trans (if_neg rest)) (by simp) (by simp)
  · have rule : Cash.dispenserClear .office (s.taken .office) =
        if s.pyu.disp = .doorOpen then refuse (s.taken .office) .doorOpen
        else if s.pyu.disp = .fault ∨ s.pyu.disp = .offline then
          done { s.taken .office with pyu := { s.pyu with disp := .recovering, command := some .reset, recovery := none } }
        else refuse (s.taken .office) .wrongState := by
      simp only [Cash.dispenserClear, State.taken_pyu]
      by_cases stopped : s.pyu.disp = .fault ∨ s.pyu.disp = .offline
      · have : ¬(s.pyu.disp ≠ .fault ∧ s.pyu.disp ≠ .offline) := by tauto
        simp only [if_pos stopped, if_neg this]
      · have : s.pyu.disp ≠ .fault ∧ s.pyu.disp ≠ .offline := not_or.mp stopped
        simp only [if_neg stopped, if_pos this]
    subst hp
    split
    · rename_i open_
      exact request_refused (p := .office) hr (rule.trans (if_pos open_)) (by decide) nofun
    · rename_i closed
      rw [if_neg closed] at rule
      split
      · rename_i stopped
        exact request_done (p := .office) hr (by decide) nofun (rule.trans (if_pos stopped)) (by simp) (by simp)
      · rename_i running
        exact request_refused (p := .office) hr (rule.trans (if_neg running)) (by decide) nofun

end Sys2Proof.Machine
end

