-- ==== Sys2Proof/Proofs/TicketRequests.lean ====
section
/-! PROOFS. The opening of a record, its reopening, approval, void and resolution, and the start of a payout: O34, O38, O45. -/

namespace Sys2Proof.Machine

/-! The opening of a record -/

/-- The first number a counter shows that no record holds. -/
theorem freeNumber_of_find {l : List Ticket} {fuel n m : Nat}
    (h : ((List.range fuel).map (walk 999999 n)).find? (fun k => decide (∀ t ∈ l, t.number ≠ k)) = some m) : freeNumber l fuel n = m := by
  induction fuel generalizing n with
  | zero => cases h
  | succ fuel ih =>
    have later : (List.range fuel).map (walk 999999 n ∘ Nat.succ) = (List.range fuel).map (walk 999999 (wrapping n 1 999999)) :=
      List.map_congr_left fun i _ => (walk_succ_left 999999 n i).symm
    rw [List.range_succ_eq_map, List.map_cons, List.map_map, later, List.find?_cons] at h
    unfold freeNumber
    by_cases held : l.any (fun t => t.number == n) = true
    · have taken : decide (∀ t ∈ l, t.number ≠ walk 999999 n 0) = false := by
        rw [decide_eq_false_iff_not]
        intro free
        obtain ⟨t, ht, same⟩ := List.any_eq_true.mp held
        exact free t ht (beq_iff_eq.mp same)
      rw [taken] at h
      rw [if_pos held]
      exact ih h
    · have free : decide (∀ t ∈ l, t.number ≠ walk 999999 n 0) = true := by
        rw [decide_eq_true_iff]
        rintro t ht rfl
        exact held (List.any_eq_true.mpr ⟨t, ht, beq_iff_eq.mpr rfl⟩)
      rw [free] at h
      rw [if_neg held]
      exact Option.some.inj h

/-- A counter within its range, as a remainder. -/
theorem walk_eq_mod {c i : Nat} (low : 1 ≤ c) (high : c ≤ 999999) (hi : i < 49) : (c - 1 + i) % 999999 + 1 = walk 999999 c i := by
  rw [walk_eq (by omega)]
  split <;> omega

theorem State.freePlace?_eq (s : State) :
    s.freePlace? = ((List.range 48).map (· + 1)).find? fun k => decide (∀ t ∈ s.tkt.tickets, t.place ≠ k) := by
  unfold State.freePlace?
  refine congrArg (fun f => List.find? f _) (funext fun k => ?_)
  rw [Bool.eq_iff_iff]
  simp

theorem findSome?_eq_find?_bind {α β : Type} (f : α → Option β) (l : List α) :
    l.findSome? f = (l.find? fun x => (f x).isSome).bind f := by
  induction l with
  | nil => rfl
  | cons x rest ih =>
    rw [List.findSome?_cons, List.find?_cons]
    cases hx : f x with
    | some y => simp [hx]
    | none => simpa [hx] using ih

/-- Whether a number names a spent record (R61). -/
def State.namesSpent (s : State) (n : Nat) : Bool := (s.ticket? n).any fun t =>
  decide ((t.st = .closed ∨ t.st = .void) ∧ t.owed.slip = 0 ∧ t.owed.copies = 0 ∧ t.owed.notice = 0)

theorem State.oldestSpent?_eq (s : State) : s.oldestSpent? = (s.tkt.spent.find? s.namesSpent).bind s.ticket? := by
  have spent (t : Ticket) : t.isSpent =
      decide ((t.st = .closed ∨ t.st = .void) ∧ t.owed.slip = 0 ∧ t.owed.copies = 0 ∧ t.owed.notice = 0) := by
    rw [Bool.eq_iff_iff]
    simp [Ticket.isSpent, Owed.total, and_assoc]
  have record : (fun n => match s.ticket? n with
      | some t => if t.isSpent then some t else none
      | none => none) = fun n => (s.ticket? n).filter (·.isSpent) := by
    funext n
    cases s.ticket? n with
    | none => rfl
    | some t => cases ht : t.isSpent <;> simp [Option.filter, ht]
  have names : (fun n => ((s.ticket? n).filter (·.isSpent)).isSome) = s.namesSpent := by
    funext n
    unfold State.namesSpent
    cases s.ticket? n with
    | none => rfl
    | some t => rw [Option.any_some, ← spent]; cases ht : t.isSpent <;> simp [Option.filter, ht]
  refine (congrArg (List.findSome? · s.tkt.spent) record).trans ?_
  rw [findSome?_eq_find?_bind, names]
  cases hf : s.tkt.spent.find? s.namesSpent with
  | none => rfl
  | some n =>
    have found := List.find?_some hf
    unfold State.namesSpent at found
    cases ht : s.ticket? n with
    | none => simp [ht] at found
    | some t =>
      rw [ht, Option.any_some, ← spent] at found
      simp [ht, found]

/-- The place an opening takes, by its free place or the record spent longest. -/
theorem State.openPlace?_eq (s : State) : s.openPlace? =
    match s.freePlace? with
    | some k => some (k, s.tkt)
    | none =>
      (s.tkt.spent.find? s.namesSpent).bind fun n =>
        (s.ticket? n).map fun gone =>
          (gone.place,
            { s.tkt with
              tickets := s.tkt.tickets.filter fun x => decide (x.number ≠ n)
              spent := s.tkt.spent.filter fun m => decide (m ≠ n) }) := by
  have differs (a b : Nat) : (a != b) = decide (a ≠ b) := by
    rw [Bool.eq_iff_iff]
    simp
  unfold State.openPlace?
  rw [State.oldestSpent?_eq]
  cases s.freePlace? with
  | some k => rfl
  | none =>
    cases s.tkt.spent.find? s.namesSpent with
    | none => rfl
    | some n =>
      cases ht : s.ticket? n with
      | none => simp [ht]
      | some t =>
        have number := s.ticket?_number n t ht
        simp only [Option.bind_some, ht, Option.map_some, number, differs]

theorem plateOption_eq (plate : Option Text) : plateOption plate = plate.bind normalisePlate := by cases plate <;> rfl

theorem textsOk_iff (customer plate : Option Text) : (customerOptionOk customer && plateOptionOk plate) = true ↔
    customer.any (fun c => !customerOk c) = false ∧ plate.isSome = (plate.bind normalisePlate).isSome := by
  have customerPart : customerOptionOk customer = true ↔ customer.any (fun c => !customerOk c) = false := by
    cases customer <;> simp [customerOptionOk]
  have platePart : plateOptionOk plate = true ↔ plate.isSome = (plate.bind normalisePlate).isSome := by
    cases plate with
    | none => simp [plateOptionOk]
    | some t => rw [plateOptionOk, Option.bind_some, Option.isSome_some, eq_comm]
  rw [Bool.and_eq_true, customerPart, platePart]

/-- Settles O34. -/
theorem ticketOpenMakesRecord : Obligations.TicketOpenMakesRecord := by
  rintro s p kind customer plate _ hr rfl
  refine ⟨fun unprintable => ?_, fun printable printable' => ⟨fun window bridge => ?_, fun may bad => ?_, ?_⟩⟩
  · refine request_refused hr ?_ (by decide) fun _ => by decide
    simp only [Tickets.open_, unprintable, Bool.not_false, if_true]
  · refine request_refused hr ?_ (by decide) fun _ => by decide
    simp only [Tickets.open_, printable, printable', Bool.and_true, Bool.not_true, Bool.false_eq_true, if_false, window, bridge, and_self,
      if_true]
  · have denied : ¬(p = .window ∧ kind = .bridge) := by rcases may with rfl | rfl <;> simp
    have unfit : (customerOptionOk customer && plateOptionOk plate) = false := by
      rw [Bool.eq_false_iff, ne_eq, textsOk_iff]
      rintro ⟨fits, same⟩
      rcases bad with bad | ⟨given, lost⟩
      · rw [fits] at bad
        cases bad
      · rw [given, Option.isNone_iff_eq_none.mp lost] at same
        cases same
    refine request_refused hr ?_ (by decide) fun _ => by decide
    simp only [Tickets.open_, printable, printable', Bool.and_true, Bool.not_true, Bool.false_eq_true, if_false, denied, unfit,
      Bool.not_false, if_true]
  · rintro may fits same chosen hchosen
    have denied : ¬(p = .window ∧ kind = .bridge) := by rcases may with rfl | rfl <;> simp
    have place : (s.taken p).openPlace? = chosen := by
      have free : (s.taken p).freePlace? = s.freePlace? := by simp only [State.freePlace?, State.taken_tkt]
      have spent : (s.taken p).namesSpent = s.namesSpent := by
        funext n
        simp only [State.namesSpent, State.ticket?_taken]
      rw [hchosen, State.openPlace?_eq, free, spent, ← State.freePlace?_eq]
      simp only [State.taken_tkt, State.ticket?_taken]
      cases s.freePlace? <;> rfl
    have rule : Tickets.open_ kind customer plate p (s.taken p) = (match (s.taken p).openPlace? with
        | none => refuse (s.taken p) .tableFull
        | some (place, table) =>
          done { s.taken p with tkt := table.openIn place kind customer (plate.bind normalisePlate) ⟨s.clu.now, s.clu.valid⟩ }
            ([.u24 (freeNumber table.tickets 49 table.counter), .u8 table.series] ++ optText (plate.bind normalisePlate))) := by
      simp only [Tickets.open_, printable, printable', Bool.and_true, Bool.not_true, Bool.false_eq_true, if_false, denied,
        (textsOk_iff customer plate).mpr ⟨fits, same⟩, plateOption_eq, State.stamp_taken] <;>
        cases (s.taken p).openPlace? <;> rfl
    rw [place] at rule
    clear place hchosen
    refine ⟨fun full => ?_, fun place table number free low high first => ?_⟩
    · rw [full] at rule
      exact request_refused hr rule (by decide) fun _ => by decide
    · rw [free] at rule
      have number_ : freeNumber table.tickets 49 table.counter = number := by
        refine freeNumber_of_find ?_
        rw [← first]
        refine congrArg (List.find? _) (List.map_congr_left fun i hi => ?_)
        exact (walk_eq_mod low high (List.mem_range.mp hi)).symm
      have opened : ∀ now, table.openIn place kind customer (plate.bind normalisePlate) now =
          { table with
            tickets := table.tickets ++ [newTicket place number table.series table.opening kind customer (plate.bind normalisePlate) now]
            counter := wrapping number 1 999999
            opening := wrapping table.opening 0 4294967295 } := fun now => by rw [Tkt.openIn, number_]
      dsimp only at rule
      rw [number_, opened] at rule
      exact request_done hr (by decide) (fun _ => by decide) rule (by simp) (by simp)

/-! Reopening, approval, void and resolution -/

@[simp] theorem State.pump_wch (s : State) : s.pump.wch = s.wch := by
  obtain ⟨r, k, e, h⟩ := s.pump_frame
  rw [h]

@[simp] theorem State.pump_dsu (s : State) : s.pump.dsu = s.dsu := by
  obtain ⟨r, k, e, h⟩ := s.pump_frame
  rw [h]

@[simp] theorem State.withdrawSlips_wch (s : State) (ref : TicketRef) : (s.withdrawSlips ref).wch = s.wch := by
  obtain ⟨r, k, e, h⟩ := s.withdrawSlips_frame ref
  rw [h]

@[simp] theorem State.withdrawSlips_dsu (s : State) (ref : TicketRef) : (s.withdrawSlips ref).dsu = s.dsu := by
  obtain ⟨r, k, e, h⟩ := s.withdrawSlips_frame ref
  rw [h]

theorem withoutStoredLine_eq (lines : List TicketLine) : withoutStoredLine lines =
    if lines.getLast?.any (fun l => decide (l.source = .stored)) then lines.dropLast else lines := by
  unfold withoutStoredLine
  cases lines.getLast? <;> simp

theorem Owed.dropSlip_eq (o : Owed) (now : Stamp) : o.dropSlip now =
    ⟨0, o.copies, o.notice, if o.copies + o.notice = 0 then none else if o.total = 0 then some now else o.since⟩ := by
  simp [Owed.dropSlip, Owed.become]

theorem voidable_iff (p : Port) (st : TicketSt) : voidable p st = true ↔
    st = .opened ∨ st = .weighing ∨ (p = .office ∧ (st = .complete ∨ st = .settled ∨ st = .held)) := by
  cases p <;> simp [voidable, or_assoc]

/-- Settles O38. -/
theorem reopenApproveVoidResolve : Obligations.ReopenApproveVoidResolve := by
  refine ⟨?_, ?_⟩
  · rintro s n t now hr held rfl
    have found : (s.taken .office).ticket? n = some t := by rw [State.ticket?_taken]; exact held
    refine ⟨?_, ?_, fun c1 c2 c3 => ?_, ?_, ?_⟩
    · rintro complete after rfl
      refine request_done (p := .office) hr (by decide) nofun ?_ (by simp) (by simp)
      have same : Ticket.reweigh = fun x => { x with
          st := .weighing, approved := false
          lines := if x.lines.getLast?.any (fun l => decide (l.source = .stored)) then x.lines.dropLast else x.lines } := by
        funext x
        rw [Ticket.reweigh, withoutStoredLine_eq]
      simp only [Tickets.reopen, withTicket_found found, complete, same]
      rfl
    · rintro settled after rfl
      refine request_done (p := .office) hr (by decide) nofun ?_ (by simp) (by simp)
      have same : (fun x : Ticket => x.unsettle ⟨s.clu.now, s.clu.valid⟩) = fun x => { x with
          st := .complete, settlement := none, needsApproval := false, approved := false, payout := none
          lines := x.lines.map fun l => { l with figures := none }
          owed :=
            ⟨0, x.owed.copies, x.owed.notice,
              if x.owed.copies + x.owed.notice = 0 then none else if x.owed.total = 0 then some ⟨s.clu.now, s.clu.valid⟩
                else x.owed.since⟩ } := by
        funext x
        rw [Ticket.unsettle, Owed.dropSlip_eq]
      rw [Tickets.reopen, withTicket_found found]
      rcases settled with st | st <;> simp only [st, State.stamp_taken, same] <;> rfl
    · refine request_refused (p := .office) hr ?_ (by decide) nofun
      rw [Tickets.reopen, withTicket_found found]
      cases hst : t.st <;> first | rfl | contradiction
    · rintro after rfl
      have rule : Tickets.approve n .office (s.taken .office) =
          if t.st = .settled ∨ t.st = .held then
            let s1 := (s.taken .office).changeTicket n fun t => { t with approved := true }
            done s1 [.u8 (s1.revision n)]
          else refuse (s.taken .office) .wrongState := by
        rw [Tickets.approve, withTicket_found found]
        by_cases settled : t.st = .settled ∨ t.st = .held
        · rw [if_pos settled, if_neg (not_and_or.mpr (settled.imp not_not.mpr not_not.mpr))]
        · rw [if_neg settled, if_pos (not_or.mp settled)]
      split
      · rename_i settled
        exact request_done (p := .office) hr (by decide) nofun (rule.trans (if_pos settled)) (by simp) (by simp)
      · rename_i other
        exact request_refused (p := .office) hr (rule.trans (if_neg other)) (by decide) nofun
    · rintro h after rfl
      have rule : Tickets.resolve n h .office (s.taken .office) =
          if t.st ≠ .disputed then refuse (s.taken .office) .wrongState
          else if t.presented < h then refuse (s.taken .office) .badParam
          else
            let s1 := ((s.taken .office).changeTicket n fun t => t.resolved h ⟨s.clu.now, s.clu.valid⟩).pump
            done s1 [.u32 h, .u32 (t.cash - h), .u8 (s1.revision n)] := by
        rw [Tickets.resolve, withTicket_found found]
        simp only [State.stamp_taken]
      split
      · rename_i other
        exact request_refused (p := .office) hr (rule.trans (if_pos other)) (by decide) nofun
      · rename_i disputed
        rw [if_neg disputed] at rule
        split
        · rename_i above
          exact request_refused (p := .office) hr (rule.trans (if_pos above)) (by decide) nofun
        · rename_i within
          exact request_done (p := .office) hr (by decide) nofun (rule.trans (if_neg within)) (by simp) (by simp)
  · rintro s p n t now after hr held rfl rfl
    have found : (s.taken p).ticket? n = some t := by rw [State.ticket?_taken]; exact held
    have rule : Tickets.void n p (s.taken p) =
        if p = .window ∧ t.kind = .bridge then refuse (s.taken p) .wrongPort
        else if voidable p t.st = true then
          let s1 := ((s.taken p).changeTicket n fun t => t.voided ⟨s.clu.now, s.clu.valid⟩).withdrawSlips t.ref
          done s1 [.u8 (s1.revision n)]
        else refuse (s.taken p) .wrongState := by
      rw [Tickets.void, withTicket_found found]
      simp only [State.stamp_taken]
      cases voidable p t.st <;> rfl
    simp only [voidable_iff] at rule
    split
    · rename_i denied
      exact request_refused hr (rule.trans (if_pos denied)) (by decide) fun _ => by decide
    · rename_i may
      rw [if_neg may] at rule
      split
      · rename_i live
        exact request_done hr (by decide) (fun _ => by decide) (rule.trans (if_pos live)) (by simp) (by simp)
      · rename_i other
        exact request_refused hr (rule.trans (if_neg other)) (by decide) fun _ => by decide

/-! The start of a payout -/

theorem startedRecord_eq (old : Option PayoutRecord) (planned : Nat) (pieces : List Nat) (last : Option PayoutEnd) :
    startedRecord old planned pieces last = ⟨planned, pieces, 0, 0, 0, 0, 0, 0, (match old with
      | some r => min (r.attempts + 1) 255
      | none => 1), last⟩ := by
  cases old <;> simp [startedRecord, saturating_eq_min]

/-- A change of a record and a change of the payout unit do not meet. -/
theorem State.changeTicket_pyu_comm (s : State) (n : Nat) (f : Ticket → Ticket) (u : Pyu) :
    ({ s with pyu := u } : State).changeTicket n f = { s.changeTicket n f with pyu := u } := by
  have same : ({ s with pyu := u } : State).ticket? n = s.ticket? n := rfl
  unfold State.changeTicket
  rw [same]
  cases s.ticket? n <;> rfl

theorem State.startRefusal_eq (s : State) (p : Port) (plan : Plan) (accept : Bool) : s.startRefusal p plan accept = firstFailing
    [ (decide (s.pyu.disp = .doorOpen), .doorOpen),
      (decide (s.pyu.disp ≠ .idle ∨ s.pyu.slot.map (·.1) = some p.other), .unitBusy),
      (decide (s.pyu.slot.map (·.1) = some p), .outcomeUnread), (decide (16 ≤ s.pyu.log.length), .retractFull),
      ((decide (plan.rest ≠ 0) && !accept) || plan.steps.isEmpty, .cannotMake) ] := by
  simp only [State.startRefusal, firstFailing, heldFor_eq, decide_eq_true_eq, Bool.or_eq_true, Bool.and_eq_true, List.isEmpty_iff]

/-- Settles O45. -/
theorem payoutStarts : Obligations.PayoutStarts := by
  rintro s p n accept t plan planned attempts pieces hr held rfl rfl rfl rfl
  have found : (s.taken p).ticket? n = some t := by rw [State.ticket?_taken]; exact held
  have claimed (st : t.st = .claimed) (mine : t.claim.map (·.port) = some p) : ¬(t.st ≠ .claimed ∨ t.claimant ≠ some p) := by
    simp [st, Ticket.claimant, mine]
  refine ⟨fun other => ?_, fun st mine zero => ?_, fun st mine pos => ?_⟩
  · refine request_refused hr ?_ (by decide) fun _ => by decide
    rw [Cash.payoutStart, withTicket_found found]
    exact if_pos (not_and_or.mp other)
  · have rule : Cash.payoutStart n accept p (s.taken p) =
        done ((s.taken p).changeTicket n fun x => x.payNothing ⟨s.clu.now, s.clu.valid⟩).pump := by
      rw [Cash.payoutStart, withTicket_found found, if_neg (claimed st mine), if_pos zero, State.stamp_taken]
    rw [State.changeTicket_congr _ found (g := fun x => { x with
      st := .paid, claim := none, lapse := none
      owed := x.owed.become x.owed.slip 2 x.owed.notice ⟨s.clu.now, s.clu.valid⟩
      payout := some ⟨0, [0, 0, 0, 0, 0, 0], 0, 0, 0, 0, 0, 0, (match t.payout with
        | some r => min (r.attempts + 1) 255
        | none => 1), some .paid⟩ }) (by rw [Ticket.payNothing, startedRecord_eq]; rfl)] at rule
    exact request_done hr (by decide) (fun _ => by decide) rule (by simp) (by simp)
  · have refusal := (s.taken p).startRefusal_eq p (makePlan s.pyu.stores t.cash 50 100) accept
    rw [State.taken_pyu] at refusal
    split
    · rename_i code failed
      have rule : Cash.payoutStart n accept p (s.taken p) = refuse (s.taken p) code (if code = .cannotMake then
          .u32 (t.cash - (makePlan s.pyu.stores t.cash 50 100).rest) ::
            (piecesOf (makePlan s.pyu.stores t.cash 50 100).steps).map .u16
          else []) := by
        rw [Cash.payoutStart, withTicket_found found, if_neg (claimed st mine), if_neg pos.ne']
        simp only [State.taken_pyu, refusal, failed]
        cases code <;> rfl
      exact request_told s p 0x53 _ code _ hr (by decide) (fun _ => by decide) rule
    · rename_i passed
      rintro i k rest steps
      have first : (makePlan s.pyu.stores t.cash 50 100).firstPick = some (.pick i) := by rw [Plan.firstPick, steps]
      have started := State.changeTicket_congr (s.taken p) found
        (f := fun x => x.startPaying (t.cash - (makePlan s.pyu.stores t.cash 50 100).rest)
          (piecesOf (makePlan s.pyu.stores t.cash 50 100).steps))
        (g := fun x => { x with
          st := .paying, lapse := none
          payout := some ⟨t.cash - (makePlan s.pyu.stores t.cash 50 100).rest, piecesOf (makePlan s.pyu.stores t.cash 50 100).steps,
            0, 0, 0, 0, 0, 0, (match t.payout with
              | some r => min (r.attempts + 1) 255
              | none => 1), none⟩ }) (by rw [Ticket.startPaying, startedRecord_eq])
      have rule : Cash.payoutStart n accept p (s.taken p) =
          ({ (s.taken p).changeTicket n (fun x => x.startPaying (t.cash - (makePlan s.pyu.stores t.cash 50 100).rest)
                (piecesOf (makePlan s.pyu.stores t.cash 50 100).steps)) with
              pyu := { s.pyu with
                payout := some (newPayout n p t.cash (makePlan s.pyu.stores t.cash 50 100)), disp := .picking,
                command := some (.pick i) } },
            ⟨.started, [.u24 n, .u32 (t.cash - (makePlan s.pyu.stores t.cash 50 100).rest)] ++
              (piecesOf (makePlan s.pyu.stores t.cash 50 100).steps).map .u16 ++
              [.u32 (t.cash - (t.cash - (makePlan s.pyu.stores t.cash 50 100).rest))]⟩) := by
        rw [Cash.payoutStart, withTicket_found found, if_neg (claimed st mine), if_neg pos.ne']
        simp only [State.taken_pyu, refusal, passed, State.changeTicket_pyu, first]
      rw [started, ← State.changeTicket_pyu_comm] at rule
      exact request_done hr (by decide) (fun _ => by decide) rule (by simp) (by simp)

end Sys2Proof.Machine
end

