-- ==== Sys2Proof/Proofs/TicketFinish.lean ====
section
/-! PROOFS. The finish of a ticket, with the stored tare it uses or the tare it stores: O37. -/

namespace Sys2Proof.Machine

/-! Checks one by one -/

/-- Two ladders of checks agree check by check. -/
theorem check_congr {α : Type} {c c' : Prop} [Decidable c] [Decidable c'] {a x y : α} (same : c ↔ c') (rest : ¬c' → x = y) :
    (if c then a else x) = if c' then a else y := by
  by_cases h : c'
  · rw [if_pos (same.mpr h), if_pos h]
  · rw [if_neg fun hc => h (same.mp hc), if_neg h, rest h]

/-- Two checks with one answer are one check. -/
theorem check_or {α : Type} (c d : Prop) [Decidable c] [Decidable d] (a x : α) :
    (if c then a else if d then a else x) = if c ∨ d then a else x := by
  by_cases hc : c <;> simp [hc]

/-! Stored tares -/

theorem replaced_eq {α : Type} (new old : Option α) : replaced new old = new.or old := by cases new <;> rfl

theorem State.tareFault_isNone (s : State) (e : TareEntry) : (s.tareFault e).isNone =
    (s.clu.valid && e.storedAt.valid && decide (s.clu.now.date.number - e.storedAt.time.date.number ≤ s.grt.limits.tareValidity)) := by
  have age : s.tareAge e = s.clu.now.date.number - e.storedAt.time.date.number := rfl
  unfold State.tareFault
  rw [age]
  cases s.clu.valid <;> cases e.storedAt.valid <;> simp only [Bool.not_true, Bool.not_false, Bool.false_eq_true, if_true, if_false,
    Bool.and_true, Bool.and_false, Bool.true_and, Bool.false_and, Option.isNone_some]
  split
  · rename_i old
    rw [decide_eq_false (not_le.mpr old), Option.isNone_some]
  · rename_i young
    rw [decide_eq_true (not_lt.mp young), Option.isNone_none]

theorem State.usableTare?_eq (s : State) (q : Text) :
    s.usableTare? q = (s.vtr.find? fun e => decide (e.plate = q)).filter fun e => (s.tareFault e).isNone := by
  have same : s.tare? q = s.vtr.find? fun e => decide (e.plate = q) := by
    refine congrArg (List.find? · s.vtr) (funext fun e => ?_)
    rw [Bool.eq_iff_iff]
    simp
  unfold State.usableTare?
  rw [same]
  cases s.vtr.find? fun e => decide (e.plate = q) with
  | none => rfl
  | some e => simp [Option.filter]

@[simp] theorem State.usableTare?_taken (s : State) (p : Port) (q : Text) : (s.taken p).usableTare? q = s.usableTare? q := by
  simp only [State.usableTare?_eq, State.tareFault_isNone, State.taken_vtr, State.taken_clu, State.taken_grt]

/-- What the register does with a tare handed over by a finish (R118, R119). -/
theorem State.storeFromFinish_eq {s : State} (q : Text) {w : Weighing} {set : ChannelSettings} {vtr : List TareEntry} {now : Stamp}
    (hset : (s.chan w.channel).set = set) (hvtr : s.vtr = vtr) (hnow : s.stamp = now) : s.storeFromFinish q w =
    ({ s with
        vtr :=
          if w.division ≠ set.d ∨ w.calCounter ≠ set.calCounter then vtr
          else storeTare vtr ⟨q, w.weight, w.bridge, w.division, now, now, 0⟩ },
      if w.division ≠ set.d ∨ w.calCounter ≠ set.calCounter then .u8 1 :: optText none
      else if (vtr.map (·.plate)).contains q then .u8 2 :: optText none
      else if vtr.length < 32 then .u8 3 :: optText none
      else .u8 3 :: optText (vtr.head?.map (·.plate))) := by
  subst hset hvtr hnow
  unfold State.storeFromFinish State.storeResult
  dsimp only
  by_cases stale : w.division ≠ (s.chan w.channel).set.d ∨ w.calCounter ≠ (s.chan w.channel).set.calCounter
  · simp only [if_pos stale] <;> rfl
  · have held : (s.tare? q).isSome = (s.vtr.map (·.plate)).contains q := tare_held s.vtr q
    simp only [if_neg stale, held, evicted?_eq]
    cases (s.vtr.map (·.plate)).contains q with
    | true => simp [StoreResult.code, freshTare]
    | false =>
      by_cases room : s.vtr.length < 32
      · simp [StoreResult.code, freshTare, room]
      · simp [StoreResult.code, freshTare, room]

/-! The checks of a finish -/

/-- The first five checks of R74, as the model orders them. -/
theorem Tickets.finish_checks {s : State} {n : Nat} {t : Ticket} (found : s.ticket? n = some t) {customer plate : Option Text}
    (printable : printableOption customer = true) (printable' : printableOption plate = true) (used stored : Bool) (p : Port) :
    Tickets.finish n used stored customer plate p s = s.checked
      [ (decide (p = .window ∧ t.kind = .bridge), .wrongPort), (decide (t.st ≠ .weighing), .wrongState),
        ((decide (t.kind = .counter) && (used || stored)) || (used && stored)
          || customer.any (fun c => !customerOk c) || (plate.isSome && (plate.bind normalisePlate).isNone), .badParam),
        ((match t.kind with
          | .bridge => if used then t.weighings.isEmpty else decide (t.weighings.length < 2)
          | .counter => t.lines.isEmpty), .wrongState),
        (stored && ((plate.bind normalisePlate).or t.plate).isNone, .badParam) ]
      (if used then Tickets.finishStored s n t customer (plate.bind normalisePlate)
        else Tickets.finishPlain s n t (if stored then (plate.bind normalisePlate).or t.plate else none) customer
          (plate.bind normalisePlate)) := by
  have texts : (!(customerOptionOk customer && plateOptionOk plate)) = true ↔
      customer.any (fun c => !customerOk c) = true ∨ (plate.isSome && (plate.bind normalisePlate).isNone) = true := by
    rw [Bool.not_eq_true', Bool.eq_false_iff, ne_eq, textsOk_iff]
    cases customer.any (fun c => !customerOk c) <;> cases plate <;> simp
    all_goals cases normalisePlate _ <;> simp
  have few : t.tooFew used = (match t.kind with
      | .bridge => if used then t.weighings.isEmpty else decide (t.weighings.length < 2)
      | .counter => t.lines.isEmpty) := rfl
  rw [Tickets.finish, printable, printable', if_neg (by decide), withTicket_found found]
  simp only [afterChecks_cons, afterChecks_nil, plateOption_eq, replaced_eq, ← few]
  refine check_congr decide_eq_true_iff.symm fun _ => check_congr decide_eq_true_iff.symm fun _ => ?_
  rw [check_or]
  refine check_congr ?_ fun _ => check_congr Iff.rfl fun _ => check_congr ?_ fun _ => rfl
  · rw [texts]
    simp only [Bool.or_eq_true, Bool.and_eq_true, decide_eq_true_eq, or_assoc]
  · rw [Bool.and_eq_true, Option.isNone_iff_eq_none]

/-- A finish taken with a stored tare: the final line joins the record, the register notes the use, and the answer (R75, R120). -/
def State.finishedWith (s : State) (n : Nat) (t : Ticket) (customer plate : Option Text) (w : Weighing) (e : TareEntry) : State × Reply :=
  done { s.changeTicket n (fun t => t.finished customer plate [storedLine w e]) with vtr := useTare s.vtr e s.stamp }
    ([.u8 (t.lines.length + 1), .u8 ((s.changeTicket n fun t => t.finished customer plate [storedLine w e]).revision n), .u8 0] ++
      optText none)

@[simp] theorem State.changeTicket_vtr (s : State) (n : Nat) (f : Ticket → Ticket) : (s.changeTicket n f).vtr = s.vtr := by
  obtain ⟨k, h⟩ := s.changeTicket_frame n f
  rw [h]

/-- Past those checks with STORED_TARE: NO_TARE, LIST_FULL, NO_DROP, and the final line (R75). -/
theorem Tickets.finishStored_eq {s : State} {n : Nat} {t : Ticket} {customer plate : Option Text} {w : Weighing}
    (last : t.weighings.getLast? = some w) : Tickets.finishStored s n t customer plate =
      match (plate.or t.plate).bind s.usableTare? with
      | none => refuse s .noTare
      | some e =>
        if 8 ≤ t.lines.length then refuse s .listFull
        else if w.weight - e.tare < (e.division : Int) then refuse s .noDrop
        else s.finishedWith n t customer plate w e := by
  unfold Tickets.finishStored State.finishedWith
  rw [last, replaced_eq]
  cases (plate.or t.plate).bind s.usableTare? with
  | none => rfl
  | some e => simp only [State.changeTicket_vtr] <;> rfl

theorem firstFailing_none {checks : List (Bool × Status)} (h : firstFailing checks = none) : ∀ x ∈ checks, x.1 = false := by
  induction checks with
  | nil => exact fun x hx => absurd hx List.not_mem_nil
  | cons y rest ih =>
    unfold firstFailing at h
    split at h
    · cases h
    · rename_i fine
      intro x hx
      rcases List.mem_cons.mp hx with rfl | hx
      · exact Bool.eq_false_iff.mpr fine
      · exact ih h x hx

theorem Ticket.finished_eq (t : Ticket) (customer plate : Option Text) (final : List TicketLine) : t.finished customer plate final =
    { t with st := .complete, customer := customer.or t.customer, plate := plate.or t.plate, lines := t.lines ++ final } := by
  rw [Ticket.finished, replaced_eq, replaced_eq]

@[simp] theorem State.changeTicket_clu (s : State) (n : Nat) (f : Ticket → Ticket) : (s.changeTicket n f).clu = s.clu := by
  obtain ⟨k, h⟩ := s.changeTicket_frame n f
  rw [h]

@[simp] theorem State.chan_changeTicket (s : State) (n : Nat) (f : Ticket → Ticket) (ch : Channel) :
    (s.changeTicket n f).chan ch = s.chan ch := by
  cases ch <;> simp [State.chan]

/-- A finish that neither fails for its weighings nor asks for two things at once has a last weighing. -/
theorem last_of_finish {t : Ticket} {used stored : Bool} (tares : used = true ∨ stored = true)
    (one : (decide (t.kind = .counter) && (used || stored)) = false)
    (enough : (match t.kind with
      | .bridge => if used then t.weighings.isEmpty else decide (t.weighings.length < 2)
      | .counter => t.lines.isEmpty) = false) : ∃ w, t.weighings.getLast? = some w := by
  have asks : (used || stored) = true := by simpa using tares
  rw [asks, Bool.and_true, decide_eq_false_iff_not] at one
  cases hk : t.kind with
  | counter => exact absurd hk one
  | bridge =>
    rw [hk] at enough
    cases hw : t.weighings.getLast? with
    | some w => exact ⟨w, rfl⟩
    | none =>
      rw [List.getLast?_eq_none_iff.mp hw] at enough
      cases used <;> cases enough

/-- Settles O37. -/
theorem ticketFinishCompletes : Obligations.TicketFinishCompletes := by
  refine ⟨fun s p n used stored customer plate hr unprintable => ?_, ?_⟩
  · refine request_refused hr ?_ (by decide) fun _ => by decide
    simp only [Tickets.finish, unprintable, Bool.not_false, if_true]
  rintro s p n used stored customer plate _ _ t entry _ number usable hr held hnumber husable printable printable' rfl rfl hentry rfl
  have found : (s.taken p).ticket? n = some t := by rw [State.ticket?_taken]; exact held
  have days : number = Date.number := by
    rw [hnumber]
    funext d
    exact d.number_eq.symm
  have fresh : usable = fun e => (s.tareFault e).isNone := by
    rw [husable]
    funext e
    rw [State.tareFault_isNone, days]
  have entry_ : entry = ((plate.bind normalisePlate).or t.plate).bind s.usableTare? := by
    rw [hentry, fresh]
    refine congrArg (Option.bind _) (funext fun q => ?_)
    rw [State.usableTare?_eq]
  have first := Tickets.finish_checks found printable printable' used stored p
  clear hentry fresh husable hnumber days
  cases used with
  | true =>
    have rule : Tickets.finish n true stored customer plate p (s.taken p) = (s.taken p).checked
        [ (decide (p = .window ∧ t.kind = .bridge), .wrongPort), (decide (t.st ≠ .weighing), .wrongState),
          ((decide (t.kind = .counter) && (true || stored)) || (true && stored)
            || customer.any (fun c => !customerOk c) || (plate.isSome && (plate.bind normalisePlate).isNone), .badParam),
          ((match t.kind with
            | .bridge => if true then t.weighings.isEmpty else decide (t.weighings.length < 2)
            | .counter => t.lines.isEmpty), .wrongState),
          (stored && ((plate.bind normalisePlate).or t.plate).isNone, .badParam), (true && entry.isNone, .noTare),
          (true && decide (8 ≤ t.lines.length), .listFull),
          (true && (entry.any fun e => t.weighings.getLast?.any fun w => decide (w.weight - e.tare < (e.division : Int))), .noDrop) ]
        ((entry.bind fun e => t.weighings.getLast?.map fun w =>
          (s.taken p).finishedWith n t customer (plate.bind normalisePlate) w e).getD (refuse (s.taken p) .noTare)) := by
      rw [first, entry_]
      simp only [afterChecks_cons, afterChecks_nil]
      refine check_congr Iff.rfl fun _ => check_congr Iff.rfl fun _ => check_congr Iff.rfl fun fit => check_congr Iff.rfl fun enough =>
        check_congr Iff.rfl fun _ => ?_
      simp only [Bool.or_eq_true, not_or, Bool.not_eq_true] at fit enough
      obtain ⟨⟨⟨one, -⟩, -⟩, -⟩ := fit
      obtain ⟨w, last⟩ := last_of_finish (.inl rfl) one enough
      have usable (q : Text) : (s.taken p).usableTare? q = s.usableTare? q := s.usableTare?_taken p q
      rw [if_true, Tickets.finishStored_eq last, funext usable, last]
      cases ((plate.bind normalisePlate).or t.plate).bind s.usableTare? with
      | none => rfl
      | some e => simp
    split
    · rename_i c failed
      exact request_fails hr (by decide) (fun _ => by decide) rule failed
    · rename_i passed
      have fine := firstFailing_none passed
      have one := fine _ (.tail _ (.tail _ (.head _)))
      have enough := fine _ (.tail _ (.tail _ (.tail _ (.head _))))
      have some_ := fine _ (.tail _ (.tail _ (.tail _ (.tail _ (.tail _ (.head _))))))
      simp only [Bool.or_eq_false_iff] at one
      obtain ⟨⟨⟨one, two⟩, -⟩, -⟩ := one
      obtain ⟨w, last⟩ := last_of_finish (.inl rfl) one enough
      obtain ⟨e, given⟩ : ∃ e, entry = some e := by
        rw [Bool.true_and] at some_
        exact Option.ne_none_iff_exists'.mp fun none_ => by rw [none_] at some_; cases some_
      have stored_ : stored = false := by simpa using two
      rintro final register now after rfl hfinal hregister hafter
      rw [last, given] at hfinal hregister
      rw [last, given] at rule
      have one_line : final = [storedLine w e] := hfinal
      have used_ : register = ((s.vtr.filter fun x => decide (x.plate ≠ e.plate)) ++
          [{ e with lastUsedAt := ⟨s.clu.now, s.clu.valid⟩, uses := min (e.uses + 1) 65535 }], 0, none) := hregister
      rw [hafter, one_line, used_]
      have kept : useTare s.vtr e ⟨s.clu.now, s.clu.valid⟩ = (s.vtr.filter fun x => decide (x.plate ≠ e.plate)) ++
          [{ e with lastUsedAt := ⟨s.clu.now, s.clu.valid⟩, uses := min (e.uses + 1) 65535 }] := by
        rw [useTare, withoutPlate_eq, saturating_eq_min]
      have done_ := rule.trans (afterChecks_none (by rw [← given, ← last]; exact passed))
      simp only [Option.bind_some, Option.map_some, Option.getD_some, State.finishedWith, State.taken_vtr, State.stamp_taken,
        Ticket.finished_eq, kept] at done_
      exact request_done hr (by decide) (fun _ => by decide) done_ (by simp) (by simp)
  | false =>
    have rule : Tickets.finish n false stored customer plate p (s.taken p) = (s.taken p).checked
        [ (decide (p = .window ∧ t.kind = .bridge), .wrongPort), (decide (t.st ≠ .weighing), .wrongState),
          ((decide (t.kind = .counter) && (false || stored)) || (false && stored)
            || customer.any (fun c => !customerOk c) || (plate.isSome && (plate.bind normalisePlate).isNone), .badParam),
          ((match t.kind with
            | .bridge => if false then t.weighings.isEmpty else decide (t.weighings.length < 2)
            | .counter => t.lines.isEmpty), .wrongState),
          (stored && ((plate.bind normalisePlate).or t.plate).isNone, .badParam), (false && entry.isNone, .noTare),
          (false && decide (8 ≤ t.lines.length), .listFull),
          (false && (entry.any fun e => t.weighings.getLast?.any fun w => decide (w.weight - e.tare < (e.division : Int))), .noDrop) ]
        (Tickets.finishPlain (s.taken p) n t (if stored then (plate.bind normalisePlate).or t.plate else none) customer
          (plate.bind normalisePlate)) := by
      rw [first]
      simp only [afterChecks_cons, afterChecks_nil, Bool.false_and, Bool.false_eq_true, if_false]
    split
    · rename_i c failed
      exact request_fails hr (by decide) (fun _ => by decide) rule failed
    · rename_i passed
      have fine := firstFailing_none passed
      have taken := rule.trans (afterChecks_none passed)
      rintro final register now after rfl hfinal hregister hafter
      have none_ : final = [] := hfinal
      rw [hafter, none_]
      cases stored with
      | false =>
        have kept : register = (s.vtr, 0, none) := hregister
        rw [kept]
        simp only [Bool.false_eq_true, if_false, Tickets.finishPlain, Ticket.finished_eq] at taken
        obtain ⟨k, frame⟩ := (s.taken p).changeTicket_frame n fun x => { x with
          st := .complete, customer := customer.or x.customer, plate := (plate.bind normalisePlate).or x.plate, lines := x.lines ++ [] }
        rw [frame] at taken ⊢
        simp only [← State.taken_vtr s p]
        exact request_done hr (by decide) (fun _ => by decide) taken (by simp) (by simp)
      | true =>
        have one := fine _ (.tail _ (.tail _ (.head _)))
        have enough := fine _ (.tail _ (.tail _ (.tail _ (.head _))))
        have named := fine _ (.tail _ (.tail _ (.tail _ (.tail _ (.head _)))))
        simp only [Bool.or_eq_false_iff] at one
        obtain ⟨⟨⟨one, -⟩, -⟩, -⟩ := one
        obtain ⟨w, last⟩ := last_of_finish (.inr rfl) one enough
        obtain ⟨q, plate_⟩ : ∃ q, (plate.bind normalisePlate).or t.plate = some q := by
          rw [Bool.true_and] at named
          exact Option.ne_none_iff_exists'.mp fun none_ => by rw [none_] at named; cases named
        rw [last, plate_] at hregister
        rw [if_pos rfl, plate_] at taken
        have stores := State.storeFromFinish_eq (s := (s.taken p).changeTicket n fun t => t.finished customer (plate.bind normalisePlate) [])
          q (w := w) (set := (s.chan w.channel).set) (vtr := s.vtr) (now := ⟨s.clu.now, s.clu.valid⟩) (by simp) (by simp)
          (by simp [State.stamp])
        simp only [Tickets.finishPlain, last, stores] at taken
        simp only [Ticket.finished_eq, storeTare_eq] at taken
        have stored_ : register =
            if w.division ≠ (s.chan w.channel).set.d ∨ w.calCounter ≠ (s.chan w.channel).set.calCounter then (s.vtr, 1, none)
            else if (s.vtr.map (·.plate)).contains q then
              ((s.vtr.filter fun x => decide (x.plate ≠ q)) ++
                [⟨q, w.weight, w.bridge, w.division, ⟨s.clu.now, s.clu.valid⟩, ⟨s.clu.now, s.clu.valid⟩, 0⟩], 2, none)
            else if s.vtr.length < 32 then
              (s.vtr ++ [⟨q, w.weight, w.bridge, w.division, ⟨s.clu.now, s.clu.valid⟩, ⟨s.clu.now, s.clu.valid⟩, 0⟩], 3, none)
            else
              (s.vtr.tail ++ [⟨q, w.weight, w.bridge, w.division, ⟨s.clu.now, s.clu.valid⟩, ⟨s.clu.now, s.clu.valid⟩, 0⟩], 3,
                s.vtr.head?.map (·.plate)) := hregister
        have given := request_done (kind := 0x47) hr (by decide) (fun _ => by decide) taken (by simp) (by simp)
        refine Eq.trans given ?_
        rw [stored_]
        split
        · rfl
        · split
          · rfl
          · by_cases room : s.vtr.length < 32
            · simp only [if_pos room, if_neg (not_le.mpr room)] <;> rfl
            · simp only [if_neg room, if_pos (not_lt.mp room)] <;> rfl

end Sys2Proof.Machine
end

