-- ==== Sys2Proof/Proofs/CashOperations.lean ====
section
/-! PROOFS. What the end of a payout and of a recovery leaves, and the dispenser's reports that lead there: O48, O49. -/

namespace Sys2Proof.Machine

/-! Flags and alerts -/

@[simp] theorem State.alerts_latch (s : State) (p : Port) (f : EventFlag) : (s.latch p f).evu.alerts = s.evu.alerts := by cases p <;> rfl

/-- A source marked latches ALERT to both ports where it was not latched before, and no other flag. -/
theorem State.has_markAlert (s : State) (src : AlertSource) (p : Port) (f : EventFlag) :
    ((s.markAlert src).events p).has f =
      ((s.events p).has f || (decide (f = .alert) && (s.evu.alerts.get src).latch.isNone)) := by
  cases h : (s.evu.alerts.get src).latch with
  | some x => simp [s.markAlert_latched src x h]
  | none =>
    have kept : (s.setAlert src { s.evu.alerts.get src with latch := some s.stamp }).events p = s.events p := by cases p <;> rfl
    rw [State.markAlert_new h, State.has_latchBoth, kept]
    simp

theorem State.markAlert_keeps {s : State} {p : Port} {f : EventFlag} (src : AlertSource) (h : (s.events p).has f = true) :
    ((s.markAlert src).events p).has f = true := by rw [State.has_markAlert, h, Bool.true_or]

/-- The record of a source marked holds its first stamp, or else that of the moment. -/
theorem State.alert_marked (s : State) (src : AlertSource) :
    (s.markAlert src).evu.alerts.get src =
      ⟨some ((s.evu.alerts.get src).latch.getD s.stamp), (s.evu.alerts.get src).enabled⟩ := by
  rw [State.alert_markAlert]
  rcases h : s.evu.alerts.get src with ⟨latch, enabled⟩
  cases latch <;> simp

/-! The queue filled and its head started -/

theorem State.recordEnd_alerts (s : State) (j : Job) (r : JobEnd) : (s.recordEnd j r).evu.alerts = s.evu.alerts := by
  unfold State.recordEnd
  dsimp only
  cases j.source with
  | auto => rfl
  | port q => exact State.alerts_latch _ _ _

theorem State.fill_evu (s : State) : s.fill.evu = s.evu := by
  obtain ⟨r, h⟩ := s.fill_frame
  rw [h]

theorem State.firstStart_evu (s : State) (j : Job) (rest : List Job) (t : Ticket) : (s.firstStart j rest t).evu = s.evu := by
  obtain ⟨r, k, h⟩ := s.firstStart_frame j rest t
  rw [h]

theorem startHead_alerts (n : Nat) (s : State) : (startHead n s).evu.alerts = s.evu.alerts := by
  induction n generalizing s with
  | zero => rfl
  | succ n ih =>
    unfold startHead
    cases s.rpu.queue with
    | nil => rfl
    | cons j rest =>
      dsimp only
      split
      · split
        · rfl
        · cases s.jobTicket? j with
          | some t => exact congrArg Evu.alerts (s.firstStart_evu j rest t)
          | none => exact (ih _).trans ((congrArg Evu.alerts (State.fill_evu _)).trans (State.recordEnd_alerts _ _ _))
      · rfl

theorem State.pump_alerts (s : State) : s.pump.evu.alerts = s.evu.alerts :=
  (startHead_alerts 16 s.fill).trans (congrArg Evu.alerts s.fill_evu)

/-- A flag latched stays latched while the queue is filled and its head started. -/
theorem startHead_keeps {n : Nat} {s : State} {p : Port} {f : EventFlag} (h : (s.events p).has f = true) :
    ((startHead n s).events p).has f = true := by
  induction n generalizing s with
  | zero => exact h
  | succ n ih =>
    unfold startHead
    cases s.rpu.queue with
    | nil => exact h
    | cons j rest =>
      dsimp only
      split
      · split
        · cases p <;> exact h
        · cases s.jobTicket? j with
          | some t => exact (congrArg (EventSet.has · f) (s.firstStart_events j rest t p)).trans h
          | none =>
            refine ih ?_
            rw [State.fill_events]
            unfold State.recordEnd
            dsimp only
            cases j.source with
            | auto =>
              rw [State.has_latchBoth]
              cases p <;> exact Bool.or_eq_true_iff.mpr (.inl h)
            | port q =>
              rw [State.has_latch]
              cases p <;> exact Bool.or_eq_true_iff.mpr (.inl h)
      · exact h

theorem State.pump_keeps {s : State} {p : Port} {f : EventFlag} (h : (s.events p).has f = true) : (s.pump.events p).has f = true :=
  startHead_keeps (by rw [State.fill_events]; exact h)

/-! The end of an operation -/

theorem State.operationEnds_faults (s : State) {d : DispenserSt} (h : d = .fault ∨ d = .offline) (p : Port) :
    ((s.operationEnds d).events p).has .cashFault = true := by
  unfold State.operationEnds
  dsimp only
  rw [if_pos h, State.has_latchBoth]
  simp

theorem State.operationEnds_alerts (s : State) (d : DispenserSt) : (s.operationEnds d).evu.alerts = s.evu.alerts := by
  unfold State.operationEnds
  dsimp only
  split <;> split <;> rfl

theorem State.operationEnds_stamp (s : State) (d : DispenserSt) : (s.operationEnds d).stamp = s.stamp := by
  obtain ⟨u, e, h⟩ := s.operationEnds_frame d
  rw [h]
  rfl

theorem Pyu.ended_disp (u : Pyu) (d : DispenserSt) :
    (u.ended d).disp = (if u.doorPending then .doorOpen else d) ∧ (u.ended d).command = none ∧ (u.ended d).takeTimer = none ∧
      (u.doorPending = true → (u.ended d).remembered = d) := by
  unfold Pyu.ended
  split
  · exact ⟨rfl, rfl, rfl, fun _ => rfl⟩
  · rename_i closed
    exact ⟨rfl, rfl, rfl, fun h => absurd h closed⟩

/-! The end of a recovery -/

theorem Pyu.note_rest (u : Pyu) (r : RetractRecord) : (u.note r).disp = u.disp ∧ (u.note r).command = u.command ∧
    (u.note r).takeTimer = u.takeTimer ∧ (u.note r).remembered = u.remembered ∧ (u.note r).stores = u.stores ∧ (u.note r).bin = u.bin ∧
    (u.note r).log = if u.log.length < 16 then u.log ++ [r] else u.log := by
  unfold Pyu.note
  split <;> exact ⟨rfl, rfl, rfl, rfl, rfl, rfl, rfl⟩

/-- What the end of a recovery leaves of the payout unit, whatever it recovered from. -/
theorem Pyu.recovered_rest (u : Pyu) (k : Nat) (d : DispenserSt) (now : Stamp) :
    (u.recovered k d now).recovery = none ∧ (u.recovered k d now).command = none ∧
      (u.recovered k d now).disp = if u.doorPending then .doorOpen else d := by
  obtain ⟨disp, command, -, -⟩ := u.ended_disp d
  obtain ⟨-, recovery, -, -⟩ := u.ended_rest d
  unfold Pyu.recovered
  split
  · rename_i none_
    exact ⟨recovery.trans none_, command, disp⟩
  · rename_i r _
    obtain ⟨noted, notedCommand, -⟩ := ((u.ended d).bank k).note_rest (r.record k now)
    split
    · exact ⟨rfl, notedCommand.trans command, noted.trans disp⟩
    · exact ⟨rfl, command, disp⟩

theorem Pyu.recovered_none {u : Pyu} (h : u.recovery = none) (k : Nat) (d : DispenserSt) (now : Stamp) :
    (u.recovered k d now).log = u.log ∧ (u.recovered k d now).bin = u.bin := by
  obtain ⟨-, -, log, bin⟩ := u.ended_rest d
  simp only [Pyu.recovered, h]
  exact ⟨log, bin⟩

theorem Pyu.recovered_some {u : Pyu} {r : Recovery} (h : u.recovery = some r) (k : Nat) (d : DispenserSt) (now : Stamp) :
    (u.recovered k d now).bin = min (u.bin + k) 65535 ∧
      (u.recovered k d now).log =
        if r.interrupted.isSome ∨ 0 < k then (if u.log.length < 16 then u.log ++ [r.record k now] else u.log) else u.log := by
  obtain ⟨-, -, log, bin⟩ := u.ended_rest d
  have banked : ((u.ended d).bank k).log = u.log ∧ ((u.ended d).bank k).bin = min (u.bin + k) 65535 := ⟨log, by rw [Pyu.bank, bin]⟩
  obtain ⟨-, -, -, -, -, notedBin, noted⟩ := ((u.ended d).bank k).note_rest (r.record k now)
  simp only [Pyu.recovered, h]
  split
  · exact ⟨notedBin.trans banked.2, by rw [noted, banked.1]⟩
  · exact ⟨banked.2, banked.1⟩

theorem State.recoveryEnds_none {s : State} (h : s.pyu.recovery = none) (k : Nat) (d : DispenserSt) :
    s.recoveryEnds k d = s.operationEnds d := by
  simp only [State.recoveryEnds, h]

/-- The events of the end of a recovery are those of the end of the operation, with the RETRACT alert for pieces counted back. -/
theorem State.recoveryEnds_evu {s : State} {r : Recovery} (h : s.pyu.recovery = some r) (k : Nat) (d : DispenserSt) :
    ∃ t : State, t.evu = (s.operationEnds d).evu ∧ t.stamp = s.stamp ∧ s.recoveryEnds k d = if 0 < k then t.markAlert .retract else t := by
  refine ⟨_, ?_, ?_, by simp only [State.recoveryEnds, h]; rfl⟩
  · rfl
  · exact s.operationEnds_stamp d

theorem State.recoveryEnds_faults (s : State) (k : Nat) {d : DispenserSt} (h : d = .fault ∨ d = .offline) (p : Port) :
    ((s.recoveryEnds k d).events p).has .cashFault = true := by
  have told := s.operationEnds_faults h p
  cases rec : s.pyu.recovery with
  | none => rw [State.recoveryEnds_none rec]; exact told
  | some r =>
    obtain ⟨t, evu, -, ends⟩ := State.recoveryEnds_evu rec k d
    rw [← State.events_congr evu p] at told
    rw [ends]
    split
    · exact State.markAlert_keeps _ told
    · exact told

theorem State.recoveryEnds_tkt (s : State) (k : Nat) (d : DispenserSt) : (s.recoveryEnds k d).tkt = s.tkt := by
  obtain ⟨u, e, h⟩ := s.recoveryEnds_frame k d
  rw [h]

/-- A payout in flight is stopped, by a jam or by an answer that does not come, as the table of R147 has it. -/
theorem stops_eq {i : Instr} {code : PayoutEnd} {s : State} {p : Payout} (power : s.powered = true) (pay : s.pyu.payout = some p)
    (hi : i = Instr.jam ∧ code = PayoutEnd.jammed ∨
      i = Instr.dispenserAnswerTimeout ∧ code = PayoutEnd.mechFault ∧ s.pyu.command.isSome = true)
    (hd : s.pyu.disp = .picking ∨ s.pyu.disp = .presenting ∨ s.pyu.disp = .waiting ∨ s.pyu.disp = .retracting) :
    exec i s = .next (s.payoutStops p code).settle := by
  have frame : (s.payoutStops p code).wch = s.wch ∧ (s.payoutStops p code).dsu = s.dsu := by
    obtain ⟨x, w, -, h⟩ := s.payoutStops_ends p code
    obtain ⟨u, k, r, e, h'⟩ := s.payoutEnd_frame p x code w .fault
    rw [h, h']
    exact ⟨rfl, rfl⟩
  rcases hi with ⟨rfl, rfl⟩ | ⟨rfl, rfl, told⟩
  · refine run_done (f := Cash.jam) power ?_ frame.1 frame.2
    rcases hd with hd | hd | hd | hd <;> simp only [Cash.jam, hd, pay]
  · obtain ⟨c, hc⟩ := Option.isSome_iff_exists.mp told
    refine run_done (f := Cash.answerTimeout) power ?_ frame.1 frame.2
    rcases hd with hd | hd | hd | hd <;> simp only [Cash.answerTimeout, hc, hd, pay]

theorem exec_recoveryEnds {i : Instr} {d : DispenserSt} {s : State} (power : s.powered = true) (hd : s.pyu.disp = .recovering)
    (hi : i = Instr.jam ∧ d = DispenserSt.fault ∨ i = Instr.ready ∧ d = DispenserSt.idle ∧ s.pyu.command = some .reset ∨
      i = Instr.dispenserAnswerTimeout ∧ d = DispenserSt.offline ∧ s.pyu.command.isSome = true) :
    exec i s = .next (s.recoveryEnds 0 d).settle := by
  obtain ⟨u, e, frame⟩ := s.recoveryEnds_frame 0 d
  have wch : (s.recoveryEnds 0 d).wch = s.wch := by rw [frame]
  have dsu : (s.recoveryEnds 0 d).dsu = s.dsu := by rw [frame]
  rcases hi with ⟨rfl, rfl⟩ | ⟨rfl, rfl, command⟩ | ⟨rfl, rfl, told⟩
  · exact run_done (f := Cash.jam) power (by cases h : s.pyu.payout <;> simp only [Cash.jam, hd, h]) wch dsu
  · exact run_done (f := Cash.ready) power (by simp only [Cash.ready, hd, command]) wch dsu
  · obtain ⟨c, hc⟩ := Option.isSome_iff_exists.mp told
    exact run_done (f := Cash.answerTimeout) power (by simp only [Cash.answerTimeout, hc, hd]) wch dsu

/-- Settles O48. -/
theorem bundlePresentedAndTaken : Obligations.BundlePresentedAndTaken := by
  intro s power
  have paid (p : Payout) (x : PayoutResult) (c : PayoutEnd) (w : Option Drawn) (d : DispenserSt) :
      (s.payoutEnd p x c w d).wch = s.wch ∧ (s.payoutEnd p x c w d).dsu = s.dsu := by
    obtain ⟨u, k, r, e, h⟩ := s.payoutEnd_frame p x c w d
    rw [h]
    exact ⟨rfl, rfl⟩
  refine ⟨fun p disp command pay => ?_, fun p disp pay => ?_, fun away => ?_, fun disp timer => ?_, fun k p disp command pay => ?_,
    fun k disp command => ?_⟩
  · exact run_done (f := Cash.presented) power (by simp only [Cash.presented, disp, command, pay]; rfl) (by simp) (by simp)
  · refine run_done (f := Cash.trayEmpty) power ?_ (paid _ _ _ _ _).1 (paid _ _ _ _ _).2
    simp only [Cash.trayEmpty, disp, pay, Nat.sub_eq_zero_iff_le]
  · refine run_done (f := Cash.trayEmpty) power ?_ rfl rfl
    unfold Cash.trayEmpty
    split
    · rename_i waiting _
      exact absurd waiting away
    · rfl
  · obtain ⟨x, hx⟩ := Option.isSome_iff_exists.mp timer
    exact run_done (f := Cash.takeTimeout) power (by simp only [Cash.takeTimeout, disp, hx]) rfl rfl
  · refine run_done (f := Cash.retracted k) power (by simp only [Cash.retracted, disp, command, pay]; rfl) ?_ ?_ <;>
    · split
      · split
        · simp only [paid]
        · simp only [paid]
      · simp only [paid]
  · obtain ⟨u, e, frame⟩ := s.recoveryEnds_frame k .idle
    refine run_done (f := Cash.retracted k) power (by simp only [Cash.retracted, disp, command]) ?_ ?_ <;> rw [frame]

/-- Settles O49. -/
theorem jamsFailuresAndRecoveries : Obligations.JamsFailuresAndRecoveries := by
  refine ⟨fun s power => ⟨fun p i code pay hi => ⟨fun hd => ?_, fun hd => ?_, fun hd => ?_⟩, fun idle closed => ?_, fun rest => ?_,
    fun i d hd hi => exec_recoveryEnds power hd hi, fun none_ => ?_⟩, ?_⟩
  · rw [stops_eq power pay hi (by tauto)]
    rcases hd with hd | hd <;> simp only [State.payoutStops, hd]
  · rw [stops_eq power pay hi (by tauto)]
    simp only [State.payoutStops, hd]
  · rw [stops_eq power pay hi (by tauto)]
    simp only [State.payoutStops, hd]
  · exact run_done (f := Cash.jam) power (by simp [Cash.jam, idle, State.operationEnds, closed]) rfl rfl
  · refine run_done (f := Cash.jam) power ?_ rfl rfl
    rcases rest with h | h | h <;> simp only [Cash.jam, h]
  · exact run_done (f := Cash.answerTimeout) power (by simp only [Cash.answerTimeout, none_]) rfl rfl
  · rintro s t k d rfl
    obtain ⟨recovery, command, disp⟩ := s.pyu.recovered_rest k d s.stamp
    rw [← State.recoveryEnds_pyu] at recovery command disp
    refine ⟨recovery, command, disp, fun h p => s.recoveryEnds_faults k h p, s.recoveryEnds_tkt k d, s.recoveryEnds_stores k d,
      fun none_ => by rw [State.recoveryEnds_pyu]; exact Pyu.recovered_none none_ _ _ _, fun r some_ => ?_⟩
    obtain ⟨bin, log⟩ := Pyu.recovered_some some_ k d s.stamp
    rw [← State.recoveryEnds_pyu] at bin log
    refine ⟨bin, fun counted => ?_, fun plain zero => ?_, fun room plain counted => ?_, fun b room interrupted => ?_⟩
    · obtain ⟨u, evu, stamp, ends⟩ := State.recoveryEnds_evu some_ k d
      have alerts : u.evu.alerts = s.evu.alerts := (congrArg Evu.alerts evu).trans (s.operationEnds_alerts d)
      have marked := u.alert_marked .retract
      rw [alerts, stamp] at marked
      rw [ends, if_pos counted]
      refine ⟨marked, fun fresh q => ?_⟩
      have fresh' : (s.evu.alerts.get .retract).latch = none := fresh
      rw [State.has_markAlert, alerts, fresh']
      simp
    · rw [log, plain, zero]
      simp
    · rw [log, plain, if_pos (.inr counted), if_pos room, Recovery.record, plain]
      rfl
    · rw [log, interrupted, if_pos (.inl rfl), if_pos room, Recovery.record, interrupted]
      rfl

end Sys2Proof.Machine
end

