-- ==== Sys2Proof/Proofs/PayoutSteps.lean ====
section
/-! PROOFS. What the end of a payout leaves, and the answers to a PICK: O47, O46. -/

namespace Sys2Proof.Machine

/-! The print queue reads nothing of the payout unit, the yard or the office port -/

/-- The state beside another payout unit, other decks and lines, and another office port. -/
def State.beside (s : State) (u : Pyu) (d : Dsu) (o : PortState) : State := { s with pyu := u, dsu := d, office := o }

section Beside

variable (u : Pyu) (d : Dsu) (o : PortState)

theorem State.changeTicket_beside (s : State) (n : Nat) (f : Ticket → Ticket) :
    (s.beside u d o).changeTicket n f = (s.changeTicket n f).beside u d o := by
  have same : (s.beside u d o).ticket? n = s.ticket? n := rfl
  unfold State.changeTicket
  rw [same]
  cases s.ticket? n <;> rfl

theorem State.fillOne_beside (s : State) : (s.beside u d o).fillOne = s.fillOne.map (·.beside u d o) := by
  change ({ s with pyu := u, dsu := d, office := o } : State).fillOne = s.fillOne.map fun t => { t with pyu := u, dsu := d, office := o }
  unfold State.fillOne
  dsimp only
  split
  · rfl
  · split
    · rfl
    · split <;> rfl

theorem fillUpTo_beside (n : Nat) (s : State) : fillUpTo n (s.beside u d o) = (fillUpTo n s).beside u d o := by
  induction n generalizing s with
  | zero => rfl
  | succ n ih =>
    simp only [fillUpTo, State.fillOne_beside]
    cases s.fillOne with
    | none => rfl
    | some t => exact ih t

theorem State.firstStart_beside (s : State) (j : Job) (rest : List Job) (t : Ticket) :
    (s.beside u d o).firstStart j rest t = (s.firstStart j rest t).beside u d o := by
  unfold State.firstStart
  simp only [State.changeTicket_beside]
  split <;> rfl

theorem State.recordEnd_beside (s : State) (j : Job) (r : JobEnd) :
    (s.beside u d o).recordEnd j r = (s.recordEnd j r).beside u d o := by
  unfold State.recordEnd
  dsimp only
  cases j.source with
  | auto => rfl
  | port q => cases q <;> rfl

theorem startHead_beside (n : Nat) (s : State) : startHead n (s.beside u d o) = (startHead n s).beside u d o := by
  induction n generalizing s with
  | zero => rfl
  | succ n ih =>
    have queue : (s.beside u d o).rpu = s.rpu := rfl
    have found (j : Job) : (s.beside u d o).jobTicket? j = s.jobTicket? j := rfl
    unfold startHead
    simp only [queue]
    cases s.rpu.queue with
    | nil => rfl
    | cons j rest =>
      simp only [found]
      split
      · split
        · rfl
        · cases s.jobTicket? j with
          | some t => exact s.firstStart_beside u d o j rest t
          | none =>
            have gone := ({ s with rpu := { s.rpu with queue := rest } } : State).recordEnd_beside u d o j .gone
            exact (congrArg (fun x => startHead n (State.fill x)) gone).trans
              ((congrArg (startHead n) (fillUpTo_beside u d o 8 _)).trans (ih _))
      · rfl

theorem State.pump_beside (s : State) : (s.beside u d o).pump = s.pump.beside u d o :=
  (congrArg State.startPrint (fillUpTo_beside u d o 8 s)).trans (startHead_beside u d o 16 _)

end Beside

theorem State.pump_withEvents (s : State) (e : Evu) :
    (s.withEvents e).pump.tkt = s.pump.tkt ∧ (s.withEvents e).pump.rpu = s.pump.rpu := by
  have starts := startHead_withEvents 16 s.fill e
  rw [← State.fill_withEvents] at starts
  exact ⟨starts.2.1, starts.1⟩

/-- A change of a record with the queue filled after it comes to the same whatever the payout unit and the events. -/
theorem State.pump_operationEnds (s : State) (d : DispenserSt) (n : Nat) (f : Ticket → Ticket) :
    ((s.operationEnds d).changeTicket n f).pump.tkt = (s.changeTicket n f).pump.tkt ∧
      ((s.operationEnds d).changeTicket n f).pump.rpu = (s.changeTicket n f).pump.rpu := by
  obtain ⟨u, e, frame⟩ := s.operationEnds_frame d
  have both : s.operationEnds d = (s.withEvents e).beside u s.dsu s.office := frame
  rw [both, State.changeTicket_beside, State.pump_beside, State.changeTicket_withEvents]
  exact (s.changeTicket n f).pump_withEvents e

/-! A record while the queue is filled and its head started -/

theorem Ticket.revised_fields (t u : Ticket) : ∃ v, t.revised u = { u with revision := v } := by
  unfold Ticket.revised
  split
  · rename_i same
    exact ⟨u.revision, same.symm⟩
  · exact ⟨_, rfl⟩

theorem State.ticket?_congr {s t : State} (h : t.tkt = s.tkt) (n : Nat) : t.ticket? n = s.ticket? n := by
  rw [State.ticket?, State.ticket?, h]

theorem State.firstStart_ticket? {s : State} {n : Nat} {k : Ticket} (h : s.ticket? n = some k) (j : Job) (rest : List Job) (t : Ticket) :
    ∃ r v, (s.firstStart j rest t).ticket? n = some { k with reprints := r, revision := v } := by
  by_cases copy : j.kind = .copy
  · have tkt : (s.firstStart j rest t).tkt = (s.changeTicket t.number fun t => { t with reprints := saturating t.reprints 255 }).tkt := by
      simp only [State.firstStart, if_pos copy]
    rw [State.ticket?_congr tkt]
    by_cases mine : n = t.number
    · subst mine
      obtain ⟨v, hv⟩ := k.revised_fields { k with reprints := saturating k.reprints 255 }
      exact ⟨_, v, (s.ticket?_changeTicket _ _ k h rfl).trans (congrArg some hv)⟩
    · have other := s.ticket?_changeTicket_of_ne t.number n (fun t => { t with reprints := saturating t.reprints 255 }) mine fun _ _ => rfl
      exact ⟨k.reprints, k.revision, other.trans h⟩
  · have tkt : (s.firstStart j rest t).tkt = s.tkt := by simp only [State.firstStart, if_neg copy]
    rw [State.ticket?_congr tkt]
    exact ⟨k.reprints, k.revision, h⟩

theorem startHead_ticket? {fuel : Nat} {s : State} {n : Nat} {k : Ticket} (h : s.ticket? n = some k) :
    ∃ r v, (startHead fuel s).ticket? n = some { k with reprints := r, revision := v } := by
  induction fuel generalizing s with
  | zero => exact ⟨k.reprints, k.revision, h⟩
  | succ fuel ih =>
    unfold startHead
    cases s.rpu.queue with
    | nil => exact ⟨k.reprints, k.revision, h⟩
    | cons j rest =>
      dsimp only
      split
      · split
        · exact ⟨k.reprints, k.revision, h⟩
        · cases s.jobTicket? j with
          | some t => exact State.firstStart_ticket? h j rest t
          | none =>
            obtain ⟨r, e, ended⟩ := ({ s with rpu := { s.rpu with queue := rest } } : State).recordEnd_frame j .gone
            obtain ⟨r', filled⟩ := (({ s with rpu := { s.rpu with queue := rest } } : State).recordEnd j .gone).fill_frame
            refine ih ((State.ticket?_congr ?_ n).trans h)
            rw [filled, ended]
      · exact ⟨k.reprints, k.revision, h⟩

/-- Filling the queue and starting its head changes no more of a record than its count of reprints. -/
theorem State.pump_ticket? {s : State} {n : Nat} {k : Ticket} (h : s.ticket? n = some k) :
    ∃ r v, s.pump.ticket? n = some { k with reprints := r, revision := v } := by
  obtain ⟨r, filled⟩ := s.fill_frame
  exact startHead_ticket? (s := s.fill) (by rw [State.ticket?_congr (s := s) (by rw [filled])]; exact h)

/-! The end of a payout -/

theorem State.payoutEnd_rpu (s : State) (p : Payout) (x : PayoutResult) (c : PayoutEnd) (w : Option Drawn) (d : DispenserSt) :
    (s.payoutEnd p x c w d).rpu = (((s.operationEnds d).changeTicket p.ticket fun t => t.payoutEnds p x c s.stamp).pump).rpu := by
  have mark (u : State) (src : AlertSource) : (u.markAlert src).rpu = u.rpu :=
    (Reaches.markAlert (bs := [.evu]) u src (by decide)).rpu (by decide)
  unfold State.payoutEnd
  dsimp only
  split
  · rw [mark, State.latch_rpu]
  · split
    · rw [mark, State.latch_rpu]
    · rw [State.latch_rpu]
  · rw [State.latch_rpu]

/-- The alert the end of a payout latches. -/
def PayoutResult.alert? (x : PayoutResult) (c : PayoutEnd) : Option AlertSource :=
  match x with
  | .disputed => some .dispute
  | .notPaid => if c = .retracted then some .retract else none
  | .paid => none

/-- The events of the end of a payout: those its parts have left, PAYOUT_END to the starting port, and its alert. -/
theorem State.payoutEnd_evu (s : State) (p : Payout) (x : PayoutResult) (c : PayoutEnd) (w : Option Drawn) (d : DispenserSt) :
    ∃ t : State, t.evu = ((s.operationEnds d).changeTicket p.ticket fun t => t.payoutEnds p x c s.stamp).pump.evu ∧ t.stamp = s.stamp ∧
      s.payoutEnd p x c w d =
        match x.alert? c with
        | some src => (t.latch p.port .payoutEnd).markAlert src
        | none => t.latch p.port .payoutEnd := by
  obtain ⟨r, k, e, pumped⟩ := ((s.operationEnds d).changeTicket p.ticket fun t => t.payoutEnds p x c s.stamp).pump_frame
  obtain ⟨k', changed⟩ := (s.operationEnds d).changeTicket_frame p.ticket fun t => t.payoutEnds p x c s.stamp
  obtain ⟨u, e', ended⟩ := s.operationEnds_frame d
  have left (u : Pyu) :
      (({ ((s.operationEnds d).changeTicket p.ticket fun t => t.payoutEnds p x c s.stamp).pump with pyu := u } : State).evu =
      ((s.operationEnds d).changeTicket p.ticket fun t => t.payoutEnds p x c s.stamp).pump.evu) ∧
      ({ ((s.operationEnds d).changeTicket p.ticket fun t => t.payoutEnds p x c s.stamp).pump with pyu := u } : State).stamp = s.stamp := by
    refine ⟨rfl, ?_⟩
    rw [pumped, changed, ended]
    rfl
  cases x with
  | disputed => exact ⟨_, (left _).1, (left _).2, rfl⟩
  | paid => exact ⟨_, (left _).1, (left _).2, rfl⟩
  | notPaid =>
    by_cases retracted : c = .retracted
    · subst retracted
      exact ⟨_, (left _).1, (left _).2, rfl⟩
    · have plain : PayoutResult.notPaid.alert? c = none := if_neg retracted
      rw [plain]
      exact ⟨_, (left _).1, (left _).2, if_neg retracted⟩

theorem Ticket.payoutEnds_eq (k : Ticket) (p : Payout) (result : PayoutResult) (code : PayoutEnd) (now : Stamp) :
    k.payoutEnds p result code now =
      { k with
        st :=
          (match result with
            | .paid => .paid
            | .notPaid => .settled
            | .disputed => .disputed)
        claim := none
        lapse := none
        payout := k.payout.map fun r =>
          { r with
            planned := p.planned, plannedPieces := p.plannedPieces, pickedPieces := p.picked.sum, pickedAmount := p.pickedAmount
            presentedAmount := if p.presented then p.pickedAmount else 0
            presentedPieces := if p.presented then p.picked.sum else 0
            paid := if result = .paid then p.pickedAmount else 0
            shortfall := if result = .paid then k.cash - p.pickedAmount else 0
            last := some code }
        owed := if result = .paid then k.owed.become k.owed.slip 2 k.owed.notice now else k.owed } := by
  cases result <;> rfl

theorem Pyu.drawing_log (u : Pyu) (p : Payout) (w : Option Drawn) (now : Stamp) :
    (u.drawing p w now).command = u.command ∧ (u.drawing p w now).takeTimer = u.takeTimer ∧
      (u.drawing p w now).bin = (match w with
        | some x => min (u.bin + x.counted) 65535
        | none => u.bin) ∧
      (u.drawing p w now).log = match w with
        | some x => if p.pieces = 0 ∨ 16 ≤ u.log.length then u.log else u.log ++ [p.record x now]
        | none => u.log := by
  cases w with
  | none => exact ⟨rfl, rfl, rfl, rfl⟩
  | some x =>
    obtain ⟨-, command, timer, -, -, bin, log⟩ := u.note_rest (p.record x now)
    simp only [Pyu.drawing]
    by_cases empty : p.pieces = 0
    · simp only [if_pos empty, if_pos (Or.inl empty)] <;> exact ⟨rfl, rfl, rfl, rfl⟩
    · have full : (p.pieces = 0 ∨ 16 ≤ u.log.length) ↔ ¬u.log.length < 16 := by
        rw [not_lt]
        exact or_iff_right empty
      simp only [if_neg empty, full, ite_not]
      exact ⟨command, timer, by rw [Pyu.bank, bin], log⟩

/-- Settles O47. -/
theorem payoutEndLeavesOutcome : Obligations.PayoutEndLeavesOutcome := by
  rintro s t p result code drawn d rfl
  have changes : (fun t : Ticket => t.payoutEnds p result code s.stamp) = fun k => { k with
      st := (match result with
        | .paid => TicketSt.paid
        | .notPaid => .settled
        | .disputed => .disputed)
      claim := none
      lapse := none
      payout := k.payout.map fun r =>
        { r with
          planned := p.planned, plannedPieces := p.plannedPieces, pickedPieces := p.picked.sum, pickedAmount := p.pickedAmount
          presentedAmount := if p.presented then p.pickedAmount else 0
          presentedPieces := if p.presented then p.picked.sum else 0
          paid := if result = .paid then p.pickedAmount else 0
          shortfall := if result = .paid then k.cash - p.pickedAmount else 0
          last := some code }
      owed := if result = .paid then k.owed.become k.owed.slip 2 k.owed.notice ⟨s.clu.now, s.clu.valid⟩ else k.owed } :=
    funext fun k => k.payoutEnds_eq p result code s.stamp
  obtain ⟨u, evu, stamp, ends⟩ := s.payoutEnd_evu p result code drawn d
  have pyu := s.payoutEnd_pyu p result code drawn d
  obtain ⟨disp, command, timer, remembered⟩ := s.pyu.ended_disp d
  obtain ⟨-, -, log, bin⟩ := s.pyu.ended_rest d
  obtain ⟨drawnDisp, drawnRemembered, -, -⟩ := (s.pyu.ended d).drawing_rest p drawn s.stamp
  obtain ⟨drawnCommand, drawnTimer, drawnBin, drawnLog⟩ := (s.pyu.ended d).drawing_log p drawn s.stamp
  have same := s.pump_operationEnds d p.ticket fun t => t.payoutEnds p result code s.stamp
  have keeps {q : Port} {f : EventFlag} (h : (u.events q).has f = true) : ((s.payoutEnd p result code drawn d).events q).has f = true := by
    have latched : ((u.latch p.port .payoutEnd).events q).has f = true := by rw [State.has_latch, h, Bool.true_or]
    rw [ends]
    cases result.alert? code with
    | none => exact latched
    | some src => exact State.markAlert_keeps src latched
  have alerts : u.evu.alerts = s.evu.alerts := by
    obtain ⟨k', changed⟩ := (s.operationEnds d).changeTicket_frame p.ticket fun t => t.payoutEnds p result code s.stamp
    rw [evu, State.pump_alerts, changed]
    exact s.operationEnds_alerts d
  have marks {src : AlertSource} (h : result.alert? code = some src) :
      (s.payoutEnd p result code drawn d).evu.alerts.get src =
        ⟨some ((s.evu.alerts.get src).latch.getD ⟨s.clu.now, s.clu.valid⟩), (s.evu.alerts.get src).enabled⟩ ∧
      ((s.evu.alerts.get src).latch = none → ∀ q, ((s.payoutEnd p result code drawn d).events q).has .alert = true) := by
    have stamp' : (u.latch p.port .payoutEnd).stamp = s.stamp := (State.stamp_congr (State.latch_clu _ _ _)).trans stamp
    have marked := (u.latch p.port .payoutEnd).alert_marked src
    rw [State.alerts_latch, alerts, stamp'] at marked
    rw [ends, h]
    refine ⟨marked, fun fresh q => ?_⟩
    dsimp only
    rw [State.has_markAlert, State.alerts_latch, alerts, fresh]
    simp
  refine ⟨by rw [pyu], by rw [pyu]; exact drawnCommand.trans command, by rw [pyu]; exact drawnTimer.trans timer,
    s.payoutEnd_stores p result code drawn d, by rw [pyu]; exact drawnDisp.trans disp,
    fun door => by rw [pyu]; exact drawnRemembered.trans (remembered door), ?_, fun fault q => keeps ?_, by rw [pyu]; rfl, ?_, ?_,
    fun h => ?_, fun h h' => ?_, ?_, ?_⟩
  · have latched : ((u.latch p.port .payoutEnd).events p.port).has .payoutEnd = true := u.latch_has _ _
    rw [ends]
    cases result.alert? code with
    | none => exact latched
    | some src => exact State.markAlert_keeps src latched
  · rw [State.events_congr evu]
    refine State.pump_keeps ?_
    obtain ⟨k', changed⟩ := (s.operationEnds d).changeTicket_frame p.ticket fun t => t.payoutEnds p result code s.stamp
    rw [changed]
    exact (congrArg (EventSet.has · _) (State.events_congr rfl q)).trans (s.operationEnds_faults fault q)
  · rw [pyu]
    refine drawnBin.trans ?_
    cases drawn <;> simp only [bin]
  · rw [pyu]
    refine drawnLog.trans ?_
    rw [log]
    cases drawn <;> rfl
  · subst h
    exact marks (src := .dispute) rfl
  · subst h h'
    exact marks (src := .retract) rfl
  · rintro changed rfl
    rw [State.payoutEnd_tkt, State.payoutEnd_rpu, same.1, same.2, changes]
    exact ⟨rfl, rfl⟩
  · intro k found _
    have changed := s.ticket?_changeTicket p.ticket (fun t => t.payoutEnds p result code s.stamp) k found
      (by rw [Ticket.payoutEnds_eq])
    obtain ⟨v, hv⟩ := k.revised_fields (k.payoutEnds p result code s.stamp)
    rw [hv, Ticket.payoutEnds_eq] at changed
    obtain ⟨r, v', pumped⟩ := State.pump_ticket? changed
    refine ⟨_, (State.ticket?_congr ((s.payoutEnd_tkt p result code drawn d).trans same.1) _).trans pumped, ?_⟩
    cases result <;> refine ⟨rfl, rfl, rfl, ?_, rfl⟩ <;> cases k.payout <;> rfl

/-! The answers to a PICK -/

theorem Store.pieceOk_eq {x : Store} (h : 0 < x.count) : x.pieceOk =
    { x with
      count := x.count - 1, picked := x.picked + 1, rejectRun := 0
      st := if x.count = 1 ∧ x.st = .enabled then .empty else x.st } := by
  have last : x.count - 1 = 0 ↔ x.count = 1 := by omega
  simp only [Store.pieceOk, if_neg (Nat.pos_iff_ne_zero.mp h), Store.atCount, last]

theorem Store.pieceReject_eq {x : Store} (h : 0 < x.count) : x.pieceReject =
    { x with
      count := x.count - 1, rejected := x.rejected + 1, rejectRun := x.rejectRun + 1
      st :=
        if 2 ≤ x.rejectRun ∧ (x.count ≠ 1 ∨ Config.lastRejectFaults = true) then .fault
        else if x.count = 1 ∧ x.st = .enabled then .empty else x.st } := by
  have last : x.count - 1 = 0 ↔ x.count = 1 := by omega
  have third : 3 ≤ x.rejectRun + 1 ↔ 2 ≤ x.rejectRun := by omega
  simp only [Store.pieceReject, if_neg (Nat.pos_iff_ne_zero.mp h), Store.atCount, last, third, ne_eq]
  split <;> rfl

theorem State.withStore_pyu (s : State) (i : Nat) (x y : Store) :
    (s.withStore i x y).pyu = { s.pyu with stores := s.pyu.stores.set i y } := by
  unfold State.withStore
  dsimp only
  split <;> rfl

theorem State.changeStore_eq {s : State} {i : Nat} {x : Store} (h : s.pyu.stores[i]? = some x) (f : Store → Store) :
    s.changeStore i f = s.withStore i x (f x) := by
  simp only [State.changeStore, h, State.withStore]

/-- The store a report has changed, and the stores with it. -/
theorem State.storeSt_withStore {s : State} {i : Nat} {x : Store} (h : s.pyu.stores[i]? = some x) (y : Store) :
    (s.withStore i x y).storeSt i = y.st := by
  obtain ⟨inside, -⟩ := List.getElem?_eq_some_iff.mp h
  rw [State.storeSt, State.withStore_pyu]
  dsimp only
  rw [List.getElem?_set_self inside]

theorem State.writePayout_pyu (s : State) (p : Payout) : (s.writePayout p).pyu = { s.pyu with payout := some p } :=
  State.changeTicket_pyu _ _ _

/-- A payout with nothing in its bundle and nothing left to give ends CANCELLED; any other goes on. -/
theorem State.goOn_eq {s : State} {p : Payout} (disp : s.pyu.disp = .picking) (pay : s.pyu.payout = some p) :
    s.goOn p =
      if p.picked.sum = 0 ∧ (p.cancelled = true ∨ p.todo = []) then s.payoutEnd p .notPaid .cancelled none .idle else s.picksOn p := by
  have same : ({ s.pyu with payout := some p, command := none } : Pyu) = { s.pyu with command := none } := by rw [← pay]
  have ends : (({ s with pyu := { s.pyu with command := none } } : State).payoutEnd p .notPaid .cancelled none .idle) =
      s.payoutEnd p .notPaid .cancelled none .idle := by
    have operation : ({ s with pyu := { s.pyu with command := none } } : State).operationEnds .idle = s.operationEnds .idle := rfl
    unfold State.payoutEnd
    rw [operation]
    rfl
  unfold State.goOn
  rw [same]
  dsimp only
  rw [ends]
  unfold Payout.pieces State.picksOn
  cases cancelled : p.cancelled with
  | true =>
    by_cases empty : p.picked.sum = 0
    · simp [empty]
    · simp [empty]
  | false =>
    cases todo : p.todo with
    | nil =>
      by_cases empty : p.picked.sum = 0
      · simp [empty]
      · simp [empty]
    | cons x rest => simp [disp]

theorem Payout.after_eq (p : Payout) (dropped : Bool) (l : List Store) :
    p.after dropped l = if dropped = true ∧ p.cancelled = false then p.replan l else p := by
  simp only [Payout.after, Bool.and_eq_true, Bool.not_eq_true']

theorem Payout.after_picked (p : Payout) (dropped : Bool) (l : List Store) :
    (p.after dropped l).picked = p.picked ∧ (p.after dropped l).cancelled = p.cancelled := by
  unfold Payout.after
  split <;> exact ⟨rfl, rfl⟩

theorem State.withStore_frame (s : State) (i : Nat) (x y : Store) : ∃ u e, s.withStore i x y = { s with pyu := u, evu := e } := by
  unfold State.withStore
  dsimp only
  split <;> exact ⟨_, _, rfl⟩

theorem State.writePayout_frames {s : State} (p : Payout) : (s.writePayout p).wch = s.wch ∧ (s.writePayout p).dsu = s.dsu := by
  exact ⟨State.changeTicket_wch _ _ _, State.changeTicket_dsu _ _ _⟩

theorem State.goOn_frames {s : State} (p : Payout) : (s.goOn p).wch = s.wch ∧ (s.goOn p).dsu = s.dsu := by
  obtain ⟨u, k, r, e, h⟩ := s.goOn_frame p
  rw [h]
  exact ⟨rfl, rfl⟩

theorem State.withStore_frames {s : State} (i : Nat) (x y : Store) : (s.withStore i x y).wch = s.wch ∧ (s.withStore i x y).dsu = s.dsu := by
  obtain ⟨u, e, h⟩ := s.withStore_frame i x y
  rw [h]
  exact ⟨rfl, rfl⟩

/-- The pieces of a kind in the bundle, summed over the stores of that kind. -/
theorem Payout.pickedOf_eq (p : Payout) (l : List Store) (k : StoreKind) :
    p.pickedOf l k = (((l.zip p.picked).filter fun x => decide (x.1.kind = some k)).map (·.2)).sum := by
  unfold Payout.pickedOf
  induction l.zip p.picked with
  | nil => rfl
  | cons x rest ih =>
    by_cases h : x.1.kind = some k <;> simp [h, ih]

theorem piecesOf_length (steps : List (Nat × Nat)) : (piecesOf steps).length = 6 := by simp [piecesOf]

theorem piecesOf_getD (steps : List (Nat × Nat)) {i : Nat} (h : i < 6) :
    (piecesOf steps).getD i 0 = ((steps.filter fun x => decide (x.1 = i)).map (·.2)).sum := by
  simp [piecesOf, h]

theorem addPieces_getD {a b : List Nat} (ha : a.length = 6) (hb : b.length = 6) {i : Nat} (h : i < 6) :
    (addPieces a b).getD i 0 = a.getD i 0 + b.getD i 0 := by
  have ia : i < a.length := by omega
  have ib : i < b.length := by omega
  simp [addPieces, List.getD_eq_getElem?_getD, ia, ib]

/-- What a report of a rejected or a failed pick does, given what it makes of the store and of the plan. -/
theorem picked_eq {s : State} {i : Nat} {p : Payout} {x : Store} {f : Store → Store} {dropped : Bool} (power : s.powered = true)
    (disp : s.pyu.disp = .picking) (found : s.pyu.stores[i]? = some x) {g : State → State}
    (hg : g s = ((s.changeStore i f).writePayout (p.after dropped (s.changeStore i f).pyu.stores)).goOn
      (p.after dropped (s.changeStore i f).pyu.stores)) {y : Store} (hy : y = f x) {p2 : Payout} {written : State}
    (hp2 : p2 = if dropped = true ∧ p.cancelled = false then p.replan (s.pyu.stores.set i y) else p)
    (hw : written = (s.withStore i x y).figuresWritten p2) :
    run g s =
      .next (if p.picked.sum = 0 ∧ (p.cancelled = true ∨ p2.todo = []) then (written.payoutEnd p2 .notPaid .cancelled none .idle).settle
        else (written.picksOn p2).settle) := by
  have stores : (s.withStore i x y).pyu.stores = s.pyu.stores.set i y := by rw [State.withStore_pyu]
  have after : p2 = p.after dropped (s.withStore i x y).pyu.stores := by rw [stores, Payout.after_eq, hp2]
  obtain ⟨picked, cancelled⟩ := p.after_picked dropped (s.withStore i x y).pyu.stores
  rw [← after] at picked cancelled
  rw [State.changeStore_eq found, ← hy, ← after] at hg
  have writes : written = (s.withStore i x y).writePayout p2 := hw
  rw [← writes] at hg
  have goes := run_done power hg
      (by rw [(State.goOn_frames p2).1, writes, (State.writePayout_frames p2).1, (State.withStore_frames i x y).1])
    (by rw [(State.goOn_frames p2).2, writes, (State.writePayout_frames p2).2, (State.withStore_frames i x y).2])
  rw [goes, State.goOn_eq (by rw [writes, State.writePayout_pyu, State.withStore_pyu]; exact disp)
    (by rw [writes, State.writePayout_pyu]), picked, cancelled]
  split <;> rfl

/-- Settles O46. -/
theorem pickReportsTaken : Obligations.PickReportsTaken := by
  refine ⟨fun s i p x power disp command pay found some_ => ⟨?_, ?_, ?_⟩, ?_⟩
  · rintro y p1 p2 hy hp1 hp2 given
    have picking : s.picking? = some (i, p) := by simp only [State.picking?, disp, command, pay]
    have taken : p1 = p.take i (s.denomination i) := by rw [hp1, Payout.take, State.denomination, found] <;> rfl
    have hy' : y = x.pieceOk := hy.trans (Store.pieceOk_eq some_).symm
    have stores : (s.withStore i x y).pyu.stores = s.pyu.stores.set i y := by rw [State.withStore_pyu]
    have kept : p1.cancelled = p.cancelled := by rw [hp1]
    have after : p2 = p1.after (p1.still i && (s.withStore i x y).storeSt i != .enabled) (s.withStore i x y).pyu.stores := by
      rw [stores, Payout.after_eq, State.storeSt_withStore found, hp2, kept]
      refine check_congr ?_ fun _ => rfl
      simp only [Bool.and_eq_true, bne_iff_ne]
      tauto
    have hg : Cash.pieceOk s = (((s.withStore i x y).writePayout p1).writePayout p2).goOn p2 := by
      simp only [Cash.pieceOk, picking, State.changeStore_eq found, ← hy', ← taken, ← after]
    obtain ⟨picked, -⟩ := p1.after_picked (p1.still i && (s.withStore i x y).storeSt i != .enabled) (s.withStore i x y).pyu.stores
    rw [← after] at picked
    have goes := run_done (f := Cash.pieceOk) power hg
      (by rw [(State.goOn_frames p2).1, (State.writePayout_frames p2).1, (State.writePayout_frames p1).1, (State.withStore_frames i x y).1])
      (by rw [(State.goOn_frames p2).2, (State.writePayout_frames p2).2, (State.writePayout_frames p1).2, (State.withStore_frames i x y).2])
    refine Eq.trans goes ?_
    rw [State.goOn_eq (by simp only [State.writePayout_pyu, State.withStore_pyu]; exact disp) (by rw [State.writePayout_pyu]), picked,
      if_neg fun h => by omega]
    rfl
  · rintro y p2 written hy hp2 hw
    have picking : s.picking? = some (i, p) := by simp only [State.picking?, disp, command, pay]
    have hy' : y = x.pieceReject := hy.trans (Store.pieceReject_eq some_).symm
    refine picked_eq (f := Store.pieceReject) (dropped := (s.changeStore i Store.pieceReject).storeSt i != .enabled) power disp found
      (by simp only [Cash.pieceReject, picking]) hy' ?_ hw
    rw [State.changeStore_eq found, ← hy', State.storeSt_withStore found, hp2]
    refine check_congr ?_ fun _ => rfl
    rw [bne_iff_ne]
  · rintro y p2 written hy hp2 hw
    have picking : s.picking? = some (i, p) := by simp only [State.picking?, disp, command, pay]
    refine picked_eq (f := Store.pickFail) (dropped := true) power disp found (by simp only [Cash.pickFail, picking]) hy ?_ hw
    rw [hp2]
    exact check_congr (and_iff_right rfl).symm fun _ => rfl
  · rintro p p' stores target pickedOf plan six _ htarget hof hplan rfl
    have counted (k : StoreKind) : pickedOf k = p.pickedOf stores k := by rw [hof, Payout.pickedOf_eq]
    rw [counted, counted, htarget] at hplan
    have pieces : (p.replan stores).plannedPieces = addPieces p.picked (piecesOf plan.steps) := by rw [hplan]; rfl
    refine ⟨by rw [htarget, hplan]; rfl, ?_, fun i hi => ?_, fun within => ?_⟩
    · rw [pieces, addPieces, List.length_zipWith, six, piecesOf_length]
      rfl
    · rw [pieces, addPieces_getD six (piecesOf_length _) hi, piecesOf_getD _ hi]
    · have planned : (p.replan stores).planned = p.pickedAmount + (target - plan.rest) := by rw [htarget, hplan]; rfl
      rw [planned]
      omega

end Sys2Proof.Machine
end

