-- ==== Sys2Proof/Proofs/TicketSettlement.lean ====
section
/-! PROOFS. The settlement of a ticket and the provisional figures before it: O42. -/

namespace Sys2Proof.Machine

/-! The lines of a ticket under the grade table -/

theorem State.lineDisabled_eq (s : State) : s.lineDisabled = fun l => (s.lineGrade? l).any fun g => !g.enabled := by
  funext l
  unfold State.lineDisabled
  cases s.lineGrade? l <;> rfl

theorem State.lineRestricted_eq (s : State) : s.lineRestricted = fun l => (s.lineGrade? l).any (·.restricted) := by
  funext l
  unfold State.lineRestricted
  cases s.lineGrade? l <;> rfl

theorem State.lineOverLimit_eq (s : State) :
    s.lineOverLimit = fun l => (s.lineGrade? l).any fun g => decide (99999999 < (l.figuresUnder g).amount) := by
  funext l
  unfold State.lineOverLimit State.lineAmount?
  cases s.lineGrade? l <;> rfl

/-- The amount a line brings into a sum: nothing where it has no grade. -/
def State.worth (s : State) (l : TicketLine) : Nat := ((s.lineGrade? l).map fun g => (l.figuresUnder g).amount).getD 0

theorem State.worth_grade {s : State} {l : TicketLine} {g : Grade} (h : s.lineGrade? l = some g) :
    s.worth l = (l.figuresUnder g).amount := by rw [State.worth, h]; rfl

theorem State.worth_none {s : State} {l : TicketLine} (h : s.lineGrade? l = none) : s.worth l = 0 := by rw [State.worth, h]; rfl

/-- The sum leaves out the amounts above the limit. -/
theorem State.amountSum_eq (s : State) (lines : List TicketLine) :
    s.amountSum lines = (lines.map fun l => if s.lineOverLimit l then 0 else s.worth l).sum := by
  have step (acc : Nat) (l : TicketLine) : (match s.lineAmount? l with
      | some a => if a ≤ amountLimit then acc + a else acc
      | none => acc) = acc + if s.lineOverLimit l then 0 else s.worth l := by
    unfold State.lineOverLimit State.worth State.lineAmount?
    cases s.lineGrade? l with
    | none => simp
    | some g =>
      by_cases above : amountLimit < (l.figuresUnder g).amount
      · simp [above, Nat.not_le.mpr above]
      · simp [above, Nat.not_lt.mp above]
  have fold (acc : Nat) : lines.foldl (fun acc l => match s.lineAmount? l with
      | some a => if a ≤ amountLimit then acc + a else acc
      | none => acc) acc = acc + (lines.map fun l => if s.lineOverLimit l then 0 else s.worth l).sum := by
    induction lines generalizing acc with
    | nil => rfl
    | cons l rest ih =>
      rw [List.foldl_cons, ih, step, List.map_cons, List.sum_cons, Nat.add_assoc]
  exact (fold 0).trans (Nat.zero_add _)

theorem firstPlace_eq_none (test : TicketLine → Bool) (lines : List TicketLine) :
    firstPlace test lines = none ↔ ∀ l ∈ lines, test l = false := by
  rw [firstPlace, Option.map_eq_none_iff, List.findIdx?_eq_none_iff]

theorem firstPlace_isSome (test : TicketLine → Bool) (lines : List TicketLine) : (firstPlace test lines).isSome = lines.any test := by
  rw [firstPlace, Option.isSome_map, List.findIdx?_isSome]

/-- With no amount above the limit the sum is that of all lines. -/
theorem State.amountSum_within {s : State} {lines : List TicketLine} (h : firstPlace s.lineOverLimit lines = none) :
    s.amountSum lines = (lines.map s.worth).sum := by
  rw [State.amountSum_eq]
  refine congrArg List.sum (List.map_congr_left fun l hl => ?_)
  rw [(firstPlace_eq_none _ _).mp h l hl]
  rfl

theorem State.holdDays_eq (s : State) (lines : List TicketLine) :
    s.holdDays lines = (lines.map fun l => ((s.lineGrade? l).map fun g => if g.restricted then g.holdDays else 0).getD 0).foldl max 0 := by
  rw [State.holdDays, List.foldl_map]
  refine congrArg (fun f => List.foldl f 0 lines) (funext fun acc => funext fun l => ?_)
  cases s.lineGrade? l with
  | none => simp
  | some g => cases restricted : g.restricted <;> simp [restricted]

/-! The checks of R96 -/

/-- The checks of R96 in their order, each with the place it answers, given the sum that the last of them judges. -/
def State.settleChecks (s : State) (t : Ticket) (total : Nat) : List (Status × Option Nat) :=
  [ (.lineUngraded, firstPlace (fun l => (s.lineGrade? l).isNone) t.lines),
    (.gradeDisabled, firstPlace (fun l => (s.lineGrade? l).any fun g => !g.enabled) t.lines),
    (.noCustomer, if t.customer.isNone then firstPlace (fun l => (s.lineGrade? l).any (·.restricted)) t.lines else none),
    (.clockInvalid, if s.clu.valid then none else firstPlace (fun l => (s.lineGrade? l).any (·.restricted)) t.lines),
    (.amountLimit, firstPlace (fun l => (s.lineGrade? l).any fun g => decide (99999999 < (l.figuresUnder g).amount)) t.lines),
    (.amountLimit, if 99999999 < total then some 0 else none) ]

theorem State.settleCheck_sum (s : State) (t : Ticket) :
    s.settleCheck t = (s.settleChecks t (s.amountSum t.lines)).findSome? fun x => x.2.map fun place => (x.1, place) := by
  have ungraded : s.lineUngraded = fun l => (s.lineGrade? l).isNone := rfl
  simp only [State.settleCheck, State.settleChecks, List.findSome?_cons, List.findSome?_nil, ungraded, State.lineDisabled_eq,
    State.lineRestricted_eq, State.lineOverLimit_eq, amountLimit]
  cases firstPlace (fun l => (s.lineGrade? l).isNone) t.lines with
  | some k => rfl
  | none =>
    cases firstPlace (fun l => (s.lineGrade? l).any fun g => !g.enabled) t.lines with
    | some k => rfl
    | none =>
      cases firstPlace (fun l => (s.lineGrade? l).any fun g => decide (99999999 < (l.figuresUnder g).amount)) t.lines <;>
      cases firstPlace (fun l => (s.lineGrade? l).any (·.restricted)) t.lines <;> cases t.customer.isNone <;> cases s.clu.valid <;>
      by_cases above : 99999999 < s.amountSum t.lines <;> simp [above]

/-- The last check may as well judge the sum of all lines, as a line above the limit fails the check before. -/
theorem State.settleCheck_total (s : State) (t : Ticket) :
    s.settleCheck t = (s.settleChecks t (t.lines.map s.worth).sum).findSome? fun x => x.2.map fun place => (x.1, place) := by
  rw [State.settleCheck_sum]
  cases above : firstPlace s.lineOverLimit t.lines with
  | none => rw [State.amountSum_within above]
  | some k =>
    rw [State.lineOverLimit_eq] at above
    simp only [State.settleChecks, List.findSome?_cons, above, Option.map_some]

theorem State.within_of_settles {s : State} {t : Ticket} (h : s.settleCheck t = none) :
    s.amountSum t.lines = (t.lines.map s.worth).sum := by
  refine State.amountSum_within ?_
  rw [State.settleCheck_sum, List.findSome?_eq_none_iff] at h
  have limit := h _ (.tail _ (.tail _ (.tail _ (.tail _ (.head _)))))
  rw [State.lineOverLimit_eq]
  exact Option.map_eq_none_iff.mp limit

/-- The first code of checks with places is that of the checks without. -/
theorem firstCode_eq (checks : List (Status × Option Nat)) :
    ((checks.findSome? fun x => x.2.map fun place => (x.1, place)).map (·.1)) =
      ((checks.map fun x => (x.1, x.2.isSome)).find? (·.2)).map (·.1) := by
  induction checks with
  | nil => rfl
  | cons x rest ih =>
    rcases x with ⟨code, place⟩
    cases place with
    | none => simpa using ih
    | some k => simp

/-! The record a settlement leaves -/

theorem State.settled_taken (s : State) (p : Port) (t : Ticket) : (s.taken p).settled t = s.settled t := by cases p <;> rfl

theorem State.settleCheck_taken (s : State) (p : Port) (t : Ticket) : (s.taken p).settleCheck t = s.settleCheck t := by cases p <;> rfl

theorem State.settlementOf_taken (s : State) (p : Port) (t : Ticket) : (s.taken p).settlementOf t = s.settlementOf t := by
  cases p <;> rfl

theorem feeFor_eq (k : TicketKind) (fee : Nat) : feeFor k fee = if k = .bridge then fee else 0 := by cases k <;> rfl

theorem cashSplit_eq (l : Limits) (payable : Nat) :
    cashSplit l payable =
      (if payable ≤ usableLimit l then nearestMultiple payable l.unit else usableLimit l,
        if payable ≤ usableLimit l then 0 else payable - usableLimit l,
        if payable ≤ usableLimit l then (nearestMultiple payable l.unit : Int) - payable else 0) := by
  unfold cashSplit
  split <;> rfl

/-- Settles O42. -/
theorem ticketSettleWritesFigures : Obligations.TicketSettleWritesFigures := by
  constructor
  · intro s p n t hr held
    have found : (s.taken p).ticket? n = some t := (s.ticket?_taken p n).trans held
    constructor
    · intro open_
      refine request_refused (kind := 0x49) hr ?_ (by decide) (fun _ => by decide)
      rw [Tickets.settle, withTicket_found found, if_pos open_]
    · rintro grade ded amount first total verdict complete hgrade hded hamount rfl htotal hverdict
      have grade_ : grade = s.lineGrade? := hgrade
      have ded_ : ded = fun l g => l.deduction g.deduction := hded
      subst grade_ ded_
      have amount_ : amount = fun l g => (l.figuresUnder g).amount := hamount
      subst amount_
      have total_ : total = (t.lines.map s.worth).sum := by
        rw [htotal]
        refine congrArg (fun f => (t.lines.map f).sum) (funext fun l => ?_)
        cases h : s.lineGrade? l with
        | none => rw [State.worth_none h]
        | some g => rw [State.worth_grade h]
      subst total_
      have verdict_ : verdict = s.settleCheck t := hverdict.trans (s.settleCheck_total t).symm
      subst verdict_
      constructor
      · intro code place failed
        refine request_told s p 0x49 _ code [.u8 place] hr (by decide) (fun _ => by decide) ?_
        rw [Tickets.settle, withTicket_found found, if_neg (not_not_intro complete), State.settleCheck_taken, failed]
        rfl
      · rintro fee payable usable cash remainder days rounding hold needs after passed rfl hpayable rfl hcash hremainder hrounding hdays
          hhold hneeds hafter
        have days_ : days = s.holdDays t.lines := by
          rw [hdays, State.holdDays_eq]
          refine congrArg (fun f => (t.lines.map f).foldl max 0) (funext fun l => ?_)
          cases s.lineGrade? l <;> rfl
        have payable_ : s.amountSum t.lines - feeFor t.kind s.grt.limits.fee = payable := by
          rw [State.within_of_settles passed, hpayable, feeFor_eq]
        have hold_ : s.holdUntil t.lines = hold := by rw [hhold, days_]; rfl
        have block : s.settlementOf t =
            { version := s.grt.version, fee := if t.kind = .bridge then s.grt.limits.fee else 0, payable := payable, cash := cash
              remainder := remainder, rounding := rounding, unit := s.grt.limits.unit, cashLimit := s.grt.limits.cashLimit
              holdUntil := hold } := by
          rw [State.settlementOf, payable_, hold_, cashSplit_eq, feeFor_eq, hcash, hremainder, hrounding, hcash]
          by_cases low : payable ≤ s.grt.limits.cashLimit / s.grt.limits.unit * s.grt.limits.unit <;>
            simp only [usableLimit, floorMultiple, low, if_true, if_false]
        have needs_ : approvalNeeded s.grt.limits payable t.lines = needs := hneeds.symm
        have settles := State.changeTicket_congr (s.taken p) found (f := (s.taken p).settled) (g := fun x => { x with
            st := if hold.isSome then .held else .settled
            lines := x.lines.map s.settleLine
            settlement := some (s.settlementOf t)
            needsApproval := needs
            owed := if s.autoSlip t.kind then x.owed.become 1 x.owed.copies x.owed.notice ⟨s.clu.now, s.clu.valid⟩ else x.owed })
          ((s.settled_taken p t).trans (by simp only [State.settled, block, needs_]; rfl))
        have after_ : ((s.taken p).changeTicket n (s.taken p).settled).pump = after := by
          rw [hafter, settles, block]
          have lines : s.settleLine = fun l => match s.lineGrade? l with
              | some g =>
                { l with
                  figures :=
                    some
                      { figure := (match l.mode with
                          | .grade => some g.deduction
                          | .percent x => some x
                          | .weight _ => none)
                        deduction := l.deduction g.deduction, paid := l.net - l.deduction g.deduction, price := g.price
                        amount := (l.figuresUnder g).amount, restricted := g.restricted } }
              | none => l := rfl
          rw [lines] <;> rfl
        refine request_done (kind := 0x49) hr (by decide) (fun _ => by decide) ?_ (by rw [← after_]; simp) (by rw [← after_]; simp)
        rw [Tickets.settle, withTicket_found found, if_neg (not_not_intro complete), State.settleCheck_taken, passed]
        dsimp only
        rw [after_, State.settlementOf_taken, State.settled_taken, State.settled, block]
        dsimp only
        rw [needs_]
        cases hold <;> rfl
  · rintro s t grade percentOf ded amount excess within fee payable usable
      hgrade hpercent hded hamount hexcess hwithin hfee hpayable husable
    have grade_ : grade = s.lineGrade? := hgrade
    have percent_ : percentOf = fun l x => percentDeduction l.net l.division x := hpercent
    subst grade_ percent_
    have ded_ : ded = fun l g => l.deduction g.deduction := hded
    subst ded_
    have amount_ : amount = fun l g => (l.figuresUnder g).amount := hamount
    subst amount_
    have excess_ : excess = s.lineOverLimit := hexcess.trans s.lineOverLimit_eq.symm
    subst excess_
    have within_ : s.amountSum t.lines = within := by
      rw [hwithin, State.amountSum_eq]
      refine congrArg (fun f => (t.lines.map f).sum) (funext fun l => ?_)
      cases h : s.lineGrade? l with
      | none => simp [State.worth_none h]
      | some g => rw [State.worth_grade h]
    have usable_ : usable = usableLimit s.grt.limits := husable
    have payable_ : within - feeFor t.kind s.grt.limits.fee = payable := by rw [hpayable, hfee, feeFor_eq]
    refine ⟨fun l g h => ?_, fun l h => ?_, ?_⟩
    · unfold State.provisionalLine
      rw [h]
      by_cases above : 99999999 < (l.figuresUnder g).amount <;> simp [amountLimit, above] <;> exact ⟨rfl, rfl, rfl, rfl⟩
    · cases mode : l.mode <;> simp only [State.provisionalLine, h, mode]
    · have check : (s.settleCheck t).map (·.1) = _ := (congrArg (Option.map (·.1)) (s.settleCheck_sum t)).trans (firstCode_eq _)
      have guarded (c : Bool) (test : TicketLine → Bool) :
          (if c then firstPlace test t.lines else none).isSome = (c && t.lines.any test) := by
        cases c
        · rfl
        · exact firstPlace_isSome test t.lines
      have guarded' (c : Bool) (test : TicketLine → Bool) :
          (if c then none else firstPlace test t.lines).isSome = (!c && t.lines.any test) := by
        cases c
        · exact firstPlace_isSome test t.lines
        · rfl
      have last : (if 99999999 < within then some 0 else none : Option Nat).isSome = decide (99999999 < within) := by
        by_cases above : 99999999 < within <;> simp [above]
      have figures : (if decide (amountLimit < within) = true then none
          else some (payable, (cashSplit s.grt.limits payable).1, (cashSplit s.grt.limits payable).2.1,
            (cashSplit s.grt.limits payable).2.2)) =
          if 99999999 < within then none
          else if payable ≤ usable then
            some (payable, nearestMultiple payable s.grt.limits.unit, 0, (nearestMultiple payable s.grt.limits.unit : Int) - payable)
          else some (payable, usable, payable - usable, 0) := by
        rw [cashSplit_eq, ← usable_]
        by_cases above : 99999999 < within <;> by_cases low : payable ≤ usable <;> simp [amountLimit, above, low]
      have days : s.holdDays t.lines = (t.lines.map fun l => match s.lineGrade? l with
          | some g => if g.restricted then g.holdDays else 0
          | none => 0).foldl max 0 := by
        rw [State.holdDays_eq]
        refine congrArg (fun f => (t.lines.map f).foldl max 0) (funext fun l => ?_)
        cases s.lineGrade? l <;> rfl
      simp only [State.settleChecks, List.map_cons, List.map_nil, guarded, guarded', firstPlace_isSome, last, within_] at check
      rw [State.provisionalTotals, check, within_, payable_, figures, days, hfee, ← feeFor_eq, State.lineOverLimit_eq] <;> rfl

end Sys2Proof.Machine
end

