-- ==== Sys2Proof/Proofs/ReadRequests.lean ====
section
/-! PROOFS. Requests that only read: O8. -/

namespace Sys2Proof.Machine

theorem State.nextRelease_eq (s : State) : s.nextRelease =
    (if s.clu.now.hour * 3600 + s.clu.now.minute * 60 + s.clu.now.second < s.clu.releaseHour * 3600 then some s.clu.now.date
      else if s.clu.now.date = ⟨2099, 12, 31⟩ then none else some s.clu.now.date.next).map fun d =>
        ⟨d.year, d.month, d.day, s.clu.releaseHour, 0, 0⟩ := by
  have before : s.clu.now.number < (s.clu.now.date.atHour s.clu.releaseHour).number ↔
      s.clu.now.hour * 3600 + s.clu.now.minute * 60 + s.clu.now.second < s.clu.releaseHour * 3600 := by
    have same : (s.clu.now.date.atHour s.clu.releaseHour).date = s.clu.now.date := rfl
    rw [DateTime.number, DateTime.number, same]
    simp only [Date.atHour]
    omega
  simp only [State.nextRelease, before]
  split
  · rfl
  · split <;> rfl

/-- Whether a page of a list leaves more behind it. -/
theorem more_behind_page {α : Type} (l : List α) (start n : Nat) (_hn : 0 < n) :
    decide (start + ((l.drop start).take n).length < l.length) = decide (start + n < l.length) := by
  rw [decide_eq_decide, List.length_take, List.length_drop]
  omega

theorem Ticket.provisional_eq (t : Ticket) :
    t.provisional = (t.settlement.isNone && decide (t.st = .opened ∨ t.st = .weighing ∨ t.st = .complete)) := by
  rw [Ticket.provisional, Bool.eq_iff_iff]
  simp [or_assoc]

/-- A line of TICKET READ: settled figures where it has them, else provisional ones where the record shows those. -/
theorem State.lineFields_eq (s : State) (t : Ticket) (l : TicketLine) : s.lineFields t l = l.fields ++
    (match l.figures with
      | some f => .u8 1 :: f.fields
      | none => if t.provisional then .u8 2 :: (s.provisionalLine l).fields else [.u8 0]) := by
  unfold State.lineFields TicketLine.storedFields
  cases l.figures with
  | some f => simp
  | none => cases t.provisional <;> simp

theorem TareEntry.age_eq (s : State) (e : TareEntry) (number : Date → Nat) (hn : number = fun d =>
      365 * (d.year - 2000) + (d.year - 2000 + 3) / 4 + (d.day - 1)
        + ((List.range (d.month - 1)).map fun m =>
            if m + 1 = 2 then (if d.year % 4 = 0 then 29 else 28) else if m + 1 ∈ [4, 6, 9, 11] then 30 else 31).sum) :
    s.tareAge e = number s.clu.now.date - number e.storedAt.time.date := by
  subst hn
  rw [State.tareAge, Date.daysTo, Date.number_eq, Date.number_eq]

/-- An entry of TARE READ: its fields, its age where both stamps are valid, and the result of the test of R116. -/
theorem State.tareFields_eq (s : State) (e : TareEntry) : s.tareFields e = e.fields
    ++ (if s.clu.valid = true ∧ e.storedAt.valid = true then [.u8 1, .u16 (s.tareAge e)] else [.u8 0, .u16 0])
    ++ (if s.clu.valid = false then [.u8 0, .u8 1] else if e.storedAt.valid = false then [.u8 0, .u8 2]
      else if s.tareAge e ≤ s.grt.limits.tareValidity then [.u8 1, .u8 0] else [.u8 0, .u8 3]) := by
  unfold State.tareFields State.tareFault
  cases s.clu.valid with
  | false => rfl
  | true =>
    cases e.storedAt.valid with
    | false => rfl
    | true =>
      by_cases old : s.grt.limits.tareValidity < s.tareAge e
      · simp [old, Nat.not_le.mpr old] <;> rfl
      · simp [old, Nat.not_lt.mp old] <;> rfl

/-- Settles O8. -/
theorem readsChangeNothing : Obligations.ReadsChangeNothing := by
  have told {s : State} {p : Port} {kind : Nat} {h : Handler} {status : Status} {data : List Field} (hr : s.ready p)
      (he : h p (s.taken p) = (s.taken p, ⟨status, data⟩)) (hk : kind ∈ knownKinds) (hw : p = .window → kind ∈ windowKinds) :
      request (Port.sender p) kind h s = .next ((s.taken p).answered p kind status data) :=
    request_told s p kind h status data hr hk hw he
  refine ⟨fun s p hr => ⟨?_, ?_, ?_, ?_, ?_⟩, fun s p hr => ⟨fun n => ?_, fun first count => ?_, ?_, ?_, fun part => ?_⟩,
    fun s p hr => ⟨?_, ?_, ?_, ?_, ?_, ?_, ?_, ?_⟩⟩
  · exact told hr (by cases p <;> rfl) (by decide) (fun _ => by decide)
  · exact told hr (by cases p <;> rfl) (by decide) (fun _ => by decide)
  · exact told hr (by cases p <;> rfl) (by decide) (fun _ => by decide)
  · refine told (h := Calendar.read) hr ?_ (by decide) (fun _ => by decide)
    have next : ((s.taken p).nextRelease.map fun t => (⟨t, (s.taken p).clu.valid⟩ : Stamp)) = _ :=
      congrArg (Option.map fun t => (⟨t, (s.taken p).clu.valid⟩ : Stamp)) (s.taken p).nextRelease_eq
    rw [Option.map_map, State.taken_clu] at next
    rw [Calendar.read, State.taken_clu, next]
    cases p <;> rfl
  · rintro rfl
    exact told (p := .office) hr rfl (by decide) nofun
  · cases hn : Channel.ofNat? n with
    | none =>
      have large : ¬n ≤ 3 := by
        rintro small
        interval_cases n <;> cases hn
      refine ⟨[], ?_, nofun⟩
      rw [if_neg large]
      exact told (h := withChannel n Weigh.channelState) hr (by rw [withChannel, hn]; rfl) (by decide) (fun _ => by decide)
    | some ch =>
      have small : n ≤ 3 := by
        by_contra large
        obtain ⟨m, rfl⟩ : ∃ m, n = m + 4 := ⟨n - 4, by omega⟩
        cases hn
      refine ⟨_, ?_, fun ch' h => by cases h; rfl⟩
      rw [if_pos small]
      refine told (h := withChannel n Weigh.channelState) hr ?_ (by decide) (fun _ => by decide)
      rw [withChannel_named hn]
      cases p <;> cases ch <;> rfl
  · have fits : (!gradeCode first) = true ∨ count < 1 ∨ 6 < count ↔ ¬(1 ≤ first ∧ first ≤ 64 ∧ 1 ≤ count ∧ count ≤ 6) := by
      simp only [gradeCode, Bool.not_eq_true', decide_eq_false_iff_not]
      omega
    by_cases inside : 1 ≤ first ∧ first ≤ 64 ∧ 1 ≤ count ∧ count ≤ 6
    · rw [if_pos inside]
      refine told (h := Grades.read first count) hr ?_ (by decide) (fun _ => by decide)
      rw [Grades.read, if_neg fun h => fits.mp h inside]
      cases p <;> rfl
    · rw [if_neg inside]
      refine told (h := Grades.read first count) hr ?_ (by decide) (fun _ => by decide)
      rw [Grades.read, if_pos (fits.mpr inside)]
      rfl
  · exact told hr (by cases p <;> rfl) (by decide) (fun _ => by decide)
  · rintro rfl start
    refine told (p := .office) (h := Cash.logRead start) hr ?_ (by decide) nofun
    rw [← more_behind_page _ _ _ (by decide)]
    rfl
  · have taken {status : Status} {data : List Field} (he : Print.state part p (s.taken p) = (s.taken p, ⟨status, data⟩)) :=
      told (kind := 0x62) hr he (by decide) (fun _ => by decide)
    rcases part with _ | _ | _ | _ | part
    · exact ⟨_, taken (by cases p <;> rfl), fun _ => rfl, nofun, nofun, nofun⟩
    · exact ⟨_, taken (by cases p <;> rfl), nofun, fun _ => rfl, nofun, nofun⟩
    · exact ⟨_, taken (by cases p <;> rfl), nofun, nofun, fun _ => rfl, nofun⟩
    · exact ⟨_, taken (by cases p <;> rfl), nofun, nofun, nofun, fun _ => rfl⟩
    · refine ⟨[], ?_, nofun, nofun, nofun, nofun⟩
      rw [if_neg (by omega)]
      exact taken rfl
  · rintro n part t provisional more line figures payout content small found hprovisional hline hfigures hpayout hcontent hmore
    have prov : t.provisional = provisional := t.provisional_eq.trans hprovisional.symm
    have lines : s.lineFields t = line := by
      rw [hline]
      funext l
      rw [State.lineFields_eq, prov] <;> rfl
    have totals : s.totalsFields t = figures := by
      rw [hfigures, State.totalsFields, prov] <;> rfl
    have part_ : s.ticketPart t part = content := by
      rw [hcontent]
      rcases part with _ | _ | _ | part
      · simp only [State.ticketPart, State.ticketHead, totals, hpayout] <;> rfl
      · rfl
      · simp only [State.ticketPart, lines]
      · simp only [State.ticketPart, lines]
    have more_ : t.moreParts part = more := by
      rw [hmore]
      rw [Bool.eq_iff_iff]
      rcases part with _ | _ | _ | part
      · simp [Ticket.moreParts]
      · simp [Ticket.moreParts]
      · simp [Ticket.moreParts]
      · simp [Ticket.moreParts]
    refine told (h := Tickets.read n part) hr ?_ (by decide) (fun _ => by decide)
    have found' : (s.taken p).ticket? n = some t := (s.ticket?_taken p n).trans found
    have same : (s.taken p).ticketPart t part = s.ticketPart t part := by
      rcases part with _ | _ | _ | part <;> cases p <;> rfl
    rw [Tickets.read, if_neg (by omega), found']
    dsimp only
    rw [same, part_, more_]
    rfl
  · intro n part small missing
    refine told (h := Tickets.read n part) hr ?_ (by decide) (fun _ => by decide)
    rw [Tickets.read, if_neg (by omega), (s.ticket?_taken p n).trans missing]
    rfl
  · intro n part large
    refine told (h := Tickets.read n part) hr ?_ (by decide) (fun _ => by decide)
    rw [Tickets.read, if_pos large]
    rfl
  · intro start
    refine told (h := Tickets.list true start) hr ?_ (by decide) (fun _ => by decide)
    have every : ((s.taken p).tkt.tickets.filter fun t => true || !t.isSpent) = s.tkt.tickets := by
      rw [State.taken_tkt]
      exact List.filter_eq_self.mpr fun _ _ => rfl
    rw [Tickets.list, every]
    rw [more_behind_page _ _ _ (by decide)]
    rfl
  · rintro start live rfl
    refine told (h := Tickets.list false start) hr ?_ (by decide) (fun _ => by decide)
    have some_ : ((s.taken p).tkt.tickets.filter fun t => false || !t.isSpent) = s.tkt.tickets.filter fun t => !t.isSpent := by
      rw [State.taken_tkt]
      rfl
    rw [Tickets.list, some_]
    rw [more_behind_page _ _ _ (by decide)]
    rfl
  · rintro number age shown test entry hnumber rfl rfl rfl hentry
    have fields : (s.taken p).tareFields = entry := by
      rw [hentry]
      funext e
      rw [State.tareFields_eq, TareEntry.age_eq _ e number hnumber, State.taken_clu, State.taken_grt]
    constructor
    · intro start
      refine told (h := Tares.read (.page start)) hr ?_ (by decide) (fun _ => by decide)
      rw [Tares.read]
      rw [fields, State.taken_vtr, more_behind_page _ _ _ (by decide)]
      rfl
    · intro plate q e named held
      refine told (h := Tares.read (.plate plate)) hr ?_ (by decide) (fun _ => by decide)
      have held' : (s.taken p).tare? q = some e := by rw [State.tare?, State.taken_vtr]; exact held
      simp only [Tares.read, named, held', fields]
      rfl
  · intro plate q named missing
    refine told (h := Tares.read (.plate plate)) hr ?_ (by decide) (fun _ => by decide)
    have missing' : (s.taken p).tare? q = none := by rw [State.tare?, State.taken_vtr]; exact missing
    simp only [Tares.read, named, missing']
    rfl
  · intro plate unnamed
    refine told (h := Tares.read (.plate plate)) hr ?_ (by decide) (fun _ => by decide)
    simp only [Tares.read, unnamed]
    rfl

end Sys2Proof.Machine
end

