-- ==== Sys2Proof/Proofs/LinkRequests.lean ====
section
/-! PROOFS. Events, counters and the restart after an answer: O9. -/

namespace Sys2Proof.Machine

/-! A start leaves no alert to begin -/

theorem State.alertCondition_kept {s t : State} (wch : t.wch = s.wch) (dsu : t.dsu = s.dsu) (src : AlertSource) :
    t.alertCondition src = s.alertCondition src :=
  State.alertCondition_congr t s (by rw [dsu]) (State.anyInService_congr wch) src

theorem State.alertCondition_markAlert (s : State) (o src : AlertSource) : (s.markAlert o).alertCondition src = s.alertCondition src := by
  obtain ⟨e, h⟩ := s.markAlert_frame o
  rw [h, State.alertCondition_evu]

theorem State.alertCondition_startAlert (s : State) (o src : AlertSource) : (s.startAlert o).alertCondition src = s.alertCondition src := by
  unfold State.startAlert
  split
  · exact s.alertCondition_markAlert o src
  · rfl

/-- A source latched stays latched as others are marked. -/
theorem State.markAlert_stays {s : State} {src : AlertSource} (o : AlertSource) (h : (s.evu.alerts.get src).latch.isSome = true) :
    ((s.markAlert o).evu.alerts.get src).latch.isSome = true := by
  rw [State.alert_markAlert]
  split
  · rfl
  · exact h

theorem State.markAlert_latches (s : State) (src : AlertSource) : ((s.markAlert src).evu.alerts.get src).latch.isSome = true := by
  rw [State.alert_marked]
  rfl

theorem State.startAlert_stays {s : State} {src : AlertSource} (o : AlertSource) (h : (s.evu.alerts.get src).latch.isSome = true) :
    ((s.startAlert o).evu.alerts.get src).latch.isSome = true := by
  unfold State.startAlert
  split
  · exact State.markAlert_stays o h
  · exact h

theorem State.startAlert_latches {s : State} {src : AlertSource} (h : s.alertCondition src = true) :
    ((s.startAlert src).evu.alerts.get src).latch.isSome = true := by
  rw [State.startAlert, if_pos h]
  exact s.markAlert_latches src

theorem State.releaseCheck_alerts (s : State) (d : Date) : (s.releaseCheck d).evu.alerts = s.evu.alerts := by
  unfold State.releaseCheck
  dsimp only
  split <;> rfl

/-- After a start every source whose condition holds is latched. -/
theorem State.startUp_latches (s : State) (w : Start) (src : AlertSource) (h : (s.startUp w).alertCondition src = true) :
    ((s.startUp w).evu.alerts.get src).latch.isSome = true := by
  rw [State.startUp_eq] at h ⊢
  have rest := (s.startedDecks w).startedRest_reaches w s.resetDisputes
  rw [State.alertCondition_kept (rest.wch (by decide)) (rest.dsu (by decide))] at h
  generalize s.startedDecks w = u at h ⊢
  have begun : (((((u.startAlert .cashDoor).startAlert .cabinet).startAlert .calSwitch).evu.alerts.get src).latch).isSome = true := by
    cases src with
    | cashDoor => exact State.startAlert_stays _ (State.startAlert_stays _ (State.startAlert_latches h))
    | cabinet => exact State.startAlert_stays _ (State.startAlert_latches (by rw [State.alertCondition_startAlert]; exact h))
    | calSwitch =>
      exact State.startAlert_latches (by rw [State.alertCondition_startAlert, State.alertCondition_startAlert]; exact h)
    | retract => cases h
    | dispute => cases h
  unfold State.startedRest
  dsimp only
  generalize ((u.startAlert .cashDoor).startAlert .cabinet).startAlert .calSwitch = v at begun ⊢
  have marked : ((if w.retained && s.resetDisputes then v.markAlert .dispute else v).evu.alerts.get src).latch.isSome = true := by
    split
    · exact State.markAlert_stays _ begun
    · exact begun
  generalize (if w.retained && s.resetDisputes then v.markAlert .dispute else v) = x at marked ⊢
  have released : (if w.retained then x.releaseCheck x.releaseDate else x).evu.alerts = x.evu.alerts := by
    split
    · exact x.releaseCheck_alerts _
    · rfl
  have ended (y : State) : y.pump.startLamps.settle.evu.alerts = y.evu.alerts := y.pump_alerts
  rw [ended, released]
  exact marked

/-- Concluding a start changes nothing of it. -/
theorem State.conclude_startUp (s before : State) (w : Start) : before.conclude (s.startUp w) = s.startUp w := by
  rw [State.conclude, State.beginAlerts_settled fun src now => .inr (s.startUp_latches w src now)]
  simp only [State.startUp, State.settle_settle]

theorem State.startUp_setPort (s : State) (p : Port) (x : PortState) (w : Start) : (s.setPort p x).startUp w = s.startUp w := by
  have cleared : (s.setPort p x).cleared w = s.cleared w := by cases p <;> rfl
  have disputes : (s.setPort p x).resetDisputes = s.resetDisputes := by cases p <;> rfl
  unfold State.startUp
  rw [cleared, disputes]

/-- Settles O9. -/
theorem eventsCountersAndRestart : Obligations.EventsCountersAndRestart := by
  refine ⟨fun s p hr => ⟨?_, fun m clear => ?_, fun m set => ?_, ?_⟩, fun s hr => ?_, fun s p a power sent other => ?_,
    fun s p a power sent kind status => ?_⟩
  · refine request_done (h := General.eventsFetch) (kind := 0x02) hr (by decide) (fun _ => by decide) ?_ (by simp) (by simp)
    rw [General.eventsFetch, State.events_taken]
    rfl
  · refine request_done (h := General.eventsMask m) (kind := 0x03) hr (by decide) (fun _ => by decide) ?_ (by simp) (by simp)
    rw [General.eventsMask, clear, State.events_taken]
    rfl
  · refine request_told s p 0x03 (General.eventsMask m) _ _ hr (by decide) (fun _ => by decide) ?_
    rw [General.eventsMask, set]
    rfl
  · have ready := hr
    obtain ⟨-, -, idle⟩ := ready
    refine request_done (h := General.linkCounters) (kind := 0x04) hr (by decide) (fun _ => by decide) ?_ (by simp) (by simp)
    cases p <;> simp only [State.port] at idle <;>
      simp only [General.linkCounters, State.taken, State.setPort, State.port, done, idlePort, Counters.fields, idle] <;> rfl
  · exact request_told s .office 0x05 General.restart _ _ hr (by decide) nofun rfl
  · have stays : a.restarts = false := by
      rw [Answer.restarts, Bool.and_eq_false_iff]
      rcases other with other | other
      · exact .inl (beq_false_of_ne other)
      · exact .inr (beq_false_of_ne other)
    exact run_done (f := Links.answerSent p) power (by simp only [Links.answerSent, sent, stays]; rfl) (by simp) (by simp)
  · have restarts : a.restarts = true := by rw [Answer.restarts, kind, status]; rfl
    refine ⟨s.startUp warm, ?_, ?_⟩
    · have sends : Links.answerSent p s = s.startUp warm := by
        simp only [Links.answerSent, sent, restarts, if_true, State.startUp_setPort]
      have ran : run (Links.answerSent p) s = .next (s.startUp warm) := by
        rw [run, if_pos power, sends, State.conclude_startUp]
      exact ran
    · have resets : execResetLine s = .next (s.startUp warm) := by rw [execResetLine, if_pos power]
      exact resets

end Sys2Proof.Machine
end

