-- ==== Sys2Proof/Proofs/LineDebounces.lean ====
section
/-! PROOFS. Levels, debounces, the cash door and the alerts of the contacts: O24. -/

namespace Sys2Proof.Machine

/-! What the conditions read of the lines -/

theorem State.served_debounced (s : State) (f : LineFunction) :
    (s.served f).map (·.debounced) =
      ((s.dsu.lines.map fun l => (l.entry.function, l.debounced)).find? fun x => x.1 == f).map (·.2) := by
  rw [State.served, List.find?_map, Option.map_map]
  rfl

/-- The conditions of the contacts read of each line its function and its debounced state alone. -/
theorem State.conditions_of_lines {s t : State}
    (lines : (t.dsu.lines.map fun l => (l.entry.function, l.debounced)) = s.dsu.lines.map fun l => (l.entry.function, l.debounced))
    (service : t.anyInService = s.anyInService) : t.sameConditions s := by
  have served (f : LineFunction) : (t.served f).map (·.debounced) = (s.served f).map (·.debounced) := by
    rw [State.served_debounced, State.served_debounced, lines]
  have door := served .cashDoor
  have cabinet := served .cabinet
  have switch := served .calSwitch
  refine ⟨?_, ?_, ?_⟩
  · unfold State.alertCondition State.cashDoorOpen
    cases ht : t.served .cashDoor <;> cases hs : s.served .cashDoor <;> simp_all
  · unfold State.alertCondition State.cabinetOpen
    cases ht : t.served .cabinet <;> cases hs : s.served .cabinet <;> simp_all
  · unfold State.alertCondition State.switchClosed
    cases ht : t.served .calSwitch <;> cases hs : s.served .calSwitch <;> simp_all

theorem State.setLine_conditions {s : State} {n : Nat} {l l' : YardLine} (h : s.dsu.lines[n]? = some l)
    (entry : l'.entry.function = l.entry.function) (debounced : l'.debounced = l.debounced) : (s.setLine n l').sameConditions s := by
  refine State.conditions_of_lines ?_ rfl
  have same : (s.dsu.lines.map fun l => (l.entry.function, l.debounced))[n]? = some (l'.entry.function, l'.debounced) := by
    rw [List.getElem?_map, h, entry, debounced]
    rfl
  obtain ⟨inside, here⟩ := List.getElem?_eq_some_iff.mp same
  rw [State.setLine]
  dsimp only
  rw [List.map_set, ← here, List.set_getElem_self]

theorem State.conclude_same {before after : State} (h : after.sameConditions before) : before.conclude after = after.settle := by
  rw [State.conclude, State.beginAlerts_of_same _ _ h]

/-- A line driven anew: a level that departs from the debounced state starts the debounce, one that returns cancels it. -/
theorem YardLine.driven_eq (l : YardLine) (n : Nat) (drive : LineDrive) (timer : Timer) : l.driven n drive timer =
    { l with
      drive := drive
      debounce :=
        if LineFunction.debounces l.entry.function = false then l.debounce
        else if Polarity.active l.entry.polarity (({ l with drive := drive } : YardLine).inputLevel n) = l.debounced then none
        else if l.debounce.isSome then l.debounce else some timer } := by
  have logical : ({ l with drive := drive } : YardLine).logical n =
      Polarity.active l.entry.polarity (({ l with drive := drive } : YardLine).inputLevel n) := rfl
  unfold YardLine.driven
  dsimp only
  rw [logical]
  cases LineFunction.debounces l.entry.function with
  | false => rfl
  | true =>
    by_cases returned : Polarity.active l.entry.polarity (({ l with drive := drive } : YardLine).inputLevel n) = l.debounced
    · simp [returned]
    · have running : some (l.debounce.getD timer) = if l.debounce.isSome then l.debounce else some timer := by cases l.debounce <;> rfl
      simp [returned, running]

/-! The contacts' alerts -/

theorem EventSet.latch_latch (e : EventSet) (f : EventFlag) : (e.latch f).latch f = e.latch f := by
  simp [EventSet.latch, BitVec.or_assoc]

/-- A source marked where it begins: latched with the stamp of the moment, and ALERT to both ports. -/
def State.marked (s : State) (begins : Bool) (src : AlertSource) : State :=
  if begins then (s.setAlert src ⟨some s.stamp, (s.evu.alerts.get src).enabled⟩).latchBoth .alert else s

theorem State.beginAlert_eq (s before : State) (src : AlertSource) :
    s.beginAlert before src =
      s.marked (s.alertCondition src && !before.alertCondition src && (s.evu.alerts.get src).latch.isNone) src := by
  unfold State.beginAlert State.marked
  cases begun : s.alertCondition src && !before.alertCondition src with
  | false => rfl
  | true =>
    cases latched : (s.evu.alerts.get src).latch with
    | some x => exact s.markAlert_latched src x latched
    | none => exact State.markAlert_new latched

theorem State.marked_keeps (s : State) (begins : Bool) {src o : AlertSource} (h : o ≠ src) :
    (s.marked begins src).alertCondition o = s.alertCondition o ∧
      ((s.marked begins src).evu.alerts.get o).latch = (s.evu.alerts.get o).latch := by
  unfold State.marked
  split
  · refine ⟨by cases o <;> rfl, ?_⟩
    rw [State.alerts_latchBoth, State.setAlert, Alerts.get_put, if_neg h]
  · exact ⟨rfl, rfl⟩

/-- The alerts an event begins, each by its condition and its latch as the event leaves them. -/
theorem State.beginAlerts_marked (s before : State) {begins : AlertSource → Bool}
    (hb : begins = fun src => s.alertCondition src && !before.alertCondition src && (s.evu.alerts.get src).latch.isNone) :
    s.beginAlerts before =
      (((s.marked (begins .cashDoor) .cashDoor).marked (begins .cabinet) .cabinet).marked (begins .calSwitch) .calSwitch) := by
  subst hb
  have cabinet := s.marked_keeps
    (s.alertCondition .cashDoor && !before.alertCondition .cashDoor && (s.evu.alerts.get .cashDoor).latch.isNone)
    (src := .cashDoor) (o := .cabinet) (by decide)
  have switch := s.marked_keeps
    (s.alertCondition .cashDoor && !before.alertCondition .cashDoor && (s.evu.alerts.get .cashDoor).latch.isNone)
    (src := .cashDoor) (o := .calSwitch) (by decide)
  rw [State.beginAlerts, State.beginAlert_eq s, State.beginAlert_eq _ _ .cabinet, cabinet.1, cabinet.2,
    State.beginAlert_eq _ _ .calSwitch]
  have switch' := State.marked_keeps
    (s.marked (s.alertCondition .cashDoor && !before.alertCondition .cashDoor && (s.evu.alerts.get .cashDoor).latch.isNone) .cashDoor)
    (s.alertCondition .cabinet && !before.alertCondition .cabinet && (s.evu.alerts.get .cabinet).latch.isNone)
    (src := .cabinet) (o := .calSwitch) (by decide)
  rw [switch'.1, switch'.2, switch.1, switch.2]

/-- The events the alerts an event begins leave. -/
def Evu.begun (e : Evu) (begins : AlertSource → Bool) (now : Stamp) : Evu :=
  { office := if begins .cashDoor || begins .cabinet || begins .calSwitch then e.office.latch .alert else e.office
    window := if begins .cashDoor || begins .cabinet || begins .calSwitch then e.window.latch .alert else e.window
    alerts :=
      { e.alerts with
        cashDoor := if begins .cashDoor then ⟨some now, e.alerts.cashDoor.enabled⟩ else e.alerts.cashDoor
        cabinet := if begins .cabinet then ⟨some now, e.alerts.cabinet.enabled⟩ else e.alerts.cabinet
        calSwitch := if begins .calSwitch then ⟨some now, e.alerts.calSwitch.enabled⟩ else e.alerts.calSwitch } }

theorem State.beginAlerts_eq (s before : State) {begins : AlertSource → Bool}
    (hb : begins = fun src => s.alertCondition src && !before.alertCondition src && (s.evu.alerts.get src).latch.isNone) :
    s.beginAlerts before = { s with evu := s.evu.begun begins s.stamp } := by
  rw [s.beginAlerts_marked before hb]
  unfold Evu.begun
  cases begins .cashDoor <;> cases begins .cabinet <;> cases begins .calSwitch <;>
    simp [State.marked, State.latchBoth, State.latch, State.setEvents, State.events, State.setAlert, Alerts.put, Alerts.get,
      EventSet.latch_latch, State.stamp]

theorem State.anyInService_eq (s : State) :
    ([s.wch.c0.st, s.wch.c1.st, s.wch.c2.st, s.wch.c3.st].all fun st => decide (st ≠ .service)) = !s.anyInService := by
  rw [Bool.eq_iff_iff]
  simp [State.anyInService, and_assoc]

/-! The cash door -/

theorem Pyu.ended_pending (u : Pyu) (d : DispenserSt) : (u.ended d).doorPending = false := by
  unfold Pyu.ended
  split
  · rfl
  · rename_i h
    exact Bool.not_eq_true _ ▸ h

theorem Pyu.drawing_pending (u : Pyu) (p : Payout) (w : Option Drawn) (now : Stamp) :
    (u.drawing p w now).doorPending = u.doorPending := by
  unfold Pyu.drawing
  split
  · split
    · rfl
    · unfold Pyu.bank Pyu.note
      split <;> rfl
  · rfl

/-- Settles O24. -/
theorem linesDebounce : Obligations.LinesDebounce := by
  refine ⟨fun s n l held => ⟨fun drive off => ?_, fun drive debounce power hd => ?_, fun after power running ha => ?_,
    fun power rest => ?_⟩, fun s => ⟨fun rest => ?_, fun opened => ?_, fun working => ?_, ?_, fun shut => ?_, ?_⟩, ?_⟩
  · have exec_ : exec (.inputLevelChange n drive) s = .next (Lines.driveOnly n drive s) :=
      congrArg Host.Outcome.next (if_neg (by rw [off]; exact Bool.false_ne_true))
    rw [exec_, Lines.driveOnly, held]
  · have exec_ : exec (.inputLevelChange n drive) s = .next (s.conclude (Lines.levelChange n drive s)) :=
      congrArg Host.Outcome.next (if_pos power)
    have timer : s.timer (s.debounceTime l.entry.function) = ⟨match l.entry.function with
        | .beam _ _ => s.dsu.beamDebounce
        | _ => 20, s.elapsed⟩ := by
      cases l.entry.function <;> rfl
    have driven : l.driven n drive (s.timer (s.debounceTime l.entry.function)) = { l with drive := drive, debounce := debounce } := by
      rw [YardLine.driven_eq, timer, hd] <;> rfl
    rw [exec_, Lines.levelChange, held]
    dsimp only
    rw [driven]
    exact congrArg Host.Outcome.next (State.conclude_same (State.setLine_conditions held rfl rfl))
  · obtain ⟨timer, running⟩ := Option.isSome_iff_exists.mp running
    have completes : Lines.debounced n s = after.roleChange l.entry.function (!l.debounced) := by
      simp only [Lines.debounced, held, running, ha]
      rfl
    have exec_ : exec (.debouncedChange n) s = .next (s.conclude (after.roleChange l.entry.function (!l.debounced))) := by
      have ran : run (Lines.debounced n) s = .next (s.conclude (Lines.debounced n s)) := by rw [run, if_pos power]
      rw [← completes]
      exact ran
    rw [exec_]
    cases l.entry.function with
    | cashDoor => cases l.debounced <;> rfl
    | _ => rfl
  · exact run_done (f := Lines.debounced n) power (by simp only [Lines.debounced, held, rest]; rfl) rfl rfl
  · rcases rest with h | h | h <;> simp only [State.doorOpens, h]
  · simp only [State.doorOpens, opened]
  · rcases working with h | h | h | h <;> simp only [State.doorOpens, h]
  · rintro p t picking pay rfl
    have ends : s.doorOpens =
        ({ s with pyu := { s.pyu with doorPending := true } } : State).payoutEnd p .notPaid .jammed (some ⟨.jam, 0, true⟩) .fault := by
      simp only [State.doorOpens, State.payoutStops, picking, pay]
    have left := payoutEndLeavesOutcome _ _ p .notPaid .jammed (some ⟨.jam, 0, true⟩) .fault ends
    obtain ⟨payout, command, -, stores, disp, remembered, -, fault, slot, -, log, -⟩ := left
    refine ⟨ends, disp, remembered rfl, ?_, command, payout, stores, by rw [slot]; rfl, fun some_ room => ?_, fault (.inl rfl)⟩
    · rw [ends, State.payoutEnd_pyu]
      exact (Pyu.drawing_pending _ _ _ _).trans (Pyu.ended_pending _ _)
    · have filled : ¬(p.picked.sum = 0 ∨ 16 ≤ s.pyu.log.length) := by omega
      rw [log]
      dsimp only
      rw [if_neg filled, List.getLast?_append]
      rfl
  · simp only [State.doorCloses, if_neg shut]
  · rintro closed opened rfl
    simp only [State.doorCloses, if_pos opened, Option.isSome_iff_ne_none]
  · rintro before after begins door cabinet switch mark rfl hdoor hcabinet hswitch rfl
    have begun := after.beginAlerts_eq before rfl
    constructor
    · have closed (x : State) : (x.switchClosed && [x.wch.c0.st, x.wch.c1.st, x.wch.c2.st, x.wch.c3.st].all fun st =>
          decide (st ≠ .service)) = x.alertCondition .calSwitch := by
        rw [x.anyInService_eq]
        rfl
      have switch_ : switch = (after.alertCondition .calSwitch && !before.alertCondition .calSwitch
          && (after.evu.alerts.get .calSwitch).latch.isNone) :=
        hswitch.trans (congrArg (fun holds : State → Bool => holds after && !holds before && (after.evu.alerts.get .calSwitch).latch.isNone)
          (funext closed))
      have alert : EventFlag.alert.mark = 0x200000 := by decide
      rw [State.conclude, begun, Evu.begun, ← switch_]
      simp only [EventSet.latch, alert, hdoor, hcabinet]
      rfl
    · intro same
      obtain ⟨a, b, c⟩ := same
      exact State.conclude_same ⟨a.symm, b.symm, c.symm⟩

end Sys2Proof.Machine
end

