-- ==== Sys2Proof/Proofs/LineMaps.lean ====
section
/-! PROOFS. The line map and the line outputs: O28. -/

namespace Sys2Proof.Machine

/-! The dispenser reads nothing of the yard or the office port -/

/-- The state with other decks and lines and another office port. -/
def State.withYard (s : State) (d : Dsu) (o : PortState) : State := { s with dsu := d, office := o }

section Yard

variable (d : Dsu) (o : PortState)

theorem State.changeTicket_withYard (s : State) (n : Nat) (f : Ticket → Ticket) :
    (s.withYard d o).changeTicket n f = (s.changeTicket n f).withYard d o :=
  (s.changeTicket_beside s.pyu d o n f).trans
    (congrArg (fun u => (s.changeTicket n f).beside u d o) (s.changeTicket_pyu n f).symm)

theorem State.pump_withYard (s : State) : (s.withYard d o).pump = s.pump.withYard d o :=
  (s.pump_beside s.pyu d o).trans (congrArg (fun u => s.pump.beside u d o) s.pump_pyu.symm)

theorem State.operationEnds_withYard (s : State) (e : DispenserSt) :
    (s.withYard d o).operationEnds e = (s.operationEnds e).withYard d o := by
  have pyu : (s.withYard d o).pyu = s.pyu := rfl
  unfold State.operationEnds
  rw [pyu]
  dsimp only
  split <;> split <;> rfl

theorem State.latch_withYard (s : State) (p : Port) (f : EventFlag) : (s.withYard d o).latch p f = (s.latch p f).withYard d o := by
  cases p <;> rfl

theorem State.markAlert_withYard (s : State) (src : AlertSource) : (s.withYard d o).markAlert src = (s.markAlert src).withYard d o := by
  have evu : (s.withYard d o).evu = s.evu := rfl
  unfold State.markAlert
  rw [evu]
  dsimp only
  cases (s.evu.alerts.get src).latch <;> rfl

theorem State.payoutEnd_withYard (s : State) (p : Payout) (x : PayoutResult) (c : PayoutEnd) (w : Option Drawn) (e : DispenserSt) :
    (s.withYard d o).payoutEnd p x c w e = (s.payoutEnd p x c w e).withYard d o := by
  have stamp : (s.withYard d o).stamp = s.stamp := rfl
  have cash : (s.withYard d o).cashOf p.ticket = s.cashOf p.ticket := rfl
  unfold State.payoutEnd
  dsimp only
  rw [stamp, cash, State.operationEnds_withYard, State.changeTicket_withYard, State.pump_withYard]
  generalize ((s.operationEnds e).changeTicket p.ticket fun t => t.payoutEnds p x c s.stamp).pump = v
  have given (u : Pyu) : ({ v.withYard d o with pyu := u } : State).latch p.port .payoutEnd =
      (({ v with pyu := u } : State).latch p.port .payoutEnd).withYard d o := State.latch_withYard d o { v with pyu := u } p.port .payoutEnd
  cases x with
  | paid => exact given _
  | disputed => exact (congrArg (State.markAlert · .dispute) (given _)).trans (State.markAlert_withYard d o _ _)
  | notPaid =>
    by_cases retracted : c = .retracted
    · subst retracted
      exact (congrArg (State.markAlert · .retract) (given _)).trans (State.markAlert_withYard d o _ _)
    · simp only [if_neg retracted]
      exact given _

theorem State.doorOpens_withYard (s : State) : (s.withYard d o).doorOpens = s.doorOpens.withYard d o := by
  have pyu : (s.withYard d o).pyu = s.pyu := rfl
  have mark : ({ s.withYard d o with pyu := { s.pyu with doorPending := true } } : State) =
      ({ s with pyu := { s.pyu with doorPending := true } } : State).withYard d o := rfl
  unfold State.doorOpens
  rw [pyu, mark]
  dsimp only
  cases disp : s.pyu.disp with
  | picking =>
    cases pay : s.pyu.payout with
    | none => rfl
    | some p =>
      have stops (v : State) (hv : v.pyu.disp = .picking) :
          v.payoutStops p .jammed = v.payoutEnd p .notPaid .jammed (some ⟨.jam, 0, true⟩) .fault := by
        simp only [State.payoutStops, hv]
      exact (stops _ rfl).trans ((State.payoutEnd_withYard d o _ _ _ _ _ _).trans (congrArg (State.withYard · d o) (stops _ rfl).symm))
  | _ => rfl

theorem State.doorCloses_withYard (s : State) : (s.withYard d o).doorCloses = s.doorCloses.withYard d o := by
  have pyu : (s.withYard d o).pyu = s.pyu := rfl
  unfold State.doorCloses
  rw [pyu]
  dsimp only
  split
  · split <;> rfl
  · rfl

theorem State.doorEvent_withYard (s : State) (opens : Bool) : (s.withYard d o).doorEvent opens = (s.doorEvent opens).withYard d o := by
  cases opens
  · exact s.doorCloses_withYard d o
  · exact s.doorOpens_withYard d o

end Yard

/-! The entries of a map -/

theorem singleUse_eq (f : LineFunction) : singleUse f = decide (f ≠ .gpIn ∧ f ≠ .gpOut ∧ f ≠ .unmapped) := by
  cases f <;> simp [singleUse]

theorem rolesDistinct_iff (entries : List LineEntry) : rolesDistinct entries = true ↔
    ((entries.map (·.function)).filter fun x => decide (x ≠ .gpIn ∧ x ≠ .gpOut ∧ x ≠ .unmapped)).Nodup := by
  have uses : (fun f => decide (f ≠ LineFunction.gpIn ∧ f ≠ .gpOut ∧ f ≠ .unmapped)) = singleUse := funext fun f => (singleUse_eq f).symm
  rw [uses]
  induction entries with
  | nil => simp [rolesDistinct]
  | cons e rest ih =>
    simp only [rolesDistinct, Bool.and_eq_true, ih, List.map_cons]
    cases single : singleUse e.function with
    | false => simp [single]
    | true =>
      rw [List.filter_cons_of_pos single, List.nodup_cons]
      simp [single]

theorem remapLines_getElem? {lines : List YardLine} {entries : List LineEntry} {i : Nat} {l : YardLine} {e : LineEntry}
    (hl : lines[i]? = some l) (he : entries[i]? = some e) : (remapLines lines entries)[i]? = some (l.remapped i e) := by
  have zipped : (lines.zip entries)[i]? = some (l, e) := by rw [List.getElem?_zip_eq_some]; exact ⟨hl, he⟩
  simp [remapLines, List.getElem?_zipIdx, zipped]

/-! The beams under a new map -/

theorem State.beamBlocked_setBridge (s : State) (b c : Bridge) (x : BridgeState) (side : Side) :
    (s.setBridge b x).beamBlocked c side = s.beamBlocked c side := by cases b <;> rfl

/-- The record of an empty bridge whose beams a map has read anew: whether each reads blocked, and did before. -/
def BridgeState.remapped (x : BridgeState) (entry entry0 exit exit0 : Bool) (stretch fault : Timer) : BridgeState :=
  { x with
    pos := if (entry && !entry0) || (exit && !exit0) then .entering else .empty
    stretch := if (entry && !entry0) || (exit && !exit0) then some stretch else x.stretch
    entryFault := if entry then some fault else none
    exitFault := if exit then some fault else none }

theorem State.setPosition_entering {s : State} {b : Bridge} (h : (s.bridge b).pos ≠ .onDeck) :
    s.setPosition b .entering =
      s.setBridge b { s.bridge b with pos := .entering, stretch := some (s.timer s.dsu.stretchTime) } := by
  unfold State.setPosition
  have stays : ¬((s.bridge b).pos = .onDeck ∧ Position.entering ≠ .onDeck) := fun moved => h moved.1
  simp only [if_neg stays, if_true, if_neg (by decide : ¬(Position.entering = .onDeck ∨ Position.entering = .empty ∨
    Position.entering = .fault))]

theorem BridgeState.withFault_eq (x : BridgeState) (side : Side) (t : Option Timer) :
    ∃ f g, x.withFault side t = { x with entryFault := f, exitFault := g } := by
  cases side <;> exact ⟨_, _, rfl⟩

/-- A beam that becomes blocked takes an empty bridge to ENTERING. -/
theorem State.beamChange_enters {s : State} {b : Bridge} (side : Side) (empty : (s.bridge b).pos = .empty) : ∃ f g,
    s.beamChange b side true = s.setBridge b
      { s.bridge b with pos := .entering, stretch := some (s.timer s.dsu.stretchTime), entryFault := f, exitFault := g } := by
  have enters := s.beamChange_eq b side true _ .entering rfl (by rw [empty]; rfl)
  rw [empty, if_neg (by decide)] at enters
  obtain ⟨f, g, timed⟩ := (s.bridge b).withFault_eq side (if true then some (s.timer (s.dsu.beamFault * 1000)) else none)
  have pos : ((s.setBridge b { s.bridge b with entryFault := f, exitFault := g }).bridge b).pos ≠ .onDeck := by
    rw [State.bridge_setBridge]
    simp [empty]
  refine ⟨f, g, ?_⟩
  rw [enters, timed, State.setPosition_entering pos, State.bridge_setBridge, State.setBridge_setBridge]
  cases b <;> rfl

/-- A beam change that leaves the position sets no more than the fault timers. -/
theorem State.beamChange_stays {s : State} {b : Bridge} {side : Side} {blocked : Bool}
    (stays : (blocked = true ∧ (s.bridge b).pos = .entering) ∨
      (blocked = false ∧ ((s.bridge b).pos = .empty ∨ (s.beamBlocked b .entry || s.beamBlocked b .exit) = true))) : ∃ f g,
    s.beamChange b side blocked = s.setBridge b { s.bridge b with entryFault := f, exitFault := g } := by
  have same : (s.bridge b).pos =
      (s.bridge b).pos.onBeam blocked (s.beamBlocked b .entry || s.beamBlocked b .exit) (s.chan b.channel).occupied := by
    rcases stays with ⟨rfl, pos⟩ | ⟨rfl, pos | other⟩
    · rw [pos]; rfl
    · rw [pos]
      simp [Position.onBeam]
    · rw [other]
      rfl
  have sets := s.beamChange_eq b side blocked _ (s.bridge b).pos rfl same
  rw [if_pos rfl] at sets
  obtain ⟨f, g, timed⟩ := (s.bridge b).withFault_eq side (if blocked then some (s.timer (s.dsu.beamFault * 1000)) else none)
  exact ⟨f, g, sets.trans (by rw [timed])⟩

theorem State.bridge_self (s : State) (b : Bridge) : s.setBridge b (s.bridge b) = s := by cases b <;> rfl

/-- A beam of a map taken as a change, on a bridge EMPTY or already brought to ENTERING by its other beam. -/
theorem State.rebeam_eq {s : State} {b : Bridge} (side : Side) (before : State) {blocked was : Bool}
    (hb : s.beamBlocked b side = blocked) (hw : before.beamBlocked b side = was)
    (pos : (s.bridge b).pos = .empty ∨ (s.bridge b).pos = .entering ∧ (s.beamBlocked b .entry || s.beamBlocked b .exit) = true) : ∃ f g,
    s.rebeam before b side = s.setBridge b
      { s.bridge b with
        pos := if blocked && !was then .entering else (s.bridge b).pos
        stretch :=
          if blocked && !was && decide ((s.bridge b).pos = .empty) then some (s.timer s.dsu.stretchTime) else (s.bridge b).stretch
        entryFault := f, exitFault := g } := by
  unfold State.rebeam
  rw [hb, hw]
  by_cases same : blocked = was
  · refine ⟨(s.bridge b).entryFault, (s.bridge b).exitFault, ?_⟩
    rw [if_pos same, same, Bool.and_not_self]
    exact (s.bridge_self b).symm
  · rw [if_neg same]
    cases blocked with
    | false =>
      obtain ⟨f, g, stays⟩ := State.beamChange_stays (side := side) (.inr ⟨rfl, pos.imp_right And.right⟩)
      exact ⟨f, g, stays⟩
    | true =>
      obtain rfl : was = false := Bool.eq_false_iff.mpr fun h => same h.symm
      rcases pos with empty | ⟨entering, -⟩
      · obtain ⟨f, g, enters⟩ := State.beamChange_enters side empty
        exact ⟨f, g, by rw [enters]; simp [empty]⟩
      · obtain ⟨f, g, stays⟩ := State.beamChange_stays (side := side) (.inl ⟨rfl, entering⟩)
        exact ⟨f, g, by rw [stays]; simp [entering]⟩

/-- Beams taken as changes move an empty bridge to ENTERING where one has become blocked. -/
theorem State.rebeam_empty {s : State} {b : Bridge} (before : State) (empty : (s.bridge b).pos = .empty) (fault : Timer) : ∃ f g,
    (s.rebeam before b .entry).rebeam before b .exit = s.setBridge b
      { (s.bridge b).remapped (s.beamBlocked b .entry) (before.beamBlocked b .entry) (s.beamBlocked b .exit) (before.beamBlocked b .exit)
          (s.timer s.dsu.stretchTime) fault with entryFault := f, exitFault := g } := by
  obtain ⟨f, g, first⟩ := State.rebeam_eq .entry before rfl rfl (.inl empty)
  rw [first]
  generalize hx : ({ s.bridge b with
      pos := if s.beamBlocked b .entry && !before.beamBlocked b .entry then .entering else (s.bridge b).pos
      stretch :=
        if s.beamBlocked b .entry && !before.beamBlocked b .entry && decide ((s.bridge b).pos = .empty)
          then some (s.timer s.dsu.stretchTime) else (s.bridge b).stretch
      entryFault := f, exitFault := g } : BridgeState) = x
  have timer : (s.setBridge b x).timer (s.setBridge b x).dsu.stretchTime = s.timer s.dsu.stretchTime := by cases b <;> rfl
  obtain ⟨f', g', second⟩ := State.rebeam_eq (s := s.setBridge b x) .exit before rfl rfl (by
    rw [State.bridge_setBridge, State.beamBlocked_setBridge, State.beamBlocked_setBridge, ← hx, empty]
    cases entry : s.beamBlocked b .entry <;> cases before.beamBlocked b .entry <;> simp)
  refine ⟨f', g', ?_⟩
  rw [second, State.bridge_setBridge, State.setBridge_setBridge, State.beamBlocked_setBridge, timer, ← hx, BridgeState.remapped]
  refine congrArg (s.setBridge b) ?_
  cases s.beamBlocked b .entry <;> cases before.beamBlocked b .entry <;> cases s.beamBlocked b .exit <;>
    cases before.beamBlocked b .exit <;> simp [empty]

/-! The map taken -/

/-- The decks and lines under a new map. -/
def State.mapped (s : State) (entries : List LineEntry) (d f : Nat) : Dsu :=
  { s.dsu with lines := remapLines s.dsu.lines entries, beamDebounce := clamp d 10 500, beamFault := clamp f 30 600 }

/-- The record of an empty bridge under a new map. -/
def State.mappedBridge (s : State) (entries : List LineEntry) (d f : Nat) (b : Bridge) : BridgeState :=
  let t : State := { s with dsu := s.mapped entries d f }
  (s.bridge b).remapped (t.beamBlocked b .entry) (s.beamBlocked b .entry) (t.beamBlocked b .exit) (s.beamBlocked b .exit)
    ⟨s.dsu.stretchTime, s.elapsed⟩ ⟨clamp f 30 600 * 1000, s.elapsed⟩

/-- What a cash door, as it now reads, does at the dispenser. -/
def State.doorReads (s : State) (isOpen : Bool) : State := if isOpen = s.cashDoorOpen then s else s.doorEvent isOpen

theorem State.doorReads_frame (s : State) (isOpen : Bool) :
    ∃ u k r e, s.doorReads isOpen = { s with pyu := u, tkt := k, rpu := r, evu := e } := by
  unfold State.doorReads
  split
  · exact ⟨_, _, _, _, rfl⟩
  · exact s.doorEvent_frame isOpen

/-- A map taken with both bridges empty: the door's event at the dispenser, and the decks and lines under the map. -/
theorem State.takeMap_eq {s : State} (entries : List LineEntry) (d f : Nat) (empty0 : s.dsu.bridge0.pos = .empty)
    (empty1 : s.dsu.bridge1.pos = .empty) :
    s.takeMap entries d f =
      (s.doorReads ({ s with dsu := s.mapped entries d f } : State).cashDoorOpen).withYard
        { s.mapped entries d f with bridge0 := s.mappedBridge entries d f .b0, bridge1 := s.mappedBridge entries d f .b1 } s.office := by
  obtain ⟨f0, g0, first⟩ := State.rebeam_empty (s := { s with dsu := s.mapped entries d f }) (b := .b0) s empty0
    ⟨clamp f 30 600 * 1000, s.elapsed⟩
  have second (x : BridgeState) := State.rebeam_empty (s := ({ s with dsu := s.mapped entries d f } : State).setBridge .b0 x) (b := .b1) s
    empty1 ⟨clamp f 30 600 * 1000, s.elapsed⟩
  obtain ⟨f1, g1, second⟩ := second
    { s.mappedBridge entries d f .b0 with entryFault := f0, exitFault := g0 }
  obtain ⟨dd, beams, bridges⟩ : ∃ dd : Dsu,
      ((((({ s with dsu := s.mapped entries d f } : State).rebeam s .b0 .entry).rebeam s .b0 .exit).rebeam s .b1 .entry).rebeam s .b1
        .exit) = s.withYard dd s.office ∧
      dd = { s.mapped entries d f with
        bridge0 := { s.mappedBridge entries d f .b0 with entryFault := f0, exitFault := g0 }
        bridge1 := { s.mappedBridge entries d f .b1 with entryFault := f1, exitFault := g1 } } :=
    ⟨_, (congrArg (fun v : State => (v.rebeam s .b1 .entry).rebeam s .b1 .exit) first).trans second, rfl⟩
  have door : (s.withYard dd s.office).cashDoorOpen = ({ s with dsu := s.mapped entries d f } : State).cashDoorOpen := by
    rw [bridges]
    rfl
  have acts (isOpen : Bool) :
      (if isOpen = s.cashDoorOpen then s.withYard dd s.office else (s.withYard dd s.office).doorEvent isOpen) =
        (s.doorReads isOpen).withYard dd s.office := by
    unfold State.doorReads
    split
    · rfl
    · exact s.doorEvent_withYard dd s.office isOpen
  have taken : s.takeMap entries d f = ((((s.doorReads ({ s with dsu := s.mapped entries d f } : State).cashDoorOpen).withYard dd
      s.office).restartFaultTimers .b0).restartFaultTimers .b1) := by
    rw [← acts, ← door, ← beams]
    rfl
  obtain ⟨u, k, r, e, frame⟩ := s.doorReads_frame ({ s with dsu := s.mapped entries d f } : State).cashDoorOpen
  rw [taken, frame, bridges]
  rfl

theorem State.payoutEnd_alerts {s : State} {p : Payout} {x : PayoutResult} {c : PayoutEnd} {w : Option Drawn} {d : DispenserSt}
    (quiet : x.alert? c = none) : (s.payoutEnd p x c w d).evu.alerts = s.evu.alerts := by
  obtain ⟨u, evu, -, ends⟩ := s.payoutEnd_evu p x c w d
  obtain ⟨k, changed⟩ := (s.operationEnds d).changeTicket_frame p.ticket fun t => t.payoutEnds p x c s.stamp
  rw [ends, quiet]
  dsimp only
  rw [State.alerts_latch, evu, State.pump_alerts, changed]
  exact s.operationEnds_alerts d

/-- The cash door latches no alert at the dispenser; its own condition does, as every contact's. -/
theorem State.doorEvent_alerts (s : State) (opens : Bool) : (s.doorEvent opens).evu.alerts = s.evu.alerts := by
  cases opens with
  | false =>
    change s.doorCloses.evu.alerts = _
    unfold State.doorCloses
    dsimp only
    split
    · split <;> rfl
    · rfl
  | true =>
    change s.doorOpens.evu.alerts = _
    unfold State.doorOpens
    dsimp only
    cases disp : s.pyu.disp with
    | picking =>
      cases pay : s.pyu.payout with
      | none => rfl
      | some p => exact State.payoutEnd_alerts (s := { s with pyu := _ }) (x := .notPaid) (c := .jammed) rfl
    | _ => rfl

theorem State.doorReads_alerts (s : State) (isOpen : Bool) : (s.doorReads isOpen).evu.alerts = s.evu.alerts := by
  unfold State.doorReads
  split
  · rfl
  · exact s.doorEvent_alerts isOpen

/-- What a request begins of the contacts' alerts and answers leaves the rest of the state as its effect left it. -/
theorem State.answered_begins (v s : State) (kind : Nat) (status : Status) (data : List Field) {begins : AlertSource → Bool}
    (hb : begins = fun src => v.alertCondition src && !s.alertCondition src && (v.evu.alerts.get src).latch.isNone) : ∃ t : State,
    t = (v.beginAlerts s).answered .office kind status data ∧
      t.office.answer.map (fun a => (a.kind, a.status, a.data)) = some (kind, status, data) ∧ t.office.counters = v.office.counters ∧
      t.evu = v.evu.begun begins v.stamp ∧ (∀ b, t.lampBank b = (v.lampBank b).take (t.lampRow b)) ∧
      t = { v with office := t.office, evu := t.evu, outs := t.outs, lamps := t.lamps } := by
  refine ⟨_, rfl, ?_⟩
  rw [v.beginAlerts_eq s hb]
  exact ⟨rfl, rfl, rfl, fun b => by cases b <;> rfl, rfl⟩

/-- A line under a new entry. -/
theorem YardLine.remapped_eq (l : YardLine) (i : Nat) (e : LineEntry) : l.remapped i e =
    ⟨e, l.drive, LineFunction.debounces e.function && Polarity.active e.polarity (({ l with entry := e } : YardLine).inputLevel i), none,
      decide (l.entry.function = .gpOut ∧ e.function = .gpOut) && l.out⟩ := by
  have out : (l.entry.function == LineFunction.gpOut && e.function == LineFunction.gpOut && l.out) =
      (decide (l.entry.function = .gpOut ∧ e.function = .gpOut) && l.out) := by
    rw [Bool.eq_iff_iff]
    simp
  unfold YardLine.remapped
  rw [out]
  rfl

/-- Settles O28. -/
theorem lineRequests : Obligations.LineRequests := by
  intro s hr
  have told {kind : Nat} {h : Handler} {status : Status} (he : h .office (s.taken .office) = refuse (s.taken .office) status)
      (hk : kind ∈ knownKinds) : request .office kind h s = .next ((s.taken .office).answered .office kind status []) :=
    request_refused (p := .office) hr he hk nofun
  have distinct (entries : List LineEntry) (single : List LineFunction)
      (hs : single = ((entries.map (·.function)).filter fun x => decide (x ≠ .gpIn ∧ x ≠ .gpOut ∧ x ≠ .unmapped))) :
      single.Nodup ↔ rolesDistinct entries = true := by rw [hs]; exact (rolesDistinct_iff entries).symm
  refine ⟨fun entries d f single hs bad => ?_, fun entries d f single full hs once busy => ?_,
    fun entries d f single full hs once empty0 empty1 => ?_, fun n on l held out => ?_, fun n on l held out => ?_, fun n on none_ => ?_⟩
  · have bad' : entries.length ≠ 16 ∨ (!rolesDistinct entries) = true := by
      rw [distinct entries single hs] at bad
      simpa using bad
    exact told (h := Lines.mapSet entries d f) (by rw [Lines.mapSet, if_pos bad']) (by decide)
  · have good : ¬(entries.length ≠ 16 ∨ (!rolesDistinct entries) = true) := by
      rw [distinct entries single hs] at once
      simp [full, once]
    exact told (h := Lines.mapSet entries d f) (by rw [Lines.mapSet, if_neg good, if_pos (by simpa using busy)]) (by decide)
  · have good : ¬(entries.length ≠ 16 ∨ (!rolesDistinct entries) = true) := by
      rw [distinct entries single hs] at once
      simp [full, once]
    have taken : Lines.mapSet entries d f .office (s.taken .office) = ((s.taken .office).takeMap entries d f, ⟨.done, []⟩) := by
      rw [Lines.mapSet, if_neg good, if_neg (by simp [empty0, empty1])]
      rfl
    have mapped := State.takeMap_eq (s := s.taken .office) entries d f empty0 empty1
    obtain ⟨isOpen, hopen⟩ : ∃ o, o = ({ s with dsu := s.mapped entries d f } : State).cashDoorOpen := ⟨_, rfl⟩
    obtain ⟨dd, hdd⟩ : ∃ dd : Dsu, dd = { s.mapped entries d f with
      bridge0 := s.mappedBridge entries d f .b0, bridge1 := s.mappedBridge entries d f .b1 } := ⟨_, rfl⟩
    have door : (s.taken .office).doorReads isOpen = (s.doorReads isOpen).withYard s.dsu (s.taken .office).office := by
      have same : (s.taken .office).cashDoorOpen = s.cashDoorOpen := rfl
      unfold State.doorReads
      rw [same]
      split
      · rfl
      · exact s.doorEvent_withYard s.dsu (s.taken .office).office isOpen
    have mapped' : (s.taken .office).takeMap entries d f = (s.doorReads isOpen).withYard dd (s.taken .office).office := by
      rw [hdd]
      refine mapped.trans ?_
      refine (congrArg (State.withYard · _ _) ((congrArg (s.taken .office).doorReads hopen.symm).trans door)).trans ?_
      rfl
    rw [mapped'] at taken
    obtain ⟨u, k, r, e, frame⟩ := s.doorReads_frame isOpen
    obtain ⟨t, ht, answer, counters, evu, lamps, rest⟩ :=
      State.answered_begins ((s.doorReads isOpen).withYard dd (s.taken .office).office) s 0x24 .done [] rfl
    have dsu : t.dsu = dd := congrArg State.dsu rest
    have wch : t.wch = s.wch := (congrArg State.wch rest).trans (by rw [frame]; rfl)
    have pyu : t.pyu = (s.doorReads isOpen).pyu := (congrArg State.pyu rest).trans rfl
    have tkt : t.tkt = (s.doorReads isOpen).tkt := (congrArg State.tkt rest).trans rfl
    have rpu : t.rpu = (s.doorReads isOpen).rpu := (congrArg State.rpu rest).trans rfl
    have lines : t.dsu.lines = (s.mapped entries d f).lines := by rw [dsu, hdd]
    have beams (b : Bridge) (side : Side) : t.beamBlocked b side = ({ s with dsu := s.mapped entries d f } : State).beamBlocked b side := by
      simp only [State.beamBlocked, State.served, lines]
    have reads : t.cashDoorOpen = isOpen := by
      rw [hopen]
      simp only [State.cashDoorOpen, State.served, lines]
    have request_ := request_begins (p := .office) (kind := 0x24) (h := Lines.mapSet entries d f) hr (by decide) nofun taken
    rw [← ht] at request_
    refine ⟨t, request_, answer, counters, fun i l entry hl he => ?_, ?_, ?_, fun b enters henters => ?_, fun b => ?_, ?_⟩
    · rw [lines, State.mapped, remapLines_getElem? hl he, YardLine.remapped_eq]
    · rw [pyu, tkt, rpu, dsu]
      refine rest.trans ?_
      rw [frame]
      rfl
    · rw [dsu, hdd, ← clamp_eq d 10 500 (by decide), ← clamp_eq f 30 600 (by decide)]
      rfl
    · have bridge : t.bridge b = s.mappedBridge entries d f b := by
        cases b <;> simp only [State.bridge, dsu, hdd]
      have fault : t.dsu.beamFault = clamp f 30 600 := by rw [dsu, hdd]; rfl
      rw [bridge, henters, fault, beams, beams]
      rfl
    · have kept : ((s.doorReads isOpen).withYard dd (s.taken .office).office).lampBank b = s.lampBank b := by
        rw [frame]
        cases b <;> rfl
      rw [lamps, kept]
    · rintro acted hacted
      have acted_ : acted = s.doorReads isOpen := by rw [hacted, reads]; rfl
      subst acted_
      refine ⟨pyu, tkt, rpu, ?_⟩
      rintro begins hbegins
      have conditions (a : AlertSource) :
          ((s.doorReads isOpen).withYard dd (s.taken .office).office).alertCondition a = t.alertCondition a :=
        State.alertCondition_kept ((by rw [frame]; rfl : _ = s.wch).trans wch.symm) dsu.symm a
      have begins_ : begins = fun src => ((s.doorReads isOpen).withYard dd (s.taken .office).office).alertCondition src
          && !s.alertCondition src
          && (((s.doorReads isOpen).withYard dd (s.taken .office).office).evu.alerts.get src).latch.isNone := by
        rw [hbegins]
        funext a
        rw [conditions]
        rfl
      have stamp : ((s.doorReads isOpen).withYard dd (s.taken .office).office).stamp = ⟨s.clu.now, s.clu.valid⟩ := by
        rw [frame]
        rfl
      rw [← begins_, stamp] at evu
      have never (a : AlertSource) (ha : t.alertCondition a = false) : begins a = false := by
        rw [hbegins]
        simp [ha]
      have evu_ : t.evu = (s.doorReads isOpen).evu.begun begins ⟨s.clu.now, s.clu.valid⟩ := evu
      refine ⟨fun a => ?_, ?_, fun p => ?_⟩
      · rw [evu_]
        cases a with
        | retract => rw [never _ rfl]; rfl
        | dispute => rw [never _ rfl]; rfl
        | _ => rfl
      · rw [evu_]
        have kept := congrArg Alerts.globalEnable (s.doorReads_alerts isOpen)
        exact kept
      · rw [State.events_congr (t := { s.doorReads isOpen with
            evu := (s.doorReads isOpen).evu.begun begins ⟨s.clu.now, s.clu.valid⟩ }) evu_]
        cases p <;> rfl
  · have held' : (s.taken .office).dsu.lines[n]? = some l := by rw [State.taken_dsu]; exact held
    have writes : Lines.write n on .office (s.taken .office) = ((s.taken .office).setLine n { l with out := on }, ⟨.done, []⟩) := by
      simp only [Lines.write, held', if_pos out]
      rfl
    have same : ((s.taken .office).setLine n { l with out := on }).sameConditions s := by
      obtain ⟨a, b, c⟩ := State.setLine_conditions (l' := { l with out := on }) held' rfl rfl
      obtain ⟨a', b', c'⟩ := s.taken_sameConditions .office
      exact ⟨a.trans a', b.trans b', c.trans c'⟩
    have answered := request_answered s .office 0x26 (Lines.write n on) hr (by decide) nofun (by rw [writes]; exact same)
    rw [writes] at answered
    exact answered
  · exact told (h := Lines.write n on) (by simp only [Lines.write, State.taken_dsu, held, if_neg out]) (by decide)
  · exact told (h := Lines.write n on) (by simp only [Lines.write, State.taken_dsu, none_]) (by decide)

end Sys2Proof.Machine
end

