-- ==== Sys2Proof/Proofs/PrintQueue.lean ====
section
/-! PROOFS. The print queue: its filling, the slips withdrawn from it, and the requests that put jobs in and take them out: O50. -/

namespace Sys2Proof.Machine

/-! Receipts owed and not queued -/

theorem Rpu.unqueued_eq (s : State) (t : Ticket) (k : JobKind) : s.rpu.unqueued t k = s.unqueued t k := by cases k <;> rfl

/-- The first kind of receipt a ticket owes with no job for it, in the order of R161. -/
theorem State.unqueuedKind?_eq (s : State) (t : Ticket) : s.rpu.unqueuedKind? t =
    if s.owesUnqueued t then
      some (if 0 < s.unqueued t .weighSlip then .weighSlip else if 0 < s.unqueued t .payout then .payout else .voidNotice)
    else none := by
  simp only [Rpu.unqueuedKind?, State.owesUnqueued, Rpu.unqueued_eq, List.find?_cons, List.find?_nil]
  by_cases slip : 0 < s.unqueued t .weighSlip <;> by_cases copies : 0 < s.unqueued t .payout <;>
    by_cases notice : 0 < s.unqueued t .voidNotice <;> simp [slip, copies, notice]

theorem State.unqueuedKind?_isSome (s : State) : (fun t => (s.rpu.unqueuedKind? t).isSome) = s.owesUnqueued := by
  funext t
  rw [State.unqueuedKind?_eq]
  cases s.owesUnqueued t <;> rfl

/-! The ticket owing longest -/

theorem oldestOwed_mem {l : List Ticket} {t : Ticket} (h : oldestOwed l = some t) : t ∈ l := by
  induction l with
  | nil => cases h
  | cons x rest ih =>
    unfold oldestOwed at h
    split at h
    · rename_i u hu
      split at h
      · exact List.mem_cons_of_mem _ (Option.some.inj h ▸ ih (hu.trans h))
      · exact Option.some.inj h ▸ List.mem_cons_self
    · exact Option.some.inj h ▸ List.mem_cons_self

theorem oldestOwed_cons {t : Ticket} {rest : List Ticket} (after : ∀ u ∈ rest, t.owedSince ≤ u.owedSince) :
    oldestOwed (t :: rest) = some t := by
  unfold oldestOwed
  split
  · rename_i u hu
    rw [if_neg (Nat.not_lt.mpr (after u (oldestOwed_mem hu)))]
  · rfl

theorem oldestOwed_append {front rest : List Ticket} {t : Ticket} (before : ∀ u ∈ front, t.owedSince < u.owedSince)
    (h : oldestOwed rest = some t) : oldestOwed (front ++ rest) = some t := by
  induction front with
  | nil => exact h
  | cons x front ih =>
    rw [List.cons_append, oldestOwed, ih fun u hu => before u (List.mem_cons_of_mem _ hu)]
    exact if_pos (before x List.mem_cons_self)

/-- Of the tickets that owe, the one owing longest, the first of equals (R161). -/
theorem oldestOwed_filter {l : List Ticket} {owes : Ticket → Bool} {i : Nat} {t : Ticket} (place : l[i]? = some t) (owing : owes t = true)
    (before : ∀ u ∈ l.take i, owes u = true → t.owedSince < u.owedSince)
    (after : ∀ u ∈ l.drop (i + 1), owes u = true → t.owedSince ≤ u.owedSince) : oldestOwed (l.filter owes) = some t := by
  obtain ⟨short, rfl⟩ := List.getElem?_eq_some_iff.mp place
  have cut : l.filter owes = (l.take i).filter owes ++ l[i] :: (l.drop (i + 1)).filter owes := by
    rw [← List.filter_cons_of_pos owing, ← List.filter_append, List.getElem_cons_drop, List.take_append_drop]
  rw [cut]
  refine oldestOwed_append (fun u hu => ?_) (oldestOwed_cons fun u hu => ?_)
  · exact before u (List.mem_of_mem_filter hu) (List.of_mem_filter hu)
  · exact after u (List.mem_of_mem_filter hu) (List.of_mem_filter hu)

/-! Filling -/

theorem State.fillOne_longer {s t : State} (h : s.fillOne = some t) :
    t.rpu.queue.length = s.rpu.queue.length + 1 ∧ s.rpu.queue.length < 8 := by
  unfold State.fillOne at h
  split at h
  · cases h
  · rename_i room
    split at h
    · cases h
    · split at h
      · cases h
      · rw [← Option.some.inj h]
        exact ⟨by simp [Rpu.join], by omega⟩

/-- More turns than the queue has room for fill it no further. -/
theorem fillUpTo_eq {n m : Nat} {s : State} (hn : 8 - s.rpu.queue.length ≤ n) (hm : 8 - s.rpu.queue.length ≤ m) :
    fillUpTo n s = fillUpTo m s := by
  have full (k : Nat) {s : State} (h : s.fillOne = none) : fillUpTo k s = s := by cases k <;> simp [fillUpTo, h]
  induction n generalizing m s with
  | zero =>
    have h : s.fillOne = none := by simp only [State.fillOne, if_pos (show 8 ≤ s.rpu.queue.length by omega)]
    rw [full _ h, full _ h]
  | succ n ih =>
    cases h : s.fillOne with
    | none => rw [full _ h, full _ h]
    | some t =>
      obtain ⟨longer, room⟩ := State.fillOne_longer h
      obtain ⟨m, rfl⟩ := Nat.exists_eq_add_one_of_ne_zero (show m ≠ 0 by omega)
      simp only [fillUpTo, h]
      exact ih (by omega) (by omega)

theorem State.fill_of_some {s t : State} (h : s.fillOne = some t) : s.fill = t.fill := by
  obtain ⟨longer, room⟩ := State.fillOne_longer h
  have first : s.fill = fillUpTo 7 t := by simp only [State.fill, fillUpTo, h]
  exact first.trans (fillUpTo_eq (by omega) (by omega))

theorem State.fill_of_none {s : State} (h : s.fillOne = none) : s.fill = s := by simp only [State.fill, fillUpTo, h]

theorem State.fillOne_none {s : State} (h : 8 ≤ s.rpu.queue.length ∨ ∀ t ∈ s.tkt.tickets, s.owesUnqueued t = false) : s.fillOne = none := by
  unfold State.fillOne
  split
  · rfl
  · rename_i room
    have nothing : s.tkt.tickets.filter s.owesUnqueued = [] := List.filter_eq_nil_iff.mpr fun t ht =>
      Bool.eq_false_iff.mp ((h.resolve_left room) t ht)
    rw [s.unqueuedKind?_isSome, nothing] <;> rfl

/-- The first id a counter shows that no job holds. -/
theorem freeId_of_find {q : List Job} {fuel n m : Nat}
    (h : ((List.range (fuel + 1)).map (walk 255 n)).find? (fun k => decide (∀ j ∈ q, j.id ≠ k)) = some m) : freeId q fuel n = m := by
  induction fuel generalizing n with
  | zero =>
    rw [show (List.range (0 + 1)).map (walk 255 n) = [n] from rfl, List.find?_singleton] at h
    split at h
    · exact Option.some.inj h
    · cases h
  | succ fuel ih =>
    have later : (List.range (fuel + 1)).map (walk 255 n ∘ Nat.succ) = (List.range (fuel + 1)).map (walk 255 (wrapping n 1 255)) :=
      List.map_congr_left fun i _ => (walk_succ_left 255 n i).symm
    rw [List.range_succ_eq_map, List.map_cons, List.map_map, later, List.find?_cons] at h
    have held : decide (∀ j ∈ q, j.id ≠ walk 255 n 0) = !q.any fun j => j.id == n := by
      rw [Bool.eq_iff_iff, decide_eq_true_iff]
      simp [walk]
    rw [held] at h
    unfold freeId
    cases taken : q.any fun j => j.id == n with
    | true =>
      rw [taken] at h
      exact (if_pos rfl).trans (ih h)
    | false =>
      rw [taken] at h
      exact (if_neg Bool.false_ne_true).trans (Option.some.inj h)

/-- An id counter within its range, as a remainder. -/
theorem walk_id {c i : Nat} (low : 1 ≤ c) (high : c ≤ 255) (hi : i < 9) : (c - 1 + i) % 255 + 1 = walk 255 c i := by
  rw [walk_eq (by omega)]
  split <;> omega

/-! Ended jobs -/

/-- The entry the end of a job leaves. -/
def Job.entry (j : Job) (ending : JobEnd) : EndedJob := ⟨j.id, j.ticket.number, j.kind, j.label, j.source, j.serial, ending⟩

/-- The state with jobs more in its list of ended jobs (R165). -/
def State.logged (s : State) (l : List EndedJob) : State := { s with rpu := { s.rpu with ended := keepLast 8 (s.rpu.ended ++ l) } }

theorem State.recordEnd_auto {j : Job} (auto : j.source = .auto) (s : State) (ending : JobEnd) :
    s.recordEnd j ending = (s.logged [j.entry ending]).latchBoth .printEnd := by
  simp only [State.recordEnd, State.logged, Job.entry, auto]

theorem keepLast_append {α : Type} (n : Nat) (a b : List α) : keepLast n (keepLast n a ++ b) = keepLast n (a ++ b) := by
  unfold keepLast
  rw [← List.drop_append_of_le_length (Nat.sub_le a.length n), List.drop_drop]
  simp only [List.length_append, List.length_drop]
  exact congrArg (fun k => List.drop k _) (by omega)

theorem State.latchBoth_latchBoth (s : State) (f : EventFlag) : (s.latchBoth f).latchBoth f = s.latchBoth f := by
  simp [State.latchBoth, State.latch, State.setEvents, State.events, EventSet.latch_latch]

/-- Automatic jobs that end together leave their entries, and PRINT_END to both ports (R162, R165). -/
theorem recordEnds_auto {l : List Job} (auto : ∀ j ∈ l, j.source = .auto) (ending : JobEnd) (s : State) :
    l.foldl (fun (t : State) (j : Job) => t.recordEnd j ending) s =
      if l = [] then s else (s.logged (l.map (·.entry ending))).latchBoth .printEnd := by
  induction l generalizing s with
  | nil => rfl
  | cons j l ih =>
    rw [List.foldl_cons, State.recordEnd_auto (auto j List.mem_cons_self), ih fun x hx => auto x (List.mem_cons_of_mem _ hx),
      if_neg (List.cons_ne_nil j l)]
    split
    · rename_i last
      rw [last] <;> rfl
    · have both : (((s.logged [j.entry ending]).latchBoth .printEnd).logged (l.map (·.entry ending))) =
          (s.logged ((j :: l).map (·.entry ending))).latchBoth .printEnd := by
        have ended := keepLast_append 8 (s.rpu.ended ++ [j.entry ending]) (l.map (·.entry ending))
        rw [List.append_assoc] at ended
        exact congrArg (fun e => ({ s with rpu := { s.rpu with ended := e } } : State).latchBoth .printEnd) ended
      rw [both, State.latchBoth_latchBoth]

/-! The requests -/

@[simp] theorem State.startPrint_wch (s : State) : s.startPrint.wch = s.wch := by
  obtain ⟨r, k, e, h⟩ := s.startPrint_frame
  rw [h]

@[simp] theorem State.startPrint_dsu (s : State) : s.startPrint.dsu = s.dsu := by
  obtain ⟨r, k, e, h⟩ := s.startPrint_frame
  rw [h]

/-- RECEIPT PRINT of a ticket the table holds: its checks, and the job that joins (R163). -/
theorem Print.receiptPrint_found {s : State} {n : Nat} {t : Ticket} (held : s.ticket? n = some t) (form : Nat) (p : Port) :
    Print.receiptPrint n form p s =
      s.checked
        [ (decide (1 < form), .badParam), (decide (t.st = .opened ∨ (form = 0 ∧ t.st = .void)), .wrongState),
          (decide (8 ≤ s.rpu.queue.length ∨ 6 ≤ s.rpu.portJobs), .queueFull) ]
        (done
          ({ s with
            rpu := s.rpu.join t.ref (if form = 0 then .weighSlip else .copy) (if form = 0 then some .customer else none) (.port p) } :
              State).startPrint
          [.u8 (freeId s.rpu.queue 8 s.rpu.nextId), .u8 (s.rpu.queue.length + 1)]) := by
  simp only [Print.receiptPrint, held, State.checked, afterChecks_cons, afterChecks_nil, decide_eq_true_eq]
  by_cases slip : form = 0
  · simp only [slip, if_true] <;> rfl
  · simp only [slip, if_false] <;> rfl

/-- PRINT CANCEL of a job in the queue: what the mechanism does for it (R169). -/
theorem Rpu.cancelMechanism_eq (r : Rpu) (j : Job) : r.cancelMechanism j =
    { r with
      command := if j.underWay && r.command.isNone then some .cut else r.command
      cancelCut :=
        if j.underWay then (match r.command with
          | some (.line _) => .afterLine
          | _ => .cutting)
        else r.cancelCut } := by
  unfold Rpu.cancelMechanism
  cases j.underWay
  · rfl
  · cases h : r.command with
    | none => rfl
    | some c => cases c <;> simp [h]

theorem recordEnd_wch (s : State) (j : Job) (x : JobEnd) : (s.recordEnd j x).wch = s.wch ∧ (s.recordEnd j x).dsu = s.dsu := by
  obtain ⟨r, e, h⟩ := s.recordEnd_frame j x
  rw [h]
  exact ⟨rfl, rfl⟩

theorem dischargeJob_wch (s : State) (j : Job) (c : Bool) : (s.dischargeJob j c).wch = s.wch ∧ (s.dischargeJob j c).dsu = s.dsu := by
  obtain ⟨k, h⟩ := s.dischargeJob_frame j c
  rw [h]
  exact ⟨rfl, rfl⟩

/-- Settles O50. -/
theorem printRequests : Obligations.PrintRequests := by
  refine ⟨fun s p hr => ⟨?_, ?_, ?_⟩, fun _ => rfl, fun s full => State.fill_of_none (State.fillOne_none full), ?_, ?_⟩
  · rintro n form t r id held rfl rfl
    have rule := Print.receiptPrint_found (s := s.taken p) ((State.ticket?_taken s p n).trans held) form p
    simp only [State.taken_rpu] at rule
    split
    · rename_i c hc
      exact request_fails hr (by decide) (fun _ => by decide) rule hc
    · rename_i hc
      exact request_does hr (by decide) (fun _ => by decide) rule hc (by simp) (by simp)
  · intro id absent
    refine request_refused hr ?_ (by decide) fun _ => by decide
    have none_ : s.rpu.queue.find? (fun j => j.id == id) = none := List.find?_eq_none.mpr fun j hj => by simpa using absent j hj
    simp only [Print.cancel, State.taken_rpu, none_]
  · rintro id j r held rfl
    split
    · rename_i denied
      refine request_refused hr ?_ (by decide) fun _ => by decide
      simp only [Print.cancel, State.taken_rpu, held, if_pos denied]
    · rename_i may
      refine request_done hr (by decide) (fun _ => by decide) (?_ : Print.cancel id p (s.taken p) = _) ?_ ?_
      · simp only [Print.cancel, State.taken_rpu, held, if_neg may, Rpu.cancelMechanism_eq, done] <;> rfl
      · simp [recordEnd_wch, dischargeJob_wch]
      · simp [recordEnd_wch, dischargeJob_wch]
  · rintro s i id t k label room place owing before after rfl rfl low high first
    refine State.fill_of_some ?_
    have oldest := oldestOwed_filter place owing before after
    have numbers : ((List.range 9).map fun n => (s.rpu.nextId - 1 + n) % 255 + 1) = (List.range 9).map (walk 255 s.rpu.nextId) :=
      List.map_congr_left fun i hi => walk_id low high (List.mem_range.mp hi)
    rw [numbers] at first
    have id_eq := freeId_of_find first
    have kind := (State.unqueuedKind?_eq s t).trans (if_pos owing)
    simp only [State.fillOne, if_neg (Nat.not_le.mpr room), State.unqueuedKind?_isSome, oldest, kind, Rpu.join, id_eq,
      wrapping, Rpu.autoLabel,
      Rpu.unqueued_eq] <;> rfl
  · rintro s ref slip gone rfl hgone t rfl
    have hgone : s.rpu.queue.filter (fun j => j.isSlipOf ref && !j.started) = gone := hgone.symm
    have autos : ∀ j ∈ gone, j.source = .auto := fun j hj => by
      have slip := List.of_mem_filter (hgone ▸ hj)
      simp only [Job.isSlipOf, Job.standsFor, Bool.and_eq_true, beq_iff_eq] at slip
      obtain ⟨⟨⟨⟨auto, -⟩, -⟩, -⟩, -⟩ := slip
      exact auto
    have kept : (fun j : Job => !(j.isSlipOf ref && !j.started)) = fun j => !j.isSlipOf ref || j.started := by
      funext j
      cases j.isSlipOf ref <;> cases j.started <;> rfl
    unfold State.withdrawSlips
    dsimp only
    rw [hgone, recordEnds_auto autos, kept]
    by_cases stays : gone = []
    · simp only [if_pos stays] <;> rfl
    · simp only [if_neg stays] <;> rfl

end Sys2Proof.Machine
end

