-- ==== Sys2Proof/Proofs/PrinterAnswers.lean ====
section
/-! PROOFS. The printer's answers, the start of the head job, the end of a job, and the content of a receipt: O51. -/

namespace Sys2Proof.Machine

/-! Jobs whose ticket is gone -/

/-- The jobs of the queue whose ticket is gone. -/
def State.ghosts (s : State) : Nat := s.rpu.queue.countP fun j => (s.jobTicket? j).isNone

theorem State.ghosts_congr {s t : State} (queue : t.rpu.queue = s.rpu.queue) (tkt : t.tkt = s.tkt) : t.ghosts = s.ghosts := by
  have same : t.jobTicket? = s.jobTicket? := by
    funext j
    simp only [State.jobTicket?, State.ticket?, tkt]
  rw [State.ghosts, State.ghosts, queue, same]

theorem State.ticket?_of_mem {s : State} (numbers : (s.tkt.tickets.map (·.number)).Nodup) {t : Ticket} (ht : t ∈ s.tkt.tickets) :
    s.ticket? t.number = some t := by
  have found : (s.ticket? t.number).isSome := List.find?_isSome.mpr ⟨t, ht, beq_self_eq_true t.number⟩
  obtain ⟨u, hu⟩ := Option.isSome_iff_exists.mp found
  have same : u = t := List.inj_on_of_nodup_map numbers (List.mem_of_find?_eq_some hu) ht (s.ticket?_number _ u hu)
  rw [hu, same]

/-- A job that joins by itself names a ticket of the table. -/
theorem State.fillOne_ghosts {s t : State} (placed : s.tkt.placed) (h : s.fillOne = some t) : t.tkt = s.tkt ∧ t.ghosts = s.ghosts := by
  obtain ⟨-, -, numbers⟩ := placed
  unfold State.fillOne at h
  split at h
  · cases h
  · split at h
    · cases h
    · rename_i u hu
      split at h
      · cases h
      · rename_i k _
        obtain rfl := Option.some.inj h
        have held := s.ticket?_of_mem numbers (List.mem_of_mem_filter (oldestOwed_mem hu))
        refine ⟨rfl, ?_⟩
        have alive (x : Job) (hx : x.ticket = u.ref) : s.jobTicket? x = some u := by
          simp only [State.jobTicket?, hx, Ticket.ref, held, if_true]
        refine (List.countP_append ..).trans ?_
        rw [List.countP_singleton, if_neg]
        · rfl
        · rw [show ∀ x, ({ s with rpu := s.rpu.join u.ref k (some (s.rpu.autoLabel u k)) .auto } : State).jobTicket? x = s.jobTicket? x from
            fun _ => rfl, alive _ rfl]
          exact Bool.false_ne_true

theorem fillUpTo_ghosts {n : Nat} {s : State} (placed : s.tkt.placed) :
    (fillUpTo n s).tkt = s.tkt ∧ (fillUpTo n s).ghosts = s.ghosts := by
  induction n generalizing s with
  | zero => exact ⟨rfl, rfl⟩
  | succ n ih =>
    unfold fillUpTo
    cases h : s.fillOne with
    | none => exact ⟨rfl, rfl⟩
    | some t =>
      obtain ⟨tkt, same⟩ := State.fillOne_ghosts placed h
      obtain ⟨tkt', same'⟩ := ih (s := t) (tkt ▸ placed)
      exact ⟨tkt'.trans tkt, same'.trans same⟩

/-- The state in which a job whose ticket is gone has ended, and the queue is filled (R164). -/
def State.dropGone (s : State) (j : Job) (rest : List Job) : State :=
  (({ s with rpu := { s.rpu with queue := rest } } : State).recordEnd j .gone).fill

theorem State.dropGone_ghosts {s : State} {j : Job} {rest : List Job} (placed : s.tkt.placed) :
    (s.dropGone j rest).tkt = s.tkt ∧ (s.dropGone j rest).ghosts = rest.countP fun j => (s.jobTicket? j).isNone := by
  have ended : (({ s with rpu := { s.rpu with queue := rest } } : State).recordEnd j .gone).tkt = s.tkt ∧
      (({ s with rpu := { s.rpu with queue := rest } } : State).recordEnd j .gone).rpu.queue = rest := by
    unfold State.recordEnd
    cases j.source with
    | auto => exact ⟨rfl, rfl⟩
    | port p => cases p <;> exact ⟨rfl, rfl⟩
  obtain ⟨tkt, same⟩ := fillUpTo_ghosts (n := 8) (s := ({ s with rpu := { s.rpu with queue := rest } } : State).recordEnd j .gone)
    (by rw [ended.1]; exact placed)
  exact ⟨tkt.trans ended.1, same.trans (State.ghosts_congr (s := { s with rpu := { s.rpu with queue := rest } }) ended.2 ended.1)⟩

section Head

variable {s : State} {j : Job} {rest : List Job} (n : Nat) (head : s.rpu.queue = j :: rest) (ready : s.rpu.st = .ready)
  (queued : j.st = .queued) (fresh : j.started = false)

include head ready queued fresh

theorem startHead_starts {t : Ticket} (held : s.jobTicket? j = some t) : startHead (n + 1) s = s.firstStart j rest t := by
  simp only [startHead, head, ready, queued, fresh, held, and_self, if_true, Bool.false_eq_true, if_false]

theorem startHead_gone (gone : s.jobTicket? j = none) : startHead (n + 1) s = startHead n (s.dropGone j rest) := by
  simp only [startHead, head, ready, queued, fresh, gone, and_self, if_true, Bool.false_eq_true, if_false, State.dropGone]

end Head

/-- The start of the head tests no more jobs than there are without a ticket, and one more: further turns change nothing (R164). -/
theorem startHead_eq {n m : Nat} {s : State} (placed : s.tkt.placed) (hn : s.ghosts < n) (hm : s.ghosts < m) :
    startHead n s = startHead m s := by
  induction n generalizing m s with
  | zero => omega
  | succ n ih =>
    obtain ⟨m, rfl⟩ := Nat.exists_eq_add_one_of_ne_zero (show m ≠ 0 by omega)
    cases head : s.rpu.queue with
    | nil => rw [startHead_nil _ head, startHead_nil _ head]
    | cons j rest =>
      by_cases ready : s.rpu.st = .ready ∧ j.st = .queued
      · obtain ⟨ready, queued⟩ := ready
        cases fresh : j.started with
        | true => rw [startHead_restarts _ head ready queued fresh, startHead_restarts _ head ready queued fresh]
        | false =>
          cases hj : s.jobTicket? j with
          | some t => rw [startHead_starts _ head ready queued fresh hj, startHead_starts _ head ready queued fresh hj]
          | none =>
            obtain ⟨tkt, fewer⟩ := State.dropGone_ghosts (s := s) (j := j) (rest := rest) placed
            have one : s.ghosts = rest.countP (fun j => (s.jobTicket? j).isNone) + 1 := by
              rw [State.ghosts, head, List.countP_cons_of_pos (by rw [hj]; rfl)]
            rw [startHead_gone _ head ready queued fresh hj, startHead_gone _ head ready queued fresh hj]
            exact ih (by rw [tkt]; exact placed) (by omega) (by omega)
      · rw [startHead_waits _ head ready, startHead_waits _ head ready]

/-- A head whose ticket is gone ends, the queue is filled, and the next head is tested (R164). -/
theorem State.startPrint_gone {s : State} {j : Job} {rest : List Job} (head : s.rpu.queue = j :: rest) (ready : s.rpu.st = .ready)
    (queued : j.st = .queued) (fresh : j.started = false) (gone : s.jobTicket? j = none) (placed : s.tkt.placed)
    (few : s.rpu.queue.length ≤ 8) : s.startPrint = (s.dropGone j rest).startPrint := by
  obtain ⟨tkt, fewer⟩ := State.dropGone_ghosts (s := s) (j := j) (rest := rest) placed
  have short : rest.countP (fun j => (s.jobTicket? j).isNone) ≤ rest.length := List.countP_le_length
  rw [head, List.length_cons] at few
  refine (startHead_gone 15 head ready queued fresh gone).trans (startHead_eq ?_ ?_ ?_)
  · rw [tkt]
    exact placed
  · omega
  · omega

/-! When the head starts -/

/-- With a QUEUED head the printer is READY where its paper, cover and head let a job start (R159). -/
theorem Rpu.ready_iff {r : Rpu} {j : Job} {rest : List Job} (head : r.queue = j :: rest) (queued : j.st = .queued) :
    r.st = .ready ↔ r.admitsStart := by
  have rests : r.headPrinting = false := by simp [Rpu.headPrinting, head, queued]
  simp only [Rpu.st, Rpu.blocked, Rpu.admitsStart, rests]
  cases r.offline <;> cases r.paper <;> cases r.cover <;> cases r.head <;> cases r.cancelCut <;> decide

theorem State.jobTicket?_eq_some {s : State} {j : Job} {t : Ticket} (held : s.ticket? j.ticket.number = some t)
    (same : t.opening = j.ticket.opening) : s.jobTicket? j = some t := by
  simp only [State.jobTicket?, held, same, if_true]

theorem State.jobTicket?_eq_none {s : State} {j : Job} (gone : (s.ticket? j.ticket.number).map (·.opening) ≠ some j.ticket.opening) :
    s.jobTicket? j = none := by
  unfold State.jobTicket?
  cases held : s.ticket? j.ticket.number with
  | none => rfl
  | some t => exact if_neg fun same => gone (by rw [held, Option.map_some, same])

/-- The body a job prints (R164). -/
theorem jobBody_eq (k : JobKind) (t : Ticket) : jobBody k t = (match k with
    | .weighSlip => .weighSlip
    | .payout => .payout
    | .voidNotice => .voidNotice
    | .copy => if t.st = .void then .voidNotice else if t.st = .paid ∨ t.st = .closed then .payout else .weighSlip) := by
  cases k with
  | copy => cases h : t.st <;> simp [jobBody, copyBody, h]
  | _ => rfl

theorem State.changeTicket_rpu (s : State) (n : Nat) (f : Ticket → Ticket) : (s.changeTicket n f).rpu = s.rpu := by
  obtain ⟨k, h⟩ := s.changeTicket_frame n f
  rw [h]

/-- What a first start takes, builds and gives (R164, R171). -/
theorem State.firstStart_eq (s : State) (j : Job) (rest : List Job) (k : Ticket) (marker : j.marker = false) :
    s.firstStart j rest k =
      { (if j.kind = .copy then s.changeTicket k.number (fun x => { x with reprints := min (x.reprints + 1) 255 }) else s) with
        rpu :=
          { s.rpu with
            queue :=
              { j with
                st := .printing, started := true, serial := some s.rpu.serial
                label := some (if j.kind = .copy then .copy (min (k.reprints + 1) 255) else j.label.getD .customer)
                content := s.receipt k (jobBody j.kind k)
                  (if j.kind = .copy then .copy (min (k.reprints + 1) 255) else j.label.getD .customer) s.rpu.serial
                next := 1 } :: rest
            command := some (match s.receipt k (jobBody j.kind k)
                (if j.kind = .copy then .copy (min (k.reprints + 1) 255) else j.label.getD .customer) s.rpu.serial with
              | line :: _ => .line line
              | [] => .cut)
            serial := if s.rpu.serial < 9999999 then s.rpu.serial + 1 else 1 } } := by
  have rpu :
      (if j.kind = .copy then s.changeTicket k.number fun x => { x with reprints := min (x.reprints + 1) 255 } else s).rpu = s.rpu := by
    split
    · exact State.changeTicket_rpu _ _ _
    · rfl
  simp only [State.firstStart, saturating_eq_min, rpu, Rpu.print, Job.nextCommand, marker, wrapping]
  cases s.receipt k (jobBody j.kind k) (if j.kind = .copy then .copy (min (k.reprints + 1) 255) else j.label.getD .customer)
    s.rpu.serial <;>
    rfl

/-- The receipt a job discharges, and what closes with it (R87, R169). -/
theorem Ticket.discharge_eq (x : Ticket) (k : JobKind) (cancelled : Bool) (now : Stamp) :
    x.discharge k cancelled now =
      { x with
        owed := x.owed.lower k now, receiptCancelled := x.receiptCancelled || cancelled
        st := if x.st = .paid ∧ k = .payout ∧ (x.owed.lower k now).copies = 0 then .closed else x.st
        closedAt := if x.st = .paid ∧ k = .payout ∧ (x.owed.lower k now).copies = 0 then some now else x.closedAt } := by
  simp only [Ticket.discharge, decide_eq_true_eq]

/-! The printer's reports of a job -/

section Reports

variable {s : State} (power : s.powered = true) (online : s.rpu.offline = false)

include power online

theorem lineDone_told {text : Text} (given : s.rpu.command = some (.line text)) :
    exec .lineDone s = .next ({ s with rpu := s.rpu.lineDone } : State).settle :=
  run_done power (by simp only [Print.lineDone, online, given, Bool.false_eq_true, if_false]) rfl rfl

theorem cutDone_told (given : s.rpu.command = some .cut) : exec .cutDone s = .next s.cutAnswered.settle := by
  refine run_done power (f := Print.cutDone) (by simp only [Print.cutDone, online, given, Bool.false_eq_true, if_false]) ?_ ?_
  · unfold State.cutAnswered
    dsimp only
    split
    · exact State.startPrint_wch _
    · split
      · rfl
      · simp [recordEnd_wch, dischargeJob_wch]
  · unfold State.cutAnswered
    dsimp only
    split
    · exact State.startPrint_dsu _
    · split
      · rfl
      · simp [recordEnd_wch, dischargeJob_wch]

end Reports

/-- The next line of a job: the marker, a line of its content, or the cut (R164, R165). -/
theorem Job.nextCommand_eq (j : Job) : j.nextCommand = (match j.content[j.next - 1]? with
    | some line => if j.marker then .line markerLine else .line line
    | none => if j.marker then .line markerLine else .cut) := by
  unfold Job.nextCommand
  cases j.content[j.next - 1]? <;> cases j.marker <;> rfl

/-- A missing answer takes the printer OFFLINE, with PRINTER to both ports (R158, R168). -/
theorem printerAnswerTimeout_told {s : State} (power : s.powered = true) (online : s.rpu.offline = false)
    (given : s.rpu.command.isSome = true) :
    ∃ t : State, exec .printerAnswerTimeout s = .next t ∧
      t = ({ s with rpu := t.rpu, evu := t.evu } : State).settle ∧ t.evu.alerts = s.evu.alerts ∧
      t.rpu = { s.rpu.mapHead Job.requeue with command := none, cancelCut := .none, offline := true } ∧
      ∀ p, (t.events p).has .printer = true := by
  obtain ⟨c, hc⟩ := Option.isSome_iff_exists.mp given
  have up : s.rpu.st ≠ .offline := by
    unfold Rpu.st
    simp only [online, Bool.false_eq_true, if_false]
    split
    · exact nofun
    · split
      · exact nofun
      · split <;> exact nofun
  have down (r : Rpu) : ({ r with command := none, cancelCut := .none, offline := true } : Rpu).st = .offline := rfl
  have told : Print.answerTimeout s =
      ({ s with rpu := { s.rpu.mapHead Job.requeue with command := none, cancelCut := .none, offline := true } } : State).latchBoth
        .printer := by
    simp only [Print.answerTimeout, hc, State.notePrinter, down]
    exact if_pos ⟨up, .inr rfl⟩
  refine ⟨_, run_done power told rfl rfl, rfl, State.alerts_latchBoth _ _, rfl, fun p => ?_⟩
  rw [State.events_settle, State.has_latchBoth, decide_eq_true rfl, Bool.or_true]

/-- Settles O51. -/
theorem printerAnswersTaken : Obligations.PrinterAnswersTaken := by
  refine ⟨fun s power => ⟨?_, ?_, ?_, ?_, ?_, ?_⟩, ?_, fun s j rest head admits queued => ⟨?_, ?_, ?_⟩, ?_, ?_, ?_, ?_, ?_, ?_⟩
  · rintro text j rest j' online given cut head rfl
    have command := Job.nextCommand_eq j.lineDone
    refine ⟨fun printing => ?_, fun paused => ?_⟩
    · have under : j.underWay = true := by simp [Job.underWay, printing]
      have printed : s.rpu.lineDone = ({ s.rpu with command := none } : Rpu).print j.lineDone rest := by
        simp only [Rpu.lineDone, cut, head, under, printing, if_true]
      rw [lineDone_told power online given, printed, Rpu.print, command] <;> rfl
    · have under : j.underWay = true := by simp [Job.underWay, paused]
      have waits : s.rpu.lineDone = { s.rpu with queue := j.lineDone :: rest, command := none } := by
        simp [Rpu.lineDone, cut, head, under, paused]
      rw [lineDone_told power online given, waits] <;> rfl
  · intro text online given cut
    have follows : s.rpu.lineDone = { s.rpu with command := some .cut, cancelCut := .cutting } := by simp only [Rpu.lineDone, cut]
    rw [lineDone_told power online given, follows]
  · intro j rest online given cut head
    have ends : s.cutAnswered =
        ((({ s with rpu := { s.rpu with command := none, cancelCut := .none, queue := rest } } : State).dischargeJob j
        false).recordEnd j .cut).pump := by
      simp only [State.cutAnswered, if_neg cut, head]
    rw [cutDone_told power online given, ends]
  · intro online given cut
    have ends : s.cutAnswered = ({ s with rpu := { s.rpu with command := none, cancelCut := .none } } : State).startPrint := by
      simp only [State.cutAnswered, if_pos cut]
    rw [cutDone_told power online given, ends]
  · intro online given
    refine ⟨run_done power ?_ rfl rfl, run_done power ?_ rfl rfl⟩
    · simp only [Print.lineDone, online, given, Bool.false_eq_true, if_false]
    · simp only [Print.cutDone, online, given, Bool.false_eq_true, if_false]
  · intro given online
    obtain ⟨t, told, kept, alerts, rpu, latched⟩ := printerAnswerTimeout_told power online given
    refine ⟨t, told, kept, alerts, by rw [rpu], by rw [rpu], by rw [rpu], latched, ?_⟩
    rw [rpu]
    cases head : s.rpu.queue with
    | nil => simp [Rpu.mapHead, head]
    | cons j rest => simp [Rpu.mapHead, head, Job.requeue, Job.underWay]
  · intro s waits
    cases head : s.rpu.queue with
    | nil => exact startHead_nil _ head
    | cons j rest =>
      refine startHead_waits _ head fun ⟨ready, queued⟩ => ?_
      rcases waits with none_ | shut | other
      · rw [head] at none_
        cases none_
      · exact shut ((Rpu.ready_iff head queued).mp ready)
      · simp [head, queued] at other
  · intro started
    exact startHead_restarts 15 head ((Rpu.ready_iff head queued).mpr admits) queued started
  · intro fresh placed sound gone
    exact State.startPrint_gone head ((Rpu.ready_iff head queued).mpr admits) queued fresh (State.jobTicket?_eq_none gone) placed sound.1
  · intro k serial label body content t fresh marker held same hserial hlabel hbody hcontent ht
    have starts := startHead_starts 15 head ((Rpu.ready_iff head queued).mpr admits) queued fresh (State.jobTicket?_eq_some held same)
    refine starts.trans ?_
    have hbody : body = jobBody j.kind k := hbody.trans (jobBody_eq j.kind k).symm
    subst hserial hlabel hbody hcontent ht
    exact State.firstStart_eq s j rest k marker
  · rintro s j e t rfl
    unfold State.recordEnd
    cases j.source <;> rfl
  · intro s j cancelled
    by_cases auto : j.source = .auto ∧ j.orphaned = false
    · rw [if_pos auto]
      obtain ⟨source, orphaned⟩ := auto
      simp only [State.dischargeJob, source, orphaned, beq_self_eq_true, Bool.not_false, Bool.and_self, if_true]
      refine congrArg (s.changeTicket _) (funext fun x => ?_)
      rw [Ticket.discharge_eq]
      cases j.kind <;> rfl
    · rw [if_neg auto]
      exact if_neg (by simpa using auto)
  · intro s t body label serial
    have unset : (printedStamps t s.stamp).any (fun x => !x.valid) = !(t.openedAt.valid && t.closedAt.all (·.valid) && s.clu.valid) := by
      cases h : t.closedAt <;> simp [printedStamps, h, State.stamp, Bool.or_assoc]
    have stamps : (if (printedStamps t s.stamp).any (fun x => !x.valid) then [txt "CLOCK NOT SET"] else []) =
        if t.openedAt.valid && t.closedAt.all (·.valid) && s.clu.valid then [] else [txt "CLOCK NOT SET"] := by
      rw [unset]
      cases t.openedAt.valid && t.closedAt.all (·.valid) && s.clu.valid <;> rfl
    have kind : kindText t.kind = if t.kind = .bridge then txt "BRIDGE" else txt "COUNTER" := by cases t.kind <;> rfl
    unfold State.receipt
    rw [stamps, kind]
    cases t.closedAt <;> cases t.plate <;> cases t.customer <;>
      simp only [ticketText, List.append_assoc, List.cons_append, List.nil_append] <;> rfl
  · rintro s t body l i source rfl
    have tare : tareSource t l i = (match l.source with
        | .weighed => match t.weighings[i + 1]? with
          | some w => txt "  C" ++ decimal w.channel.num ++ txt " CAL " ++ decimal w.calCounter
          | none => []
        | .container => txt "  CONTAINER"
        | .stored => txt "  STORED TARE") := by
      unfold tareSource
      cases l.source <;> rfl
    unfold State.lineBlock
    rw [tare]
    cases l.figures <;> cases body <;> rfl
  · rintro t totals balance rfl rfl
    refine ⟨by cases h : t.settlement <;> simp [closingLines, h], fun h => by simp only [closingLines, h], fun b h => ⟨?_, fun r hr => ?_⟩⟩
    · have hold : (match t.st, b.holdUntil with
          | .held, some d => [txt "HOLD UNTIL " ++ dateText d]
          | _, _ => []) = if t.st = .held then b.holdUntil.toList.map fun d => txt "HOLD UNTIL " ++ dateText d else [] := by
        cases t.st <;> cases b.holdUntil <;> rfl
      simp only [closingLines, h, ← hold, totalLines, balanceLine] <;> rfl
    · simp only [closingLines, h, hr, paymentLines, totalLines, balanceLine, List.append_assoc] <;> rfl
  · decide

end Sys2Proof.Machine
end

