-- ==== Sys2Proof/Proofs/PrinterConditions.lean ====
section
/-! PROOFS. The reports of paper, cover and head: O52. -/

namespace Sys2Proof.Machine

/-! What the start of the head leaves of the printer's record -/

/-- A record of the printer that differs in its jobs, the outstanding command and the counters alone. -/
def Rpu.printsTo (r r' : Rpu) : Prop :=
  r' = { r with queue := r'.queue, nextId := r'.nextId, ended := r'.ended, command := r'.command, serial := r'.serial }

theorem Rpu.printsTo.trans {r r' r'' : Rpu} (h : r.printsTo r') (h' : r'.printsTo r'') : r.printsTo r'' := by
  unfold Rpu.printsTo at *
  rw [h', h]

/-- A job that joins by itself is for a receipt a ticket of the table owes (R161). -/
theorem State.fillOne_joins {s t : State} (h : s.fillOne = some t) :
    ∃ u k, u ∈ s.tkt.tickets ∧ k ≠ JobKind.copy ∧
      t = { s with rpu := s.rpu.join u.ref k (some (s.rpu.autoLabel u k)) .auto } := by
  unfold State.fillOne at h
  split at h
  · cases h
  · split at h
    · cases h
    · rename_i u hu
      rw [State.unqueuedKind?_eq] at h
      split at h
      · cases h
      · rename_i k hk
        refine ⟨u, k, List.mem_of_mem_filter (oldestOwed_mem hu), ?_, (Option.some.inj h).symm⟩
        split at hk
        · rw [← Option.some.inj hk]
          split
          · decide
          · split <;> decide
        · cases hk

/-- Filling changes the queue and its next id alone. -/
theorem fillUpTo_queue (n : Nat) (s : State) : fillUpTo n s =
    { s with rpu := { s.rpu with queue := (fillUpTo n s).rpu.queue, nextId := (fillUpTo n s).rpu.nextId } } := by
  induction n generalizing s with
  | zero => rfl
  | succ n ih =>
    unfold fillUpTo
    cases h : s.fillOne with
    | none => rfl
    | some t =>
      obtain ⟨u, k, -, -, rfl⟩ := State.fillOne_joins h
      exact ih _

theorem fillUpTo_printsTo (n : Nat) (s : State) : s.rpu.printsTo (fillUpTo n s).rpu := by
  rw [fillUpTo_queue] <;> rfl

theorem State.recordEnd_printsTo (s : State) (j : Job) (x : JobEnd) : s.rpu.printsTo (s.recordEnd j x).rpu := by
  unfold State.recordEnd
  cases j.source with
  | auto => rfl
  | port p => cases p <;> rfl

theorem State.firstStart_printsTo (s : State) (j : Job) (rest : List Job) (t : Ticket) :
    s.rpu.printsTo (s.firstStart j rest t).rpu := by
  unfold State.firstStart
  dsimp only
  split
  · rw [State.changeTicket_rpu] <;> rfl
  · rfl

theorem startHead_printsTo (n : Nat) (s : State) : s.rpu.printsTo (startHead n s).rpu := by
  induction n generalizing s with
  | zero => rfl
  | succ n ih =>
    unfold startHead
    cases s.rpu.queue with
    | nil => rfl
    | cons j rest =>
      dsimp only
      split
      · split
        · rfl
        · cases s.jobTicket? j with
          | some t => exact s.firstStart_printsTo j rest t
          | none =>
            have gone : s.rpu.printsTo ({ s.rpu with queue := rest } : Rpu) := rfl
            exact ((gone.trans (State.recordEnd_printsTo { s with rpu := { s.rpu with queue := rest } } j .gone)).trans
              (fillUpTo_printsTo 8 _)).trans (ih _)
      · rfl

/-- The printer's conditions: whether it answers, its paper, its cover and its head (R157). -/
def Rpu.conditions (r : Rpu) : Bool × Paper × Cover × Head := (r.offline, r.paper, r.cover, r.head)

theorem startHead_conditions (n : Nat) (s : State) : (startHead n s).rpu.conditions = s.rpu.conditions := by
  have printed := startHead_printsTo n s
  unfold Rpu.printsTo at printed
  rw [printed] <;> rfl

/-! A report -/

/-- The state in which a report has been heard: the printer's record after it, and PAPER_LOW to both ports by its own report (R159). -/
def State.reported (s : State) (r : Rpu) (low : Bool) : State :=
  if low then ({ s with rpu := r } : State).latchBoth .paperLow else { s with rpu := r }

/-- The part that reports and starts reach: the printer, the events and the ticket table. -/
def State.printsFrom (s u : State) : Prop := ∃ r k e, u = { s with rpu := r, tkt := k, evu := e }

section Reported

variable (s : State) (r : Rpu) (low : Bool)

theorem State.reported_eq : s.reported r low = ({ s with rpu := r } : State).withEvents (s.reported r low).evu := by cases low <;> rfl

@[simp] theorem State.reported_rpu : (s.reported r low).rpu = r := by cases low <;> rfl

@[simp] theorem State.reported_tkt : (s.reported r low).tkt = s.tkt := by cases low <;> rfl

theorem State.reported_alerts : (s.reported r low).evu.alerts = s.evu.alerts := by cases low <;> rfl

theorem State.reported_mask (p : Port) : ((s.reported r low).events p).mask = (s.events p).mask := by cases low <;> cases p <;> rfl

theorem State.reported_has (p : Port) (f : EventFlag) :
    ((s.reported r low).events p).has f = ((s.events p).has f || (low && decide (f = .paperLow))) := by
  cases low
  · rw [Bool.false_and, Bool.or_false]
    cases p <;> rfl
  · refine (State.has_latchBoth _ p .paperLow f).trans ?_
    rw [Bool.true_and]
    cases p <;> rfl

theorem State.reported_prints : s.printsFrom (s.reported r low) := ⟨r, s.tkt, (s.reported r low).evu, by cases low <;> rfl⟩

/-- Another record of the printer, the same events. -/
theorem State.reported_withRpu (q : Rpu) : ({ s.reported r low with rpu := q } : State) = s.reported q low := by cases low <;> rfl

end Reported

theorem State.printsFrom_startHead {s u : State} (h : s.printsFrom u) (n : Nat) : s.printsFrom (startHead n u) := by
  obtain ⟨r, k, e, rfl⟩ := h
  obtain ⟨r', k', e', h'⟩ := startHead_frame n { s with rpu := r, tkt := k, evu := e }
  exact ⟨r', k', e', h'⟩

/-- What a report leaves beside the queue: conditions, masks and flags (R157, R159). -/
structure State.Noted (s : State) (r : Rpu) (low : Bool) (u : State) : Prop where
  prints : s.printsFrom u
  alerts : u.evu.alerts = s.evu.alerts
  conditions : u.rpu.conditions = r.conditions
  mask (p : Port) : (u.events p).mask = (s.events p).mask
  has (p : Port) (f : EventFlag) : f ≠ .printEnd → (u.events p).has f = ((s.events p).has f || (low && decide (f = .paperLow)))

theorem State.reported_noted (s : State) (r : Rpu) (low : Bool) : s.Noted r low (s.reported r low) :=
  ⟨s.reported_prints r low, s.reported_alerts r low, by rw [State.reported_rpu], s.reported_mask r low,
    fun p f _ => s.reported_has r low p f⟩

theorem State.Noted.startPrint {s u : State} {r : Rpu} {low : Bool} (h : s.Noted r low u) : s.Noted r low u.startPrint where
  prints := State.printsFrom_startHead h.prints 16
  alerts := (startHead_alerts 16 u).trans h.alerts
  conditions := (startHead_conditions 16 u).trans h.conditions
  mask p := (startHead_flags 16 u p).1.trans (h.mask p)
  has p f hf := ((startHead_flags 16 u p).2 f hf).trans (h.has p f hf)

theorem State.reported_resumes (s : State) (r : Rpu) (low : Bool) : s.Noted r low (s.reported r low).resume := by
  unfold State.resume
  dsimp only
  split
  · exact (s.reported_noted r low).startPrint
  · rw [State.reported_withRpu, State.reported_rpu]
    have same : (r.mapHead Job.unstall).conditions = r.conditions := by
      unfold Rpu.mapHead
      cases r.queue <;> rfl
    obtain ⟨prints, alerts, conditions, mask, has⟩ := (s.reported_noted (r.mapHead Job.unstall) low).startPrint
    exact ⟨prints, alerts, conditions.trans same, mask, has⟩

/-- The end of a report: PRINTER where the printer goes into or out of STALLED or OFFLINE, then lamps and outputs are judged. -/
theorem State.Noted.told {s u : State} {r : Rpu} {low : Bool} (h : s.Noted r low u) (power : s.powered = true) {f : State → State}
    (hf : f s = u.notePrinter s) : run f s = .next (u.notePrinter s).settle := by
  obtain ⟨r, k, e, prints⟩ := h.prints
  have noted : ∃ e, u.notePrinter s = { s with rpu := r, tkt := k, evu := e } := by
    unfold State.notePrinter
    split
    · exact ⟨_, by rw [prints]; rfl⟩
    · exact ⟨e, prints⟩
  obtain ⟨e', noted⟩ := noted
  rw [run, if_pos power, hf, State.conclude_printing noted]

theorem State.notePrinter_alerts (u s : State) : (u.notePrinter s).evu.alerts = u.evu.alerts := by
  unfold State.notePrinter
  split <;> rfl

@[simp] theorem State.notePrinter_rpu (u s : State) : (u.notePrinter s).rpu = u.rpu := by
  unfold State.notePrinter
  split <;> rfl

@[simp] theorem State.notePrinter_tkt (u s : State) : (u.notePrinter s).tkt = u.tkt := by
  unfold State.notePrinter
  split <;> rfl

theorem State.Noted.kept {s u : State} {r : Rpu} {low : Bool} (h : s.Noted r low u) :
    (u.notePrinter s).settle =
      ({ s with rpu := u.rpu, evu := (u.notePrinter s).evu, tkt := u.tkt } : State).settle := by
  obtain ⟨r, k, e, rfl⟩ := h.prints
  unfold State.notePrinter
  split <;> rfl

/-! The head job -/

/-- What a report leaves of queue and tickets: this record of the printer, the tickets as they were, and PRINT_END as it was. -/
def State.becomes (s t : State) (u : Rpu) : Prop :=
  t.rpu = u ∧ t.tkt = s.tkt ∧ ∀ p, (t.events p).has .printEnd = (s.events p).has .printEnd

theorem State.reported_becomes (s : State) (r : Rpu) (low : Bool) : s.becomes (s.reported r low) r := by
  refine ⟨s.reported_rpu r low, s.reported_tkt r low, fun p => ?_⟩
  rw [State.reported_has, decide_eq_false nofun, Bool.and_false, Bool.or_false]

/-- The head's start reads no event: after a report it leaves what it leaves without one. -/
theorem State.reported_starts (s : State) (r : Rpu) (low : Bool) (start : State) (h : start = ({ s with rpu := r } : State).startPrint) :
    (s.reported r low).startPrint.rpu = start.rpu ∧ (s.reported r low).startPrint.tkt = start.tkt ∧
      ∀ p, ((s.reported r low).startPrint.events p).has .printEnd = (start.events p).has .printEnd := by
  subst h
  obtain ⟨rpu, tkt, ends⟩ := startHead_withEvents 16 { s with rpu := r } (s.reported r low).evu
  rw [← State.reported_eq] at rpu tkt ends
  refine ⟨rpu, tkt, fun p => ends p ?_⟩
  rw [(s.reported_becomes r low).2.2 p]
  cases p <;> rfl

/-- What a report does to the head job itself: HEAD_HOT pauses it, HEAD_COOL lets it go on (R166). -/
def Rpu.reportedBy (x : Instr) (r : Rpu) : Rpu :=
  if x = .headHot then r.mapHead Job.pause else if x = .headCool ∧ r.blocked = false then r.cooled else r

section HeadJob

variable {s : State} {r : Rpu} {j : Job} {rest : List Job} (low : Bool)

theorem Rpu.reportedBy_nil (x : Instr) (none_ : r.queue = []) : r.reportedBy x = r := by
  unfold Rpu.reportedBy Rpu.mapHead Rpu.cooled
  rw [none_]
  simp

theorem Rpu.reportedBy_printing (x : Instr) (head : r.queue = j :: rest) (printing : j.st = .printing) :
    r.reportedBy x = { r with queue := (if x = .headHot then { j with st := .paused } else j) :: rest } := by
  unfold Rpu.reportedBy Rpu.mapHead Rpu.cooled Job.pause
  rw [head]
  by_cases hot : x = .headHot
  · simp [hot, printing]
  · simp [hot, printing, ← head]

theorem Rpu.reportedBy_paused {x : Instr} (head : r.queue = j :: rest) (paused : j.st = .paused) (cool : x ≠ .headCool) :
    r.reportedBy x = r := by
  unfold Rpu.reportedBy Rpu.mapHead Job.pause
  rw [head]
  simp [cool, paused, ← head]

theorem Rpu.reportedBy_waiting (x : Instr) (head : r.queue = j :: rest) (waiting : j.st = .stalled ∨ j.st = .queued) :
    r.reportedBy x = r := by
  unfold Rpu.reportedBy Rpu.mapHead Rpu.cooled Job.pause
  rw [head]
  rcases waiting with h | h <;> simp [h, ← head]

/-- HEAD_COOL lets a PAUSED job go on, with its next line where no command is outstanding (R166). -/
theorem Rpu.reportedBy_cool (head : r.queue = j :: rest) (paused : j.st = .paused) (free : r.blocked = false) :
    r.reportedBy .headCool =
      { r with
        queue := { j with st := .printing } :: rest
        command := match r.command with
          | some c => some c
          | none =>
            if j.marker then some (.line markerLine)
            else match j.content[j.next - 1]? with
              | some line => some (.line line)
              | none => some .cut } := by
  have cooled : r.reportedBy .headCool = r.cooled := by simp [Rpu.reportedBy, free]
  rw [cooled]
  unfold Rpu.cooled
  rw [head]
  cases given : r.command with
  | some c => simp [paused, given]
  | none =>
    simp only [paused, if_true, Option.isNone_none, Rpu.print, Job.nextCommand]
    cases j.marker <;> cases j.content[j.next - 1]? <;> rfl

theorem State.resumes_nil (none_ : r.queue = []) : s.becomes (s.reported r low).resume r := by
  rw [State.resume_nil (by rw [State.reported_rpu, none_])]
  exact s.reported_becomes r low

theorem State.resumes_underway (head : r.queue = j :: rest) (under : j.st = .printing ∨ j.st = .paused) :
    s.becomes (s.reported r low).resume r := by
  rw [State.resume_underway (by rw [State.reported_rpu, head]) under]
  exact s.reported_becomes r low

theorem State.resumes_blocked (blocked : r.blocked = true) : s.becomes (s.reported r low).resume r := by
  rw [State.resume_blocked (by rw [State.reported_rpu, blocked])]
  exact s.reported_becomes r low

section Free

variable (head : r.queue = j :: rest) (online : r.offline = false) (free : r.blocked = false) (waiting : j.st = .stalled ∨ j.st = .queued)

include head online free waiting

theorem State.resumes_waiting :
    (s.reported r low).resume = (s.reported { r with queue := { j with st := .queued } :: rest } low).startPrint := by
  rw [State.resume_waiting (by rw [State.reported_rpu, head]) (by rw [State.reported_rpu, online]) (by rw [State.reported_rpu, free])
      waiting,
    State.reported_withRpu, State.reported_rpu]

theorem State.resumes_waits (busy : r.head = .hot ∨ r.cancelCut ≠ .none) :
    s.becomes (s.reported r low).resume { r with queue := { j with st := .queued } :: rest } := by
  have queue : (s.reported { r with queue := { j with st := .queued } :: rest } low).rpu.queue = { j with st := .queued } :: rest := by
    rw [State.reported_rpu]
  rw [State.resumes_waiting low head online free waiting, State.startPrint, startHead_waits 16 queue]
  · exact s.reported_becomes _ low
  · rintro ⟨ready, -⟩
    rw [State.reported_rpu, Rpu.st_queued online free] at ready
    rcases busy with hot | cut
    · simp [hot] at ready
    · simp only [bne_iff_ne.mpr cut, if_true] at ready
      split at ready <;> cases ready

theorem State.resumes_restarts (cool : r.head = .cool) (cut : r.cancelCut = .none) (started : j.started = true) :
    s.becomes (s.reported r low).resume
      { r with
        queue := { j with st := .printing, next := 1, restart := false, marker := true } :: rest
        command := some (.line markerLine) } := by
  have ready : (s.reported { r with queue := { j with st := .queued } :: rest } low).rpu.st = .ready := by
    rw [State.reported_rpu, Rpu.st_queued online free, cool, cut] <;> rfl
  have queue : (s.reported { r with queue := { j with st := .queued } :: rest } low).rpu.queue = { j with st := .queued } :: rest := by
    rw [State.reported_rpu]
  rw [State.resumes_waiting low head online free waiting, State.startPrint, startHead_restarts 15 queue ready rfl started,
      State.reported_withRpu, State.reported_rpu]
  exact s.reported_becomes _ low

end Free

end HeadJob

/-! The reports -/

theorem Rpu.mapHead_conditions (r : Rpu) (f : Job → Job) : (r.mapHead f).conditions = r.conditions := by
  unfold Rpu.mapHead
  cases r.queue <;> rfl

theorem Rpu.reportedBy_conditions (x : Instr) (r : Rpu) : (r.reportedBy x).conditions = r.conditions := by
  have cooled : r.cooled.conditions = r.conditions := by
    unfold Rpu.cooled
    split
    · rfl
    · split
      · split <;> rfl
      · rfl
  unfold Rpu.reportedBy
  split
  · exact r.mapHead_conditions _
  · split
    · exact cooled
    · rfl

/-- Paper out and COVER_OPEN end the command unmade and stall a job under way (R157, R167). -/
theorem Rpu.stall_eq (r : Rpu) : r.stall =
    { r with
      command := none, cancelCut := .none
      queue := match r.queue with
        | j :: rest =>
          (if j.st = .printing ∨ j.st = .paused then { j with st := .stalled, restart := true, marker := false } else j) :: rest
        | [] => [] } := by
  unfold Rpu.stall
  cases head : r.queue with
  | nil => simp [Rpu.mapHead, head]
  | cons j rest => simp [Rpu.mapHead, head, Job.stall, Job.underWay]

/-- What a report of paper out or COVER_OPEN leaves, but for the printer's own flag. -/
def State.stalls (s : State) (r : Rpu) : State := s.reported r.stall false

/-- What any other report leaves, but for the printer's own flag. -/
def State.hears (s : State) (x : Instr) (r : Rpu) : State := (s.reported (r.reportedBy x) (decide (x = .paperLow))).resume

theorem State.stalls_noted (s : State) (r : Rpu) : s.Noted r false (s.stalls r) := by
  obtain ⟨prints, alerts, conditions, mask, has⟩ := s.reported_noted r.stall false
  exact ⟨prints, alerts, conditions.trans (Rpu.mapHead_conditions r Job.stall), mask, has⟩

theorem State.hears_noted (s : State) (x : Instr) (r : Rpu) : s.Noted r (decide (x = .paperLow)) (s.hears x r) := by
  obtain ⟨prints, alerts, conditions, mask, has⟩ := s.reported_resumes (r.reportedBy x) (decide (x = .paperLow))
  exact ⟨prints, alerts, conditions.trans (Rpu.reportedBy_conditions x r), mask, has⟩

/-- The printer's own flag is not PRINT_END. -/
theorem State.told_printEnd (s u : State) (p : Port) :
    ((u.notePrinter s).settle.events p).has .printEnd = (u.events p).has .printEnd := by
  rw [State.events_settle, State.notePrinter_has, decide_eq_false nofun, Bool.false_and, Bool.or_false]

theorem State.becomes.told {s u : State} {r : Rpu} (h : s.becomes u r) : s.becomes (u.notePrinter s).settle r := by
  obtain ⟨rpu, tkt, ends⟩ := h
  exact ⟨(u.notePrinter_rpu s).trans rpu, (u.notePrinter_tkt s).trans tkt, fun p => (s.told_printEnd u p).trans (ends p)⟩

theorem State.stalls_becomes (s : State) (r : Rpu) : s.becomes (s.stalls r)
    { r with
      command := none, cancelCut := .none
      queue := match r.queue with
        | j :: rest =>
          (if j.st = .printing ∨ j.st = .paused then { j with st := .stalled, restart := true, marker := false } else j) :: rest
        | [] => [] } :=
  r.stall_eq ▸ s.reported_becomes r.stall false

section HeadJob

variable {s : State} {r : Rpu} {j : Job} {rest : List Job} {x : Instr}

theorem State.hears_nil (none_ : r.queue = []) : s.becomes (s.hears x r) r := by
  rw [State.hears, Rpu.reportedBy_nil x none_]
  exact State.resumes_nil _ none_

theorem State.hears_printing (head : r.queue = j :: rest) (printing : j.st = .printing) :
    s.becomes (s.hears x r) { r with queue := (if x = .headHot then { j with st := .paused } else j) :: rest } := by
  rw [State.hears, Rpu.reportedBy_printing x head printing]
  refine State.resumes_underway _ rfl ?_
  split
  · exact .inr rfl
  · exact .inl printing

theorem State.hears_paused (head : r.queue = j :: rest) (paused : j.st = .paused) (notCool : x ≠ .headCool) :
    s.becomes (s.hears x r) r := by
  rw [State.hears, Rpu.reportedBy_paused head paused notCool]
  exact State.resumes_underway _ head (.inr paused)

theorem State.hears_cool (head : r.queue = j :: rest) (paused : j.st = .paused) (free : r.blocked = false) :
    s.becomes (s.hears .headCool r)
      { r with
        queue := { j with st := .printing } :: rest
        command := match r.command with
          | some c => some c
          | none =>
            if j.marker then some (.line markerLine)
            else match j.content[j.next - 1]? with
              | some line => some (.line line)
              | none => some .cut } := by
  rw [State.hears, Rpu.reportedBy_cool head paused free]
  exact State.resumes_underway _ rfl (.inl rfl)

theorem State.hears_waiting (head : r.queue = j :: rest) (waiting : j.st = .stalled ∨ j.st = .queued) :
    s.hears x r = (s.reported r (decide (x = .paperLow))).resume := by
  rw [State.hears, Rpu.reportedBy_waiting x head waiting]

end HeadJob

theorem Rpu.blocked_iff (r : Rpu) : r.blocked = true ↔ r.paper = .out ∨ r.cover = .opened := by simp [Rpu.blocked]

theorem Rpu.free_of {r : Rpu} (paper : r.paper ≠ .out) (cover : r.cover = .closed) : r.blocked = false := by
  simp [Rpu.blocked, paper, cover]

/-- HEAD_COOL lets a job go on only where paper and cover are right (R166). -/
theorem Rpu.reportedBy_headCool (r : Rpu) : (if r.blocked then r else r.cooled) = r.reportedBy .headCool := by
  cases free : r.blocked <;> simp [Rpu.reportedBy, free]

theorem State.headCool_hears (s : State) :
    Print.headCool s = (s.hears .headCool { s.rpu with offline := false, head := .cool }).notePrinter s :=
  congrArg (fun r : Rpu => (({ s with rpu := r } : State).resume).notePrinter s)
    (Rpu.reportedBy_headCool { s.rpu with offline := false, head := .cool })

/-- Settles O52. -/
theorem printerConditionsSet : Obligations.PrinterConditionsSet := by
  intro s r power hr x hx
  have facts : x.2.offline = false ∧ x.2.queue = s.rpu.queue ∧ x.2.command = s.rpu.command ∧
      (x.1 = .headCool → x.2.paper = s.rpu.paper ∧ x.2.cover = s.rpu.cover) ∧
      ∃ f u, exec x.1 s = run f s ∧ f s = u.notePrinter s ∧ s.Noted x.2 (decide (x.1 = .paperLow)) u ∧
        ((x.1 = .paperOut ∨ x.1 = .coverOpen) ∧ u = s.stalls x.2 ∨ (x.1 ≠ .paperOut ∧ x.1 ≠ .coverOpen) ∧ u = s.hears x.1 x.2) := by
    subst hr
    have stalled (y : Instr) (r : Rpu) (low : y ≠ .paperLow) : s.Noted r (decide (y = .paperLow)) (s.stalls r) :=
      decide_eq_false low ▸ s.stalls_noted r
    rcases List.mem_append.mp hx with hx | hx
    · simp only [List.mem_cons, List.not_mem_nil, or_false] at hx
      rcases hx with rfl | rfl | rfl | rfl | rfl | rfl | rfl
      case inr.inl => exact ⟨rfl, rfl, rfl, nofun, _, _, rfl, rfl, stalled .paperOut _ nofun, .inl ⟨.inl rfl, rfl⟩⟩
      case inr.inr.inr.inl => exact ⟨rfl, rfl, rfl, nofun, _, _, rfl, rfl, stalled .coverOpen _ nofun, .inl ⟨.inr rfl, rfl⟩⟩
      case inr.inr.inr.inr.inr.inr =>
        exact ⟨rfl, rfl, rfl, fun _ => ⟨rfl, rfl⟩, _, _, rfl, s.headCool_hears, s.hears_noted _ _, .inr ⟨⟨nofun, nofun⟩, rfl⟩⟩
      all_goals exact ⟨rfl, rfl, rfl, nofun, _, _, rfl, rfl, s.hears_noted _ _, .inr ⟨⟨nofun, nofun⟩, rfl⟩⟩
    · cases off : s.rpu.offline with
      | false =>
        rw [off] at hx
        cases hx
      | true =>
        rw [off] at hx
        simp only [if_true, List.mem_cons, List.not_mem_nil, or_false] at hx
        rcases hx with rfl | rfl
        all_goals exact ⟨rfl, rfl, rfl, nofun, _, _, rfl, if_pos off, s.hears_noted _ _, .inr ⟨⟨nofun, nofun⟩, rfl⟩⟩
  clear hx hr
  obtain ⟨online, queue, command, coolOnly, f, u, rule, told, noted, kinds⟩ := facts
  have conditions := noted.conditions
  simp only [Rpu.conditions, Prod.mk.injEq] at conditions
  obtain ⟨offline', paper', cover', head'⟩ := conditions
  have rpu : (u.notePrinter s).settle.rpu = u.rpu := u.notePrinter_rpu s
  refine ⟨_, rule.trans (noted.told power told), ?_, ?_, ?_, ?_, ?_, ?_, fun p => ⟨?_, ?_, ?_, ?_⟩, ?_⟩
  · rw [noted.kept] <;> rfl
  · exact (u.notePrinter_alerts s).trans noted.alerts
  · rw [rpu, offline', online]
  · rw [rpu, paper']
  · rw [rpu, cover']
  · rw [rpu, head']
  · rw [State.events_settle, State.notePrinter_mask, noted.mask]
  · rw [State.events_settle, State.notePrinter_has, noted.has p .printer (by decide), rpu]
    simp
  · rw [State.events_settle, State.notePrinter_has, noted.has p .paperLow (by decide)]
    simp
  · intro flag printer low ends
    rw [State.events_settle, State.notePrinter_has, noted.has p _ ends]
    simp [printer, low]
  · rintro becomes rfl
    rcases kinds with ⟨stalls, rfl⟩ | ⟨⟨notOut, notOpen⟩, rfl⟩
    · refine ⟨fun _ => ?_, fun notOut notOpen => absurd stalls (not_or.mpr ⟨notOut, notOpen⟩)⟩
      have left := (s.stalls_becomes x.2).told
      rw [queue] at left
      exact left
    · refine ⟨fun stalls => absurd stalls (not_or.mpr ⟨notOut, notOpen⟩), fun _ _ => ⟨fun none_ => ?_, fun j rest head => ?_⟩⟩
      · exact (State.hears_nil (queue.trans none_)).told
      · have head : x.2.queue = j :: rest := queue.trans head
        refine ⟨fun printing => (State.hears_printing head printing).told,
          fun paused notCool => (State.hears_paused head paused notCool).told,
          fun paused cool paper cover => ?_, fun waiting => ?_⟩
        · obtain ⟨samePaper, sameCover⟩ := coolOnly cool
          have left := (State.hears_cool (s := s) head paused (Rpu.free_of (samePaper ▸ paper) (sameCover ▸ cover))).told
          rw [command, ← cool] at left
          exact left
        · rw [State.hears_waiting head waiting]
          refine ⟨fun shut => (State.resumes_blocked _ (x.2.blocked_iff.mpr shut)).told, fun paper cover => ?_⟩
          have free := Rpu.free_of paper cover
          refine ⟨fun busy => (State.resumes_waits _ head online free waiting busy).told,
            fun cool cut started => (State.resumes_restarts _ head online free waiting cool cut started).told,
            fun start hstart cool cut fresh => ?_⟩
          rw [State.resumes_waiting _ head online free waiting]
          obtain ⟨rpu, tkt, ends⟩ := s.reported_starts _ (decide (x.1 = .paperLow)) start hstart
          exact ⟨(State.notePrinter_rpu _ s).trans rpu, (State.notePrinter_tkt _ s).trans tkt,
            fun p => (s.told_printEnd _ p).trans (ends p)⟩

end Sys2Proof.Machine
end

