-- ==== Sys2Proof/Proofs/StartedQueue.lean ====
section
/-! PROOFS. The print queue after a start: the jobs that fill it and the first of them printing. -/

namespace Sys2Proof.Machine

/-! Jobs that joined by themselves and have not started -/

/-- An automatic job as it joins: queued, not started, nothing of it orphaned or to be printed again (R161). -/
def Job.fresh (j : Job) : Prop :=
  (j.source = .auto ∧ j.orphaned = false ∧ j.restart = false ∧ j.next = 1) ∧ j.st = .queued ∧ j.started = false ∧ j.marker = false ∧
    j.serial = none ∧ j.kind ≠ .copy

/-- A fresh job that has started under a serial. -/
def Job.startedFrom (j' j : Job) (serial : Nat) : Prop :=
  ∃ label content, j' = { j with st := .printing, started := true, serial := some serial, label := label, content := content, next := 1 }

theorem fillUpTo_fresh {n : Nat} {s : State} (h : ∀ j ∈ s.rpu.queue, j.fresh) : ∀ j ∈ (fillUpTo n s).rpu.queue, j.fresh := by
  induction n generalizing s with
  | zero => exact h
  | succ n ih =>
    unfold fillUpTo
    cases one : s.fillOne with
    | none => exact h
    | some t =>
      obtain ⟨u, k, -, kind, rfl⟩ := State.fillOne_joins one
      refine ih fun j hj => ?_
      rcases List.mem_append.mp hj with hj | hj
      · exact h j hj
      · rw [List.mem_singleton.mp hj]
        exact ⟨⟨rfl, rfl, rfl, rfl⟩, rfl, rfl, rfl, rfl, kind⟩

/-- What starting the head of a queue of fresh jobs leaves: the tickets as they were, and either no job started, or the head alone,
under the serial that was next. -/
structure State.Started (s t : State) : Prop where
  tkt : t.tkt = s.tkt
  queue : (t.rpu.serial = s.rpu.serial ∧ ∀ j ∈ t.rpu.queue, j.fresh) ∨
    ∃ j' j rest, t.rpu.queue = j' :: rest ∧ j'.startedFrom j s.rpu.serial ∧ j.fresh ∧ (∀ x ∈ rest, x.fresh) ∧
      t.rpu.serial = wrapping s.rpu.serial 1 9999999

theorem State.firstStart_started {s : State} {j : Job} {rest : List Job} (t : Ticket) (fresh : j.fresh) (others : ∀ x ∈ rest, x.fresh) :
    s.Started (s.firstStart j rest t) := by
  have ⟨_, _, _, marker, _, kind⟩ := fresh
  rw [State.firstStart_eq s j rest t marker, if_neg kind]
  exact ⟨rfl, .inr ⟨_, j, rest, rfl, ⟨_, _, rfl⟩, fresh, others, rfl⟩⟩

theorem State.dropGone_rpu {s : State} {j : Job} {rest : List Job} (others : ∀ x ∈ rest, x.fresh) :
    (s.dropGone j rest).tkt = s.tkt ∧ (s.dropGone j rest).rpu.serial = s.rpu.serial ∧ ∀ x ∈ (s.dropGone j rest).rpu.queue, x.fresh := by
  have ended : ∀ r : State, r = (({ s with rpu := { s.rpu with queue := rest } } : State).recordEnd j .gone) →
      r.tkt = s.tkt ∧ r.rpu.serial = s.rpu.serial ∧ r.rpu.queue = rest := by
    rintro r rfl
    unfold State.recordEnd
    cases j.source with
    | auto => exact ⟨rfl, rfl, rfl⟩
    | port p => cases p <;> exact ⟨rfl, rfl, rfl⟩
  obtain ⟨tkt, serial, queue⟩ := ended _ rfl
  have filled := fillUpTo_queue 8 (({ s with rpu := { s.rpu with queue := rest } } : State).recordEnd j .gone)
  refine ⟨(congrArg State.tkt filled).trans tkt, (congrArg (fun r : State => r.rpu.serial) filled).trans serial, ?_⟩
  exact fillUpTo_fresh (by rw [queue]; exact others)

theorem startHead_started {n : Nat} {s : State} (h : ∀ j ∈ s.rpu.queue, j.fresh) : s.Started (startHead n s) := by
  have waits (s : State) (h : ∀ j ∈ s.rpu.queue, j.fresh) : s.Started s := ⟨rfl, .inl ⟨rfl, h⟩⟩
  induction n generalizing s with
  | zero => exact waits s h
  | succ n ih =>
    cases head : s.rpu.queue with
    | nil =>
      rw [startHead_nil _ head]
      exact waits s h
    | cons j rest =>
      rw [head] at h
      have fresh := h j List.mem_cons_self
      have others : ∀ x ∈ rest, x.fresh := fun x hx => h x (List.mem_cons_of_mem _ hx)
      have ⟨_, queued, new, _⟩ := fresh
      by_cases ready : s.rpu.st = .ready ∧ j.st = .queued
      · cases found : s.jobTicket? j with
        | some t =>
          rw [startHead_starts n head ready.1 queued new found]
          exact State.firstStart_started t fresh others
        | none =>
          rw [startHead_gone n head ready.1 queued new found]
          obtain ⟨tkt, serial, left⟩ := State.dropGone_rpu (s := s) (j := j) others
          obtain ⟨tkt', queue⟩ := ih left
          rw [serial] at queue
          exact ⟨tkt'.trans tkt, queue⟩
      · rw [startHead_waits _ head ready]
        exact waits s (head ▸ h)

/-! Filling an empty queue -/

/-- A queue filled from nothing: its ids count up from 1, and each of its jobs is for a ticket of the table. -/
structure State.FilledFrom1 (s : State) : Prop where
  ids : s.rpu.queue.map (·.id) = List.range' 1 s.rpu.queue.length
  next : s.rpu.nextId = s.rpu.queue.length + 1
  held : ∀ j ∈ s.rpu.queue, (s.jobTicket? j).isSome = true

theorem State.FilledFrom1.joins {s t : State} (h : s.FilledFrom1) (numbers : (s.tkt.tickets.map (·.number)).Nodup)
    (one : s.fillOne = some t) : t.FilledFrom1 := by
  obtain ⟨-, room⟩ := State.fillOne_longer one
  obtain ⟨u, k, hu, -, rfl⟩ := State.fillOne_joins one
  have free : s.rpu.queue.any (fun j => j.id == s.rpu.nextId) = false := by
    rw [List.any_eq_false]
    intro j hj same
    have : j.id ∈ s.rpu.queue.map (·.id) := List.mem_map_of_mem hj
    rw [h.ids, List.mem_range'_1, beq_iff_eq.mp same, h.next] at this
    omega
  have id_eq : freeId s.rpu.queue 8 s.rpu.nextId = s.rpu.queue.length + 1 := by
    rw [freeId, if_neg (Bool.eq_false_iff.mp free), h.next]
  have ticket (j : Job) (hj : j.ticket = u.ref) : s.jobTicket? j = some u := by
    simp only [State.jobTicket?, hj, Ticket.ref, s.ticket?_of_mem numbers hu, if_true]
  refine ⟨?_, ?_, fun j hj => ?_⟩
  · simp only [Rpu.join, List.map_append, List.map_cons, List.map_nil, List.length_append, List.length_singleton, id_eq, h.ids]
    rw [List.range'_1_concat, Nat.add_comm 1]
  · simp only [Rpu.join, List.length_append, List.length_singleton, id_eq, wrapping]
    exact if_pos (by omega)
  · rcases List.mem_append.mp hj with hj | hj
    · exact h.held j hj
    · rw [List.mem_singleton.mp hj]
      exact Option.isSome_iff_exists.mpr ⟨u, ticket _ rfl⟩

theorem fillUpTo_from1 {n : Nat} {s : State} (numbers : (s.tkt.tickets.map (·.number)).Nodup) (h : s.FilledFrom1) :
    (fillUpTo n s).FilledFrom1 := by
  induction n generalizing s with
  | zero => exact h
  | succ n ih =>
    unfold fillUpTo
    cases one : s.fillOne with
    | none => exact h
    | some t =>
      have later := h.joins numbers one
      obtain ⟨u, k, -, -, rfl⟩ := State.fillOne_joins one
      exact ih numbers later

/-- Filled, a queue has no room, or no receipt is unqueued (R161). -/
theorem fillUpTo_done {n : Nat} {s : State} (turns : 8 ≤ s.rpu.queue.length + n) : (fillUpTo n s).fillOne = none := by
  induction n generalizing s with
  | zero => exact State.fillOne_none (.inl turns)
  | succ n ih =>
    unfold fillUpTo
    cases one : s.fillOne with
    | none => exact one
    | some t =>
      obtain ⟨longer, -⟩ := State.fillOne_longer one
      exact ih (by omega)

theorem oldestOwed_eq_none {l : List Ticket} (h : oldestOwed l = none) : l = [] := by
  cases l with
  | nil => rfl
  | cons t rest =>
    unfold oldestOwed at h
    split at h
    · split at h <;> cases h
    · cases h

theorem State.nothing_unqueued {s : State} (full : s.fillOne = none) (room : s.rpu.queue.length < 8) :
    ∀ t ∈ s.tkt.tickets, s.owesUnqueued t = false := by
  unfold State.fillOne at full
  rw [if_neg (Nat.not_le.mpr room), s.unqueuedKind?_isSome] at full
  intro t ht
  split at full
  · rename_i none_
    exact Bool.eq_false_iff.mpr (List.filter_eq_nil_iff.mp (oldestOwed_eq_none none_) t ht)
  · rename_i u hu
    rw [State.unqueuedKind?_eq, if_pos (List.of_mem_filter (oldestOwed_mem hu))] at full
    cases full

/-! A start of the queue -/

theorem State.fill_keeps (s : State) :
    s.fill.tkt = s.tkt ∧ s.fill.rpu.serial = s.rpu.serial ∧ s.fill.rpu.ended = s.rpu.ended := by
  have filled := fillUpTo_queue 8 s
  unfold State.fill
  rw [filled]
  exact ⟨rfl, rfl, rfl⟩

section Idle

variable {v : State} (empty : v.rpu.queue = [])

include empty

theorem State.pump_started : v.Started v.pump := by
  obtain ⟨tickets, serial, -⟩ := v.fill_keeps
  obtain ⟨tkt, queue⟩ := startHead_started (n := 16) (s := v.fill) (fillUpTo_fresh (by rw [empty]; exact fun _ h => nomatch h))
  rw [serial] at queue
  exact ⟨tkt.trans tickets, queue⟩

theorem State.pump_printsTo : v.rpu.printsTo v.pump.rpu := (fillUpTo_printsTo 8 v).trans (startHead_printsTo 16 v.fill)

theorem State.pump_nothing (owes : ∀ t ∈ v.tkt.tickets, v.owesUnqueued t = false) : v.pump = v := by
  rw [State.pump, State.fill_of_none (State.fillOne_none (.inr owes))]
  exact startHead_nil 16 empty

/-- On a table in order the queue fills, and its first job starts where the printer admits it. -/
theorem State.pump_placed (placed : v.tkt.placed) (first : v.rpu.nextId = 1) (admits : v.rpu.admitsStart) :
    ∃ f : State, f.tkt = v.tkt ∧ f.rpu.queue.map (·.id) = List.range' 1 f.rpu.queue.length ∧ (∀ j ∈ f.rpu.queue, j.fresh) ∧
      (f.rpu.queue.length < 8 → ∀ t ∈ v.tkt.tickets, f.owesUnqueued t = false) ∧ v.pump.evu = v.evu ∧
      v.pump.rpu.ended = v.rpu.ended ∧
      (f.rpu.queue = [] ∧ v.pump.rpu.queue = [] ∨ ∃ j' j rest, f.rpu.queue = j :: rest ∧ v.pump.rpu.queue = j' :: rest ∧
        j'.startedFrom j v.rpu.serial ∧ v.pump.rpu.serial = wrapping v.rpu.serial 1 9999999) := by
  have ⟨_, _, numbers⟩ := placed
  obtain ⟨tkt, serial, ended⟩ := v.fill_keeps
  have new : ∀ j ∈ v.fill.rpu.queue, j.fresh := fillUpTo_fresh (by rw [empty]; exact fun _ h => nomatch h)
  obtain ⟨ids, -, held⟩ := fillUpTo_from1 (n := 8) (s := v) numbers
    ⟨by rw [empty]; rfl, by rw [empty, first]; rfl, by rw [empty]; exact fun _ h => nomatch h⟩
  have full : v.fill.fillOne = none := fillUpTo_done (by omega)
  refine ⟨v.fill, tkt, ids, new, fun room t ht => State.nothing_unqueued full room t (tkt ▸ ht), ?_⟩
  cases head : v.fill.rpu.queue with
  | nil =>
    rw [State.pump, State.startPrint, startHead_nil _ head]
    exact ⟨v.fill_evu, ended, .inl ⟨rfl, head⟩⟩
  | cons j rest =>
    rw [head] at new
    have ⟨_, queued, fresh, marker, _, kind⟩ := new j List.mem_cons_self
    obtain ⟨t, ticket⟩ := Option.isSome_iff_exists.mp (held j (head ▸ List.mem_cons_self))
    have same : v.fill.rpu.admitsStart := by
      have printed := fillUpTo_printsTo 8 v
      unfold Rpu.printsTo at printed
      change (fillUpTo 8 v).rpu.admitsStart
      rw [printed]
      exact admits
    have starts := startHead_starts 15 head ((Rpu.ready_iff head queued).mpr same) queued fresh ticket
    rw [State.pump, State.startPrint, starts, State.firstStart_eq _ j rest t marker, if_neg kind]
    refine ⟨v.fill_evu, ended, .inr ⟨_, j, rest, rfl, rfl, ?_, ?_⟩⟩
    · rw [← serial]
      exact ⟨_, _, rfl⟩
    · rw [← serial] <;> rfl

end Idle

/-- Whether a receipt is unqueued does not turn on what a job has printed (R161). -/
theorem State.unqueued_started {s t : State} {j j' : Job} {rest : List Job} {serial : Nat} (queue : s.rpu.queue = j :: rest)
    (queue' : t.rpu.queue = j' :: rest) (started : j'.startedFrom j serial) (k : Ticket) (kind : JobKind) :
    t.unqueued k kind = s.unqueued k kind := by
  obtain ⟨label, content, rfl⟩ := started
  simp only [State.unqueued, queue, queue', List.filter_cons]
  cases j.source == .auto && j.ticket == ⟨k.number, k.opening⟩ && j.kind == kind && !j.orphaned <;> rfl

end Sys2Proof.Machine
end

