-- ==== Sys2Proof/Proofs/StartedDecks.lean ====
section
/-! PROOFS. Channels and bridges after a start (R26 to R28, R45). -/

namespace Sys2Proof.Machine

/-! Channels -/

/-- A channel with nothing in its working state, as it starts: STARTING where it is enabled and calibrated, else OFF (R26). -/
def ChannelState.begun (c : ChannelState) (t : Timer) : ChannelState :=
  if c.set.enabled && c.set.calibrated then { c.clearWindow with goodCount := 0, signalTimer := some t, st := .starting }
  else { c with signalTimer := none, live := .absent, stable := false, st := .off }

/-- The events with a flag latched to both ports. -/
def Evu.told (e : Evu) (f : EventFlag) : Evu := { e with office := e.office.latch f, window := e.window.latch f }

theorem State.latchBoth_told (s : State) (f : EventFlag) : s.latchBoth f = { s with evu := s.evu.told f } := rfl

/-- The start of a vacant channel (R10, R26). -/
theorem State.startChannel_eq {s : State} {ch : Channel} (vacant : (s.chan ch).occupied = false) :
    s.startChannel ch = (s.setChan ch ((s.chan ch).begun (s.timer (signalTime ch)))).latchBoth (.channel ch) := by
  unfold State.startChannel ChannelState.begun
  dsimp only
  split
  · rfl
  · unfold State.enterOff State.setOccupied
    rw [if_pos (by simp [State.enter, vacant])] <;> rfl

/-- The states of the four channels as they start. -/
def State.begunChannels (s : State) : Wch :=
  { c0 := s.wch.c0.begun (s.timer 200), c1 := s.wch.c1.begun (s.timer 200), c2 := s.wch.c2.begun (s.timer 400)
    c3 := s.wch.c3.begun (s.timer 400), nextPlatform := s.wch.nextPlatform }

/-- The flags of the channels, latched to both ports (R10). -/
def Evu.channelsTold (e : Evu) : Evu := (((e.told (.channel .c0)).told (.channel .c1)).told (.channel .c2)).told (.channel .c3)

theorem State.startChannels_eq {s : State} (vacant : ∀ ch, (s.chan ch).occupied = false) :
    (((s.startChannel .c0).startChannel .c1).startChannel .c2).startChannel .c3 =
      { s with wch := s.begunChannels, evu := s.evu.channelsTold } := by
  rw [State.startChannel_eq (ch := .c0) (vacant .c0), State.startChannel_eq (ch := .c1), State.startChannel_eq (ch := .c2),
    State.startChannel_eq (ch := .c3)]
  all_goals simp only [State.latchBoth_told, State.setChan, State.chan, State.timer, State.begunChannels, Evu.channelsTold, signalTime]
  · exact vacant .c3
  · exact vacant .c2
  · exact vacant .c1

/-! Bridges -/

/-- A bridge as it starts: a beam read blocked starts its fault timer and takes the deck to ENTERING (R35, R36, R45). -/
def State.begunBridge (s : State) (b : Bridge) : BridgeState :=
  { pos := if s.beamBlocked b .entry || s.beamBlocked b .exit then .entering else .empty
    entryFault := if s.beamBlocked b .entry then some (s.timer (s.dsu.beamFault * 1000)) else none
    exitFault := if s.beamBlocked b .exit then some (s.timer (s.dsu.beamFault * 1000)) else none
    stretch := if s.beamBlocked b .entry || s.beamBlocked b .exit then some (s.timer s.dsu.stretchTime) else none
    captured := false
    override := none }

theorem State.setBridge_bridge (s : State) (b : Bridge) : s.setBridge b (s.bridge b) = s := by cases b <;> rfl

/-- A beam of an idle or entering deck that reads blocked. -/
theorem State.startBeam_eq {s : State} {b : Bridge} (side : Side) (x : BridgeState) (hx : s.bridge b = x)
    (calm : x.pos = .empty ∨ x.pos = .entering) :
    s.startBeam b side =
      if s.beamBlocked b side then
        s.setBridge b { x.withFault side (some (s.timer (s.dsu.beamFault * 1000))) with
          pos := .entering, stretch := if x.pos = .empty then some (s.timer s.dsu.stretchTime) else x.stretch }
      else s := by
  unfold State.startBeam
  split
  · rw [s.beamChange_eq b side true (some (s.timer (s.dsu.beamFault * 1000))) .entering rfl
      (by rw [hx]; rcases calm with h | h <;> rw [h] <;> rfl), hx]
    rcases calm with calm | calm
    · rw [if_neg (by rw [calm]; decide), if_pos calm]
      simp only [State.setPosition, State.bridge_setBridge, BridgeState.withFault, calm]
      cases b <;> rfl
    · have stays : ¬ x.pos = .empty := by rw [calm]; decide
      rw [if_pos calm, if_neg stays]
      cases x
      subst calm
      rfl
  · rfl

theorem State.startDeck_eq {s : State} {b : Bridge} (idle : s.bridge b = idleBridge) :
    (s.startBeam b .entry).startBeam b .exit = s.setBridge b (s.begunBridge b) := by
  have same : s.setBridge b idleBridge = s := by rw [← idle, State.setBridge_bridge]
  have blocked (x : BridgeState) (side : Side) : (s.setBridge b x).beamBlocked b side = s.beamBlocked b side := by cases b <;> rfl
  rw [State.startBeam_eq .entry idleBridge idle (.inl rfl)]
  cases entry : s.beamBlocked b .entry with
  | false =>
    rw [if_neg Bool.false_ne_true, State.startBeam_eq .exit idleBridge idle (.inl rfl)]
    cases exit : s.beamBlocked b .exit with
    | false =>
      simp only [State.begunBridge, entry, exit]
      exact same.symm
    | true => simp only [State.begunBridge, entry, exit] <;> rfl
  | true =>
    rw [if_pos rfl, State.startBeam_eq .exit _ (State.bridge_setBridge _ _ _) (.inr rfl), blocked]
    cases exit : s.beamBlocked b .exit with
    | false => simp only [State.begunBridge, entry, exit] <;> rfl
    | true =>
      simp only [State.begunBridge, entry, exit, if_true, State.setBridge_setBridge]
      cases b <;> rfl

theorem State.startDecks_eq {s : State} (idle : ∀ b, s.bridge b = idleBridge) :
    (((s.startBeam .b0 .entry).startBeam .b0 .exit).startBeam .b1 .entry).startBeam .b1 .exit =
      { s with dsu := { s.dsu with bridge0 := s.begunBridge .b0, bridge1 := s.begunBridge .b1 } } := by
  rw [State.startDeck_eq (idle .b0), State.startDeck_eq (b := .b1)]
  · rfl
  · exact idle .b1

/-! Both -/

/-- The part after its channels and beams have started. -/
theorem State.startedDecks_eq (s : State) (w : Start) (c : State) (hc : c = (s.cleared w).latchLosses w) :
    s.startedDecks w =
      { c with
        evu := c.evu.channelsTold, wch := c.begunChannels
        dsu := { c.dsu with bridge0 := c.begunBridge .b0, bridge1 := c.begunBridge .b1 } } := by
  have lost := (s.cleared w).latchLosses_reaches w
  rw [← hc] at lost
  have vacant (ch : Channel) : (c.chan ch).occupied = false := by
    cases ch <;> simp only [State.chan, lost.wch (by decide)] <;> rfl
  have idle (b : Bridge) : c.bridge b = idleBridge := by
    cases b <;> simp only [State.bridge, lost.dsu (by decide)] <;> rfl
  unfold State.startedDecks
  dsimp only
  rw [← hc, State.startChannels_eq vacant, State.startDecks_eq]
  · rfl
  · exact idle

end Sys2Proof.Machine
end

