-- ==== Sys2Proof/Proofs/StartedEvents.lean ====
section
/-! PROOFS. The events of a start: losses, channels, alerts and the release of holds (R188, R199, R200), and the state in which the
print queue is then filled. -/

namespace Sys2Proof.Machine

/-! Events alone -/

/-- The event set of a port. -/
def Evu.setOf (e : Evu) : Port → EventSet
  | .office => e.office
  | .window => e.window

theorem State.events_setOf (s : State) (p : Port) : s.events p = s.evu.setOf p := by cases p <;> rfl

theorem Evu.has_told (e : Evu) (f g : EventFlag) (p : Port) : ((e.told f).setOf p).has g = ((e.setOf p).has g || decide (g = f)) := by
  cases p <;> simp [Evu.told, Evu.setOf, EventSet.latch, EventSet.has, EventFlag.mark_bit]

theorem Evu.told_mask (e : Evu) (f : EventFlag) (p : Port) : ((e.told f).setOf p).mask = (e.setOf p).mask := by cases p <;> rfl

/-! Losses -/

/-- The events with the losses of a start told (R188, R199, R200). -/
def Evu.lost (e : Evu) (w : Start) : Evu :=
  if w.settings then (if w.retained then e else (e.told .retainLost).told .clock)
  else (if w.retained then e else (e.told .retainLost).told .clock).told .settingsLost

theorem State.latchLosses_eq (s : State) (w : Start) : s.latchLosses w = { s with evu := s.evu.lost w } := by
  unfold State.latchLosses Evu.lost
  cases w.retained <;> cases w.settings <;> simp [State.latchBoth_told]

theorem Evu.has_lost (e : Evu) (w : Start) (p : Port) (f : EventFlag) : ((e.lost w).setOf p).has f =
    ((e.setOf p).has f || (!w.retained && (decide (f = .retainLost) || decide (f = .clock))) ||
      (!w.settings && decide (f = .settingsLost))) := by
  unfold Evu.lost
  cases w.retained <;> cases w.settings <;> simp [Evu.has_told, Bool.or_assoc]

theorem Evu.lost_mask (e : Evu) (w : Start) (p : Port) : ((e.lost w).setOf p).mask = (e.setOf p).mask := by
  unfold Evu.lost
  cases w.retained <;> cases w.settings <;> simp [Evu.told_mask]

theorem Evu.lost_alerts (e : Evu) (w : Start) : (e.lost w).alerts = e.alerts := by
  unfold Evu.lost
  cases w.retained <;> cases w.settings <;> rfl

theorem Evu.has_channelsTold (e : Evu) (p : Port) (f : EventFlag) : (e.channelsTold.setOf p).has f =
    ((e.setOf p).has f || (match f with
      | .channel _ => true
      | _ => false)) := by
  simp only [Evu.channelsTold, Evu.has_told]
  cases f with
  | channel ch => cases ch <;> simp
  | _ => simp

/-! Alerts -/

/-- A source that begins is latched with the stamp of the moment, with ALERT to both ports (R195). -/
def Evu.marks (e : Evu) (begins : Bool) (src : AlertSource) (now : Stamp) : Evu :=
  if begins then ({ e with alerts := e.alerts.put src ⟨some now, (e.alerts.get src).enabled⟩ } : Evu).told .alert else e

/-- The sources a start begins. -/
def Evu.startAlerts (e : Evu) (begins : AlertSource → Bool) (now : Stamp) : Evu :=
  (((e.marks (begins .cashDoor) .cashDoor now).marks (begins .cabinet) .cabinet now).marks (begins .calSwitch) .calSwitch now).marks
    (begins .dispute) .dispute now

theorem Evu.marks_get (e : Evu) (begins : Bool) {src o : AlertSource} (now : Stamp) (h : o ≠ src) :
    (e.marks begins src now).alerts.get o = e.alerts.get o := by
  unfold Evu.marks
  split
  · exact (Alerts.get_put ..).trans (if_neg h)
  · rfl

theorem Evu.has_marks (e : Evu) (begins : Bool) (src : AlertSource) (now : Stamp) (p : Port) (f : EventFlag) :
    ((e.marks begins src now).setOf p).has f = ((e.setOf p).has f || (decide (f = .alert) && begins)) := by
  unfold Evu.marks
  cases begins with
  | false => simp
  | true =>
    rw [if_pos rfl, Evu.has_told, Bool.and_true]
    cases p <;> rfl

theorem Evu.marks_mask (e : Evu) (begins : Bool) (src : AlertSource) (now : Stamp) (p : Port) :
    ((e.marks begins src now).setOf p).mask = (e.setOf p).mask := by
  unfold Evu.marks
  split <;> cases p <;> rfl

theorem Evu.startAlerts_alerts (e : Evu) (begins : AlertSource → Bool) (now : Stamp) : (e.startAlerts begins now).alerts =
    { e.alerts with
      cashDoor := if begins .cashDoor then ⟨some now, e.alerts.cashDoor.enabled⟩ else e.alerts.cashDoor
      cabinet := if begins .cabinet then ⟨some now, e.alerts.cabinet.enabled⟩ else e.alerts.cabinet
      calSwitch := if begins .calSwitch then ⟨some now, e.alerts.calSwitch.enabled⟩ else e.alerts.calSwitch
      dispute := if begins .dispute then ⟨some now, e.alerts.dispute.enabled⟩ else e.alerts.dispute } := by
  unfold Evu.startAlerts Evu.marks
  cases begins .cashDoor <;> cases begins .cabinet <;> cases begins .calSwitch <;> cases begins .dispute <;> rfl

theorem Evu.has_startAlerts (e : Evu) (begins : AlertSource → Bool) (now : Stamp) (p : Port) (f : EventFlag) :
    ((e.startAlerts begins now).setOf p).has f =
      ((e.setOf p).has f ||
        (decide (f = .alert) && (begins .cashDoor || begins .cabinet || begins .calSwitch || begins .dispute))) := by
  simp only [Evu.startAlerts, Evu.has_marks, Bool.and_or_distrib_left, Bool.or_assoc]

theorem Evu.startAlerts_mask (e : Evu) (begins : AlertSource → Bool) (now : Stamp) (p : Port) :
    ((e.startAlerts begins now).setOf p).mask = (e.setOf p).mask := by simp only [Evu.startAlerts, Evu.marks_mask]

/-- What begins at a start: the lasting conditions that hold, and a dispute the reset makes (R154, R199). -/
def State.startsAlert (s : State) (disputes : Bool) (src : AlertSource) : Bool := if src = .dispute then disputes else s.alertCondition src

/-- A source not yet latched. -/
theorem State.startAlert_eq {s : State} {src : AlertSource} (clear : (s.evu.alerts.get src).latch = none) :
    s.startAlert src = { s with evu := s.evu.marks (s.alertCondition src) src s.stamp } := by
  unfold State.startAlert Evu.marks
  cases s.alertCondition src with
  | false => rfl
  | true => exact State.markAlert_new clear

theorem State.startAlert_evu {s : State} {e : Evu} {src : AlertSource} (clear : (e.alerts.get src).latch = none) :
    ({ s with evu := e } : State).startAlert src = { s with evu := e.marks (s.alertCondition src) src s.stamp } := by
  rw [State.startAlert_eq clear, State.alertCondition_evu] <;> rfl

theorem State.startAlerts_eq {s : State} (clear : ∀ src, (s.evu.alerts.get src).latch = none) (disputes : Bool) :
    (if disputes then (((s.startAlert .cashDoor).startAlert .cabinet).startAlert .calSwitch).markAlert .dispute
      else ((s.startAlert .cashDoor).startAlert .cabinet).startAlert .calSwitch) =
      { s with evu := s.evu.startAlerts (s.startsAlert disputes) s.stamp } := by
  have contacts : ((s.startAlert .cashDoor).startAlert .cabinet).startAlert .calSwitch =
      { s with evu := ((s.evu.marks (s.alertCondition .cashDoor) .cashDoor s.stamp).marks (s.alertCondition .cabinet) .cabinet
        s.stamp).marks (s.alertCondition .calSwitch) .calSwitch s.stamp } := by
    rw [State.startAlert_eq (clear .cashDoor), State.startAlert_evu (src := .cabinet), State.startAlert_evu (src := .calSwitch)]
    · rw [Evu.marks_get _ _ _ (by decide), Evu.marks_get _ _ _ (by decide)]
      exact clear _
    · rw [Evu.marks_get _ _ _ (by decide)]
      exact clear _
  rw [contacts]
  cases disputes with
  | false => rfl
  | true =>
    rw [if_pos rfl, State.markAlert_new]
    · rfl
    · simp only [Evu.marks_get _ _ _ (show AlertSource.dispute ≠ .calSwitch by decide),
        Evu.marks_get _ _ _ (show AlertSource.dispute ≠ .cabinet by decide),
        Evu.marks_get _ _ _ (show AlertSource.dispute ≠ .cashDoor by decide)]
      exact clear _

/-! The records a reset keeps -/

theorem Ticket.revised_of_st {t u : Ticket} {a b : TicketSt} (hu : u.st = a) (ht : t.st = b) (h : a ≠ b) :
    t.revised u = { u with revision := if t.revision < 255 then t.revision + 1 else 0 } := by
  rw [Ticket.revised_counts, if_neg fun same => h (by rw [← hu, ← ht, same])]

theorem Ticket.release_of_st {u : Ticket} {a : TicketSt} (hu : u.st = a) (h : a ≠ .held) (d : Date) : u.release d = u := by
  rw [Ticket.release_eq, Ticket.due_eq, hu, beq_false_of_ne h, Bool.false_and]
  rfl

/-- A record after a reset and the release check of its power-up (R92, R188). -/
theorem Ticket.keptByReset_eq (t : Ticket) (reached : Bool) (d : Date) : (t.afterReset reached).release d = t.keptByReset reached d := by
  unfold Ticket.afterReset Ticket.keptByReset
  cases st : t.st with
  | claimed =>
    rw [Ticket.revised_of_st (u := t.unclaim) (a := .settled) rfl st (by decide)]
    exact Ticket.release_of_st (a := .settled) rfl (by decide) d
  | paying =>
    dsimp only
    cases reached with
    | true =>
      rw [Ticket.revised_of_st (a := .disputed) rfl st (by decide)]
      exact Ticket.release_of_st (a := .disputed) rfl (by decide) d
    | false =>
      rw [Ticket.revised_of_st (a := .settled) rfl st (by decide)]
      exact Ticket.release_of_st (a := .settled) rfl (by decide) d
  | held =>
    rw [Ticket.revised_self, Ticket.release_eq, Ticket.due_eq, st] <;> rfl
  | _ =>
    rw [Ticket.revised_self]
    exact Ticket.release_of_st st (by decide) d

/-- A record is due at a start exactly where it was HELD and leaves it SETTLED. -/
theorem Ticket.due_afterReset (t : Ticket) (reached : Bool) (d : Date) :
    (t.afterReset reached).due d = decide (t.st = .held ∧ (t.keptByReset reached d).st = .settled) := by
  unfold Ticket.afterReset Ticket.keptByReset
  cases st : t.st with
  | held =>
    rw [Ticket.revised_self, Ticket.due_eq, st]
    dsimp only
    cases (t.settlement.bind (·.holdUntil)).any fun h => decide (h.number ≤ d.number) <;> simp [st]
  | claimed =>
    rw [Ticket.revised_of_st (u := t.unclaim) (a := .settled) rfl st (by decide)]
    rfl
  | paying =>
    dsimp only
    cases reached with
    | true =>
      rw [Ticket.revised_of_st (a := .disputed) rfl st (by decide)]
      rfl
    | false =>
      rw [Ticket.revised_of_st (a := .settled) rfl st (by decide)]
      rfl
  | _ =>
    rw [Ticket.revised_self, Ticket.due_eq, st]
    rfl

/-! The part before its queue is filled -/

/-- The part at a start before its print queue is filled and its lamps start. -/
def State.beforePrint (s : State) (w : Start) : State :=
  let d := s.startedDecks w
  let s4 := ((d.startAlert .cashDoor).startAlert .cabinet).startAlert .calSwitch
  let s5 := if w.retained && s.resetDisputes then s4.markAlert .dispute else s4
  if w.retained then s5.releaseCheck s5.releaseDate else s5

theorem State.startUp_prints (s : State) (w : Start) : s.startUp w = (s.beforePrint w).pump.startLamps.settle := by
  rw [State.startUp_eq] <;> rfl

/-- Channels and bridges begun. -/
def State.begunDecks (s : State) : State :=
  { s with wch := s.begunChannels, dsu := { s.dsu with bridge0 := s.begunBridge .b0, bridge1 := s.begunBridge .b1 } }

/-- The events of a start, up to the release check. -/
def State.startEvents (s : State) (w : Start) : Evu :=
  ((s.cleared w).evu.lost w).channelsTold.startAlerts
    ((s.cleared w).begunDecks.startsAlert (w.retained && s.resetDisputes)) (s.cleared w).stamp

/-- The tickets of a start, after the release check. -/
def State.startTickets (s : State) (w : Start) : Tkt :=
  if w.retained then
    { (s.cleared w).tkt with tickets := (s.cleared w).tkt.tickets.map (·.release (s.cleared w).releaseDate) }
  else (s.cleared w).tkt

theorem State.releaseCheck_told (s : State) (d : Date) : s.releaseCheck d =
    { s with
      evu := if s.tkt.tickets.any (·.due d) then s.evu.told .holdRelease else s.evu
      tkt := { s.tkt with tickets := s.tkt.tickets.map (·.release d) } } := by
  unfold State.releaseCheck
  simp only [State.dueCount_eq_zero]
  cases s.tkt.tickets.any (·.due d) <;> rfl

theorem State.beforePrint_eq (s : State) (w : Start) : s.beforePrint w =
    { (s.cleared w).begunDecks with
      evu :=
        if w.retained && (s.cleared w).tkt.tickets.any (·.due (s.cleared w).releaseDate) then (s.startEvents w).told .holdRelease
        else s.startEvents w
      tkt := s.startTickets w } := by
  have decks : s.startedDecks w = { (s.cleared w).begunDecks with evu := ((s.cleared w).evu.lost w).channelsTold } := by
    rw [State.startedDecks_eq s w _ rfl, State.latchLosses_eq] <;> rfl
  have clear (src : AlertSource) : ((s.startedDecks w).evu.alerts.get src).latch = none := by
    rw [decks]
    have same : ((s.cleared w).evu.lost w).channelsTold.alerts = s.evu.alerts.afterReset w := Evu.lost_alerts _ _
    simp only [same, Alerts.afterReset, Start.set]
    cases w.settings <;> cases src <;> rfl
  have alerts := State.startAlerts_eq clear (w.retained && s.resetDisputes)
  have begun : (if (w.retained && s.resetDisputes) = true then
        ((((s.startedDecks w).startAlert .cashDoor).startAlert .cabinet).startAlert .calSwitch).markAlert .dispute
      else (((s.startedDecks w).startAlert .cashDoor).startAlert .cabinet).startAlert .calSwitch) =
      { (s.cleared w).begunDecks with evu := s.startEvents w } := by
    rw [alerts, decks] <;> rfl
  unfold State.beforePrint State.startTickets
  dsimp only
  rw [begun]
  cases w.retained with
  | false => rfl
  | true =>
    rw [if_pos rfl, if_pos rfl, Bool.true_and, State.releaseCheck_told] <;> rfl

end Sys2Proof.Machine
end

