-- ==== Sys2Proof/Proofs/Starts.lean ====
section
/-! PROOFS. What a start leaves of every block: O3 and O4. -/

namespace Sys2Proof.Machine

/-! The form of a started part -/

theorem State.beforePrint_rpu (s : State) (w : Start) : (s.beforePrint w).rpu = s.rpu.afterReset w := by rw [State.beforePrint_eq] <;> rfl

theorem State.beforePrint_tkt (s : State) (w : Start) : (s.beforePrint w).tkt = s.startTickets w := by rw [State.beforePrint_eq]

theorem State.beforePrint_empty (s : State) (w : Start) : (s.beforePrint w).rpu.queue = [] := by rw [State.beforePrint_rpu] <;> rfl

theorem LampBank.take_begin (row : AspectRow) : (LampBank.begin row).take row = LampBank.begin row := by
  simp [LampBank.take, LampBank.begin, LampRun.take, LampRun.begin]

theorem State.startLamps_settle (u : State) : u.startLamps.settle =
    { u with
      lamps := ⟨.begin (u.lampRow .b0), .begin (u.lampRow .b1)⟩
      outs := ⟨decide (u.summary .window ≠ 0), u.evu.alerts.asserts⟩ } := by
  have row (b : Bridge) : u.startLamps.lampRow b = u.lampRow b := by cases b <;> rfl
  simp only [State.settle, row]
  simp only [State.startLamps, LampBank.take_begin] <;> rfl

/-- A start leaves the cleared part with channels and bridges begun, its events, its tickets, and what its print queue comes to. -/
theorem State.startUp_form (s : State) (w : Start) : ∃ r e outs row0 row1, s.startUp w =
    { (s.cleared w).begunDecks with
      evu := e, tkt := s.startTickets w, rpu := r, lamps := ⟨.begin row0, .begin row1⟩, outs := outs } ∧
      r = (s.beforePrint w).pump.rpu ∧ e = (s.beforePrint w).pump.evu := by
  have tkt := (State.pump_started (s.beforePrint_empty w)).tkt
  obtain ⟨r, k, e, h⟩ := (s.beforePrint w).pump_frame
  rw [h, State.beforePrint_tkt] at tkt
  have started := (s.startUp_prints w).trans ((congrArg (fun u => u.startLamps.settle) h).trans (State.startLamps_settle _))
  generalize (({ s.beforePrint w with rpu := r, tkt := k, evu := e } : State).lampRow .b0) = row0 at started
  generalize (({ s.beforePrint w with rpu := r, tkt := k, evu := e } : State).lampRow .b1) = row1 at started
  generalize decide (({ s.beforePrint w with rpu := r, tkt := k, evu := e } : State).summary .window ≠ 0) = call at started
  refine ⟨r, e, ⟨call, e.alerts.asserts⟩, row0, row1, started.trans ?_, by rw [h], by rw [h]⟩
  rw [State.beforePrint_eq, ← tkt]

/-! Channels -/

theorem ChannelState.begun_kept (c : ChannelState) (t : Timer) :
    (c.begun t).set = c.set ∧ (c.begun t).z = c.z ∧ (c.begun t).serial = c.serial ∧
      (c.begun t).st = (if c.set.enabled && c.set.calibrated then .starting else .off) ∧ (c.begun t).capture = c.capture ∧
      (c.begun t).slot = c.slot ∧ (c.begun t).drift = c.drift ∧ (c.begun t).occupied = c.occupied ∧
      (c.window = [] → (c.begun t).window = []) := by
  unfold ChannelState.begun
  cases c.set.enabled && c.set.calibrated with
  | true => exact ⟨rfl, rfl, rfl, rfl, rfl, rfl, rfl, rfl, fun _ => rfl⟩
  | false => exact ⟨rfl, rfl, rfl, rfl, rfl, rfl, rfl, rfl, id⟩

/-- The channels of a started part (R26 to R28). -/
theorem State.startUp_channels (s : State) (w : Start) (ch : Channel) :
    ((s.startUp w).chan ch).set = w.set (s.chan ch).set defaultChannelSettings ∧
      ((s.startUp w).chan ch).z = w.set (w.ret (s.chan ch).z (s.chan ch).set.zCal) 0 ∧
      ((s.startUp w).chan ch).serial = w.ret (s.chan ch).serial 0 ∧
      ((s.startUp w).chan ch).st =
        (if ((s.startUp w).chan ch).set.enabled && ((s.startUp w).chan ch).set.calibrated then .starting else .off) ∧
      ((s.startUp w).chan ch).window = [] ∧ ((s.startUp w).chan ch).capture = none ∧ ((s.startUp w).chan ch).slot = none ∧
      ((s.startUp w).chan ch).drift = false ∧ ((s.startUp w).chan ch).occupied = false := by
  obtain ⟨r, e, outs, row0, row1, form, -, -⟩ := s.startUp_form w
  have begun : (s.startUp w).chan ch = ((s.chan ch).afterReset w).begun ⟨signalTime ch, s.elapsed⟩ := by
    rw [form]
    cases ch <;> rfl
  rw [begun]
  obtain ⟨set, z, serial, st, capture, slot, drift, occupied, window⟩ :=
    ((s.chan ch).afterReset w).begun_kept ⟨signalTime ch, s.elapsed⟩
  exact ⟨set, z, serial, by rw [set]; exact st, window rfl, capture, slot, drift, occupied⟩

/-- The bridges and lamps of a started part (R45). -/
theorem State.startUp_bridges (s : State) (w : Start) (b : Bridge) :
    ((s.startUp w).bridge b).captured = false ∧ ((s.startUp w).bridge b).override = none ∧
      ((s.startUp w).bridge b).pos =
        (if (s.startUp w).beamBlocked b .entry || (s.startUp w).beamBlocked b .exit then .entering else .empty) ∧
      ((s.startUp w).bridge b).stretch =
        (if (s.startUp w).beamBlocked b .entry || (s.startUp w).beamBlocked b .exit then some ⟨(s.startUp w).dsu.stretchTime, s.elapsed⟩
          else none) ∧
      (∀ side, ((s.startUp w).bridge b).faultTimer side =
        if (s.startUp w).beamBlocked b side then some ⟨(s.startUp w).dsu.beamFault * 1000, s.elapsed⟩ else none) ∧
      ∀ side colour, (((s.startUp w).lampBank b).get side colour).step = 1 ∧
          (((s.startUp w).lampBank b).get side colour).pauseLeft = 0 := by
  obtain ⟨r, e, outs, row0, row1, form, -, -⟩ := s.startUp_form w
  rw [form]
  refine ⟨by cases b <;> rfl, by cases b <;> rfl, by cases b <;> rfl, by cases b <;> rfl, fun side => by cases b <;> cases side <;> rfl,
    fun side colour => ?_⟩
  cases b <;> cases side <;> cases colour <;> exact ⟨rfl, rfl⟩

/-! Lines -/

theorem linesAfterReset_at {l : List YardLine} {w : Start} {i : Nat} {x : YardLine} {e : LineEntry} (hx : l[i]? = some x)
    (he : (if w.settings then some x.entry else defaultLineMap[i]?) = some e) :
    (linesAfterReset l w)[i]? = some (x.afterReset i e) := by
  have entry : (w.set (l.map (·.entry)) defaultLineMap)[i]? = some e := by
    unfold Start.set
    cases h : w.settings with
    | true =>
      rw [h] at he
      rw [if_pos rfl, List.getElem?_map, hx]
      exact he
    | false =>
      rw [h] at he
      exact he
  have zipped : (l.zip (w.set (l.map (·.entry)) defaultLineMap))[i]? = some (x, e) := List.getElem?_zip_eq_some.mpr ⟨hx, entry⟩
  simp [linesAfterReset, List.getElem?_zipIdx, zipped]

theorem linesAfterReset_warm (l : List YardLine) :
    (linesAfterReset l warm).map (fun x => (x.entry, x.drive)) = l.map fun x => (x.entry, x.drive) := by
  have from_ (n : Nat) : ((l.zip (l.map (·.entry))).zipIdx n).map (fun x => ((x.1.1.afterReset x.2 x.1.2).entry,
      (x.1.1.afterReset x.2 x.1.2).drive)) = l.map fun x => (x.entry, x.drive) := by
    induction l generalizing n with
    | nil => rfl
    | cons x l ih => exact congrArg _ (ih (n + 1))
  rw [linesAfterReset, List.map_map]
  exact from_ 0

/-! Alerts and flags -/

theorem State.begunDecks_service (s : State) : s.begunDecks.anyInService = false := by
  have begun (c : ChannelState) (t : Timer) : ((c.begun t).st == .service) = false := by
    rw [(c.begun_kept t).2.2.2.1]
    split <;> rfl
  simp only [State.begunDecks, State.anyInService, State.begunChannels, begun, Bool.or_false]

theorem State.beforePrint_setOf (s : State) (w : Start) (p : Port) (f : EventFlag) : ((s.beforePrint w).evu.setOf p).has f =
    (((s.startEvents w).setOf p).has f ||
      (decide (f = .holdRelease) && (w.retained && (s.cleared w).tkt.tickets.any (·.due (s.cleared w).releaseDate)))) := by
  rw [State.beforePrint_eq]
  dsimp only
  split
  · rename_i due
    rw [Evu.has_told, due, Bool.and_true]
  · rename_i due
    rw [Bool.eq_false_iff.mpr due, Bool.and_false, Bool.or_false]

theorem State.beforePrint_alerts (s : State) (w : Start) : (s.beforePrint w).evu.alerts = (s.startEvents w).alerts := by
  rw [State.beforePrint_eq]
  dsimp only
  split <;> rfl

theorem State.beforePrint_mask (s : State) (w : Start) (p : Port) : ((s.beforePrint w).evu.setOf p).mask = 0 := by
  have events : ((s.startEvents w).setOf p).mask = 0 := by
    rw [State.startEvents, Evu.startAlerts_mask]
    simp only [Evu.channelsTold, Evu.told_mask, Evu.lost_mask]
    cases p <;> rfl
  rw [State.beforePrint_eq]
  dsimp only
  split
  · rw [Evu.told_mask, events]
  · exact events

theorem State.begunDecks_switch (s : State) : s.begunDecks.alertCondition .calSwitch = s.switchClosed := by
  rw [State.alertCondition, State.begunDecks_service, Bool.not_false, Bool.and_true]
  rfl

/-- The alerts of a start: the conditions of the contacts, and a dispute the reset makes (R154, R199, R200). -/
theorem State.startEvents_alerts (s : State) (w : Start) : (s.startEvents w).alerts =
    ⟨⟨if (s.cleared w).cashDoorOpen then some (s.cleared w).stamp else none, w.set s.evu.alerts.cashDoor.enabled true⟩,
      ⟨if (s.cleared w).cabinetOpen then some (s.cleared w).stamp else none, w.set s.evu.alerts.cabinet.enabled true⟩,
      ⟨if (s.cleared w).switchClosed then some (s.cleared w).stamp else none, w.set s.evu.alerts.calSwitch.enabled true⟩,
      ⟨none, w.set s.evu.alerts.retract.enabled true⟩,
      ⟨if w.retained && s.resetDisputes then some (s.cleared w).stamp else none, w.set s.evu.alerts.dispute.enabled true⟩,
      w.set s.evu.alerts.globalEnable true⟩ := by
  have base : ((s.cleared w).evu.lost w).channelsTold.alerts = s.evu.alerts.afterReset w := Evu.lost_alerts _ _
  have begins (src : AlertSource) (h : src ≠ .dispute) :
      (s.cleared w).begunDecks.startsAlert (w.retained && s.resetDisputes) src = (s.cleared w).begunDecks.alertCondition src := if_neg h
  have latch (b enabled : Bool) (now : Stamp) :
      (if b then (⟨some now, enabled⟩ : AlertState) else ⟨none, enabled⟩) = ⟨if b then some now else none, enabled⟩ := by
    cases b <;> rfl
  rw [State.startEvents, Evu.startAlerts_alerts, base, begins _ (by decide), begins _ (by decide), begins _ (by decide),
    State.begunDecks_switch]
  unfold Alerts.afterReset Start.set
  cases w.settings
  all_goals
    simp only [AlertState.cleared, clearAlerts, if_true, if_false, Bool.false_eq_true, latch]
    rfl

theorem State.startEvents_has (s : State) (w : Start) (p : Port) (f : EventFlag) : ((s.startEvents w).setOf p).has f =
    ((!w.retained && (decide (f = .retainLost) || decide (f = .clock))) || (!w.settings && decide (f = .settingsLost)) ||
      (match f with
        | .channel _ => true
        | _ => false) ||
      (decide (f = .alert) &&
        ((s.startEvents w).alerts.cashDoor.latch.isSome || (s.startEvents w).alerts.cabinet.latch.isSome ||
          (s.startEvents w).alerts.calSwitch.latch.isSome || (s.startEvents w).alerts.dispute.latch.isSome))) := by
  have silent : (((s.cleared w).evu).setOf p).has f = false := by
    cases p <;> exact BitVec.getLsbD_zero
  have latched (b : Bool) (now : Stamp) : (if b then some now else none).isSome = b := by cases b <;> rfl
  have begins (src : AlertSource) (h : src ≠ .dispute) :
      (s.cleared w).begunDecks.startsAlert (w.retained && s.resetDisputes) src = (s.cleared w).begunDecks.alertCondition src := if_neg h
  rw [State.startEvents_alerts]
  simp only [latched]
  rw [State.startEvents, Evu.has_startAlerts, Evu.has_channelsTold, Evu.has_lost, silent, begins _ (by decide), begins _ (by decide),
    begins _ (by decide), State.begunDecks_switch, Bool.false_or] <;> rfl

/-! The printer -/

/-- What printing leaves of the printer's record. -/
theorem Rpu.printsTo.fields {r r' : Rpu} (h : r.printsTo r') :
    r'.header1 = r.header1 ∧ r'.header2 = r.header2 ∧ r'.header3 = r.header3 ∧ r'.autoBridge = r.autoBridge ∧
      r'.autoCounter = r.autoCounter ∧ r'.paper = r.paper ∧ r'.cover = r.cover ∧ r'.head = r.head ∧ r'.offline = r.offline ∧
      r'.cancelCut = r.cancelCut := by
  unfold Rpu.printsTo at h
  rw [h]
  exact ⟨rfl, rfl, rfl, rfl, rfl, rfl, rfl, rfl, rfl, rfl⟩

/-! Tickets -/

theorem State.startTickets_lost {s : State} {w : Start} (lost : w.retained = false) :
    (s.startTickets w).tickets = [] ∧ (s.startTickets w).spent = [] ∧ (s.startTickets w).counter = 1 ∧ (s.startTickets w).opening = 0 := by
  simp [State.startTickets, State.cleared, Tkt.afterReset, Start.ret, lost]

theorem State.startTickets_series (s : State) (w : Start) : (s.startTickets w).series =
    if w.settings then (if w.retained then s.tkt.series else if s.tkt.series < 99 then s.tkt.series + 1 else 1) else 1 := by
  obtain ⟨rv, sv⟩ := w
  cases rv <;> rfl

/-- The check date of a start's release, by the present hour (R188). -/
theorem State.startTickets_kept {s : State} {w : Start} (kept : w.retained = true) :
    (s.startTickets w).tickets = s.tkt.tickets.map (fun k => k.keptByReset s.pyu.reachedTray (s.cleared w).releaseDate) ∧
      (s.startTickets w).spent = s.tkt.spent ∧ (s.startTickets w).counter = s.tkt.counter ∧ (s.startTickets w).opening = s.tkt.opening := by
  have records : (s.cleared w).tkt.tickets = s.tkt.tickets.map fun t => t.afterReset s.pyu.reachedTray := if_pos kept
  have released : (s.startTickets w).tickets = (s.cleared w).tkt.tickets.map (·.release (s.cleared w).releaseDate) := by
    rw [State.startTickets, if_pos kept]
  have same : s.startTickets w = { (s.cleared w).tkt with tickets := (s.startTickets w).tickets } := by
    rw [released, State.startTickets, if_pos kept]
  refine ⟨?_, ?_, ?_, ?_⟩
  · rw [released, records, List.map_map]
    exact List.map_congr_left fun t _ => t.keptByReset_eq s.pyu.reachedTray _
  · rw [same]
    exact if_pos kept
  · rw [same]
    exact if_pos kept
  · rw [same]
    exact if_pos kept

theorem State.startTickets_placed {s : State} (w : Start) (placed : s.tkt.placed) : (s.startTickets w).placed := by
  have cleared := s.cleared_tkt w ▸ Tkt.afterReset_placed w s.pyu.reachedTray placed
  unfold State.startTickets
  split
  · refine Tkt.placed_map (f := fun t => t.release (s.cleared w).releaseDate) rfl ?_ ?_ cleared <;>
    · intro t
      rcases t.release_cases (s.cleared w).releaseDate with same | ⟨-, r, same⟩ <;> rw [same]
  · exact cleared

theorem any_zip_map {α : Type} (l : List α) (f : α → α) (P : α × α → Bool) : (l.zip (l.map f)).any P = l.any fun x => P (x, f x) := by
  induction l with
  | nil => rfl
  | cons x l ih => rw [List.map_cons, List.zip_cons_cons, List.any_cons, List.any_cons, ih]

/-- A hold is released at a start exactly where a record that was HELD is left SETTLED. -/
theorem State.startTickets_due {s : State} {w : Start} (kept : w.retained = true) :
    (s.cleared w).tkt.tickets.any (·.due (s.cleared w).releaseDate) =
      (s.tkt.tickets.zip (s.startTickets w).tickets).any (fun x => decide (x.1.st = .held ∧ x.2.st = .settled)) := by
  have records : (s.cleared w).tkt.tickets = s.tkt.tickets.map fun t => t.afterReset s.pyu.reachedTray := if_pos kept
  rw [(State.startTickets_kept kept).1, any_zip_map, records, List.any_map]
  exact congrArg (List.any _) (funext fun t => t.due_afterReset _ _)

theorem Pyu.reachedTray_eq (u : Pyu) : u.reachedTray = u.payout.any (·.presented) := by
  unfold Pyu.reachedTray
  cases u.payout <;> rfl

/-- The bundle a start finds to record (R154). -/
theorem Pyu.interrupted_eq (u : Pyu) : u.interrupted = (match u.payout with
    | some p => some ⟨p.ticket, p.picked, p.pickedAmount, p.presented⟩
    | none => u.recovery.bind (·.interrupted)) := by
  unfold Pyu.interrupted
  cases u.payout <;> cases u.recovery <;> rfl

theorem State.resetDisputes_eq (s : State) :
    s.resetDisputes = (s.pyu.payout.any (·.presented) && s.tkt.tickets.any fun k => decide (k.st = .paying)) := by
  have paying : (fun t : Ticket => t.st == .paying) = fun t => decide (t.st = .paying) := by
    funext t
    rw [Bool.eq_iff_iff, beq_iff_eq, decide_eq_true_iff]
  rw [State.resetDisputes, Pyu.reachedTray_eq, paying]

/-! The queue -/

/-- Every job of a started queue is automatic, and is neither orphaned nor to be printed again. -/
theorem State.Started.jobs {s t : State} (h : s.Started t) :
    ∀ j ∈ t.rpu.queue, j.source = .auto ∧ j.orphaned = false ∧ j.restart = false ∧ j.next = 1 := by
  intro j hj
  rcases h.queue with ⟨-, fresh⟩ | ⟨j', x, rest, queue, ⟨label, content, rfl⟩, fresh, others, -⟩
  · exact (fresh j hj).1
  · obtain ⟨⟨auto, orphaned, restart, -⟩, -⟩ := fresh
    rw [queue] at hj
    rcases List.mem_cons.mp hj with rfl | hj
    · exact ⟨auto, orphaned, restart, rfl⟩
    · exact (others j hj).1

/-- Nothing owed, nothing unqueued. -/
theorem State.owesUnqueued_of_nothing {s : State} {t : Ticket} (h : t.owed.slip = 0 ∧ t.owed.copies = 0 ∧ t.owed.notice = 0) :
    s.owesUnqueued t = false := by
  obtain ⟨slip, copies, notice⟩ := h
  simp [State.owesUnqueued, State.unqueued, slip, copies, notice]

theorem State.unqueued_of_owesNot {s : State} {t : Ticket} (h : s.owesUnqueued t = false) :
    s.unqueued t .weighSlip = 0 ∧ s.unqueued t .payout = 0 ∧ s.unqueued t .voidNotice = 0 := by
  rw [State.owesUnqueued, decide_eq_false_iff_not] at h
  omega

theorem State.pump_mask (s : State) (p : Port) : (s.pump.evu.setOf p).mask = (s.evu.setOf p).mask := by
  have kept := (startHead_flags 16 s.fill p).1
  rw [State.fill_events, State.events_setOf, State.events_setOf] at kept
  exact kept

/-- On a table in order a started queue holds the first receipts owed, the first of them printing (R160, R161, R164). -/
theorem State.startUp_queue {s : State} (w : Start) (placed : s.tkt.placed) {t : State} (tkt : t.tkt = s.startTickets w)
    (rpu : t.rpu = (s.beforePrint w).pump.rpu) {serial : Nat} (hserial : serial = w.ret s.rpu.serial 1) :
    (s.beforePrint w).pump.evu = (s.beforePrint w).evu ∧ t.rpu.ended = [] ∧
      t.rpu.queue.map (·.id) = List.range' 1 t.rpu.queue.length ∧
      (∀ k ∈ t.tkt.tickets, t.rpu.queue.length < 8 →
        t.unqueued k .weighSlip = 0 ∧ t.unqueued k .payout = 0 ∧ t.unqueued k .voidNotice = 0) ∧
      ∀ j rest, t.rpu.queue = j :: rest → j.st = .printing ∧ j.started = true ∧ j.serial = some serial ∧
        (∀ x ∈ rest, x.st = .queued ∧ x.started = false) ∧ t.rpu.serial = (if serial < 9999999 then serial + 1 else 1) := by
  have before := s.beforePrint_rpu w
  obtain ⟨f, ftkt, ids, fresh, full, evu, ended, queue⟩ := State.pump_placed (s.beforePrint_empty w)
    (by rw [State.beforePrint_tkt]; exact State.startTickets_placed w placed) (by rw [before]; rfl)
    (by rw [before]; exact ⟨rfl, nofun, rfl, rfl, rfl⟩)
  have next : (s.beforePrint w).rpu.serial = serial := by rw [before, hserial] <;> rfl
  rw [next] at queue
  rw [← rpu] at ended queue
  refine ⟨evu, by rw [ended, before]; rfl, ?_⟩
  rw [State.beforePrint_tkt, ← tkt] at full
  rcases queue with ⟨fqueue, tqueue⟩ | ⟨j', j, rest, fqueue, tqueue, started, after⟩
  · refine ⟨by rw [tqueue]; rfl, fun k hk _ => ?_, fun j rest head => ?_⟩
    · have same (kind : JobKind) : t.unqueued k kind = f.unqueued k kind := by simp only [State.unqueued, tqueue, fqueue]
      rw [same, same, same]
      exact State.unqueued_of_owesNot (full (by rw [fqueue]; decide) k hk)
    · rw [tqueue] at head
      cases head
  · rw [fqueue] at ids fresh full
    refine ⟨?_, fun k hk room => ?_, fun x others head => ?_⟩
    · obtain ⟨label, content, rfl⟩ := started
      rw [tqueue]
      exact ids
    · rw [tqueue] at room
      rw [State.unqueued_started fqueue tqueue started, State.unqueued_started fqueue tqueue started,
        State.unqueued_started fqueue tqueue started]
      exact State.unqueued_of_owesNot (full room k hk)
    · obtain ⟨label, content, rfl⟩ := started
      rw [tqueue] at head
      obtain ⟨rfl, rfl⟩ := List.cons.inj head
      exact ⟨rfl, rfl, rfl, fun y hy => ⟨(fresh y (List.mem_cons_of_mem _ hy)).2.1, (fresh y (List.mem_cons_of_mem _ hy)).2.2.1⟩, after⟩

/-- Where nothing is owed the queue stays empty (R161). -/
theorem State.startUp_nothing {s : State} {w : Start}
    (owes : ∀ k ∈ (s.startTickets w).tickets, k.owed.slip = 0 ∧ k.owed.copies = 0 ∧ k.owed.notice = 0) :
    (s.beforePrint w).pump.rpu = s.rpu.afterReset w := by
  rw [State.pump_nothing (State.beforePrint_empty s w) fun t ht => State.owesUnqueued_of_nothing (owes t (by
    rw [State.beforePrint_tkt] at ht
    exact ht)), State.beforePrint_rpu]

/-- The flags of a started part whose table is in order (R188, R199, R200). -/
theorem State.startUp_flags {s : State} (w : Start) (placed : s.tkt.placed) (p : Port) (f : EventFlag) :
    ((s.beforePrint w).pump.evu.setOf p).has f = (match f with
      | .channel _ => true
      | .retainLost => !w.retained
      | .clock => !w.retained
      | .settingsLost => !w.settings
      | .holdRelease => w.retained &&
          (s.tkt.tickets.zip (s.startTickets w).tickets).any (fun x => decide (x.1.st = .held ∧ x.2.st = .settled))
      | .alert => (s.startEvents w).alerts.cashDoor.latch.isSome || (s.startEvents w).alerts.cabinet.latch.isSome ||
          (s.startEvents w).alerts.calSwitch.latch.isSome || (s.startEvents w).alerts.dispute.latch.isSome
      | _ => false) := by
  have evu := (State.startUp_queue w placed (t := { s with tkt := s.startTickets w, rpu := (s.beforePrint w).pump.rpu }) rfl rfl rfl).1
  rw [evu, State.beforePrint_setOf, State.startEvents_has]
  cases f with
  | holdRelease =>
    cases kept : w.retained with
    | true => simp [State.startTickets_due kept]
    | false => simp
  | _ => simp

/-- Settles O3. -/
theorem powerUpStartsEveryBlock : Obligations.PowerUpStartsEveryBlock := by
  intro s rv sv straps fits
  have told : exec (.powerUp rv sv straps) s = .next (s.powerUp rv sv straps) := rfl
  generalize hu : ({ s with powered := true, straps := straps % 32, settingsLost := !sv, retainLost := !rv } : State) = u
  have starts : s.powerUp rv sv straps = u.startUp ⟨rv, sv⟩ := congrArg (fun u => State.startUp u ⟨rv, sv⟩) hu
  refine ⟨_, told.trans (congrArg _ starts), ?_⟩
  have judged := State.startUp_judged (s := u) ⟨rv, sv⟩ (by rw [← hu])
  obtain ⟨r, e, outs, row0, row1, form, hr, he⟩ := u.startUp_form ⟨rv, sv⟩
  have mask (p : Port) : (e.setOf p).mask = 0 := by rw [he, State.pump_mask, State.beforePrint_mask]
  have printed := State.pump_printsTo (u.beforePrint_empty ⟨rv, sv⟩)
  rw [← hr, State.beforePrint_rpu] at printed
  obtain ⟨header1, header2, header3, autoBridge, autoCounter, paper, cover, head, offline, cut⟩ := printed.fields
  have jobs := (State.pump_started (u.beforePrint_empty ⟨rv, sv⟩)).jobs
  rw [← hr] at jobs
  have nothing := State.startUp_nothing (s := u) (w := ⟨rv, sv⟩)
  rw [← hr] at nothing
  have queue (placed : u.tkt.placed) {serial : Nat} (h : serial = if rv then u.rpu.serial else 1) :=
    (State.startUp_queue ⟨rv, sv⟩ placed (t := u.startUp ⟨rv, sv⟩) (by rw [form]) (by rw [form, hr]) h).2
  have flags := State.startUp_flags (s := u) ⟨rv, sv⟩
  have alerts : e.alerts = (u.startEvents ⟨rv, sv⟩).alerts := by rw [he, State.pump_alerts, State.beforePrint_alerts]
  rw [← he, ← alerts] at flags
  rw [State.startEvents_alerts, State.resetDisputes_eq, ← Bool.and_assoc] at alerts
  have channels := u.startUp_channels ⟨rv, sv⟩
  have bridges := u.startUp_bridges ⟨rv, sv⟩
  have lost := State.startTickets_lost (s := u) (w := ⟨rv, sv⟩)
  have kept := State.startTickets_kept (s := u) (w := ⟨rv, sv⟩)
  rw [Pyu.reachedTray_eq] at kept
  have bundle := u.pyu.interrupted_eq
  rw [form] at judged channels bridges queue ⊢
  clear form hr he starts told
  subst hu
  refine ⟨rfl, Nat.mod_eq_of_lt fits, rfl, rfl, rfl, rfl, mask .office, mask .window, judged, rfl, rfl, by cases rv <;> rfl, channels, rfl,
    rfl, rfl, rfl, rfl, rfl, fun i l entry hl hentry => linesAfterReset_at hl hentry, bridges, lost, State.startTickets_series _ _, ?_,
    rfl, rfl, rfl, rfl, rfl, rfl, rfl, fun h => if_pos h, ?_, header1, header2, header3, autoBridge, autoCounter, paper, cover, head,
    offline, cut, jobs, ?_, ?_, ?_, ?_⟩
  · rintro check rfl held
    subst held
    exact kept rfl
  · exact congrArg (fun b => some (⟨if rv then b else none⟩ : Recovery)) bundle
  · intro owes
    rw [nothing owes]
    exact ⟨rfl, rfl, rfl⟩
  · intro serial hserial placed
    exact queue placed hserial
  · rintro now enable rfl rfl
    exact alerts
  · intro placed p f
    rw [State.events_setOf]
    exact flags placed p f

end Sys2Proof.Machine
end

