-- ==== Sys2Proof/Proofs/WarmRestarts.lean ====
section
/-! PROOFS. A warm restart, and the power-up with both stores valid that it equals: O4. -/

namespace Sys2Proof.Machine

/-! A start reads neither of the two losses IDENT tells -/

/-- The state with other losses to tell (R210). -/
def State.telling (s : State) (retain settings : Bool) : State := { s with retainLost := retain, settingsLost := settings }

section Losses

variable (a b : Bool)

theorem State.changeTicket_telling (s : State) (n : Nat) (f : Ticket → Ticket) :
    (s.telling a b).changeTicket n f = (s.changeTicket n f).telling a b := by
  have same : (s.telling a b).ticket? n = s.ticket? n := rfl
  unfold State.changeTicket
  rw [same]
  cases s.ticket? n <;> rfl

theorem State.fillOne_telling (s : State) : (s.telling a b).fillOne = s.fillOne.map (·.telling a b) := by
  change ({ s with retainLost := a, settingsLost := b } : State).fillOne =
    s.fillOne.map fun t => { t with retainLost := a, settingsLost := b }
  unfold State.fillOne
  dsimp only
  split
  · rfl
  · split
    · rfl
    · split <;> rfl

theorem fillUpTo_telling (n : Nat) (s : State) : fillUpTo n (s.telling a b) = (fillUpTo n s).telling a b := by
  induction n generalizing s with
  | zero => rfl
  | succ n ih =>
    simp only [fillUpTo, State.fillOne_telling]
    cases s.fillOne with
    | none => rfl
    | some t => exact ih t

theorem State.firstStart_telling (s : State) (j : Job) (rest : List Job) (t : Ticket) :
    (s.telling a b).firstStart j rest t = (s.firstStart j rest t).telling a b := by
  unfold State.firstStart
  simp only [State.changeTicket_telling]
  split <;> rfl

theorem State.dropGone_telling (s : State) (j : Job) (rest : List Job) :
    (s.telling a b).dropGone j rest = (s.dropGone j rest).telling a b := by
  have ended : (({ s.telling a b with rpu := { s.rpu with queue := rest } } : State).recordEnd j .gone) =
      (({ s with rpu := { s.rpu with queue := rest } } : State).recordEnd j .gone).telling a b := by
    unfold State.recordEnd
    cases j.source with
    | auto => rfl
    | port q => cases q <;> rfl
  exact (congrArg State.fill ended).trans (fillUpTo_telling a b 8 _)

theorem startHead_telling (n : Nat) (s : State) : startHead n (s.telling a b) = (startHead n s).telling a b := by
  induction n generalizing s with
  | zero => rfl
  | succ n ih =>
    cases head : s.rpu.queue with
    | nil => rw [startHead_nil (n + 1) head, startHead_nil (n + 1) (s := s.telling a b) head]
    | cons j rest =>
      have head' : (s.telling a b).rpu.queue = j :: rest := head
      by_cases ready : s.rpu.st = .ready ∧ j.st = .queued
      · obtain ⟨ready, queued⟩ := ready
        have ready' : (s.telling a b).rpu.st = .ready := ready
        cases fresh : j.started with
        | true =>
          rw [startHead_restarts n head ready queued fresh, startHead_restarts n head' ready' queued fresh]
          rfl
        | false =>
          cases found : s.jobTicket? j with
          | some t =>
            rw [startHead_starts n head ready queued fresh found, startHead_starts n head' ready' queued fresh found]
            exact s.firstStart_telling a b j rest t
          | none =>
            rw [startHead_gone n head ready queued fresh found, startHead_gone n head' ready' queued fresh found,
              State.dropGone_telling, ih]
      · rw [startHead_waits (n + 1) head ready, startHead_waits (n + 1) head' ready]

theorem State.startUp_telling (s : State) (w : Start) : (s.telling a b).startUp w = (s.startUp w).telling a b := by
  have before : (s.telling a b).beforePrint w = (s.beforePrint w).telling a b := by
    rw [State.beforePrint_eq, State.beforePrint_eq] <;> rfl
  have pumped : ((s.telling a b).beforePrint w).pump = (s.beforePrint w).pump.telling a b := by
    rw [before]
    exact (congrArg State.startPrint (fillUpTo_telling a b 8 _)).trans (startHead_telling a b 16 _)
  rw [State.startUp_prints, State.startUp_prints, pumped, State.startLamps_settle, State.startLamps_settle] <;> rfl

end Losses

/-- A warm restart is the power-up with both stores valid, but for the losses that tells (R211). -/
theorem State.powerUp_warm {s : State} (power : s.powered = true) (fits : s.straps < 32) :
    s.powerUp true true s.straps = { s.startUp warm with retainLost := false, settingsLost := false } := by
  have same : ({ s with powered := true, straps := s.straps % 32, settingsLost := !true, retainLost := !true } : State) =
      s.telling false false := by
    rw [Nat.mod_eq_of_lt fits]
    cases s
    cases power
    rfl
  exact (congrArg (fun u => State.startUp u warm) same).trans (s.startUp_telling false false warm)

/-! The rest of a warm restart -/

/-- A record a reset keeps is neither claimed nor being paid (R92). -/
theorem Ticket.keptByReset_free (t : Ticket) (reached : Bool) (d : Date) :
    (t.keptByReset reached d).st ≠ .claimed ∧ (t.keptByReset reached d).st ≠ .paying := by
  unfold Ticket.keptByReset
  cases st : t.st with
  | claimed => simp
  | paying => cases reached <;> simp
  | held =>
    dsimp only
    split <;> simp [st]
  | _ => simp [st]

/-- The serials of a started queue: the one that was next for the head that prints, and none for the others (R164). -/
theorem State.Started.serials {s t : State} (h : s.Started t) :
    (∀ j ∈ t.rpu.queue, ∀ n, j.serial = some n → n = s.rpu.serial ∧ t.rpu.serial = if n < 9999999 then n + 1 else 1) ∧
      ((∀ j ∈ t.rpu.queue, j.started = false) → t.rpu.serial = s.rpu.serial) := by
  have none_ {j : Job} (h : j.fresh) {n : Nat} (hn : j.serial = some n) : False := by
    obtain ⟨-, -, -, -, serial, -⟩ := h
    rw [serial] at hn
    cases hn
  rcases h.queue with ⟨serial, fresh⟩ | ⟨j', x, rest, queue, ⟨label, content, rfl⟩, fresh, others, serial⟩
  · exact ⟨fun j hj n hn => (none_ (fresh j hj) hn).elim, fun _ => serial⟩
  · rw [queue]
    refine ⟨fun j hj n hn => ?_, fun idle => absurd (idle _ List.mem_cons_self) (by simp)⟩
    rcases List.mem_cons.mp hj with rfl | hj
    · obtain rfl := Option.some.inj hn
      exact ⟨rfl, serial⟩
    · exact (none_ (others j hj) hn).elim

/-- Settles O4. -/
theorem warmRestartKeepsStores : Obligations.WarmRestartKeepsStores := by
  intro s power
  have told : exec .resetLine s = .next (s.startUp warm) := by
    rw [show exec .resetLine s = execResetLine s from rfl, execResetLine, if_pos power]
  refine ⟨_, told, ?_⟩
  have again (fits : s.straps < 32) : exec (.powerUp true true s.straps) s =
      .next { s.startUp warm with retainLost := false, settingsLost := false } := congrArg Host.Outcome.next (State.powerUp_warm power fits)
  obtain ⟨r, e, outs, row0, row1, form, hr, he⟩ := s.startUp_form warm
  have printed := State.pump_printsTo (s.beforePrint_empty warm)
  have started := State.pump_started (s.beforePrint_empty warm)
  have jobs := started.jobs
  obtain ⟨serials, idle⟩ := started.serials
  rw [← hr, State.beforePrint_rpu] at printed serials idle
  rw [← hr] at jobs
  obtain ⟨header1, header2, header3, autoBridge, autoCounter, -⟩ := printed.fields
  have alerts : e.alerts = (s.startEvents warm).alerts := by rw [he, State.pump_alerts, State.beforePrint_alerts]
  rw [State.startEvents_alerts] at alerts
  obtain ⟨tickets, spent, counter, opening⟩ := State.startTickets_kept (s := s) (w := warm) rfl
  rw [Pyu.reachedTray_eq] at tickets
  have channels := s.startUp_channels warm
  rw [form] at channels again ⊢
  clear form hr he told
  refine ⟨power, rfl, rfl, rfl, rfl, rfl, rfl, rfl, rfl, rfl, counter, opening, State.startTickets_series s warm,
    spent, tickets, ?_, rfl, rfl, rfl, rfl,
    header1, header2, header3, autoBridge, autoCounter, fun j hj => ⟨(jobs j hj).1, serials j hj⟩, idle, rfl, rfl, rfl, rfl, rfl,
    linesAfterReset_warm _, congrArg (·.globalEnable) alerts, congrArg (·.cashDoor.enabled) alerts,
    congrArg (·.cabinet.enabled) alerts, congrArg (·.calSwitch.enabled) alerts, congrArg (·.retract.enabled) alerts,
    congrArg (·.dispute.enabled) alerts, fun ch => ?_, again⟩
  · rw [tickets]
    rintro k hk
    obtain ⟨x, -, rfl⟩ := List.mem_map.mp hk
    exact x.keptByReset_free _ _
  · obtain ⟨set, z, serial, -, -, capture, slot, -, -⟩ := channels ch
    exact ⟨set, z, serial, capture, slot⟩

end Sys2Proof.Machine
end
